-- ==== Sys2Proof/Word.lean ====
section
/-! DEFINITION. The word types and their plainest arithmetic (spec/00 R4, R5). -/

namespace Sys2Proof

/-- A 64-bit register value (spec/03 R31). -/
abbrev Word := BitVec 64

/-- One byte of memory. -/
abbrev Byte := BitVec 8

/-- A 48-bit instruction address (spec/04 R56). -/
abbrev Pc := BitVec 48

end Sys2Proof
end

