-- ==== Sys2Proof/Syntax.lean ====
section
/-! DEFINITION. The instructions and the whole events of the part: one constructor for each row of
spec/opcode_table.json. Operand fields have the widths of spec/02 R17; immediates are the encoded fields. -/

namespace Sys2Proof

/-- Register names by namespace (spec/02 R17). -/
abbrev GReg := BitVec 6
abbrev KIdx := BitVec 6
abbrev VIdx := BitVec 5
abbrev TIdx := BitVec 5
abbrev AIdx := BitVec 4
abbrev FIdx := BitVec 4
abbrev PIdx := BitVec 3
abbrev QIdx := BitVec 3
abbrev LIdx := BitVec 2

/-- A guard: predicate and negate bit (spec/02 R15, R16). -/
structure Guard where
  gp : PIdx
  gn : Bool
  deriving DecidableEq, Repr

/-- Element formats, the codes 1-13 of EF (spec/02 R18). -/
inductive Fmt where
  | int8 | int16 | int32 | int64 | e4m3 | e5m2 | e2m3 | e3m2 | e2m1 | fp16 | bf16 | fp32 | ternary
  deriving DecidableEq, Repr

/-- An EF field: none is 0, the format held in fmt (spec/02 R18). -/
abbrev Ef := Option Fmt

/-- Rounding modes (spec/02 R18). -/
inductive Rm where
  | rne | rz | rdn | rup | rna | sr
  deriving DecidableEq, Repr

/-- Memory ordering of loads and stores (spec/02 R18). -/
inductive MemOrd where
  | plain | acq | rel
  deriving DecidableEq, Repr

/-- Ordering of atomics (spec/11 R193). -/
inductive AmoOrd where
  | plain | acq | rel | ar
  deriving DecidableEq, Repr

/-- Access sizes (spec/10 R150). -/
inductive Size where
  | b | h | w | d
  deriving DecidableEq, Repr

/-- Sizes of the zero-extending loads: `ldu` and `ldau` have no doubleword form (spec/10 R150). -/
inductive USize3 where
  | b | h | w
  deriving DecidableEq, Repr

/-- Conditions of cmp and cmpi (spec/03 R53). -/
inductive Cond where
  | eq | ne | lt | ge | ltu | geu | tst | ntst
  deriving DecidableEq, Repr

/-- Conditions of vcmp (spec/08 R128). -/
inductive VCond where
  | eq | ne | lt | le | ltu | leu | uo
  deriving DecidableEq, Repr

/-- Engines, with the codes of ENG (spec/11 R169). -/
inductive Eng where
  | ld | ce | te | me
  deriving DecidableEq, Repr

/-- Fence scopes (spec/12 R200). -/
inductive Scope where
  | thr | core | cl | die | pkg | dom
  deriving DecidableEq, Repr

/-- What sbind binds to (spec/08 R140). -/
inductive BindOp where
  | rc (q : QIdx)
  | rp (q : QIdx)
  | th (t : TIdx) (s : BitVec 5)
  | sg (base stride : GReg)
  deriving DecidableEq, Repr

/-- Second source of the scale arithmetic: a k register or the low byte of a g register (spec/18 R290). -/
inductive KSrc where
  | k (r : KIdx)
  | g (r : GReg)
  deriving DecidableEq, Repr

/-- DIM of a copy pattern (spec/11 R176). -/
inductive Dim where
  | d1 | d2 | d3
  deriving DecidableEq, Repr

/-- BAR of a copy: the barrier operand and how the update counts (spec/11 R176, R180). -/
inductive BarOp where
  | none
  | arrival (g : GReg)
  | bytes (g : GReg)
  deriving DecidableEq, Repr

/-- The mode of attn.s and attn.v (spec/19 R306). -/
inductive AttnMode where
  | plain (kstep : BitVec 8)
  | expand (kstep : BitVec 8)
  | absorb
  deriving DecidableEq, Repr

/-- A request that crosses the fabric, as it arrives at a package (spec/21 R342). -/
inductive RemoteBody where
  | write (bytes : List Byte)
  | read (n : Nat)
  | amoAdd (size : Nat) (v : Word)
  deriving DecidableEq, Repr

/-- What the package controller finds at package reset: the outcome of its checks, training and tests
(spec/23 R363). `config` is how stage 5 ends; none leaves it open, so that the firmware's writes follow as
steps of their own, and a later boot input with `resume` ends it. `capw0`, `capw1`, `pkgcfg` and `tbset` are writes
that firmware makes at its end (R369). `raise` is a minimum security version that the firmware fuses (R365); `cxl`
lists the capacities in bytes of the populated memory ports (spec/21 R336); `badTracks` says of a core how many of
its retired tracks fail their test again, `badLanes` on which ports the retired lane does (spec/22 R356). -/
structure BootInput where
  resume : Bool
  fusesOk : Bool
  trained : Bool
  sparesOk : Bool
  zeroedOk : Bool
  config : Option Bool
  capw0 : Option Word
  capw1 : Option Word
  pkgcfg : Option Word
  tbset : Option Word
  raise : Nat
  cxl : List Nat
  badTracks : List (Nat × Nat)
  badLanes : List Nat
  deriving DecidableEq, Repr

/-- The instructions and events. -/
inductive Instr where
  -- integer register operations (spec/03 R46)
  | add (gd : Guard) (d a b : GReg) (sat : Bool)
  | sub (gd : Guard) (d a b : GReg) (sat : Bool)
  | and (gd : Guard) (d a b : GReg)
  | or (gd : Guard) (d a b : GReg)
  | xor (gd : Guard) (d a b : GReg)
  | sll (gd : Guard) (d a b : GReg)
  | srl (gd : Guard) (d a b : GReg)
  | sra (gd : Guard) (d a b : GReg)
  | mul (gd : Guard) (d a b : GReg)
  | mulh (gd : Guard) (d a b : GReg)
  | mulhu (gd : Guard) (d a b : GReg)
  | div (gd : Guard) (d a b : GReg)
  | divu (gd : Guard) (d a b : GReg)
  | rem (gd : Guard) (d a b : GReg)
  | remu (gd : Guard) (d a b : GReg)
  | min (gd : Guard) (d a b : GReg)
  | max (gd : Guard) (d a b : GReg)
  | minu (gd : Guard) (d a b : GReg)
  | maxu (gd : Guard) (d a b : GReg)
  | clz (gd : Guard) (d a : GReg)
  | ctz (gd : Guard) (d a : GReg)
  | popc (gd : Guard) (d a : GReg)
  | sext (gd : Guard) (d a : GReg) (n1 : BitVec 6)
  | zext (gd : Guard) (d a : GReg) (n1 : BitVec 6)
  | mov (gd : Guard) (d a : GReg)
  -- system registers (spec/03 R39)
  | rdsr (gd : Guard) (d : GReg) (sreg : BitVec 12)
  | wrsr (gd : Guard) (sreg : BitVec 12) (a : GReg)
  -- immediates and addresses (spec/03 R49-R52)
  | addi (gd : Guard) (d a : GReg) (imm : BitVec 20) (sat : Bool)
  | andi (gd : Guard) (d a : GReg) (imm : BitVec 20)
  | ori (gd : Guard) (d a : GReg) (imm : BitVec 20)
  | xori (gd : Guard) (d a : GReg) (imm : BitVec 20)
  | slli (gd : Guard) (d a : GReg) (imm : BitVec 20)
  | srli (gd : Guard) (d a : GReg) (imm : BitVec 20)
  | srai (gd : Guard) (d a : GReg) (imm : BitVec 20)
  | li (gd : Guard) (d : GReg) (imm : BitVec 20)
  | liI32 (gd : Guard) (d : GReg) (imm : BitVec 32)
  | liI64 (gd : Guard) (d : GReg) (imm : BitVec 64)
  | lea (gd : Guard) (d a : GReg) (off : BitVec 20)
  | leaI32 (gd : Guard) (d a : GReg) (off : BitVec 32)
  | leaPc (gd : Guard) (d : GReg) (off : BitVec 20)
  | leaPcI32 (gd : Guard) (d : GReg) (off : BitVec 32)
  | bfx (gd : Guard) (d a : GReg) (pos len1 : BitVec 6) (sg : Bool)
  | bfi (gd : Guard) (d a : GReg) (pos len1 : BitVec 6)
  -- compares, predicates, select (spec/03 R53-R55)
  | cmp (gd : Guard) (c : Cond) (pt pf : PIdx) (a b : GReg)
  | cmpi (gd : Guard) (c : Cond) (pt pf : PIdx) (a : GReg) (imm : BitVec 20)
  | pand (gd : Guard) (d a b : PIdx) (na nb : Bool)
  | por (gd : Guard) (d a b : PIdx) (na nb : Bool)
  | pxor (gd : Guard) (d a b : PIdx) (na nb : Bool)
  | pmov (gd : Guard) (d a : PIdx) (na : Bool)
  | sel (gd : Guard) (d : GReg) (p : PIdx) (b c : GReg)
  -- control (spec/04)
  | br (gd : Guard) (off : BitVec 26)
  | call (gd : Guard) (off : BitVec 26)
  | jr (gd : Guard) (a : GReg)
  | callr (gd : Guard) (a : GReg)
  | ret (gd : Guard)
  | loop (gd : Guard) (n : LIdx) (a : GReg) (off : BitVec 20)
  | loopi (gd : Guard) (n : LIdx) (count : BitVec 32) (off : BitVec 20)
  | lbrk (gd : Guard) (n : LIdx)
  | clause (gd : Guard) (n : BitVec 20)
  | wait (gd : Guard) (n : BitVec 20)
  | waitExpiry (core thr : Nat)
  | exit (gd : Guard)
  | nop (gd : Guard) (len : BitVec 2)
  | trap (gd : Guard) (n : BitVec 20)
  | tret (gd : Guard)
  -- memory (spec/10 R150, spec/11 R175)
  | ld (gd : Guard) (sz : Size) (d a : GReg) (off : BitVec 20) (acq : Bool)
  | ldu (gd : Guard) (sz : USize3) (d a : GReg) (off : BitVec 20) (acq : Bool)
  | st (gd : Guard) (sz : Size) (d a : GReg) (off : BitVec 20) (rel : Bool)
  | ldM32 (gd : Guard) (sz : Size) (d a : GReg) (off : BitVec 32) (acq : Bool)
  | lduM32 (gd : Guard) (sz : USize3) (d a : GReg) (off : BitVec 32) (acq : Bool)
  | stM32 (gd : Guard) (sz : Size) (d a : GReg) (off : BitVec 32) (rel : Bool)
  | lda (gd : Guard) (sz : Size) (fd : FIdx) (d a : GReg) (off : BitVec 20)
  | ldau (gd : Guard) (sz : USize3) (fd : FIdx) (d a : GReg) (off : BitVec 20)
  | asyncLoadStart (core thr n : Nat)
  | asyncLoadComplete (core thr n : Nat)
  -- atomics, cells and fences (spec/11 R193, R194, spec/12 R202)
  | amoadd (gd : Guard) (d a b : GReg) (dw : Bool) (ord : AmoOrd)
  | amoswp (gd : Guard) (d a b : GReg) (dw : Bool) (ord : AmoOrd)
  | amocas (gd : Guard) (d a b c : GReg) (dw : Bool) (ord : AmoOrd)
  | amomin (gd : Guard) (d a b : GReg) (dw : Bool) (ord : AmoOrd) (u : Bool)
  | amomax (gd : Guard) (d a b : GReg) (dw : Bool) (ord : AmoOrd) (u : Bool)
  | amoand (gd : Guard) (d a b : GReg) (dw : Bool) (ord : AmoOrd)
  | amoor (gd : Guard) (d a b : GReg) (dw : Bool) (ord : AmoOrd)
  | famoFx (gd : Guard) (a b : GReg) (ord : AmoOrd)
  | fxrd (gd : Guard) (d a : GReg) (clr : Bool) (ord : AmoOrd)
  | fence (gd : Guard) (sc : Scope) (kinds : BitVec 5)
  -- tracks (spec/05 R86)
  | tclaim (gd : Guard) (t : TIdx)
  | tclaimTry (gd : Guard) (p : PIdx) (t : TIdx)
  | trel (gd : Guard) (t : TIdx)
  | tsync (gd : Guard) (t : Option TIdx)
  | hpos (gd : Guard) (d : GReg) (t : TIdx)
  | seek (gd : Guard) (fd : FIdx) (t : TIdx) (slot : BitVec 20)
  | seekr (gd : Guard) (fd : FIdx) (t : TIdx) (dist : BitVec 20)
  | rew (gd : Guard) (fd : FIdx) (t : TIdx)
  | seekReg (gd : Guard) (fd : FIdx) (t : TIdx) (b : GReg)
  | seekrReg (gd : Guard) (fd : FIdx) (t : TIdx) (b : GReg)
  | trd (gd : Guard) (d : GReg) (t : TIdx)
  | twr (gd : Guard) (t : TIdx) (d : GReg)
  | trds (gd : Guard) (d : GReg) (t : TIdx) (s : BitVec 20)
  | twrs (gd : Guard) (t : TIdx) (d : GReg) (s : BitVec 20)
  | vtrds (gd : Guard) (d : VIdx) (t : TIdx) (s : BitVec 20)
  | vtwrs (gd : Guard) (t : TIdx) (d : VIdx) (s : BitVec 20)
  | tstream (gd : Guard) (fd : FIdx) (q : QIdx) (t : TIdx) (c : GReg) (s : BitVec 5)
  | tfill (gd : Guard) (fd : FIdx) (t : TIdx) (q : QIdx) (c : GReg) (s : BitVec 5)
  | trackCmdBegin (core : Nat)
  | trackCmdComplete (core : Nat)
  | tstreamSlot (core : Nat)
  | tfillSlot (core : Nat)
  | trackSpareReplace (core track : Nat) (lost : List Nat)
  -- vector arithmetic (spec/08 R126)
  | vadd (gd : Guard) (ef : Ef) (d a b : VIdx) (rm : Rm) (sat : Bool)
  | vsub (gd : Guard) (ef : Ef) (d a b : VIdx) (rm : Rm) (sat : Bool)
  | vmul (gd : Guard) (ef : Ef) (d a b : VIdx) (rm : Rm) (sat : Bool)
  | vfma (gd : Guard) (ef : Ef) (d a b c : VIdx) (rm : Rm) (sat : Bool)
  | vmin (gd : Guard) (ef : Ef) (d a b : VIdx)
  | vmax (gd : Guard) (ef : Ef) (d a b : VIdx)
  | vabs (gd : Guard) (ef : Ef) (d a : VIdx) (sat : Bool)
  | vneg (gd : Guard) (ef : Ef) (d a : VIdx) (sat : Bool)
  -- bitwise, shift, select, move (spec/08 R127)
  | vand (gd : Guard) (ef : Ef) (d a b : VIdx)
  | vor (gd : Guard) (ef : Ef) (d a b : VIdx)
  | vxor (gd : Guard) (ef : Ef) (d a b : VIdx)
  | vshl (gd : Guard) (ef : Ef) (d a b : VIdx)
  | vshr (gd : Guard) (ef : Ef) (d a b : VIdx)
  | vsra (gd : Guard) (ef : Ef) (d a b : VIdx)
  | vsel (gd : Guard) (ef : Ef) (d : VIdx) (pc : PIdx) (a b : VIdx)
  | vmov (gd : Guard) (ef : Ef) (d a : VIdx)
  -- compares, conversions and functions (spec/08 R128-R130)
  | vcmp (gd : Guard) (c : VCond) (ef : Ef) (pt pf : PIdx) (a b : VIdx)
  | vcvt (gd : Guard) (dst src : Ef) (d a : VIdx) (part : BitVec 4) (rm : Rm) (sat : Bool)
  | vrcp (gd : Guard) (ef : Ef) (d a : VIdx) (rm : Rm) (sat : Bool)
  | vrsqrt (gd : Guard) (ef : Ef) (d a : VIdx) (rm : Rm) (sat : Bool)
  | vexp2 (gd : Guard) (ef : Ef) (d a : VIdx)
  | vlog2 (gd : Guard) (ef : Ef) (d a : VIdx) (rm : Rm) (sat : Bool)
  -- reductions, single lanes, permutes (spec/08 R131-R133)
  | vredsum (gd : Guard) (ef : Ef) (d a : VIdx) (rm : Rm) (sat : Bool)
  | vredmax (gd : Guard) (ef : Ef) (d a : VIdx)
  | vbcast (gd : Guard) (ef : Ef) (d : VIdx) (a : GReg)
  | vext (gd : Guard) (ef : Ef) (d : GReg) (a : VIdx) (idx : BitVec 6)
  | vins (gd : Guard) (ef : Ef) (d : VIdx) (a : GReg) (idx : BitVec 6)
  | vperm (gd : Guard) (ef : Ef) (d a b : VIdx)
  | vshuf (gd : Guard) (ef : Ef) (d a b c : VIdx)
  | vpack (gd : Guard) (ef : Ef) (d a b : VIdx) (sat : Bool)
  | vunpack (gd : Guard) (ef : Ef) (d a : VIdx) (h u : Bool)
  | vclear (gd : Guard)
  -- quantise, vector memory, binding (spec/08 R134-R142)
  | vquant (gd : Guard) (dst src : Ef) (d a : VIdx) (k : KIdx) (o : BitVec 3) (part : BitVec 2) (rm : Rm)
  | vdeq (gd : Guard) (dst src : Ef) (d a : VIdx) (part : BitVec 2) (rm : Rm) (sat : Bool)
  | vld (gd : Guard) (d : VIdx) (a : GReg) (off : BitVec 20) (acq : Bool)
  | vst (gd : Guard) (d : VIdx) (a : GReg) (off : BitVec 20) (rel : Bool)
  | vlda (gd : Guard) (fd : FIdx) (d : VIdx) (a : GReg) (off : BitVec 20)
  | vldMx (gd : Guard) (d : VIdx) (k : KIdx) (o : BitVec 3) (a : GReg) (off : BitVec 32) (acq : Bool)
  | vldg (gd : Guard) (ef : Ef) (d : VIdx) (a : GReg) (b : VIdx) (x : Bool)
  | vsts (gd : Guard) (ef : Ef) (d : VIdx) (a : GReg) (b : VIdx) (x : Bool)
  | sbind (gd : Guard) (v : VIdx) (op : BindOp)
  | sunbind (gd : Guard) (v : VIdx)
  -- copies (spec/11 R176)
  | cp (gd : Guard) (fd : FIdx) (dst src len : GReg) (bar : BarOp) (dim : Dim) (spl : Option GReg)
  | cpm (gd : Guard) (fd : FIdx) (dst src len mask : GReg) (bar : BarOp) (dim : Dim) (spl : Option GReg) (bsh : Bool)
  | cpg (gd : Guard) (fd : FIdx) (dst tab tok cnt bpt : GReg) (bar : BarOp) (spl : Bool)
  | cpr (gd : Guard) (fd : FIdx) (q : QIdx) (src cnt : GReg) (bar : BarOp) (str : Option GReg) (spl : Bool)
  | cps (gd : Guard) (fd : FIdx) (dst : GReg) (q : QIdx) (cnt : GReg) (bar : BarOp) (str : Option GReg)
  | cpsig (gd : Guard) (fd : FIdx) (dst src len sig : GReg) (dim : Dim)
  | cpcan (gd : Guard) (d a : GReg)
  | copyStart (core thr n : Nat)
  | copyComplete (core thr n : Nat)
  | cpmDelivery (core thr n dest : Nat)
  | cprSlot (core thr n : Nat)
  | cpsSlot (core thr n : Nat)
  | cpsigSignal (pkg src num : Nat)
  | signalAck (pkg dst num : Nat)
  -- rings, barriers, futures (spec/11 R186-R192, R170)
  | ring (gd : Guard) (q : QIdx) (a : GReg) (sb : BitVec 8) (ns : BitVec 7) (pool : Bool) (kf : BitVec 6)
  | rpub (gd : Guard) (q : QIdx) (b : GReg)
  | radv (gd : Guard) (q : QIdx) (b : GReg)
  | rwait (gd : Guard) (q : QIdx) (b : GReg)
  | rfree (gd : Guard) (q : QIdx) (b : GReg)
  | rstat (gd : Guard) (d : GReg) (q : QIdx) (sel : BitVec 2)
  | binit (gd : Guard) (a b : GReg)
  | arrive (gd : Guard) (d a : GReg)
  | arrivetx (gd : Guard) (d a b : GReg)
  | bwait (gd : Guard) (a b : GReg)
  | btest (gd : Guard) (pt pf : PIdx) (a b : GReg)
  | fwait (gd : Guard) (f : FIdx)
  | ftst (gd : Guard) (pt pf : PIdx) (f : FIdx)
  | fcan (gd : Guard) (f : FIdx)
  | fmov (gd : Guard) (fd fa : FIdx)
  | fmovClr (gd : Guard) (fd : FIdx)
  | tlwait (gd : Guard) (eng : Eng) (a : GReg)
  | tlrd (gd : Guard) (eng : Eng) (d : GReg) (last : Bool)
  -- frames, slices, continuations, domains, gangs (spec/14, spec/15)
  | mark (gd : Guard) (tag : BitVec 16) (off : BitVec 32)
  | cut (gd : Guard) (tag : BitVec 16) (d : GReg)
  | graft (gd : Guard) (a : GReg)
  | sdrop (gd : Guard) (a : GReg)
  | frl (gd : Guard) (d a : GReg)
  | spillw (gd : Guard)
  | fillw (gd : Guard)
  | spawn (gd : Guard) (d a : GReg)
  | yield (gd : Guard)
  | send (gd : Guard) (d a b : GReg)
  | recv (gd : Guard) (d c : GReg)
  | recvTry (gd : Guard) (d c : GReg)
  | dsync (gd : Guard) (d : GReg) (level : BitVec 3)
  | dmem (gd : Guard) (d c : GReg)
  | snaparm (gd : Guard) (d a : GReg)
  | dsyncCountMessage (src dom count : Nat)
  | dsyncCompletionMessage (pkg dom : Nat)
  | gang (gd : Guard) (d : GReg) (n : BitVec 20)
  | detach (gd : Guard)
  | rejoin (gd : Guard) (tok : BitVec 16)
  -- scale registers (spec/18 R290)
  | kld (gd : Guard) (k : KIdx) (a : GReg) (off : BitVec 20) (keep acq : Bool)
  | kst (gd : Guard) (k : KIdx) (a : GReg) (off : BitVec 20) (rel : Bool)
  | kmov (gd : Guard) (d : KIdx) (src : KSrc) (keep : Bool)
  | kadd (gd : Guard) (d a : KIdx) (src : KSrc) (keep : Bool)
  | ksub (gd : Guard) (d a : KIdx) (src : KSrc) (keep : Bool)
  | kmax (gd : Guard) (d a : KIdx) (src : KSrc) (keep : Bool)
  | kmin (gd : Guard) (d a : KIdx) (src : KSrc) (keep : Bool)
  | knorm (gd : Guard) (d a : KIdx) (c : GReg) (keep : Bool)
  | kbind (gd : Guard) (v : VIdx) (k : KIdx) (o : BitVec 3) (u : Bool)
  | kbindQ (gd : Guard) (q : QIdx) (c : GReg) (k : KIdx) (o : BitVec 3) (u : Bool)
  | kgen (gd : Guard) (d : GReg) (k : KIdx)
  | kgenBump (gd : Guard) (k : KIdx)
  | vsave (gd : Guard) (a : GReg) (off : BitVec 20) (parts : BitVec 2)
  | vrest (gd : Guard) (a : GReg) (off : BitVec 20) (parts : BitVec 2)
  -- matrix, attention, latent (spec/19 R306)
  | mma (gd : Guard) (fd : FIdx) (ad : AIdx) (qa qb : QIdx) (ka kb : KIdx) (efa efb : Ef) (qoff kstep : BitVec 8) (sca scb : Bool)
  | mmz (gd : Guard) (fd : FIdx) (ad : AIdx) (m1 : BitVec 4)
  | mova (gd : Guard) (ef : Ef) (d : VIdx) (a : AIdx) (rm : Rm) (sat : Bool)
  | mchk (gd : Guard) (d : GReg) (set : Option GReg) (clr : Bool)
  | msta (gd : Guard) (a : AIdx) (base : GReg) (off : BitVec 20) (rel : Bool)
  | attnS (gd : Guard) (fd : FIdx) (mode : AttnMode) (fq fk : Ef) (qa qb : QIdx) (kb : KIdx) (qoff : BitVec 8) (ntok : BitVec 6) (scb : Bool)
  | attnP (gd : Guard) (fd : FIdx) (ad : AIdx) (m : BitVec 4)
  | attnV (gd : Guard) (fd : FIdx) (mode : AttnMode) (fv : Ef) (ad : AIdx) (qb : QIdx) (kb : KIdx) (qoff : BitVec 8) (scb : Bool)
  | attnF (gd : Guard) (fd : FIdx) (ad ae : AIdx) (proj : Option (Ef × QIdx × BitVec 8 × BitVec 2)) (m : BitVec 4)
  | qabs (gd : Guard) (fd : FIdx) (fq fw : Ef) (qa qb : QIdx) (qoff kstep : BitVec 8)
  | lxcfg (gd : Guard) (fd : FIdx) (a : GReg)
  | smxcfg (gd : Guard) (fd : FIdx) (a : GReg)
  | matrixCmdBegin (core : Nat)
  | matrixCmdEnd (core n : Nat)
  -- service and system (spec/10 R161, spec/15 R265, spec/22 R362)
  | tlbw (gd : Guard) (d a b c : GReg)
  | tlbi (gd : Guard) (d a b : GReg) (scope : BitVec 2) (pkgw pins : Bool)
  | tlbiComplete (core thr : Nat)
  | frep (gd : Guard) (d a b : GReg)
  | idle (gd : Guard)
  | rdtime (gd : Guard) (d : GReg)
  | sevw (gd : Guard) (a : GReg)
  -- pair words (spec/02 R23)
  | pair (gd : Guard) (s v : Instr)
  -- faults and service window (spec/10)
  | faultMessagePost (core thr : Nat)
  | fbctlFlush (cluster : Nat)
  | svcTlbw (cluster : Nat)
  | svcTlbi (cluster : Nat) (fx : BitVec 6)
  | svcFrep (cluster : Nat)
  -- launch, dispatch, domains (spec/15)
  | lnch (pkg : Nat) (w : Word)
  | dispatch (cluster : Nat)
  | qpop (cluster : Nat)
  | qpush (cluster : Nat) (w : Word)
  | slotBind (cluster entry : Nat) (w1 : Word)
  | slotEvict (cluster entry : Nat) (w1 : Word)
  | migration (core : Nat)
  | migrationArrive (cluster : Nat)
  | dcmdPreempt (pkg dom : Nat)
  | dcmdResume (pkg dom : Nat)
  | dcmdKill (pkg dom : Nat)
  | drainExpiry (pkg dom : Nat)
  | watchdogExpiry (core thr : Nat)
  -- reliability, power, time (spec/22)
  | sramScrub (core off : Nat)
  | hbmScrub (pkg line : Nat)
  | cerateInterval (pkg die : Nat)
  | supplyRestoreDone (pkg die : Nat)
  | budgetInterval (cluster : Nat)
  | clkctlWrite (cluster : Nat) (w : Word)
  | clockChangeDone (cluster : Nat)
  | thermalTrip (pkg temp : Nat)
  | thermalResume (pkg temp : Nat)
  | tbaseDiscipline (pkg peer : Nat)
  -- bring-up (spec/23)
  | packageReset (pkg : Nat) (boot : BootInput)
  | recoveryFlashWrite (pkg : Nat) (slotB : Bool) (image : List Byte)
  | spdmReport (pkg : Nat) (nonce : List Byte)
  | capwWrite (pkg : Nat) (hi : Bool) (w : Word)
  | tbsetWrite (pkg : Nat) (w : Word)
  | pkgcfgWrite (pkg : Nat) (w : Word)
  | registerWrite (pkg off : Nat) (w : Word)
  -- compaction and host memory (spec/20, spec/21)
  | cmpcmd (pkg e : Nat) (w : Word)
  | compactRewrite (pkg e : Nat)
  | compactRelease (pkg e : Nat)
  | hostCxlRead (pkg pa n : Nat)
  | hostCxlWrite (pkg pa : Nat) (bytes : List Byte)
  | cxlDeviceLoss (pkg port : Nat)
  -- the fabric (spec/21)
  | remoteRequest (pkg src num : Nat) (addr : Word) (body : RemoteBody)
  | remoteResponse (pkg dst num : Nat)
  | flitReceive (pkg port : Nat) (flits : List (List Byte)) (bad : Nat) (sent : Option (Nat × Nat × Nat))
  | replayRequest (pkg port seq : Nat)
  | ackTimeout (pkg port : Nat)
  | injectorFire (pkg port lane : Nat)
  | laneRetire (pkg port lane : Nat)
  | portRetrainDone (pkg port : Nat)
  | cloadSample (cluster : Nat)
  | restoreComplete (pkg dom : Nat)
  | ideKeyNegotiation (pkg : Nat) (exchange : List Byte)
  deriving DecidableEq, Repr

end Sys2Proof
end

