-- ==== Sys2Proof/WellFormed.lean ====
section
/-! DEFINITION. The encodings that decode refuses as an instruction although their bits fall into a
form of spec/02 R26: the limits that an instruction's entry states as illegal at decode (R27). A
reserved bit that is set is refused by Decode itself. -/

namespace Sys2Proof

/-! ## Formats: the classes of spec/08 R120 and the lane layout of R119 -/

/-- Class I: the integer formats (R120). -/
def Fmt.isI : Fmt → Bool
  | .int8 | .int16 | .int32 | .int64 => true
  | _ => false

/-- Class F: FP16, BF16, FP32 (R120). -/
def Fmt.isF : Fmt → Bool
  | .fp16 | .bf16 | .fp32 => true
  | _ => false

/-- Class N: the narrow formats (R120). -/
def Fmt.isN : Fmt → Bool
  | .e4m3 | .e5m2 | .e2m3 | .e3m2 | .e2m1 | .ternary => true
  | _ => false

/-- Class W: every format of 6 bits or more (R120). -/
def Fmt.isW : Fmt → Bool
  | .e2m1 | .ternary => false
  | _ => true

/-- Classes I and F together. -/
def Fmt.isIF (f : Fmt) : Bool := f.isI || f.isF

/-- Lane width in bits (R119); 6-bit formats take a byte. -/
def Fmt.width : Fmt → Nat
  | .int8 | .e4m3 | .e5m2 | .e2m3 | .e3m2 => 8
  | .int16 | .fp16 | .bf16 => 16
  | .int32 | .fp32 => 32
  | .int64 => 64
  | .e2m1 => 4
  | .ternary => 2

/-- Elements of a register (R119). -/
def Fmt.lanes : Fmt → Nat
  | .int8 | .e4m3 | .e5m2 | .e2m3 | .e3m2 => 64
  | .int16 | .fp16 | .bf16 => 32
  | .int32 | .fp32 => 16
  | .int64 => 8
  | .e2m1 | .ternary => 128

/-- The code of EF (spec/02 R18). -/
def Fmt.code : Fmt → Nat
  | .int8 => 1 | .int16 => 2 | .int32 => 3 | .int64 => 4 | .e4m3 => 5 | .e5m2 => 6 | .e2m3 => 7
  | .e3m2 => 8 | .e2m1 => 9 | .fp16 => 10 | .bf16 => 11 | .fp32 => 12 | .ternary => 13

/-- The format of an EF code; none for 0, 14 and 15 (spec/02 R18). -/
def Fmt.ofCode : Nat → Option Fmt
  | 1 => some .int8 | 2 => some .int16 | 3 => some .int32 | 4 => some .int64 | 5 => some .e4m3
  | 6 => some .e5m2 | 7 => some .e2m3 | 8 => some .e3m2 | 9 => some .e2m1 | 10 => some .fp16
  | 11 => some .bf16 | 12 => some .fp32 | 13 => some .ternary
  | _ => none

/-- The block formats of vquant's destination and vdeq's source (spec/08 R134, R135). -/
def Fmt.isBlock : Fmt → Bool
  | .e4m3 | .e5m2 | .e2m3 | .e3m2 | .e2m1 | .ternary | .int8 => true
  | _ => false

/-- Blocks of 32 elements in a register (R134). -/
def Fmt.blocks (f : Fmt) : Nat := f.lanes / 32

/-- Set F1 of spec/19 R306: a pair of operand formats of mma. -/
def Fmt.mmaNarrow : Fmt → Bool
  | .e4m3 | .e5m2 | .e2m3 | .e3m2 | .e2m1 | .ternary | .int8 => true
  | _ => false
def Fmt.mmaWide : Fmt → Bool
  | .bf16 | .fp16 => true
  | _ => false

/-- Set F2 of R306. -/
def Fmt.isF2 : Fmt → Bool
  | .e4m3 | .e5m2 | .bf16 | .fp16 => true
  | _ => false

/-- Set F3 of R306. -/
def Fmt.isF3 : Fmt → Bool
  | .e4m3 | .e5m2 | .e2m3 | .e3m2 | .e2m1 | .bf16 | .fp16 => true
  | _ => false

/-! ## What a resolved format must satisfy

R120 makes the same check twice: on EF when it is not 0, at decode; on fmt when EF is 0, at issue.
`Instr.fmtOk` is that check on the resolved formats (the first the EF field, the second the source
format of vcvt, vquant and vdeq). -/

def rmNone (r : Rm) : Bool := match r with | .rne => true | _ => false

/-- Rounding is for class F only (R126, R131; log entry 20). -/
def rmF (f : Fmt) (r : Rm) : Bool := f.isF || rmNone r

/-- The PART limit of vcvt (R129). -/
def vcvtPart (dst src : Fmt) (part : Nat) : Bool :=
  if src.lanes ≤ dst.lanes then part < dst.lanes / src.lanes else part < src.lanes / dst.lanes

/-- Source and destination alignment of vquant and vdeq (R134, R135). -/
def evenFor (f : Fmt) (v : VIdx) : Bool := match f with | .fp32 => v.toNat % 2 == 0 | _ => true

/-- The format checks of R120 on resolved formats: `f` for EF, `g` for the source format of the two
format instructions. Instructions without a format pass. -/
def Instr.fmtOk (f g : Fmt) : Instr → Bool
  | .vadd _ _ _ _ _ rm _ | .vsub _ _ _ _ _ rm _ | .vmul _ _ _ _ _ rm _ => f.isIF && rmF f rm
  | .vfma .. => f.isF
  | .vmin .. | .vmax .. => f.isIF
  | .vabs _ _ _ _ sat | .vneg _ _ _ _ sat => f.isIF && (f.isI || !sat)
  | .vshl .. | .vshr .. | .vsra .. => f.isI
  | .vcmp _ c .. => match c with
    | .ltu | .leu => f.isI
    | .uo => f.isF
    | _ => f.isIF
  | .vcvt _ _ _ _ _ part _ _ => vcvtPart f g part.toNat
  | .vrcp .. | .vrsqrt .. | .vexp2 .. | .vlog2 .. => f.isF
  | .vredsum _ _ _ _ rm _ => f.isIF && rmF f rm
  | .vredmax .. => f.isIF
  | .vbcast .. => f.isW
  | .vext _ _ _ _ idx | .vins _ _ _ _ idx => f.isW && idx.toNat < f.lanes
  | .vperm .. | .vshuf .. => f.isW
  | .vpack .. => match f with | .int8 | .int16 | .int32 => true | _ => false
  | .vunpack .. => match f with | .int16 | .int32 | .int64 => true | _ => false
  | .vquant _ _ _ _ a _ _ part _ => f.isBlock && g.isF && part.toNat < f.blocks && evenFor g a
  | .vdeq _ _ _ d _ part _ _ => f.isF && g.isBlock && part.toNat < g.blocks && evenFor f d
  | .vldg .. | .vsts .. => match f with | .int32 | .fp32 | .int64 => true | _ => false
  | _ => true

/-- The EF field of an instruction that has one. -/
def Instr.ef : Instr → Option Ef
  | .vadd _ ef .. | .vsub _ ef .. | .vmul _ ef .. | .vfma _ ef .. | .vmin _ ef .. | .vmax _ ef ..
  | .vabs _ ef .. | .vneg _ ef .. | .vand _ ef .. | .vor _ ef .. | .vxor _ ef .. | .vshl _ ef ..
  | .vshr _ ef .. | .vsra _ ef .. | .vsel _ ef .. | .vmov _ ef .. | .vcmp _ _ ef .. | .vcvt _ ef ..
  | .vrcp _ ef .. | .vrsqrt _ ef .. | .vexp2 _ ef .. | .vlog2 _ ef .. | .vredsum _ ef ..
  | .vredmax _ ef .. | .vbcast _ ef .. | .vext _ ef .. | .vins _ ef .. | .vperm _ ef ..
  | .vshuf _ ef .. | .vpack _ ef .. | .vunpack _ ef .. | .vquant _ ef .. | .vdeq _ ef ..
  | .vldg _ ef .. | .vsts _ ef .. => some ef
  | _ => none

/-- The source-format field of the instructions that have two. -/
def Instr.ef2 : Instr → Option Ef
  | .vcvt _ _ s .. | .vquant _ _ s .. | .vdeq _ _ s .. => some s
  | _ => none

/-- A vector-class register-format instruction whose formats are held in fields (R119, R120). -/
def Instr.fmts (i : Instr) (fmt : Fmt) : Fmt × Fmt :=
  (((i.ef.getD none).getD fmt), ((i.ef2.getD none).getD fmt))

/-- The decode side of R120: a format left to fmt is checked at issue, so only what holds for no
format in fmt's place is refused here. -/
def Instr.fmtOkDecode (i : Instr) : Bool :=
  let all : List Fmt := [.int8, .int16, .int32, .int64, .e4m3, .e5m2, .e2m3, .e3m2, .e2m1, .fp16,
    .bf16, .fp32, .ternary]
  match i.ef, i.ef2 with
  | some (some f), some (some g) => i.fmtOk f g
  | some (some f), some none => all.any (fun g => i.fmtOk f g)
  | some none, some (some g) => all.any (fun f => i.fmtOk f g)
  | some (some f), none => i.fmtOk f f
  | _, _ => true

/-- The guard of an instruction (spec/02 R15); an event has none. -/
def Instr.guard : Instr → Option Guard
  | .add gd .. | .sub gd .. | .and gd .. | .or gd .. | .xor gd .. | .sll gd .. | .srl gd ..
  | .sra gd .. | .mul gd .. | .mulh gd .. | .mulhu gd .. | .div gd .. | .divu gd .. | .rem gd ..
  | .remu gd .. | .min gd .. | .max gd .. | .minu gd .. | .maxu gd .. | .clz gd .. | .ctz gd ..
  | .popc gd .. | .sext gd .. | .zext gd .. | .mov gd .. | .rdsr gd .. | .wrsr gd ..
  | .addi gd .. | .andi gd .. | .ori gd .. | .xori gd .. | .slli gd .. | .srli gd ..
  | .srai gd .. | .li gd .. | .liI32 gd .. | .liI64 gd .. | .lea gd .. | .leaI32 gd ..
  | .leaPc gd .. | .leaPcI32 gd .. | .bfx gd .. | .bfi gd .. | .cmp gd .. | .cmpi gd ..
  | .pand gd .. | .por gd .. | .pxor gd .. | .pmov gd .. | .sel gd .. | .br gd .. | .call gd ..
  | .jr gd .. | .callr gd .. | .ret gd | .loop gd .. | .loopi gd .. | .lbrk gd .. | .clause gd ..
  | .wait gd .. | .exit gd | .nop gd .. | .trap gd .. | .tret gd | .ld gd .. | .ldu gd ..
  | .st gd .. | .ldM32 gd .. | .lduM32 gd .. | .stM32 gd .. | .lda gd .. | .ldau gd ..
  | .amoadd gd .. | .amoswp gd .. | .amocas gd .. | .amomin gd .. | .amomax gd .. | .amoand gd ..
  | .amoor gd .. | .famoFx gd .. | .fxrd gd .. | .fence gd .. | .tclaim gd .. | .tclaimTry gd ..
  | .trel gd .. | .tsync gd .. | .hpos gd .. | .seek gd .. | .seekr gd .. | .rew gd ..
  | .seekReg gd .. | .seekrReg gd .. | .trd gd .. | .twr gd .. | .trds gd .. | .twrs gd ..
  | .vtrds gd .. | .vtwrs gd .. | .tstream gd .. | .tfill gd .. | .vadd gd .. | .vsub gd ..
  | .vmul gd .. | .vfma gd .. | .vmin gd .. | .vmax gd .. | .vabs gd .. | .vneg gd ..
  | .vand gd .. | .vor gd .. | .vxor gd .. | .vshl gd .. | .vshr gd .. | .vsra gd ..
  | .vsel gd .. | .vmov gd .. | .vcmp gd .. | .vcvt gd .. | .vrcp gd .. | .vrsqrt gd ..
  | .vexp2 gd .. | .vlog2 gd .. | .vredsum gd .. | .vredmax gd .. | .vbcast gd .. | .vext gd ..
  | .vins gd .. | .vperm gd .. | .vshuf gd .. | .vpack gd .. | .vunpack gd .. | .vclear gd
  | .vquant gd .. | .vdeq gd .. | .vld gd .. | .vst gd .. | .vlda gd .. | .vldMx gd ..
  | .vldg gd .. | .vsts gd .. | .sbind gd .. | .sunbind gd .. | .cp gd .. | .cpm gd ..
  | .cpg gd .. | .cpr gd .. | .cps gd .. | .cpsig gd .. | .cpcan gd .. | .ring gd ..
  | .rpub gd .. | .radv gd .. | .rwait gd .. | .rfree gd .. | .rstat gd .. | .binit gd ..
  | .arrive gd .. | .arrivetx gd .. | .bwait gd .. | .btest gd .. | .fwait gd .. | .ftst gd ..
  | .fcan gd .. | .fmov gd .. | .fmovClr gd .. | .tlwait gd .. | .tlrd gd .. | .mark gd ..
  | .cut gd .. | .graft gd .. | .sdrop gd .. | .frl gd .. | .spillw gd | .fillw gd | .spawn gd ..
  | .yield gd | .send gd .. | .recv gd .. | .recvTry gd .. | .dsync gd .. | .dmem gd ..
  | .snaparm gd .. | .gang gd .. | .detach gd | .rejoin gd .. | .kld gd .. | .kst gd ..
  | .kmov gd .. | .kadd gd .. | .ksub gd .. | .kmax gd .. | .kmin gd .. | .knorm gd ..
  | .kbind gd .. | .kbindQ gd .. | .kgen gd .. | .kgenBump gd .. | .vsave gd .. | .vrest gd ..
  | .mma gd .. | .mmz gd .. | .mova gd .. | .mchk gd .. | .msta gd .. | .attnS gd ..
  | .attnP gd .. | .attnV gd .. | .attnF gd .. | .qabs gd .. | .lxcfg gd .. | .smxcfg gd ..
  | .tlbw gd .. | .tlbi gd .. | .frep gd .. | .idle gd | .rdtime gd .. | .sevw gd ..
  | .pair gd .. => some gd
  | _ => none

/-! ## Pair words (spec/02 R24) -/

/-- The registers a half of a pair word writes, as (namespace, number): 0 g, 1 p, 2 v. Writes to
g0 and p7 are discarded and do not count. -/
def Instr.dests : Instr → List (Nat × Nat)
  | .cmp _ _ pt pf _ _ | .cmpi _ _ pt pf _ _ => ([pt, pf].filter (· ≠ 7)).map (1, ·.toNat)
  | .vcmp _ _ _ pt pf _ _ => ([pt, pf].filter (· ≠ 7)).map (1, ·.toNat)
  | .pand _ d _ _ _ _ | .por _ d _ _ _ _ | .pxor _ d _ _ _ _ | .pmov _ d _ _ =>
    ([d].filter (· ≠ 7)).map (1, ·.toNat)
  | .add _ d .. | .sub _ d .. | .and _ d .. | .or _ d .. | .xor _ d .. | .sll _ d .. | .srl _ d ..
  | .sra _ d .. | .mul _ d .. | .mulh _ d .. | .mulhu _ d .. | .div _ d .. | .divu _ d ..
  | .rem _ d .. | .remu _ d .. | .min _ d .. | .max _ d .. | .minu _ d .. | .maxu _ d ..
  | .clz _ d .. | .ctz _ d .. | .popc _ d .. | .sext _ d .. | .zext _ d .. | .mov _ d ..
  | .addi _ d .. | .andi _ d .. | .ori _ d .. | .xori _ d .. | .slli _ d .. | .srli _ d ..
  | .srai _ d .. | .li _ d .. | .lea _ d .. | .leaPc _ d .. | .bfx _ d .. | .bfi _ d ..
  | .sel _ d .. | .ld _ _ d .. | .ldu _ _ d .. | .vext _ _ d .. =>
    ([d].filter (· ≠ 0)).map (0, ·.toNat)
  | .vclear _ => (List.range 32).map (2, ·)
  | .vdeq _ (some .fp32) _ d .. => [(2, d.toNat), (2, d.toNat + 1)]
  | .vadd _ _ d .. | .vsub _ _ d .. | .vmul _ _ d .. | .vfma _ _ d .. | .vmin _ _ d ..
  | .vmax _ _ d .. | .vabs _ _ d .. | .vneg _ _ d .. | .vand _ _ d .. | .vor _ _ d ..
  | .vxor _ _ d .. | .vshl _ _ d .. | .vshr _ _ d .. | .vsra _ _ d .. | .vsel _ _ d ..
  | .vmov _ _ d .. | .vcvt _ _ _ d .. | .vrcp _ _ d .. | .vrsqrt _ _ d .. | .vexp2 _ _ d ..
  | .vlog2 _ _ d .. | .vredsum _ _ d .. | .vredmax _ _ d .. | .vbcast _ _ d .. | .vins _ _ d ..
  | .vperm _ _ d .. | .vshuf _ _ d .. | .vpack _ _ d .. | .vunpack _ _ d .. | .vquant _ _ _ d ..
  | .vdeq _ _ _ d .. | .vld _ d .. | .vldg _ _ d .. => [(2, d.toNat)]
  | _ => []

/-- The scalar halves: majors 0x00-0x03, 0x10, 0x11, 0x14, 0x20-0x23, 0x30, 0x31 (R24). -/
def Instr.scalarHalf : Instr → Bool
  | .add .. | .sub .. | .and .. | .or .. | .xor .. | .sll .. | .srl .. | .sra .. | .mul .. | .mulh ..
  | .mulhu .. | .div .. | .divu .. | .rem .. | .remu .. | .min .. | .max .. | .minu .. | .maxu ..
  | .clz .. | .ctz .. | .popc .. | .sext .. | .zext .. | .mov .. | .addi .. | .andi .. | .ori ..
  | .xori .. | .slli .. | .srli .. | .srai .. | .li .. | .lea .. | .leaPc .. | .bfx .. | .bfi ..
  | .cmp .. | .cmpi .. | .pand .. | .por .. | .pxor .. | .pmov .. | .sel .. | .ld .. | .ldu ..
  | .st .. => true
  | _ => false

/-- The vector halves: majors 0x50-0x56, 0x60 SUB 0 and 1, 0x61 (R24). -/
def Instr.vectorHalf : Instr → Bool
  | .vadd .. | .vsub .. | .vmul .. | .vfma .. | .vmin .. | .vmax .. | .vabs .. | .vneg .. | .vand ..
  | .vor .. | .vxor .. | .vshl .. | .vshr .. | .vsra .. | .vsel .. | .vmov .. | .vcmp .. | .vcvt ..
  | .vrcp .. | .vrsqrt .. | .vexp2 .. | .vlog2 .. | .vredsum .. | .vredmax .. | .vbcast ..
  | .vext .. | .vins .. | .vperm .. | .vshuf .. | .vpack .. | .vunpack .. | .vclear .. | .vquant ..
  | .vdeq .. | .vld .. | .vst .. | .vldg .. | .vsts .. => true
  | _ => false

/-- A half that accesses memory. -/
def Instr.accessesMemory : Instr → Bool
  | .ld .. | .ldu .. | .st .. | .vld .. | .vst .. | .vldg .. | .vsts .. => true
  | _ => false

/-- A half's ORD is 0b00 (R24). -/
def Instr.ordPlain : Instr → Bool
  | .ld _ _ _ _ _ acq | .ldu _ _ _ _ _ acq | .vld _ _ _ _ acq => !acq
  | .st _ _ _ _ _ rel | .vst _ _ _ _ rel => !rel
  | _ => true

/-! ## The limits of the entries -/

/-- pt and pf of a compare: one register other than p7 may not be both (R53, R128, R172). -/
def predPair (pt pf : PIdx) : Bool := !(pt == pf) || pt == 7

/-- The system registers of spec/03 R40. -/
def sregAssigned (n : Nat) : Bool :=
  n ≤ 4 || n == 8 || (0x10 ≤ n && n ≤ 0x1B) || (0x20 ≤ n && n ≤ 0x23) || n == 0x30 || n == 0x31

/-- The read-only ones (R40). -/
def sregReadOnly (n : Nat) : Bool := n == 1 || n == 2 || n == 0x30 || n == 0x31

/-- A stride of -8 to +8 held in 20 or 5 bits (spec/05 R86, spec/08 R140). -/
def strideOk (s : Int) : Bool := -8 ≤ s && s ≤ 8

/-- The pattern registers O3 + 3 or O3 + 6 must not exceed 63 (spec/11 R176). -/
def dimOk (dim : Dim) (o3 : GReg) : Bool := match dim with
  | .d1 => true
  | .d2 => o3.toNat + 3 ≤ 63
  | .d3 => o3.toNat + 6 ≤ 63

/-- Scale bits and formats of mma (spec/19 R306). -/
def mmaFmtOk (fa fb : Fmt) (sca scb : Bool) : Bool :=
  ((fa.mmaNarrow && fb.mmaNarrow) || (fa.mmaWide && fb.mmaWide)) &&
  !(sca && fa.mmaWide) && !(scb && fb.mmaWide)

/-- The checks of one instruction that is not a pair word. Events carry no encoding and pass. -/
def Instr.wf1 : Instr → Bool
  | .rdsr _ _ n => sregAssigned n.toNat
  | .wrsr _ n _ => sregAssigned n.toNat && !sregReadOnly n.toNat
  | .slli _ _ _ n | .srli _ _ _ n | .srai _ _ _ n => n.toNat ≤ 63
  | .bfx _ _ _ pos len1 _ | .bfi _ _ _ pos len1 => pos.toNat + len1.toNat + 1 ≤ 64
  | .cmp _ _ pt pf _ _ | .cmpi _ _ pt pf _ _ | .ftst _ pt pf _ => predPair pt pf
  | .vcmp _ c ef pt pf a b => predPair pt pf && (Instr.vcmp ⟨7, false⟩ c ef pt pf a b).fmtOkDecode
  | .loop _ _ _ off => 3 ≤ off.toNat
  | .loopi _ _ _ off => 4 ≤ off.toNat
  | .clause _ n => 1 ≤ n.toNat && n.toNat ≤ 8
  | .nop _ len => len.toNat ≤ 2
  | .fence _ _ kinds => kinds.toNat ≠ 0
  | .trds _ _ _ s | .twrs _ _ _ s | .vtrds _ _ _ s | .vtwrs _ _ _ s => strideOk s.toInt
  | .tstream _ _ _ _ _ s | .tfill _ _ _ _ _ s => strideOk s.toInt
  | .sbind _ v op => 24 ≤ v.toNat && (match op with | .th _ s => strideOk s.toInt | _ => true)
  | .sunbind _ v => 24 ≤ v.toNat
  | .cp _ _ _ _ o3 _ dim _ => dimOk dim o3
  | .cpm _ _ _ _ o3 _ _ dim _ _ => dimOk dim o3
  | .cpsig _ _ _ _ o3 _ dim => dimOk dim o3
  | .ring _ _ _ sb ns pool kf =>
    1 ≤ sb.toNat && sb.toNat ≤ 128 && ns.toNat ≤ 64 && (pool || kf.toNat == 0) &&
    (!pool || kf.toNat + ns.toNat ≤ 64)
  | .dsync _ _ level => level.toNat ≤ 6
  | .dmem _ d c => d ≠ c
  | .gang _ _ n => 2 ≤ n.toNat && n.toNat ≤ 8
  | .vsave _ _ _ parts | .vrest _ _ _ parts => parts.toNat ≠ 0
  | .mma _ _ _ _ _ _ _ efa efb _ kstep sca scb =>
    (match efa, efb with | some fa, some fb => mmaFmtOk fa fb sca scb | _, _ => false) &&
    1 ≤ kstep.toNat && kstep.toNat ≤ (if sca || scb then 4 else 32)
  | .mmz _ _ ad m1 => ad.toNat + m1.toNat + 1 ≤ 16
  | .mova _ ef d _ rm sat => match ef with
    | some .fp32 => d.toNat % 4 == 0 && rmNone rm && !sat
    | some .bf16 | some .fp16 => d.toNat % 2 == 0
    | _ => false
  | .attnS _ _ mode fq fk qa _ _ _ ntok scb =>
    ntok.toNat ≤ 32 &&
    (match fk with | some k => k.isF3 && !(scb && k.mmaWide) | none => false) &&
    (match mode with
      | .plain n | .expand n =>
        1 ≤ n.toNat && n.toNat ≤ 4 && (match fq with | some q => q.isF2 | none => false)
      | .absorb => fq == none && qa == 0)
  | .attnP _ _ ad m => ad.toNat + m.toNat ≤ 16
  | .attnV _ _ mode fv ad _ _ _ scb =>
    (match fv with | some v => v.isF3 && !(scb && v.mmaWide) | none => false) &&
    (match mode with
      | .plain n | .expand n => 1 ≤ n.toNat && n.toNat ≤ 4 && ad.toNat + 4 * n.toNat ≤ 16
      | .absorb => true)
  | .attnF _ _ ad ae proj m => match proj with
    | none => ad.toNat + m.toNat ≤ 16 && ae.toNat + m.toNat ≤ 16
    | some (fw, _, _, ndv) =>
      m == 0 && (match fw with | some w => w.isF2 | none => false) &&
      ad.toNat + 4 * (ndv.toNat + 1) ≤ 16
  | .qabs _ _ fq fw _ _ _ kstep =>
    (match fq, fw with | some q, some w => q.isF2 && w.isF2 | _, _ => false) &&
    1 ≤ kstep.toNat && kstep.toNat ≤ 4
  | .vquant gd dst src d a k o part rm =>
    src.isSome && (Instr.vquant gd dst src d a k o part rm).fmtOkDecode
  | .vdeq gd dst src d a part rm sat =>
    src.isSome && (Instr.vdeq gd dst src d a part rm sat).fmtOkDecode
  | .kbind _ _ k o u | .kbindQ _ _ _ k o u => !u || (k == 0 && o == 0)
  | i => i.fmtOkDecode

/-- Well-formedness of an instruction: what decode admits. -/
def Instr.wf : Instr → Bool
  | .pair gd s v =>
    s.guard == some gd && v.guard == some gd && s.scalarHalf && v.vectorHalf && s.wf1 && v.wf1 && s.ordPlain && v.ordPlain &&
    !(s.accessesMemory && v.accessesMemory) && (s.dests.all fun r => !v.dests.contains r)
  | i => i.wf1

end Sys2Proof
end

