-- ==== Sys2Proof/Decode.lean ====
section
/-! DEFINITION. From bytes to an instruction or a named rejection, and back (spec/02). The tables of
R19-R23 are the accessors `field`; the opcode map R26 is `candidate`, one function for each major;
`enc` writes the same tables the other way. Every bit that an instruction's entry does not define is
reserved and must be 0 (R27): decode accepts a word only when it is the word that the encoder writes
for the instruction read. -/

namespace Sys2Proof

/-- Bits lo + n - 1 : lo of an instruction word. -/
def field (lo n w : Nat) : BitVec n := BitVec.ofNat n (w / 2 ^ lo)

/-- One bit of an instruction word. -/
def bitAt (k w : Nat) : Bool := w / 2 ^ k % 2 == 1

/-! ## Modifier fields (R18) -/

def efCode : Ef → BitVec 4
  | none => 0
  | some f => BitVec.ofNat 4 f.code

def efOf (c : BitVec 4) : Option Ef :=
  if c = 0 then some none else (Fmt.ofCode c.toNat).map some

def rmCode : Rm → BitVec 3
  | .rne => 0 | .rz => 1 | .rdn => 2 | .rup => 3 | .rna => 4 | .sr => 5

def rmOf (c : BitVec 3) : Option Rm :=
  match c.toNat with
  | 0 => some .rne | 1 => some .rz | 2 => some .rdn | 3 => some .rup | 4 => some .rna
  | 5 => some .sr | _ => none

def amoCode : AmoOrd → BitVec 2
  | .plain => 0 | .acq => 1 | .rel => 2 | .ar => 3

def amoOf (c : BitVec 2) : AmoOrd :=
  match c.toNat with
  | 0 => .plain | 1 => .acq | 2 => .rel | _ => .ar

def sizeSub : Size → Nat
  | .b => 0 | .h => 1 | .w => 2 | .d => 3

def usizeSub : USize3 → Nat
  | .b => 4 | .h => 5 | .w => 6

def condSub : Cond → Nat
  | .eq => 0 | .ne => 1 | .lt => 2 | .ge => 3 | .ltu => 4 | .geu => 5 | .tst => 6 | .ntst => 7

def condOf : Nat → Cond
  | 0 => .eq | 1 => .ne | 2 => .lt | 3 => .ge | 4 => .ltu | 5 => .geu | 6 => .tst | _ => .ntst

def vcondSub : VCond → Nat
  | .eq => 0 | .ne => 1 | .lt => 2 | .le => 3 | .ltu => 4 | .leu => 5 | .uo => 6

def vcondOf : Nat → Option VCond
  | 0 => some .eq | 1 => some .ne | 2 => some .lt | 3 => some .le | 4 => some .ltu
  | 5 => some .leu | 6 => some .uo | _ => none

def engCode : Eng → BitVec 2
  | .ld => 0 | .ce => 1 | .te => 2 | .me => 3

def engOf (c : BitVec 2) : Eng :=
  match c.toNat with
  | 0 => .ld | 1 => .ce | 2 => .te | _ => .me

def scopeCode : Scope → BitVec 6
  | .thr => 0 | .core => 1 | .cl => 2 | .die => 3 | .pkg => 4 | .dom => 5

def scopeOf (c : BitVec 3) : Option Scope :=
  match c.toNat with
  | 0 => some .thr | 1 => some .core | 2 => some .cl | 3 => some .die | 4 => some .pkg
  | 5 => some .dom | _ => none

def dimCode : Dim → Nat
  | .d1 => 0 | .d2 => 1 | .d3 => 2

def dimOf : Nat → Option Dim
  | 0 => some .d1 | 1 => some .d2 | 2 => some .d3 | _ => none

def barCode : BarOp → Nat
  | .none => 0 | .arrival _ => 1 | .bytes _ => 2

def barReg : BarOp → BitVec 6
  | .none => 0 | .arrival g => g | .bytes g => g

def barOf (code : Nat) (g : GReg) : Option BarOp :=
  match code with
  | 0 => some .none | 1 => some (.arrival g) | 2 => some (.bytes g) | _ => none

/-! ## Encoding -/

/-- The operand fields of each format above the header (R19-R21), 0 where an entry names none. -/
structure RF where
  d : BitVec 6 := 0
  a : BitVec 6 := 0
  b : BitVec 6 := 0
  c : BitVec 6 := 0
  sa : Bool := false
  rm : BitVec 3 := 0
  ef : BitVec 4 := 0
  fx : BitVec 6 := 0

structure IF where
  d : BitVec 6 := 0
  a : BitVec 6 := 0
  imm : BitVec 20 := 0
  fx : BitVec 6 := 0

structure MF where
  d : BitVec 6 := 0
  a : BitVec 6 := 0
  off : BitVec 20 := 0
  ord : BitVec 2 := 0
  fx : BitVec 4 := 0

structure I32F where
  d : BitVec 6 := 0
  a : BitVec 6 := 0
  j : BitVec 20 := 0
  imm : BitVec 32 := 0

structure M32F where
  d : BitVec 6 := 0
  a : BitVec 6 := 0
  b : BitVec 6 := 0
  ord : BitVec 2 := 0
  fx : BitVec 6 := 0
  off : BitVec 32 := 0

structure EF where
  fd : BitVec 4 := 0
  o1 : BitVec 6 := 0
  o2 : BitVec 6 := 0
  o3 : BitVec 6 := 0
  o4 : BitVec 6 := 0
  o5 : BitVec 6 := 0
  o6 : BitVec 6 := 0
  ctl : Nat := 0

structure XF where
  ad : BitVec 4 := 0
  ae : BitVec 4 := 0
  qa : BitVec 3 := 0
  qb : BitVec 3 := 0
  ka : BitVec 6 := 0
  kb : BitVec 6 := 0
  efa : BitVec 4 := 0
  efb : BitVec 4 := 0
  mode : Nat := 0
  fd : BitVec 4 := 0
  qoff : BitVec 8 := 0
  kstep : BitVec 8 := 0
  ctl : Nat := 0

/-- A body in one of the formats; `any` is nop, whose length is its own (R22). -/
inductive Body where
  | r (f : RF)
  | i (f : IF)
  | m (f : MF)
  | b (off : BitVec 26)
  | s (d a : BitVec 6) (sreg : BitVec 12)
  | i32 (f : I32F)
  | m32 (f : M32F)
  | e (f : EF)
  | i64 (d : BitVec 6) (imm : BitVec 64)
  | x (f : XF)
  | any (len : BitVec 2)

/-- An instruction's encoding: major, sub-function, guard, body. -/
structure Enc where
  op : Nat
  sub : Nat
  gd : Guard
  body : Body

/-- LEN of the body's format (R11, R19-R22). -/
def Body.len : Body → Nat
  | .i32 _ | .m32 _ | .e _ => 1
  | .i64 .. | .x _ => 2
  | .any l => l.toNat
  | _ => 0

/-- The bits above the header (R19-R21). -/
def Body.bits : Body → Nat
  | .r f => f.d.toNat * 2^16 + f.a.toNat * 2^22 + f.b.toNat * 2^28 + f.c.toNat * 2^34 +
      f.sa.toNat * 2^40 + f.rm.toNat * 2^41 + f.ef.toNat * 2^44 + f.fx.toNat * 2^48
  | .i f => f.d.toNat * 2^16 + f.a.toNat * 2^22 + f.imm.toNat * 2^28 + f.fx.toNat * 2^48
  | .m f => f.d.toNat * 2^16 + f.a.toNat * 2^22 + f.off.toNat * 2^28 + f.ord.toNat * 2^48 +
      f.fx.toNat * 2^50
  | .b off => off.toNat * 2^16
  | .s d a n => d.toNat * 2^16 + a.toNat * 2^22 + n.toNat * 2^28
  | .i32 f => f.d.toNat * 2^16 + f.a.toNat * 2^22 + f.j.toNat * 2^34 + f.imm.toNat * 2^64
  | .m32 f => f.d.toNat * 2^16 + f.a.toNat * 2^22 + f.b.toNat * 2^28 + f.ord.toNat * 2^34 +
      f.fx.toNat * 2^36 + f.off.toNat * 2^64
  | .e f => f.fd.toNat * 2^16 + f.o1.toNat * 2^20 + f.o2.toNat * 2^26 + f.o3.toNat * 2^32 +
      f.o4.toNat * 2^38 + f.o5.toNat * 2^44 + f.o6.toNat * 2^50 + f.ctl * 2^64
  | .i64 d imm => d.toNat * 2^16 + imm.toNat * 2^64
  | .x f => f.ad.toNat * 2^16 + f.ae.toNat * 2^20 + f.qa.toNat * 2^24 + f.qb.toNat * 2^27 +
      f.ka.toNat * 2^30 + f.kb.toNat * 2^36 + f.efa.toNat * 2^52 + f.efb.toNat * 2^56 +
      f.mode * 2^60 + f.fd.toNat * 2^64 + f.qoff.toNat * 2^80 + f.kstep.toNat * 2^88 +
      f.ctl * 2^96
  | .any _ => 0

/-- The header (R15). -/
def header (len op sub : Nat) (gd : Guard) : Nat :=
  len + gd.gp.toNat * 2^2 + gd.gn.toNat * 2^5 + op * 2^6 + sub * 2^13

/-- The whole word of an encoding. -/
def Enc.word (e : Enc) : Nat := header e.body.len e.op e.sub e.gd + e.body.bits

def b6 {n : Nat} (x : BitVec n) : BitVec 6 := x.setWidth 6

/-- FX from flags, the first in bit 0. -/
def fx2 (x y : Bool) : BitVec 6 := BitVec.ofNat 6 (x.toNat + 2 * y.toNat)

def amoFx (dw : Bool) (ord : AmoOrd) (u : Bool) : BitVec 6 :=
  BitVec.ofNat 6 (dw.toNat + 2 * (amoCode ord).toNat + 8 * u.toNat)

def ordAcq (acq : Bool) : BitVec 2 := if acq then 1 else 0
def ordRel (rel : Bool) : BitVec 2 := if rel then 2 else 0

def kFx (keep g : Bool) : BitVec 6 := fx2 keep g

def optReg (o : Option GReg) : BitVec 6 := o.getD 0

def kSrcReg : KSrc → BitVec 6
  | .k r => r
  | .g r => r

def kSrcIsG : KSrc → Bool
  | .k _ => false
  | .g _ => true

def copyCtl (str bsh spl : Bool) (bar : BarOp) (dim : Nat) : Nat :=
  dim + 4 * barCode bar + 16 * spl.toNat + 32 * bsh.toNat + 64 * str.toNat

def modeCode : AttnMode → Nat
  | .plain _ => 0 | .expand _ => 1 | .absorb => 2

def modeKstep : AttnMode → BitVec 8
  | .plain n => n | .expand n => n | .absorb => 0

def encInt : Instr → Option Enc
  | .add gd d a b sat => some ⟨0x00, 0, gd, .r { d := d, a := a, b := b, sa := sat }⟩
  | .sub gd d a b sat => some ⟨0x00, 1, gd, .r { d := d, a := a, b := b, sa := sat }⟩
  | .and gd d a b => some ⟨0x00, 2, gd, .r { d := d, a := a, b := b }⟩
  | .or gd d a b => some ⟨0x00, 3, gd, .r { d := d, a := a, b := b }⟩
  | .xor gd d a b => some ⟨0x00, 4, gd, .r { d := d, a := a, b := b }⟩
  | .sll gd d a b => some ⟨0x00, 5, gd, .r { d := d, a := a, b := b }⟩
  | .srl gd d a b => some ⟨0x00, 6, gd, .r { d := d, a := a, b := b }⟩
  | .sra gd d a b => some ⟨0x00, 7, gd, .r { d := d, a := a, b := b }⟩
  | .mul gd d a b => some ⟨0x01, 0, gd, .r { d := d, a := a, b := b }⟩
  | .mulh gd d a b => some ⟨0x01, 1, gd, .r { d := d, a := a, b := b }⟩
  | .mulhu gd d a b => some ⟨0x01, 2, gd, .r { d := d, a := a, b := b }⟩
  | .div gd d a b => some ⟨0x01, 3, gd, .r { d := d, a := a, b := b }⟩
  | .divu gd d a b => some ⟨0x01, 4, gd, .r { d := d, a := a, b := b }⟩
  | .rem gd d a b => some ⟨0x01, 5, gd, .r { d := d, a := a, b := b }⟩
  | .remu gd d a b => some ⟨0x01, 6, gd, .r { d := d, a := a, b := b }⟩
  | .min gd d a b => some ⟨0x02, 0, gd, .r { d := d, a := a, b := b }⟩
  | .max gd d a b => some ⟨0x02, 1, gd, .r { d := d, a := a, b := b }⟩
  | .minu gd d a b => some ⟨0x02, 2, gd, .r { d := d, a := a, b := b }⟩
  | .maxu gd d a b => some ⟨0x02, 3, gd, .r { d := d, a := a, b := b }⟩
  | .clz gd d a => some ⟨0x02, 4, gd, .r { d := d, a := a }⟩
  | .ctz gd d a => some ⟨0x02, 5, gd, .r { d := d, a := a }⟩
  | .popc gd d a => some ⟨0x02, 6, gd, .r { d := d, a := a }⟩
  | .sext gd d a n1 => some ⟨0x03, 0, gd, .r { d := d, a := a, fx := n1 }⟩
  | .zext gd d a n1 => some ⟨0x03, 1, gd, .r { d := d, a := a, fx := n1 }⟩
  | .mov gd d a => some ⟨0x03, 2, gd, .r { d := d, a := a }⟩
  | .rdsr gd d n => some ⟨0x0F, 0, gd, .s d 0 n⟩
  | .wrsr gd n a => some ⟨0x0F, 1, gd, .s 0 a n⟩
  | .addi gd d a imm sat => some ⟨0x10, 0, gd, .i { d := d, a := a, imm := imm, fx := fx2 sat false }⟩
  | .andi gd d a imm => some ⟨0x10, 1, gd, .i { d := d, a := a, imm := imm }⟩
  | .ori gd d a imm => some ⟨0x10, 2, gd, .i { d := d, a := a, imm := imm }⟩
  | .xori gd d a imm => some ⟨0x10, 3, gd, .i { d := d, a := a, imm := imm }⟩
  | .slli gd d a imm => some ⟨0x10, 4, gd, .i { d := d, a := a, imm := imm }⟩
  | .srli gd d a imm => some ⟨0x10, 5, gd, .i { d := d, a := a, imm := imm }⟩
  | .srai gd d a imm => some ⟨0x10, 6, gd, .i { d := d, a := a, imm := imm }⟩
  | .li gd d imm => some ⟨0x11, 0, gd, .i { d := d, imm := imm }⟩
  | .lea gd d a off => some ⟨0x11, 1, gd, .i { d := d, a := a, imm := off }⟩
  | .leaPc gd d off => some ⟨0x11, 2, gd, .i { d := d, imm := off }⟩
  | .liI32 gd d imm => some ⟨0x12, 0, gd, .i32 { d := d, imm := imm }⟩
  | .leaI32 gd d a off => some ⟨0x12, 1, gd, .i32 { d := d, a := a, imm := off }⟩
  | .leaPcI32 gd d off => some ⟨0x12, 2, gd, .i32 { d := d, imm := off }⟩
  | .liI64 gd d imm => some ⟨0x13, 0, gd, .i64 d imm⟩
  | .bfx gd d a pos len1 sg =>
    some ⟨0x14, 0, gd, .i { d := d, a := a,
                            imm := BitVec.ofNat 20 (pos.toNat + 2^6 * len1.toNat + 2^12 * sg.toNat) }⟩
  | .bfi gd d a pos len1 =>
    some ⟨0x14, 1, gd, .i { d := d, a := a, imm := BitVec.ofNat 20 (pos.toNat + 2^6 * len1.toNat) }⟩
  | .cmp gd c pt pf a b =>
    some ⟨0x20, condSub c, gd, .r { d := b6 pt, a := a, b := b, c := b6 pf }⟩
  | .cmpi gd c pt pf a imm =>
    some ⟨0x21, condSub c, gd, .i { d := b6 pt, a := a, imm := imm, fx := b6 pf }⟩
  | .pand gd d a b na nb => some ⟨0x22, 0, gd, .r { d := b6 d, a := b6 a, b := b6 b, fx := fx2 na nb }⟩
  | .por gd d a b na nb => some ⟨0x22, 1, gd, .r { d := b6 d, a := b6 a, b := b6 b, fx := fx2 na nb }⟩
  | .pxor gd d a b na nb => some ⟨0x22, 2, gd, .r { d := b6 d, a := b6 a, b := b6 b, fx := fx2 na nb }⟩
  | .pmov gd d a na => some ⟨0x22, 3, gd, .r { d := b6 d, a := b6 a, fx := fx2 na false }⟩
  | .sel gd d p b c => some ⟨0x23, 0, gd, .r { d := d, a := b6 p, b := b, c := c }⟩
  | _ => none

def encControl : Instr → Option Enc
  | .br gd off => some ⟨0x28, 0, gd, .b off⟩
  | .call gd off => some ⟨0x28, 1, gd, .b off⟩
  | .jr gd a => some ⟨0x29, 0, gd, .r { a := a }⟩
  | .callr gd a => some ⟨0x29, 1, gd, .r { a := a }⟩
  | .ret gd => some ⟨0x29, 2, gd, .r {}⟩
  | .loop gd n a off => some ⟨0x2A, 0, gd, .i { d := b6 n, a := a, imm := off }⟩
  | .lbrk gd n => some ⟨0x2A, 1, gd, .i { d := b6 n }⟩
  | .clause gd n => some ⟨0x2A, 2, gd, .i { imm := n }⟩
  | .loopi gd n count off => some ⟨0x2B, 0, gd, .i32 { d := b6 n, j := off, imm := count }⟩
  | .wait gd n => some ⟨0x2C, 0, gd, .i { imm := n }⟩
  | .exit gd => some ⟨0x2C, 1, gd, .r {}⟩
  | .nop gd len => some ⟨0x2C, 2, gd, .any len⟩
  | .trap gd n => some ⟨0x2C, 3, gd, .i { imm := n }⟩
  | .tret gd => some ⟨0x2C, 4, gd, .r {}⟩
  | _ => none

def encMem : Instr → Option Enc
  | .ld gd sz d a off acq =>
    some ⟨0x30, sizeSub sz, gd, .m { d := d, a := a, off := off, ord := ordAcq acq }⟩
  | .ldu gd sz d a off acq =>
    some ⟨0x30, usizeSub sz, gd, .m { d := d, a := a, off := off, ord := ordAcq acq }⟩
  | .st gd sz d a off rel =>
    some ⟨0x31, sizeSub sz, gd, .m { d := d, a := a, off := off, ord := ordRel rel }⟩
  | .ldM32 gd sz d a off acq =>
    some ⟨0x32, sizeSub sz, gd, .m32 { d := d, a := a, off := off, ord := ordAcq acq }⟩
  | .lduM32 gd sz d a off acq =>
    some ⟨0x32, usizeSub sz, gd, .m32 { d := d, a := a, off := off, ord := ordAcq acq }⟩
  | .stM32 gd sz d a off rel =>
    some ⟨0x33, sizeSub sz, gd, .m32 { d := d, a := a, off := off, ord := ordRel rel }⟩
  | .lda gd sz fd d a off => some ⟨0x34, sizeSub sz, gd, .m { d := d, a := a, off := off, fx := fd }⟩
  | .ldau gd sz fd d a off => some ⟨0x34, usizeSub sz, gd, .m { d := d, a := a, off := off, fx := fd }⟩
  | .amoadd gd d a b dw ord =>
    some ⟨0x38, 0, gd, .r { d := d, a := a, b := b, fx := amoFx dw ord false }⟩
  | .amoswp gd d a b dw ord =>
    some ⟨0x38, 1, gd, .r { d := d, a := a, b := b, fx := amoFx dw ord false }⟩
  | .amocas gd d a b c dw ord =>
    some ⟨0x38, 2, gd, .r { d := d, a := a, b := b, c := c, fx := amoFx dw ord false }⟩
  | .amomin gd d a b dw ord u =>
    some ⟨0x38, 3, gd, .r { d := d, a := a, b := b, fx := amoFx dw ord u }⟩
  | .amomax gd d a b dw ord u =>
    some ⟨0x38, 4, gd, .r { d := d, a := a, b := b, fx := amoFx dw ord u }⟩
  | .amoand gd d a b dw ord =>
    some ⟨0x38, 5, gd, .r { d := d, a := a, b := b, fx := amoFx dw ord false }⟩
  | .amoor gd d a b dw ord =>
    some ⟨0x38, 6, gd, .r { d := d, a := a, b := b, fx := amoFx dw ord false }⟩
  | .famoFx gd a b ord => some ⟨0x39, 0, gd, .r { a := a, b := b, fx := amoFx false ord false }⟩
  | .fxrd gd d a clr ord => some ⟨0x39, 1, gd, .r { d := d, a := a, fx := amoFx clr ord false }⟩
  | .fence gd sc kinds => some ⟨0x3A, 0, gd, .r { d := scopeCode sc, fx := b6 kinds }⟩
  | _ => none

def encTrack : Instr → Option Enc
  | .tclaim gd t => some ⟨0x40, 0, gd, .r { a := b6 t }⟩
  | .tclaimTry gd p t => some ⟨0x40, 0, gd, .r { d := b6 p, a := b6 t, fx := 1 }⟩
  | .trel gd t => some ⟨0x40, 1, gd, .r { a := b6 t }⟩
  | .tsync gd (some t) => some ⟨0x40, 2, gd, .r { a := b6 t }⟩
  | .tsync gd none => some ⟨0x40, 2, gd, .r { fx := 1 }⟩
  | .hpos gd d t => some ⟨0x40, 3, gd, .r { d := d, a := b6 t }⟩
  | .seek gd fd t slot => some ⟨0x41, 0, gd, .i { d := b6 fd, a := b6 t, imm := slot }⟩
  | .seekr gd fd t dist => some ⟨0x41, 1, gd, .i { d := b6 fd, a := b6 t, imm := dist }⟩
  | .rew gd fd t => some ⟨0x41, 2, gd, .i { d := b6 fd, a := b6 t }⟩
  | .seekReg gd fd t b => some ⟨0x42, 0, gd, .r { d := b6 fd, a := b6 t, b := b }⟩
  | .seekrReg gd fd t b => some ⟨0x42, 1, gd, .r { d := b6 fd, a := b6 t, b := b }⟩
  | .trd gd d t => some ⟨0x43, 0, gd, .i { d := d, a := b6 t }⟩
  | .twr gd t d => some ⟨0x43, 1, gd, .i { d := d, a := b6 t }⟩
  | .trds gd d t s => some ⟨0x43, 2, gd, .i { d := d, a := b6 t, imm := s }⟩
  | .twrs gd t d s => some ⟨0x43, 3, gd, .i { d := d, a := b6 t, imm := s }⟩
  | .vtrds gd d t s => some ⟨0x44, 0, gd, .i { d := b6 d, a := b6 t, imm := s }⟩
  | .vtwrs gd t d s => some ⟨0x44, 1, gd, .i { d := b6 d, a := b6 t, imm := s }⟩
  | .tstream gd fd q t c s =>
    some ⟨0x45, 0, gd, .e { fd := fd, o1 := b6 q, o2 := b6 t, o3 := c, ctl := s.toNat }⟩
  | .tfill gd fd t q c s =>
    some ⟨0x45, 1, gd, .e { fd := fd, o1 := b6 q, o2 := b6 t, o3 := c, ctl := s.toNat }⟩
  | _ => none

def encVecArith : Instr → Option Enc
  | .vadd gd ef d a b rm sat =>
    some ⟨0x50, 0, gd, .r { d := b6 d, a := b6 a, b := b6 b, sa := sat, rm := rmCode rm,
                            ef := efCode ef }⟩
  | .vsub gd ef d a b rm sat =>
    some ⟨0x50, 1, gd, .r { d := b6 d, a := b6 a, b := b6 b, sa := sat, rm := rmCode rm,
                            ef := efCode ef }⟩
  | .vmul gd ef d a b rm sat =>
    some ⟨0x50, 2, gd, .r { d := b6 d, a := b6 a, b := b6 b, sa := sat, rm := rmCode rm,
                            ef := efCode ef }⟩
  | .vfma gd ef d a b c rm sat =>
    some ⟨0x50, 3, gd, .r { d := b6 d, a := b6 a, b := b6 b, c := b6 c, sa := sat, rm := rmCode rm,
                            ef := efCode ef }⟩
  | .vmin gd ef d a b => some ⟨0x50, 4, gd, .r { d := b6 d, a := b6 a, b := b6 b, ef := efCode ef }⟩
  | .vmax gd ef d a b => some ⟨0x50, 5, gd, .r { d := b6 d, a := b6 a, b := b6 b, ef := efCode ef }⟩
  | .vabs gd ef d a sat => some ⟨0x50, 6, gd, .r { d := b6 d, a := b6 a, sa := sat, ef := efCode ef }⟩
  | .vneg gd ef d a sat => some ⟨0x50, 7, gd, .r { d := b6 d, a := b6 a, sa := sat, ef := efCode ef }⟩
  | .vand gd ef d a b => some ⟨0x51, 0, gd, .r { d := b6 d, a := b6 a, b := b6 b, ef := efCode ef }⟩
  | .vor gd ef d a b => some ⟨0x51, 1, gd, .r { d := b6 d, a := b6 a, b := b6 b, ef := efCode ef }⟩
  | .vxor gd ef d a b => some ⟨0x51, 2, gd, .r { d := b6 d, a := b6 a, b := b6 b, ef := efCode ef }⟩
  | .vshl gd ef d a b => some ⟨0x51, 3, gd, .r { d := b6 d, a := b6 a, b := b6 b, ef := efCode ef }⟩
  | .vshr gd ef d a b => some ⟨0x51, 4, gd, .r { d := b6 d, a := b6 a, b := b6 b, ef := efCode ef }⟩
  | .vsra gd ef d a b => some ⟨0x51, 5, gd, .r { d := b6 d, a := b6 a, b := b6 b, ef := efCode ef }⟩
  | .vsel gd ef d pc a b =>
    some ⟨0x51, 6, gd, .r { d := b6 d, a := b6 a, b := b6 b, c := b6 pc, ef := efCode ef }⟩
  | .vmov gd ef d a => some ⟨0x51, 7, gd, .r { d := b6 d, a := b6 a, ef := efCode ef }⟩
  | .vcmp gd c ef pt pf a b =>
    some ⟨0x52, vcondSub c, gd, .r { d := b6 pt, a := b6 a, b := b6 b, c := b6 pf, ef := efCode ef }⟩
  | .vcvt gd dst src d a part rm sat =>
    some ⟨0x53, 0, gd, .r { d := b6 d, a := b6 a, c := b6 (efCode src), sa := sat, rm := rmCode rm,
                            ef := efCode dst, fx := b6 part }⟩
  | .vrcp gd ef d a rm sat =>
    some ⟨0x53, 1, gd, .r { d := b6 d, a := b6 a, sa := sat, rm := rmCode rm, ef := efCode ef }⟩
  | .vrsqrt gd ef d a rm sat =>
    some ⟨0x53, 2, gd, .r { d := b6 d, a := b6 a, sa := sat, rm := rmCode rm, ef := efCode ef }⟩
  | .vexp2 gd ef d a => some ⟨0x53, 3, gd, .r { d := b6 d, a := b6 a, ef := efCode ef }⟩
  | .vlog2 gd ef d a rm sat =>
    some ⟨0x53, 4, gd, .r { d := b6 d, a := b6 a, sa := sat, rm := rmCode rm, ef := efCode ef }⟩
  | _ => none

def encVecMove : Instr → Option Enc
  | .vredsum gd ef d a rm sat =>
    some ⟨0x54, 0, gd, .r { d := b6 d, a := b6 a, sa := sat, rm := rmCode rm, ef := efCode ef }⟩
  | .vredmax gd ef d a => some ⟨0x54, 1, gd, .r { d := b6 d, a := b6 a, ef := efCode ef }⟩
  | .vbcast gd ef d a => some ⟨0x54, 2, gd, .r { d := b6 d, a := a, ef := efCode ef }⟩
  | .vext gd ef d a idx => some ⟨0x54, 3, gd, .r { d := d, a := b6 a, ef := efCode ef, fx := idx }⟩
  | .vins gd ef d a idx => some ⟨0x54, 4, gd, .r { d := b6 d, a := a, ef := efCode ef, fx := idx }⟩
  | .vperm gd ef d a b => some ⟨0x55, 0, gd, .r { d := b6 d, a := b6 a, b := b6 b, ef := efCode ef }⟩
  | .vshuf gd ef d a b c =>
    some ⟨0x55, 1, gd, .r { d := b6 d, a := b6 a, b := b6 b, c := b6 c, ef := efCode ef }⟩
  | .vpack gd ef d a b sat =>
    some ⟨0x55, 2, gd, .r { d := b6 d, a := b6 a, b := b6 b, sa := sat, ef := efCode ef }⟩
  | .vunpack gd ef d a h u =>
    some ⟨0x55, 3, gd, .r { d := b6 d, a := b6 a, ef := efCode ef, fx := fx2 h u }⟩
  | .vclear gd => some ⟨0x55, 4, gd, .r {}⟩
  | .vquant gd dst src d a k o part rm =>
    some ⟨0x56, 0, gd, .r { d := b6 d, a := b6 a, b := k, c := b6 (efCode src), rm := rmCode rm,
                            ef := efCode dst, fx := BitVec.ofNat 6 (part.toNat + 4 * o.toNat) }⟩
  | .vdeq gd dst src d a part rm sat =>
    some ⟨0x56, 1, gd, .r { d := b6 d, a := b6 a, c := b6 (efCode src), sa := sat, rm := rmCode rm,
                            ef := efCode dst, fx := b6 part }⟩
  | .vld gd d a off acq => some ⟨0x60, 0, gd, .m { d := b6 d, a := a, off := off, ord := ordAcq acq }⟩
  | .vst gd d a off rel => some ⟨0x60, 1, gd, .m { d := b6 d, a := a, off := off, ord := ordRel rel }⟩
  | .vlda gd fd d a off => some ⟨0x60, 2, gd, .m { d := b6 d, a := a, off := off, fx := fd }⟩
  | .vldMx gd d k o a off acq =>
    some ⟨0x60, 3, gd, .m32 { d := b6 d, a := a, b := k, ord := ordAcq acq, fx := b6 o, off := off }⟩
  | .vldg gd ef d a b x =>
    some ⟨0x61, 0, gd, .r { d := b6 d, a := a, b := b6 b, ef := efCode ef, fx := fx2 x false }⟩
  | .vsts gd ef d a b x =>
    some ⟨0x61, 1, gd, .r { d := b6 d, a := a, b := b6 b, ef := efCode ef, fx := fx2 x false }⟩
  | .sbind gd v op => match op with
    | .rc q => some ⟨0x62, 0, gd, .e { o1 := b6 v, o2 := b6 q, ctl := 0 }⟩
    | .rp q => some ⟨0x62, 0, gd, .e { o1 := b6 v, o2 := b6 q, ctl := 1 }⟩
    | .th t s => some ⟨0x62, 0, gd, .e { o1 := b6 v, o2 := b6 t, ctl := 2 + 4 * s.toNat }⟩
    | .sg base stride => some ⟨0x62, 0, gd, .e { o1 := b6 v, o3 := base, o4 := stride, ctl := 3 }⟩
  | .sunbind gd v => some ⟨0x63, 0, gd, .r { d := b6 v }⟩
  | _ => none

def encCopy : Instr → Option Enc
  | .cp gd fd dst src len bar dim spl =>
    some ⟨0x64, 0, gd, .e { fd := fd, o1 := dst, o2 := src, o3 := len, o4 := barReg bar,
                            o6 := optReg spl,
                            ctl := copyCtl false false spl.isSome bar (dimCode dim) }⟩
  | .cpm gd fd dst src len mask bar dim spl bsh =>
    some ⟨0x64, 1, gd, .e { fd := fd, o1 := dst, o2 := src, o3 := len, o4 := barReg bar,
                            o5 := mask, o6 := optReg spl,
                            ctl := copyCtl false bsh spl.isSome bar (dimCode dim) }⟩
  | .cpg gd fd dst tab tok cnt bpt bar spl =>
    some ⟨0x64, 2, gd, .e { fd := fd, o1 := dst, o2 := tab, o3 := tok, o4 := barReg bar, o5 := cnt,
                            o6 := bpt, ctl := copyCtl false false spl bar 0 }⟩
  | .cpr gd fd q src cnt bar str spl =>
    some ⟨0x64, 3, gd, .e { fd := fd, o1 := b6 q, o2 := src, o3 := cnt, o4 := barReg bar,
                            o5 := optReg str, ctl := copyCtl str.isSome false spl bar 0 }⟩
  | .cps gd fd dst q cnt bar str =>
    some ⟨0x64, 4, gd, .e { fd := fd, o1 := dst, o2 := b6 q, o3 := cnt, o4 := barReg bar,
                            o5 := optReg str, ctl := copyCtl str.isSome false false bar 0 }⟩
  | .cpsig gd fd dst src len sig dim =>
    some ⟨0x64, 5, gd, .e { fd := fd, o1 := dst, o2 := src, o3 := len, o4 := sig, ctl := dimCode dim }⟩
  | .cpcan gd d a => some ⟨0x65, 0, gd, .r { d := d, a := a }⟩
  | _ => none

def encSync : Instr → Option Enc
  | .ring gd q a sb ns pool kf =>
    some ⟨0x68, 0, gd, .e { o1 := b6 q, o2 := a,
                            ctl := sb.toNat + 2^8 * ns.toNat + 2^15 * pool.toNat + 2^16 * kf.toNat }⟩
  | .rpub gd q b => some ⟨0x68, 1, gd, .r { a := b6 q, b := b }⟩
  | .radv gd q b => some ⟨0x68, 2, gd, .r { a := b6 q, b := b }⟩
  | .rwait gd q b => some ⟨0x68, 3, gd, .r { a := b6 q, b := b }⟩
  | .rfree gd q b => some ⟨0x68, 4, gd, .r { a := b6 q, b := b }⟩
  | .rstat gd d q sel => some ⟨0x68, 5, gd, .r { d := d, a := b6 q, fx := b6 sel }⟩
  | .binit gd a b => some ⟨0x69, 0, gd, .r { a := a, b := b }⟩
  | .arrive gd d a => some ⟨0x69, 1, gd, .r { d := d, a := a }⟩
  | .arrivetx gd d a b => some ⟨0x69, 2, gd, .r { d := d, a := a, b := b }⟩
  | .bwait gd a b => some ⟨0x69, 3, gd, .r { a := a, b := b }⟩
  | .btest gd pt pf a b => some ⟨0x69, 4, gd, .r { d := b6 pt, a := a, b := b, c := b6 pf }⟩
  | .fwait gd f => some ⟨0x6A, 0, gd, .r { a := b6 f }⟩
  | .ftst gd pt pf f => some ⟨0x6A, 1, gd, .r { d := b6 pt, a := b6 f, c := b6 pf }⟩
  | .fcan gd f => some ⟨0x6A, 2, gd, .r { a := b6 f }⟩
  | .fmov gd fd fa => some ⟨0x6A, 3, gd, .r { d := b6 fd, a := b6 fa }⟩
  | .fmovClr gd fd => some ⟨0x6A, 3, gd, .r { d := b6 fd, fx := 1 }⟩
  | .tlwait gd eng a => some ⟨0x6A, 4, gd, .r { a := a, fx := b6 (engCode eng) }⟩
  | .tlrd gd eng d last =>
    some ⟨0x6A, 5, gd, .r { d := d, fx := BitVec.ofNat 6 ((engCode eng).toNat + 4 * last.toNat) }⟩
  | _ => none

def encFrame : Instr → Option Enc
  | .mark gd tag off => some ⟨0x6C, 0, gd, .i32 { j := tag.setWidth 20, imm := off }⟩
  | .cut gd tag d => some ⟨0x6C, 1, gd, .i { d := d, imm := tag.setWidth 20 }⟩
  | .graft gd a => some ⟨0x6C, 2, gd, .r { a := a }⟩
  | .sdrop gd a => some ⟨0x6C, 3, gd, .r { a := a }⟩
  | .frl gd d a => some ⟨0x6C, 4, gd, .r { d := d, a := a }⟩
  | .spillw gd => some ⟨0x6C, 5, gd, .r {}⟩
  | .fillw gd => some ⟨0x6C, 6, gd, .r {}⟩
  | .spawn gd d a => some ⟨0x6D, 0, gd, .r { d := d, a := a }⟩
  | .yield gd => some ⟨0x6D, 1, gd, .r {}⟩
  | .send gd d a b => some ⟨0x6D, 2, gd, .r { d := d, a := a, b := b }⟩
  | .recv gd d c => some ⟨0x6D, 3, gd, .r { d := d, c := c }⟩
  | .recvTry gd d c => some ⟨0x6D, 3, gd, .r { d := d, c := c, fx := 1 }⟩
  | .dsync gd d level => some ⟨0x6D, 4, gd, .r { d := d, fx := b6 level }⟩
  | .dmem gd d c => some ⟨0x6D, 5, gd, .r { d := d, c := c }⟩
  | .snaparm gd d a => some ⟨0x6D, 6, gd, .r { d := d, a := a }⟩
  | .gang gd d n => some ⟨0x6E, 0, gd, .i { d := d, imm := n }⟩
  | .detach gd => some ⟨0x6E, 1, gd, .r {}⟩
  | .rejoin gd tok => some ⟨0x6E, 2, gd, .i { imm := tok.setWidth 20 }⟩
  | _ => none

def encScale : Instr → Option Enc
  | .kld gd k a off keep acq =>
    some ⟨0x70, 0, gd, .m { d := k, a := a, off := off, ord := ordAcq acq,
                            fx := BitVec.ofNat 4 keep.toNat }⟩
  | .kst gd k a off rel => some ⟨0x70, 1, gd, .m { d := k, a := a, off := off, ord := ordRel rel }⟩
  | .kmov gd d (.k r) keep => some ⟨0x71, 0, gd, .r { d := d, a := r, fx := kFx keep false }⟩
  | .kmov gd d (.g r) keep => some ⟨0x71, 0, gd, .r { d := d, b := r, fx := kFx keep true }⟩
  | .kadd gd d a src keep =>
    some ⟨0x71, 1, gd, .r { d := d, a := a, b := kSrcReg src, fx := kFx keep (kSrcIsG src) }⟩
  | .ksub gd d a src keep =>
    some ⟨0x71, 2, gd, .r { d := d, a := a, b := kSrcReg src, fx := kFx keep (kSrcIsG src) }⟩
  | .kmax gd d a src keep =>
    some ⟨0x71, 3, gd, .r { d := d, a := a, b := kSrcReg src, fx := kFx keep (kSrcIsG src) }⟩
  | .kmin gd d a src keep =>
    some ⟨0x71, 4, gd, .r { d := d, a := a, b := kSrcReg src, fx := kFx keep (kSrcIsG src) }⟩
  | .knorm gd d a c keep => some ⟨0x71, 5, gd, .r { d := d, a := a, c := c, fx := kFx keep false }⟩
  | .kbind gd v k o u =>
    some ⟨0x72, 0, gd, .r { d := b6 v, b := k, fx := BitVec.ofNat 6 (o.toNat + 16 * u.toNat) }⟩
  | .kbindQ gd q c k o u =>
    some ⟨0x72, 0, gd, .r { a := b6 q, b := k, c := c,
                            fx := BitVec.ofNat 6 (o.toNat + 8 + 16 * u.toNat) }⟩
  | .kgen gd d k => some ⟨0x72, 1, gd, .r { d := d, a := k }⟩
  | .kgenBump gd k => some ⟨0x72, 1, gd, .r { a := k, fx := 1 }⟩
  | .vsave gd a off parts => some ⟨0x73, 0, gd, .m { a := a, off := off, fx := parts.setWidth 4 }⟩
  | .vrest gd a off parts => some ⟨0x73, 1, gd, .m { a := a, off := off, fx := parts.setWidth 4 }⟩
  | _ => none

def encMatrix : Instr → Option Enc
  | .mma gd fd ad qa qb ka kb efa efb qoff kstep sca scb =>
    some ⟨0x76, 0, gd, .x { ad := ad, qa := qa, qb := qb, ka := ka, kb := kb, efa := efCode efa,
                            efb := efCode efb, fd := fd, qoff := qoff, kstep := kstep,
                            ctl := sca.toNat + 2 * scb.toNat }⟩
  | .mmz gd fd ad m1 => some ⟨0x76, 1, gd, .x { ad := ad, fd := fd, ctl := m1.toNat }⟩
  | .mova gd ef d a rm sat =>
    some ⟨0x77, 0, gd, .r { d := b6 d, a := b6 a, sa := sat, rm := rmCode rm, ef := efCode ef }⟩
  | .mchk gd d set clr => some ⟨0x77, 1, gd, .r { d := d, a := optReg set, fx := fx2 set.isSome clr }⟩
  | .msta gd a base off rel =>
    some ⟨0x78, 0, gd, .m { d := b6 a, a := base, off := off, ord := ordRel rel }⟩
  | .attnS gd fd mode fq fk qa qb kb qoff ntok scb =>
    some ⟨0x79, 0, gd, .x { qa := qa, qb := qb, kb := kb, efa := efCode fq, efb := efCode fk,
                            mode := modeCode mode, fd := fd, qoff := qoff, kstep := modeKstep mode,
                            ctl := ntok.toNat + 64 * scb.toNat }⟩
  | .attnP gd fd ad m => some ⟨0x79, 1, gd, .x { ad := ad, fd := fd, ctl := m.toNat }⟩
  | .attnV gd fd mode fv ad qb kb qoff scb =>
    some ⟨0x79, 2, gd, .x { ad := ad, qb := qb, kb := kb, efb := efCode fv, mode := modeCode mode,
                            fd := fd, qoff := qoff, kstep := modeKstep mode, ctl := 64 * scb.toNat }⟩
  | .attnF gd fd ad ae none m =>
    some ⟨0x79, 3, gd, .x { ad := ad, ae := ae, fd := fd, ctl := m.toNat }⟩
  | .attnF gd fd ad ae (some (fw, qb, qoff, ndv)) _ =>
    some ⟨0x79, 3, gd, .x { ad := ad, ae := ae, qb := qb, efb := efCode fw, mode := 2, fd := fd,
                            qoff := qoff, ctl := ndv.toNat }⟩
  | .qabs gd fd fq fw qa qb qoff kstep =>
    some ⟨0x7A, 0, gd, .x { qa := qa, qb := qb, efa := efCode fq, efb := efCode fw, fd := fd,
                            qoff := qoff, kstep := kstep }⟩
  | .lxcfg gd fd a => some ⟨0x7B, 0, gd, .e { fd := fd, o1 := a }⟩
  | .smxcfg gd fd a => some ⟨0x7B, 1, gd, .e { fd := fd, o1 := a }⟩
  | .tlbw gd d a b c => some ⟨0x7E, 0, gd, .r { d := d, a := a, b := b, c := c }⟩
  | .tlbi gd d a b scope pkgw pins =>
    some ⟨0x7E, 1, gd, .r { d := d, a := a, b := b,
                            fx := BitVec.ofNat 6 (scope.toNat + 4 * pkgw.toNat + 8 * pins.toNat) }⟩
  | .frep gd d a b => some ⟨0x7E, 2, gd, .r { d := d, a := a, b := b }⟩
  | .idle gd => some ⟨0x7E, 3, gd, .r {}⟩
  | .rdtime gd d => some ⟨0x7E, 4, gd, .r { d := d }⟩
  | .sevw gd a => some ⟨0x7E, 5, gd, .r { a := a }⟩
  | _ => none

/-- The encoding of an instruction that is not a pair word; an event has none. -/
def enc (i : Instr) : Option Enc :=
  (encInt i).orElse fun _ => (encControl i).orElse fun _ => (encMem i).orElse fun _ =>
  (encTrack i).orElse fun _ => (encVecArith i).orElse fun _ => (encVecMove i).orElse fun _ =>
  (encCopy i).orElse fun _ => (encSync i).orElse fun _ => (encFrame i).orElse fun _ =>
  (encScale i).orElse fun _ => encMatrix i

/-- The word of an instruction: its length code LEN and its bits. A pair word (R23) moves the scalar
half's major and sub-function to bits 60:54 and 63:61 and holds the vector half with guard bits 0. -/
def encodeWord : Instr → Option (Nat × Nat)
  | .pair gd s v =>
    match enc s, enc v with
    | some es, some ev =>
      some (2, header 2 0x7F 0 gd + es.body.bits % 2^54 + es.op * 2^54 + es.sub * 2^61 +
        (header 0 ev.op ev.sub ⟨0, false⟩ + ev.body.bits) * 2^64)
    | _, _ => none
  | i => (enc i).map fun e => (e.body.len, e.word)

/-- Bytes of an instruction with length code l (R11). -/
def lenBytes (l : Nat) : Nat := 8 + 4 * l

/-- The n bytes of a word, lowest address first (R11, spec/00 R4). -/
def bytesLE (n w : Nat) : List Byte := (List.range n).map fun k => BitVec.ofNat 8 (w / 2 ^ (8 * k))

/-- The number that little-endian bytes stand for. -/
def ofBytesLE : List Byte → Nat
  | [] => 0
  | b :: bs => b.toNat + 2 ^ 8 * ofBytesLE bs

/-! ## Decoding: the opcode map (R26) -/

def fGuard (w : Nat) : Guard := ⟨field 2 3 w, bitAt 5 w⟩
def fD (w : Nat) : BitVec 6 := field 16 6 w
def fA (w : Nat) : BitVec 6 := field 22 6 w
def fB (w : Nat) : BitVec 6 := field 28 6 w
def fC (w : Nat) : BitVec 6 := field 34 6 w
def fSa (w : Nat) : Bool := bitAt 40 w
def fImm (w : Nat) : BitVec 20 := field 28 20 w
def fP (lo w : Nat) : PIdx := field lo 3 w

def dec00 (sub : Nat) (g : Guard) (w : Nat) : Option Instr :=
  let d := fD w; let a := fA w; let b := fB w
  match sub with
  | 0 => some (.add g d a b (fSa w)) | 1 => some (.sub g d a b (fSa w)) | 2 => some (.and g d a b)
  | 3 => some (.or g d a b) | 4 => some (.xor g d a b) | 5 => some (.sll g d a b)
  | 6 => some (.srl g d a b) | 7 => some (.sra g d a b) | _ => none

def dec01 (sub : Nat) (g : Guard) (w : Nat) : Option Instr :=
  let d := fD w; let a := fA w; let b := fB w
  match sub with
  | 0 => some (.mul g d a b) | 1 => some (.mulh g d a b) | 2 => some (.mulhu g d a b)
  | 3 => some (.div g d a b) | 4 => some (.divu g d a b) | 5 => some (.rem g d a b)
  | 6 => some (.remu g d a b) | _ => none

def dec02 (sub : Nat) (g : Guard) (w : Nat) : Option Instr :=
  let d := fD w; let a := fA w; let b := fB w
  match sub with
  | 0 => some (.min g d a b) | 1 => some (.max g d a b) | 2 => some (.minu g d a b)
  | 3 => some (.maxu g d a b) | 4 => some (.clz g d a) | 5 => some (.ctz g d a)
  | 6 => some (.popc g d a) | _ => none

def dec03 (sub : Nat) (g : Guard) (w : Nat) : Option Instr :=
  match sub with
  | 0 => some (.sext g (fD w) (fA w) (field 48 6 w)) | 1 => some (.zext g (fD w) (fA w) (field 48 6 w))
  | 2 => some (.mov g (fD w) (fA w)) | _ => none

def dec0F (sub : Nat) (g : Guard) (w : Nat) : Option Instr :=
  match sub with
  | 0 => some (.rdsr g (fD w) (field 28 12 w)) | 1 => some (.wrsr g (field 28 12 w) (fA w))
  | _ => none

def dec10 (sub : Nat) (g : Guard) (w : Nat) : Option Instr :=
  let d := fD w; let a := fA w; let n := fImm w
  match sub with
  | 0 => some (.addi g d a n (bitAt 48 w)) | 1 => some (.andi g d a n) | 2 => some (.ori g d a n)
  | 3 => some (.xori g d a n) | 4 => some (.slli g d a n) | 5 => some (.srli g d a n)
  | 6 => some (.srai g d a n) | _ => none

def dec11 (sub : Nat) (g : Guard) (w : Nat) : Option Instr :=
  match sub with
  | 0 => some (.li g (fD w) (fImm w)) | 1 => some (.lea g (fD w) (fA w) (fImm w))
  | 2 => some (.leaPc g (fD w) (fImm w)) | _ => none

def dec12 (sub : Nat) (g : Guard) (w : Nat) : Option Instr :=
  match sub with
  | 0 => some (.liI32 g (fD w) (field 64 32 w)) | 1 => some (.leaI32 g (fD w) (fA w) (field 64 32 w))
  | 2 => some (.leaPcI32 g (fD w) (field 64 32 w)) | _ => none

def dec13 (sub : Nat) (g : Guard) (w : Nat) : Option Instr :=
  match sub with
  | 0 => some (.liI64 g (fD w) (field 64 64 w)) | _ => none

def dec14 (sub : Nat) (g : Guard) (w : Nat) : Option Instr :=
  match sub with
  | 0 => some (.bfx g (fD w) (fA w) (field 28 6 w) (field 34 6 w) (bitAt 40 w))
  | 1 => some (.bfi g (fD w) (fA w) (field 28 6 w) (field 34 6 w)) | _ => none

def dec22 (sub : Nat) (g : Guard) (w : Nat) : Option Instr :=
  let d := fP 16 w; let a := fP 22 w; let b := fP 28 w; let na := bitAt 48 w; let nb := bitAt 49 w
  match sub with
  | 0 => some (.pand g d a b na nb) | 1 => some (.por g d a b na nb) | 2 => some (.pxor g d a b na nb)
  | 3 => some (.pmov g d a na) | _ => none

def dec23 (sub : Nat) (g : Guard) (w : Nat) : Option Instr :=
  match sub with
  | 0 => some (.sel g (fD w) (fP 22 w) (fB w) (fC w)) | _ => none

def dec28 (sub : Nat) (g : Guard) (w : Nat) : Option Instr :=
  match sub with
  | 0 => some (.br g (field 16 26 w)) | 1 => some (.call g (field 16 26 w)) | _ => none

def dec29 (sub : Nat) (g : Guard) (w : Nat) : Option Instr :=
  match sub with
  | 0 => some (.jr g (fA w)) | 1 => some (.callr g (fA w)) | 2 => some (.ret g) | _ => none

def dec2A (sub : Nat) (g : Guard) (w : Nat) : Option Instr :=
  match sub with
  | 0 => some (.loop g (field 16 2 w) (fA w) (fImm w)) | 1 => some (.lbrk g (field 16 2 w))
  | 2 => some (.clause g (fImm w)) | _ => none

def dec2B (sub : Nat) (g : Guard) (w : Nat) : Option Instr :=
  match sub with
  | 0 => some (.loopi g (field 16 2 w) (field 64 32 w) (field 34 20 w)) | _ => none

def dec2C (sub : Nat) (g : Guard) (w : Nat) : Option Instr :=
  match sub with
  | 0 => some (.wait g (fImm w)) | 1 => some (.exit g) | 2 => some (.nop g (field 0 2 w))
  | 3 => some (.trap g (fImm w)) | 4 => some (.tret g) | _ => none

def dec30 (sub : Nat) (g : Guard) (w : Nat) : Option Instr :=
  let d := fD w; let a := fA w; let off := fImm w; let acq := bitAt 48 w
  match sub with
  | 0 => some (.ld g .b d a off acq) | 1 => some (.ld g .h d a off acq) | 2 => some (.ld g .w d a off acq)
  | 3 => some (.ld g .d d a off acq) | 4 => some (.ldu g .b d a off acq)
  | 5 => some (.ldu g .h d a off acq) | 6 => some (.ldu g .w d a off acq) | _ => none

def dec31 (sub : Nat) (g : Guard) (w : Nat) : Option Instr :=
  let d := fD w; let a := fA w; let off := fImm w; let rel := bitAt 49 w
  match sub with
  | 0 => some (.st g .b d a off rel) | 1 => some (.st g .h d a off rel) | 2 => some (.st g .w d a off rel)
  | 3 => some (.st g .d d a off rel) | _ => none

def dec32 (sub : Nat) (g : Guard) (w : Nat) : Option Instr :=
  let d := fD w; let a := fA w; let off := field 64 32 w; let acq := bitAt 34 w
  match sub with
  | 0 => some (.ldM32 g .b d a off acq) | 1 => some (.ldM32 g .h d a off acq)
  | 2 => some (.ldM32 g .w d a off acq) | 3 => some (.ldM32 g .d d a off acq)
  | 4 => some (.lduM32 g .b d a off acq) | 5 => some (.lduM32 g .h d a off acq)
  | 6 => some (.lduM32 g .w d a off acq) | _ => none

def dec33 (sub : Nat) (g : Guard) (w : Nat) : Option Instr :=
  let d := fD w; let a := fA w; let off := field 64 32 w; let rel := bitAt 35 w
  match sub with
  | 0 => some (.stM32 g .b d a off rel) | 1 => some (.stM32 g .h d a off rel)
  | 2 => some (.stM32 g .w d a off rel) | 3 => some (.stM32 g .d d a off rel) | _ => none

def dec34 (sub : Nat) (g : Guard) (w : Nat) : Option Instr :=
  let d := fD w; let a := fA w; let off := fImm w; let fd := field 50 4 w
  match sub with
  | 0 => some (.lda g .b fd d a off) | 1 => some (.lda g .h fd d a off) | 2 => some (.lda g .w fd d a off)
  | 3 => some (.lda g .d fd d a off) | 4 => some (.ldau g .b fd d a off)
  | 5 => some (.ldau g .h fd d a off) | 6 => some (.ldau g .w fd d a off) | _ => none

def dec38 (sub : Nat) (g : Guard) (w : Nat) : Option Instr :=
  let d := fD w; let a := fA w; let b := fB w; let dw := bitAt 48 w; let o := amoOf (field 49 2 w)
  match sub with
  | 0 => some (.amoadd g d a b dw o) | 1 => some (.amoswp g d a b dw o)
  | 2 => some (.amocas g d a b (fC w) dw o) | 3 => some (.amomin g d a b dw o (bitAt 51 w))
  | 4 => some (.amomax g d a b dw o (bitAt 51 w)) | 5 => some (.amoand g d a b dw o)
  | 6 => some (.amoor g d a b dw o) | _ => none

def dec39 (sub : Nat) (g : Guard) (w : Nat) : Option Instr :=
  match sub with
  | 0 => some (.famoFx g (fA w) (fB w) (amoOf (field 49 2 w)))
  | 1 => some (.fxrd g (fD w) (fA w) (bitAt 48 w) (amoOf (field 49 2 w))) | _ => none

def dec3A (sub : Nat) (g : Guard) (w : Nat) : Option Instr :=
  match sub with
  | 0 => (scopeOf (field 16 3 w)).map fun sc => .fence g sc (field 48 5 w) | _ => none

def dec40 (sub : Nat) (g : Guard) (w : Nat) : Option Instr :=
  let t : TIdx := field 22 5 w
  match sub with
  | 0 => some (if bitAt 48 w then .tclaimTry g (fP 16 w) t else .tclaim g t)
  | 1 => some (.trel g t)
  | 2 => some (.tsync g (if bitAt 48 w then none else some t))
  | 3 => some (.hpos g (fD w) t) | _ => none

def dec41 (sub : Nat) (g : Guard) (w : Nat) : Option Instr :=
  let t : TIdx := field 22 5 w; let fd : FIdx := field 16 4 w
  match sub with
  | 0 => some (.seek g fd t (fImm w)) | 1 => some (.seekr g fd t (fImm w)) | 2 => some (.rew g fd t)
  | _ => none

def dec42 (sub : Nat) (g : Guard) (w : Nat) : Option Instr :=
  let t : TIdx := field 22 5 w; let fd : FIdx := field 16 4 w
  match sub with
  | 0 => some (.seekReg g fd t (fB w)) | 1 => some (.seekrReg g fd t (fB w)) | _ => none

def dec43 (sub : Nat) (g : Guard) (w : Nat) : Option Instr :=
  let t : TIdx := field 22 5 w
  match sub with
  | 0 => some (.trd g (fD w) t) | 1 => some (.twr g t (fD w)) | 2 => some (.trds g (fD w) t (fImm w))
  | 3 => some (.twrs g t (fD w) (fImm w)) | _ => none

def dec44 (sub : Nat) (g : Guard) (w : Nat) : Option Instr :=
  let t : TIdx := field 22 5 w; let v : VIdx := field 16 5 w
  match sub with
  | 0 => some (.vtrds g v t (fImm w)) | 1 => some (.vtwrs g t v (fImm w)) | _ => none

def dec45 (sub : Nat) (g : Guard) (w : Nat) : Option Instr :=
  let fd : FIdx := field 16 4 w; let q : QIdx := field 20 3 w; let t : TIdx := field 26 5 w
  match sub with
  | 0 => some (.tstream g fd q t (field 32 6 w) (field 64 5 w))
  | 1 => some (.tfill g fd t q (field 32 6 w) (field 64 5 w)) | _ => none

def fV (lo w : Nat) : VIdx := field lo 5 w

def dec50 (sub : Nat) (g : Guard) (ef : Ef) (rm : Rm) (w : Nat) : Option Instr :=
  let d := fV 16 w; let a := fV 22 w; let b := fV 28 w
  match sub with
  | 0 => some (.vadd g ef d a b rm (fSa w)) | 1 => some (.vsub g ef d a b rm (fSa w))
  | 2 => some (.vmul g ef d a b rm (fSa w)) | 3 => some (.vfma g ef d a b (fV 34 w) rm (fSa w))
  | 4 => some (.vmin g ef d a b) | 5 => some (.vmax g ef d a b) | 6 => some (.vabs g ef d a (fSa w))
  | 7 => some (.vneg g ef d a (fSa w)) | _ => none

def dec51 (sub : Nat) (g : Guard) (ef : Ef) (w : Nat) : Option Instr :=
  let d := fV 16 w; let a := fV 22 w; let b := fV 28 w
  match sub with
  | 0 => some (.vand g ef d a b) | 1 => some (.vor g ef d a b) | 2 => some (.vxor g ef d a b)
  | 3 => some (.vshl g ef d a b) | 4 => some (.vshr g ef d a b) | 5 => some (.vsra g ef d a b)
  | 6 => some (.vsel g ef d (fP 34 w) a b) | 7 => some (.vmov g ef d a) | _ => none

def dec53 (sub : Nat) (g : Guard) (ef : Ef) (rm : Rm) (w : Nat) : Option Instr :=
  let d := fV 16 w; let a := fV 22 w
  match sub with
  | 0 => (efOf (field 34 4 w)).map fun src => .vcvt g ef src d a (field 48 4 w) rm (fSa w)
  | 1 => some (.vrcp g ef d a rm (fSa w)) | 2 => some (.vrsqrt g ef d a rm (fSa w))
  | 3 => some (.vexp2 g ef d a) | 4 => some (.vlog2 g ef d a rm (fSa w)) | _ => none

def dec54 (sub : Nat) (g : Guard) (ef : Ef) (rm : Rm) (w : Nat) : Option Instr :=
  match sub with
  | 0 => some (.vredsum g ef (fV 16 w) (fV 22 w) rm (fSa w))
  | 1 => some (.vredmax g ef (fV 16 w) (fV 22 w)) | 2 => some (.vbcast g ef (fV 16 w) (fA w))
  | 3 => some (.vext g ef (fD w) (fV 22 w) (field 48 6 w))
  | 4 => some (.vins g ef (fV 16 w) (fA w) (field 48 6 w)) | _ => none

def dec55 (sub : Nat) (g : Guard) (ef : Ef) (w : Nat) : Option Instr :=
  let d := fV 16 w; let a := fV 22 w; let b := fV 28 w
  match sub with
  | 0 => some (.vperm g ef d a b) | 1 => some (.vshuf g ef d a b (fV 34 w))
  | 2 => some (.vpack g ef d a b (fSa w)) | 3 => some (.vunpack g ef d a (bitAt 48 w) (bitAt 49 w))
  | 4 => some (.vclear g) | _ => none

def dec56 (sub : Nat) (g : Guard) (ef : Ef) (rm : Rm) (w : Nat) : Option Instr :=
  (efOf (field 34 4 w)).bind fun src =>
  match sub with
  | 0 => some (.vquant g ef src (fV 16 w) (fV 22 w) (fB w) (field 50 3 w) (field 48 2 w) rm)
  | 1 => some (.vdeq g ef src (fV 16 w) (fV 22 w) (field 48 2 w) rm (fSa w)) | _ => none

def dec60 (sub : Nat) (g : Guard) (w : Nat) : Option Instr :=
  let d := fV 16 w; let a := fA w
  match sub with
  | 0 => some (.vld g d a (fImm w) (bitAt 48 w)) | 1 => some (.vst g d a (fImm w) (bitAt 49 w))
  | 2 => some (.vlda g (field 50 4 w) d a (fImm w))
  | 3 => some (.vldMx g d (fB w) (field 36 3 w) a (field 64 32 w) (bitAt 34 w)) | _ => none

def dec61 (sub : Nat) (g : Guard) (ef : Ef) (w : Nat) : Option Instr :=
  match sub with
  | 0 => some (.vldg g ef (fV 16 w) (fA w) (fV 28 w) (bitAt 48 w))
  | 1 => some (.vsts g ef (fV 16 w) (fA w) (fV 28 w) (bitAt 48 w)) | _ => none

def dec62 (sub : Nat) (g : Guard) (w : Nat) : Option Instr :=
  match sub with
  | 0 => some (.sbind g (fV 20 w) (match (field 64 2 w).toNat with
    | 0 => .rc (field 26 3 w) | 1 => .rp (field 26 3 w) | 2 => .th (field 26 5 w) (field 66 5 w)
    | _ => .sg (field 32 6 w) (field 38 6 w)))
  | _ => none

def dec64 (sub : Nat) (g : Guard) (w : Nat) : Option Instr :=
  let fd : FIdx := field 16 4 w
  let o1 : GReg := field 20 6 w; let o2 : GReg := field 26 6 w; let o3 : GReg := field 32 6 w
  let o4 : GReg := field 38 6 w; let o5 : GReg := field 44 6 w; let o6 : GReg := field 50 6 w
  let spl := bitAt 68 w
  let bar := barOf (field 66 2 w).toNat o4
  let dim := dimOf (field 64 2 w).toNat
  let sc : Option GReg := if spl then some o6 else none
  let str : Option GReg := if bitAt 70 w then some o5 else none
  match sub with
  | 0 => bar.bind fun bar => dim.map fun dim => .cp g fd o1 o2 o3 bar dim sc
  | 1 => bar.bind fun bar => dim.map fun dim => .cpm g fd o1 o2 o3 o5 bar dim sc (bitAt 69 w)
  | 2 => bar.map fun bar => .cpg g fd o1 o2 o3 o5 o6 bar spl
  | 3 => bar.map fun bar => .cpr g fd (field 20 3 w) o2 o3 bar str spl
  | 4 => bar.map fun bar => .cps g fd o1 (field 26 3 w) o3 bar str
  | 5 => dim.map fun dim => .cpsig g fd o1 o2 o3 o4 dim
  | _ => none

def dec65 (sub : Nat) (g : Guard) (w : Nat) : Option Instr :=
  match sub with
  | 0 => some (.cpcan g (fD w) (fA w)) | _ => none

def dec68 (sub : Nat) (g : Guard) (w : Nat) : Option Instr :=
  let q := fP 22 w; let b := fB w
  match sub with
  | 0 => some (.ring g (field 20 3 w) (field 26 6 w) (field 64 8 w) (field 72 7 w) (bitAt 79 w)
      (field 80 6 w))
  | 1 => some (.rpub g q b) | 2 => some (.radv g q b) | 3 => some (.rwait g q b)
  | 4 => some (.rfree g q b) | 5 => some (.rstat g (fD w) q (field 48 2 w)) | _ => none

def dec69 (sub : Nat) (g : Guard) (w : Nat) : Option Instr :=
  let d := fD w; let a := fA w; let b := fB w
  match sub with
  | 0 => some (.binit g a b) | 1 => some (.arrive g d a) | 2 => some (.arrivetx g d a b)
  | 3 => some (.bwait g a b) | 4 => some (.btest g (fP 16 w) (fP 34 w) a b) | _ => none

def dec6A (sub : Nat) (g : Guard) (w : Nat) : Option Instr :=
  let fa : FIdx := field 22 4 w; let fd : FIdx := field 16 4 w
  match sub with
  | 0 => some (.fwait g fa) | 1 => some (.ftst g (fP 16 w) (fP 34 w) fa) | 2 => some (.fcan g fa)
  | 3 => some (if bitAt 48 w then .fmovClr g fd else .fmov g fd fa)
  | 4 => some (.tlwait g (engOf (field 48 2 w)) (fA w))
  | 5 => some (.tlrd g (engOf (field 48 2 w)) (fD w) (bitAt 50 w)) | _ => none

def dec6C (sub : Nat) (g : Guard) (w : Nat) : Option Instr :=
  match sub with
  | 0 => some (.mark g (field 34 16 w) (field 64 32 w)) | 1 => some (.cut g (field 28 16 w) (fD w))
  | 2 => some (.graft g (fA w)) | 3 => some (.sdrop g (fA w)) | 4 => some (.frl g (fD w) (fA w))
  | 5 => some (.spillw g) | 6 => some (.fillw g) | _ => none

def dec6D (sub : Nat) (g : Guard) (w : Nat) : Option Instr :=
  let d := fD w; let a := fA w
  match sub with
  | 0 => some (.spawn g d a) | 1 => some (.yield g) | 2 => some (.send g d a (fB w))
  | 3 => some (if bitAt 48 w then .recvTry g d (fC w) else .recv g d (fC w))
  | 4 => some (.dsync g d (field 48 3 w)) | 5 => some (.dmem g d (fC w)) | 6 => some (.snaparm g d a)
  | _ => none

def dec6E (sub : Nat) (g : Guard) (w : Nat) : Option Instr :=
  match sub with
  | 0 => some (.gang g (fD w) (fImm w)) | 1 => some (.detach g) | 2 => some (.rejoin g (field 28 16 w))
  | _ => none

def dec70 (sub : Nat) (g : Guard) (w : Nat) : Option Instr :=
  match sub with
  | 0 => some (.kld g (fD w) (fA w) (fImm w) (bitAt 50 w) (bitAt 48 w))
  | 1 => some (.kst g (fD w) (fA w) (fImm w) (bitAt 49 w)) | _ => none

def dec71 (sub : Nat) (g : Guard) (w : Nat) : Option Instr :=
  let d := fD w; let a := fA w; let keep := bitAt 48 w
  let src : KSrc := if bitAt 49 w then .g (fB w) else .k (fB w)
  match sub with
  | 0 => some (.kmov g d (if bitAt 49 w then .g (fB w) else .k a) keep)
  | 1 => some (.kadd g d a src keep) | 2 => some (.ksub g d a src keep)
  | 3 => some (.kmax g d a src keep) | 4 => some (.kmin g d a src keep)
  | 5 => some (.knorm g d a (fC w) keep) | _ => none

def dec72 (sub : Nat) (g : Guard) (w : Nat) : Option Instr :=
  match sub with
  | 0 => some (if bitAt 51 w then .kbindQ g (fP 22 w) (fC w) (fB w) (field 48 3 w) (bitAt 52 w)
      else .kbind g (fV 16 w) (fB w) (field 48 3 w) (bitAt 52 w))
  | 1 => some (if bitAt 48 w then .kgenBump g (fA w) else .kgen g (fD w) (fA w)) | _ => none

def dec73 (sub : Nat) (g : Guard) (w : Nat) : Option Instr :=
  match sub with
  | 0 => some (.vsave g (fA w) (fImm w) (field 50 2 w))
  | 1 => some (.vrest g (fA w) (fImm w) (field 50 2 w)) | _ => none

def dec76 (sub : Nat) (g : Guard) (w : Nat) : Option Instr :=
  match sub with
  | 0 => (efOf (field 52 4 w)).bind fun efa => (efOf (field 56 4 w)).map fun efb =>
      .mma g (field 64 4 w) (field 16 4 w) (field 24 3 w) (field 27 3 w) (field 30 6 w) (field 36 6 w)
        efa efb (field 80 8 w) (field 88 8 w) (bitAt 96 w) (bitAt 97 w)
  | 1 => some (.mmz g (field 64 4 w) (field 16 4 w) (field 96 4 w)) | _ => none

def dec77 (sub : Nat) (g : Guard) (w : Nat) : Option Instr :=
  match sub with
  | 0 => (efOf (field 44 4 w)).bind fun ef => (rmOf (field 41 3 w)).map fun rm =>
      .mova g ef (fV 16 w) (field 22 4 w) rm (fSa w)
  | 1 => some (.mchk g (fD w) (if bitAt 48 w then some (fA w) else none) (bitAt 49 w)) | _ => none

def dec78 (sub : Nat) (g : Guard) (w : Nat) : Option Instr :=
  match sub with
  | 0 => some (.msta g (field 16 4 w) (fA w) (fImm w) (bitAt 49 w)) | _ => none

def attnModeOf (mode : Nat) (kstep : BitVec 8) : Option AttnMode :=
  match mode with
  | 0 => some (.plain kstep) | 1 => some (.expand kstep) | 2 => some .absorb | _ => none

def dec79 (sub : Nat) (g : Guard) (w : Nat) : Option Instr :=
  let fd : FIdx := field 64 4 w; let ad : AIdx := field 16 4 w; let qb : QIdx := field 27 3 w
  let kb : KIdx := field 36 6 w; let qoff : BitVec 8 := field 80 8 w
  let mode := (field 60 4 w).toNat
  match sub with
  | 0 => (attnModeOf mode (field 88 8 w)).bind fun m => (efOf (field 52 4 w)).bind fun fq =>
      (efOf (field 56 4 w)).map fun fk =>
      .attnS g fd m fq fk (field 24 3 w) qb kb qoff (field 96 6 w) (bitAt 102 w)
  | 1 => some (.attnP g fd ad (field 96 4 w))
  | 2 => (attnModeOf mode (field 88 8 w)).bind fun m => (efOf (field 56 4 w)).map fun fv =>
      .attnV g fd m fv ad qb kb qoff (bitAt 102 w)
  | 3 => match mode with
    | 0 => some (.attnF g fd ad (field 20 4 w) none (field 96 4 w))
    | 2 => (efOf (field 56 4 w)).map fun fw =>
        .attnF g fd ad (field 20 4 w) (some (fw, qb, qoff, field 96 2 w)) 0
    | _ => none
  | _ => none

def dec7A (sub : Nat) (g : Guard) (w : Nat) : Option Instr :=
  match sub with
  | 0 => (efOf (field 52 4 w)).bind fun fq => (efOf (field 56 4 w)).map fun fw =>
      .qabs g (field 64 4 w) fq fw (field 24 3 w) (field 27 3 w) (field 80 8 w) (field 88 8 w)
  | _ => none

def dec7B (sub : Nat) (g : Guard) (w : Nat) : Option Instr :=
  match sub with
  | 0 => some (.lxcfg g (field 16 4 w) (field 20 6 w))
  | 1 => some (.smxcfg g (field 16 4 w) (field 20 6 w)) | _ => none

def dec7E (sub : Nat) (g : Guard) (w : Nat) : Option Instr :=
  let d := fD w; let a := fA w; let b := fB w
  match sub with
  | 0 => some (.tlbw g d a b (fC w))
  | 1 => some (.tlbi g d a b (field 48 2 w) (bitAt 50 w) (bitAt 51 w))
  | 2 => some (.frep g d a b) | 3 => some (.idle g) | 4 => some (.rdtime g d) | 5 => some (.sevw g a)
  | _ => none

/-- Majors 0x00-0x4F. -/
def candidateLow (op sub : Nat) (g : Guard) (w : Nat) : Option Instr :=
  match op with
  | 0x00 => dec00 sub g w | 0x01 => dec01 sub g w | 0x02 => dec02 sub g w | 0x03 => dec03 sub g w
  | 0x0F => dec0F sub g w | 0x10 => dec10 sub g w | 0x11 => dec11 sub g w | 0x12 => dec12 sub g w
  | 0x13 => dec13 sub g w | 0x14 => dec14 sub g w
  | 0x20 => some (.cmp g (condOf sub) (fP 16 w) (fP 34 w) (fA w) (fB w))
  | 0x21 => some (.cmpi g (condOf sub) (fP 16 w) (fP 48 w) (fA w) (fImm w))
  | 0x22 => dec22 sub g w | 0x23 => dec23 sub g w | 0x28 => dec28 sub g w | 0x29 => dec29 sub g w
  | 0x2A => dec2A sub g w | 0x2B => dec2B sub g w | 0x2C => dec2C sub g w | 0x30 => dec30 sub g w
  | 0x31 => dec31 sub g w | 0x32 => dec32 sub g w | 0x33 => dec33 sub g w | 0x34 => dec34 sub g w
  | 0x38 => dec38 sub g w | 0x39 => dec39 sub g w | 0x3A => dec3A sub g w | 0x40 => dec40 sub g w
  | 0x41 => dec41 sub g w | 0x42 => dec42 sub g w | 0x43 => dec43 sub g w | 0x44 => dec44 sub g w
  | 0x45 => dec45 sub g w
  | _ => none

/-- The vector majors 0x50-0x63. -/
def candidateVec (op sub : Nat) (g : Guard) (w : Nat) : Option Instr :=
  match op with
  | 0x60 => dec60 sub g w | 0x62 => dec62 sub g w
  | 0x63 => if sub = 0 then some (.sunbind g (fV 16 w)) else none
  | _ =>
    (efOf (field 44 4 w)).bind fun ef => (rmOf (field 41 3 w)).bind fun rm =>
    match op with
    | 0x50 => dec50 sub g ef rm w | 0x51 => dec51 sub g ef w
    | 0x52 => (vcondOf sub).map fun c => .vcmp g c ef (fP 16 w) (fP 34 w) (fV 22 w) (fV 28 w)
    | 0x53 => dec53 sub g ef rm w | 0x54 => dec54 sub g ef rm w | 0x55 => dec55 sub g ef w
    | 0x56 => dec56 sub g ef rm w | 0x61 => dec61 sub g ef w
    | _ => none

/-- Majors 0x64-0x7E. -/
def candidateHigh (op sub : Nat) (g : Guard) (w : Nat) : Option Instr :=
  match op with
  | 0x64 => dec64 sub g w | 0x65 => dec65 sub g w | 0x68 => dec68 sub g w | 0x69 => dec69 sub g w
  | 0x6A => dec6A sub g w | 0x6C => dec6C sub g w | 0x6D => dec6D sub g w | 0x6E => dec6E sub g w
  | 0x70 => dec70 sub g w | 0x71 => dec71 sub g w | 0x72 => dec72 sub g w | 0x73 => dec73 sub g w
  | 0x76 => dec76 sub g w | 0x77 => dec77 sub g w | 0x78 => dec78 sub g w | 0x79 => dec79 sub g w
  | 0x7A => dec7A sub g w | 0x7B => dec7B sub g w | 0x7E => dec7E sub g w
  | _ => none

/-- The instruction that a word other than a pair word names by its major and sub-function, with the
fields read from the places of its format. -/
def candidate1 (op sub : Nat) (g : Guard) (w : Nat) : Option Instr :=
  if op < 0x50 then candidateLow op sub g w
  else if op < 0x64 then candidateVec op sub g w
  else candidateHigh op sub g w

/-- The same for every word; the halves of a pair word take its guard (R23). -/
def candidate (w : Nat) : Option Instr :=
  let op := (field 6 7 w).toNat
  let sub := (field 13 3 w).toNat
  let g := fGuard w
  if op = 0x7F then
    if sub = 0 then
      (candidate1 (field 54 7 w).toNat (field 61 3 w).toNat g (w % 2 ^ 54)).bind fun s =>
      (candidate1 (field 70 7 w).toNat (field 77 3 w).toNat g (w / 2 ^ 64)).map fun v =>
      .pair g s v
    else none
  else candidate1 op sub g w

/-- Why a word is not an instruction (R27, R28). -/
inductive Reject where
  /-- LEN = 0b11. -/
  | badLength (parcel : Nat)
  /-- The instruction would cross its fetch block, or bytes are missing. -/
  | crossesBlock (parcel : Nat)
  /-- Major or sub-function unassigned, or a modifier value that R18 reserves. -/
  | unassigned (low : Nat)
  /-- LEN does not match the format. -/
  | lengthMismatch (low : Nat)
  /-- A reserved field, slot bit or FX bit is set. -/
  | reservedBits (low : Nat)
  /-- A field holds a value that the entry lists as illegal at decode, or a pair word breaks R24. -/
  | illegalField (low : Nat)
  deriving DecidableEq, Repr

/-- tval of the illegal-instruction trap (R28). -/
def Reject.tval : Reject → Word
  | .badLength p | .crossesBlock p | .unassigned p | .lengthMismatch p | .reservedBits p
  | .illegalField p => BitVec.ofNat 64 p

/-- Decode one word of length code len. -/
def decodeWord (len w : Nat) : Except Reject Instr :=
  let low := w % 2 ^ 64
  match candidate w with
  | none => .error (.unassigned low)
  | some i =>
    match encodeWord i with
    | none => .error (.unassigned low)
    | some (l, w') =>
      if l ≠ len then .error (.lengthMismatch low)
      else if w' ≠ w then .error (.reservedBits low)
      else if i.wf then .ok i else .error (.illegalField low)

/-- Decode the instruction at the front of the bytes that remain in its fetch block: the
instruction and its bytes. Total on any bytes. -/
def decode (bs : List Byte) : Except Reject (Instr × Nat) :=
  let p := ofBytesLE (bs.take 4)
  let len := p % 4
  if len = 3 then .error (.badLength p)
  else
    let n := lenBytes len
    if bs.length < n then .error (.crossesBlock p)
    else (decodeWord len (ofBytesLE (bs.take n))).map fun i => (i, n)

/-! ## The encoder -/

/-- The bytes of an instruction in memory; none for an event. -/
def encode (i : Instr) : Option (List Byte) :=
  (encodeWord i).map fun (len, w) => bytesLE (lenBytes len) w

/-- The instruction's length in bytes; 0 for an event. -/
def Instr.bytes (i : Instr) : Nat := ((encodeWord i).map fun (len, _) => lenBytes len).getD 0

/-- Bits 63:0 of the instruction, the tval of several traps. -/
def Instr.low (i : Instr) : Word := BitVec.ofNat 64 (((encodeWord i).map (·.2)).getD 0)

/-- The major opcode; 0x80 for an event. -/
def Instr.major : Instr → Nat
  | .pair .. => 0x7F
  | i => ((enc i).map (·.op)).getD 0x80

/-- The sub-function. -/
def Instr.subf (i : Instr) : Nat := ((enc i).map (·.sub)).getD 0

/-- Vector class: majors 0x50-0x63 (R26). A pair word is of both classes. -/
def Instr.isVectorClass (i : Instr) : Bool := 0x50 ≤ i.major && i.major ≤ 0x63

/-- The host's question: the instruction that decode reads from bits numbered as the opcode table
numbers them, bits above nbits being 0 up to the longest instruction of 16 bytes. -/
def decodeTableWord (nbits w : Nat) : Option Instr :=
  match decode (bytesLE 16 (w % 2 ^ nbits)) with
  | .ok (i, _) => some i
  | .error _ => none

end Sys2Proof
end

