-- ==== Sys2Proof/Config.lean ====
section
/-! DEFINITION. What the manual leaves open and an implementation fixes: free values with no body,
and the sizes the manual names. Every opaque constant here is named in the assumption log. -/

namespace Sys2Proof

/-- A free bit for the n-th choice the manual leaves open (which bytes of a faulted copy landed,
which of two values an overlapping copy leaves). Spec/11 R167, R179. Log entry 11. -/
opaque Config.freeBit : Nat → Bool

/-- A free byte for the n-th value the manual leaves open. Log entry 11. -/
opaque Config.freeByte : Nat → BitVec 8

/-- A free number for the n-th choice among several that the manual leaves open (which value a
constant-path load returns, spec/12 R206). Log entry 11. -/
opaque Config.freeNat : Nat → Nat

/-- The skew of a cluster's time-base copy at the n-th read: 0, 1 or 2 stands for -1, 0, +1 tick
(spec/22 R361). Log entry 12. -/
opaque Config.tbaseSkew : Nat → Fin 3

/-- SHAKE256 with 64 bytes of output, which the manual names and does not define (spec/23 R365, R366).
Log entry 13. -/
opaque Config.shakeByte : List (BitVec 8) → Fin 64 → BitVec 8
def Config.shake256 (m : List (BitVec 8)) : List (BitVec 8) := List.ofFn (Config.shakeByte m)

/-- An Ed448 signature, of 114 bytes, under a secret key (spec/23 R365, R367). Log entry 13. -/
opaque Config.ed448Byte : (key msg : List (BitVec 8)) → Fin 114 → BitVec 8
def Config.ed448Sign (key msg : List (BitVec 8)) : List (BitVec 8) := List.ofFn (Config.ed448Byte key msg)

/-- The public half, of 57 bytes, of an Ed448 key (spec/23 R365, R366). Log entry 13. -/
opaque Config.publicByte : (key : List (BitVec 8)) → Fin 57 → BitVec 8
def Config.publicHalf (key : List (BitVec 8)) : List (BitVec 8) := List.ofFn (Config.publicByte key)

/-- Ed448 verification of a signature under a public key (spec/23 R365). Log entry 13. -/
opaque Config.ed448Verify : (pub msg sig : List (BitVec 8)) → Bool

/-- The key that SPDM derives for an IDE stream from the alias key and the host's exchange
(spec/23 R367). Log entry 13. -/
opaque Config.ideKey : (keyIK exchange : List (BitVec 8)) → List (BitVec 8)

/-- The decoded data of a 64-byte HBM4E line with more than two bad symbols, for which the manual
gives no guarantee: whether the error is noticed (spec/22 R349). Log entry 14. -/
opaque Config.hbmManyErrors : Nat → Bool

/-- The fuses and the flash of a package as the part came: the unique secret, the key slots as revoked and
hash, the minimum security version, the images of slots A and B (spec/23 R365, R366). Log entry 13. -/
opaque Config.secret : (pkg : Nat) → List (BitVec 8)
opaque Config.keySlot : (pkg slot : Nat) → Bool × List (BitVec 8)
opaque Config.minSvn : (pkg : Nat) → Nat
opaque Config.flashImage : (pkg : Nat) → (slotB : Bool) → List (BitVec 8)

/-- The identity key derived from the secret, and the maker's certificate of its public half in the flash (spec/23
R366). Log entry 13. -/
opaque Config.identityKey : (secret : List (BitVec 8)) → List (BitVec 8)
opaque Config.identityCert : (pkg : Nat) → List (BitVec 8)

/-- The alias key derived from the secret and M0 (spec/23 R366). Log entry 13. -/
opaque Config.aliasKey : (secret m0 : List (BitVec 8)) → List (BitVec 8)

/-- What the manual does not give of the flit CRC-32 beside its polynomial: the initial value, the final
exclusive or, the bit order (spec/21 R338). Log entry 24. -/
opaque Config.crcInit : BitVec 32
opaque Config.crcFinal : BitVec 32
opaque Config.crcReflected : Bool

/-- The payload of a request, response or signal flit, whose layout the manual does not give (spec/21
R338), by type, number, destination package and address, and the data that it carries. Log entry 24. -/
opaque Config.flitBody : (type num dst addr : Nat) → (data : List (BitVec 8)) → Fin 120 → BitVec 8

/-- The nominal voltage of a die in mV, the part's value (spec/22 R357). Log entry 9. -/
opaque Config.vnom : (die : Nat) → BitVec 16

/-- Feature bits of cap0 that a package's silicon has (spec/23 R368). Log entry 9. -/
opaque Config.silicon : (pkg : Nat) → BitVec 13

/-- The spare maps that firmware builds at a package reset, by the resets so far: the physical clusters of a die in
the order of its seats, of which 0-97 are taken first, and the physical cores of a cluster, of which 0-63 are
(spec/00 R2, spec/22 R356). Log entry 5. -/
opaque Config.clusterPerm : (boots die : Nat) → Equiv.Perm (Fin 100)
opaque Config.corePerm : (boots cluster : Nat) → Equiv.Perm (Fin 72)

/-- What the manual does not give of a codeword of the fabric (spec/21 R338): its 20-bit header, the check symbols of
RS(544,514), and which symbols each lane carries. Log entry 24. -/
opaque Config.codeHeader : Nat → BitVec 20
opaque Config.codeCheck : List (BitVec 10) → Fin 30 → BitVec 10
opaque Config.codeStripe : Equiv.Perm (Fin 544)

/-- What a read of a write-only register returns (spec/00 R4). Log entry 25. -/
opaque Config.writeOnly : Nat → BitVec 64

/-- Clusters, cores, dies and slots of one package (spec/00 R1). -/
def Config.clusters : Nat := 1568
def Config.cores : Nat := 100352
def Config.dies : Nat := 16
def Config.clustersPerDie : Nat := 98
def Config.coresPerCluster : Nat := 64
def Config.trackSlots : Nat := 2048
def Config.sramBytes : Nat := 32768

end Sys2Proof
end

