-- ==== Sys2Proof/Machine/State.lean ====
section
/-! DEFINITION. The state of the machine: everything spec/ gives it, as plain data. Large arrays are
sparse tables whose unlisted entries read as the reset value, so `State.reset` lists nothing. Numbers:
a core is P * 100352 + n (package P, architected core n), a cluster P * 1568 + c, a die P * 18 + d, a
thread 4 * core + t. Addresses of memory cells: P * 2^48 + physical address for HBM4E and CXL memory
(46 bits, spec/10 R149), P * 2^48 + 2^47 + 32768 * n + offset for the SRAM of core n. -/

namespace Sys2Proof.Machine

/-- A sparse table; what an unlisted key reads as is said where the table is read. -/
abbrev Tbl (α : Type) := List (Nat × α)

/-! ## Scale tags, vector registers, futures, timelines -/

/-- A scale tag: k index, generation, block offset (spec/08 R121). -/
structure Tag where
  k : BitVec 6
  gen : BitVec 4
  o : BitVec 3
  deriving DecidableEq, Repr

/-- A vector register: 512 bits and its tag (R121). -/
structure VReg where
  data : BitVec 512 := 0
  tag : Option Tag := none
  deriving DecidableEq, Repr

/-- How the operation a future names stands (spec/11 R169). -/
inductive OpEnd where
  | pending | done | faulted
  deriving DecidableEq, Repr

/-- A future register (R169); `st` is the state of the operation it names. -/
structure Future where
  v : Bool := false
  eng : Eng := .ld
  c : Bool := false
  n : Nat := 0
  st : OpEnd := .done
  faddr : Word := 0
  deriving DecidableEq, Repr

/-- A timeline: LAST, CUR and the numbers above CUR that have ended (R166). -/
structure Timeline where
  last : Nat := 0
  cur : Nat := 0
  ended : List Nat := []
  deriving DecidableEq, Repr

/-! ## Translation -/

/-- A translation entry: words T, D and S (spec/10 R151). -/
structure TlbEnt where
  t : Word
  d : Word
  s : Word
  deriving DecidableEq, Repr

/-- A translation that a copy holds (R164): the cluster it was found in and the entry. -/
structure Pin where
  cluster : Nat
  ent : TlbEnt
  deriving DecidableEq, Repr

/-- Where an access goes: bytes of memory, a word of a track, a device register. -/
inductive Place where
  | cell (key : Nat)
  /-- Memory by way of the cluster read buffer (path 0x6). -/
  | const (key : Nat)
  | slot (core track slot off : Nat)
  | reg (off : Nat)
  deriving DecidableEq, Repr

/-! ## Engine operations -/

/-- What `cpg` holds of a sequence from its begin to its end: the physical key of the header, SGEN, NTOK,
BPT and the address of the active array (spec/20 R325). -/
structure SeqPin where
  hdr : Nat
  sgen : Nat
  ntok : Nat
  bpt : Nat
  arr : Word
  deriving DecidableEq, Repr

/-- A ring slot that a matrix command reads: its place, its bytes when the command began, and the entries
and the block offset of its scales (spec/19 R301, R305). -/
structure SlotRead where
  key : Nat
  bytes : List Byte
  scale : Option (BitVec 256 × Nat) := none
  deriving DecidableEq, Repr

/-- An operation of an engine or of the load-issue queue, with the operands it fixed at issue
(spec/11 R165-R168, spec/16 R276). -/
structure Op where
  num : Nat
  eng : Eng
  th : Nat
  instr : Instr
  fd : FIdx
  pc : Pc
  /-- The held rest of a ring command stopped at a slot boundary. -/
  rest : Bool := false
  /-- Operands fixed at issue, in the order of words 4-15 of the held list. -/
  args : List Word := []
  /-- Scale bindings recorded at issue for slots 0-3 of the A and B operands (spec/18 R287). -/
  bindA : List (Option Tag) := []
  bindB : List (Option Tag) := []
  /-- LXC as the last earlier `lxcfg` set it (spec/19 R304). -/
  lxc : Word := 0
  /-- The guard bits of a `vlda`; the payload bytes that a ring copy has delivered. -/
  mask : Word := 0
  started : Bool := false
  /-- Ring slots, or destinations of `cpm`, already served; the format code of a `vlda`. -/
  served : Nat := 0
  /-- Address on path 0x5: the operation acts on the frame store (spec/14 R229). -/
  frame : Bool := false
  /-- Translations that a copy holds (R164). -/
  held : List Pin := []
  /-- Where an asynchronous load found its bytes when it started, with how many there: each of its lanes translates
  once (R164). -/
  places : List (Place × Nat) := []
  /-- What a copy in progress has read: the byte's place in pattern order, its destination, the byte that is to land
  there; the destinations that it has written (spec/11 R179). -/
  got : List (Nat × Nat × Byte) := []
  landed : List Nat := []
  /-- Fault entry that the operation waits on: cluster, entry, generation. -/
  wait : Option (Nat × Nat × Nat) := none
  /-- The pin of `cpg` on a sequence (spec/20 R325). -/
  seq : Option SeqPin := none
  /-- The source was named on path 0x5, which never splits (spec/11 R181). -/
  noSplit : Bool := false
  /-- The slots of a matrix command that has begun: first operand, second operand, weights. -/
  readA : List SlotRead := []
  readB : List SlotRead := []
  readW : List SlotRead := []
  deriving DecidableEq, Repr

/-! ## Threads -/

/-- A stream binding of v24-v31 (spec/08 R140). -/
structure Bind where
  kind : Nat
  ring : Nat := 0
  track : Nat := 0
  stride : Int := 0
  j : Nat := 0
  cursor : Word := 0
  cstride : Word := 0
  deriving DecidableEq, Repr

/-- Frame kinds (spec/14 R224). -/
inductive FrameKind where
  | window | mark | graft
  deriving DecidableEq, Repr

/-- A frame of the frame store, as the frame mechanism pushed it (R224, R225; log entry 83). -/
structure Frame where
  at_ : Nat
  kind : FrameKind
  tag : BitVec 16 := 0
  loc : Nat := 0
  size : Nat
  deriving DecidableEq, Repr

/-- A token: its value, whether it is a bounce, the record of the sender or the gone record (R244, R276),
and the key of the sender's record, 0 when only its address is known. -/
structure Token where
  tok : Word
  bounce : Bool
  src : Word
  key : Nat := 0
  deriving DecidableEq, Repr

/-- A synchronous access blocked on a fault message (spec/10 R155): the entry, units already moved,
whether the access was the vector half of a pair word. -/
structure Blocked where
  cluster : Nat
  entry : Nat
  gen : Nat
  moved : Nat
  vh : Bool
  /-- The access is the thread's instruction fetch. -/
  fetch : Bool := false
  deriving DecidableEq, Repr

/-- A delivered fault that the thread has yet to take (R158, spec/16 R274). -/
structure Delivered where
  addr : Word
  kind : Nat
  moved : Nat
  vh : Bool
  deriving DecidableEq, Repr

/-- A thread's place in a gang (spec/15 R261). -/
structure GangRole where
  leader : Nat
  n : Nat
  attached : Bool
  /-- Token it waits with at `rejoin`. -/
  token : Option (BitVec 16) := none
  /-- Leader: the next pcs it chose that some attached follower has yet to choose, oldest first.
  Follower: the next pc that it chose in this turn and that is yet to be compared. -/
  trail : List Pc := []
  /-- Follower whose leader has exited: the next pcs still to follow before it exits (R261). -/
  rest : List Pc := []
  ending : Bool := false
  /-- Instructions executed since the gang formed. -/
  count : Nat := 0
  deriving DecidableEq, Repr

/-- What a thread that issues nothing is waiting in, for the watchdog (R262). -/
inductive WaitKind where
  | bwait (addr : Word) | dsync | rejoin (tok : BitVec 16)
  deriving DecidableEq, Repr

/-- The state of a thread slot and of the thread bound to it (spec/03 R31). -/
structure Thread where
  bound : Bool := false
  /-- Address of the bound record (spec/14 R237), its flags and fields. -/
  rec_ : Word := 0
  flagE : Bool := false
  flagM : Bool := false
  flagT : Bool := false
  dom : Nat := 0
  level : Nat := 0
  prio : Nat := 0
  w3 : Word := 0
  spn : Nat := 0
  /-- General registers by physical number: 1-15 the globals, 64-231 the 168 window registers,
  272-319 the trap window. Unlisted reads 0. -/
  regs : Tbl Word := []
  /-- Window register that g16 names (spec/03 R36). -/
  cwb : Nat := 0
  inTrap : Bool := false
  v : Tbl VReg := []
  /-- Live vector state: a vector register written, or a stream bound, since the last `vclear` (spec/08 R133). -/
  vlive : Bool := false
  p : Tbl Word := []
  f : Tbl Future := []
  ls : Tbl Word := []
  le : Tbl Word := []
  lc : Tbl Word := []
  cls : Word := 0
  pc : Pc := 0
  tvec : Word := 0
  tpc : Word := 0
  tcause : Word := 0
  tval : Word := 0
  tlLd : Timeline := {}
  tlCe : Timeline := {}
  tlTe : Timeline := {}
  tlMe : Timeline := {}
  /-- wst (R42). -/
  res : Nat := 1
  depth : Nat := 0
  rngs : BitVec 32 := 1
  /-- The frame store: frame track, frame area, top, frames from the top down (spec/14 R222-R226). -/
  ftrk : Option Nat := none
  ab : Word := 0
  al : Nat := 0
  fsp : Nat := 41
  frames : List Frame := [{ at_ := 0, kind := .window, size := 41 }]
  binds : Tbl Bind := []
  /-- Cycles left of a `wait` (spec/04 R70). -/
  waitN : Nat := 0
  /-- Stalled in `idle`, and the event flag (spec/15 R265). -/
  idle : Bool := false
  evf : Bool := false
  rq : List Token := []
  blocked : Option Blocked := none
  delivered : Option Delivered := none
  /-- What the thread waits in and the ticks it has waited (R262). -/
  waiting : Option WaitKind := none
  waited : Nat := 0
  /-- A watchdog trap that is due. -/
  wdTrap : Option Word := none
  /-- What the `dsync` at the pc returns, once the superstep has completed (spec/15 R258). -/
  dsyncRes : Option Word := none
  /-- A forced save that has begun; whether the record is queued again (an eviction). -/
  saving : Option Bool := none
  lastTime : Nat := 0
  /-- What the time-base copy that it last stopped under showed: it executes nothing before its cluster's copy has
  come so far (spec/22 R361). -/
  tbHold : Nat := 0
  /-- Flipped bits of register code words (spec/22 R349), by `gErr`, `vErr`, `pErr` and `fErr`. -/
  errs : Tbl (BitVec 72) := []
  /-- Writes of the device's memory (`State.old`) that the thread's last package-scope `.ll` fence follows,
  and those that its constant-path loads of a location have seen (spec/12 R206). -/
  constFrom : Nat := 0
  constSeen : Tbl Nat := []
  /-- Writes that stood when the thread began or last passed a suspension point: the old contents of a fetch
  block (spec/02 R30). -/
  fetchFrom : Nat := 0
  /-- The fetch blocks (physical address / 32) written since then, and whether the thread fetches them old (R30). -/
  fetchOld : Tbl Bool := []
  gang : Option GangRole := none
  /-- The load-issue queue (spec/11 R165). -/
  ldq : List Op := []
  /-- Held operations that a bind brought back and that have yet to find room in their queues: the thread issues
  nothing before they have (R165, R168). -/
  requeue : List Op := []
  /-- A `tlbi` that waits: the copies, by thread and number, that held translations it removed and have yet to end,
  and its result (spec/10 R163). -/
  tlbiWait : Option (List (Nat × Nat) × Word) := none
  /-- A `sdrop` that has cleared LIVE and waits (spec/14 R235). -/
  sdropped : Option Word := none
  /-- Killed; its started operations have yet to end (R246). The second trap of a double trap. -/
  dying : Bool := false
  dbl : Option (Word × Word × Word) := none
  deriving DecidableEq, Repr

/-! ## Cores -/

/-- Who holds a track: nobody, a thread index, or a suspended record (spec/05 R77, R80). -/
inductive Claim where
  | none | thread (t : Nat) | record (key : Nat)
  deriving DecidableEq, Repr

/-- A track: 2,048 slots with position codes, head, claim (spec/05 R75-R77). A slot unlisted in
`codes` carries the code of its number. `synd` holds flipped bits of a slot's 72-bit code word
(data below bit 64, spec/22 R381); `slip` is how far the port stands from the head (R94). -/
structure Track where
  slots : Tbl Word := []
  codes : Tbl (BitVec 3) := []
  synd : Tbl (BitVec 72) := []
  head : Nat := 0
  claim : Claim := .none
  slip : Int := 0
  deriving DecidableEq, Repr

/-- An operand ring (spec/11 R186, R187); NS = 0 is undeclared. -/
structure Ring where
  base : Nat := 0
  sb : Nat := 0
  ns : Nat := 0
  pool : Bool := false
  kf : Nat := 0
  pp : Nat := 0
  cp : Nat := 0
  fc : Nat := 0
  tags : Tbl Tag := []
  deriving DecidableEq, Repr

/-- A check shadow (spec/19 R309). -/
structure Shadow where
  rs : Tbl (BitVec 32) := []
  cs : Tbl (BitVec 32) := []
  mr : Tbl (BitVec 32) := []
  mc : Tbl (BitVec 32) := []
  xf : Bool := true
  deriving DecidableEq, Repr

/-- The score buffer's state (spec/19 R299). -/
inductive BufState where
  | empty | scores | probs
  deriving DecidableEq, Repr

/-- The matrix stage state (R299). -/
structure Stage where
  lxc : Word := 32
  mult : BitVec 32 := 0x3F800000
  max : Tbl (BitVec 32) := []
  hi : Tbl (BitVec 32) := []
  lo : Tbl (BitVec 32) := []
  zcnt : Nat := 0
  bufState : BufState := .empty
  /-- Scores as FP32 codes, or probabilities as E4M3 codes, at 32 h + t. -/
  buf : Tbl (BitVec 32) := []
  bufShadow : Tbl Shadow := []
  q : Tbl (BitVec 8) := []
  qs : Tbl (BitVec 8) := []
  ctol : BitVec 32 := 0x37800000
  cor : Nat := 0
  unc : Nat := 0
  deriving DecidableEq, Repr

/-- The state of a core (spec/03 R32, spec/05 R95, spec/18 R284, spec/19 R299, spec/22 R356). -/
structure Core where
  fmt : BitVec 4 := 12
  stky : Bool := false
  owner : Option Nat := none
  tracks : Tbl Track := []
  rcnt : Nat := 0
  fcnt : Nat := 0
  spare : Nat := 4
  last : Nat := 0
  fail : BitVec 32 := 0
  tsteps : Word := 0
  tdsel : Word := 0
  fenced : Bool := false
  /-- The physical core that stands for it, as a seat of `Config.corePerm`; none: its own index (spec/00 R2). -/
  seat : Option Nat := none
  /-- The thread that last issued a scalar-class instruction, and a vector-class one (spec/03 R33; log entry 10). -/
  lastS : Nat := 3
  lastV : Nat := 3
  /-- Flipped bits of code words of k and a registers and rings (spec/22 R349), by `kErr`, `aErr` and `qErr`. -/
  errs : Tbl (BitVec 72) := []
  rings : Tbl Ring := []
  /-- Entries of kn, entry j in bits 8j+7:8j; unlisted is 0x7F in every entry (R284). -/
  kents : Tbl (BitVec 256) := []
  kgen : Tbl (BitVec 4) := []
  /-- Element (i, j) of an at 64 n + 8 i + j, FP32. -/
  acc : Tbl (BitVec 32) := []
  shadow : Tbl Shadow := []
  stage : Stage := {}
  /-- LXC of the last `lxcfg` issued (R304). -/
  lxcIssued : Word := 32
  ce : List Op := []
  te : List Op := []
  me : List Op := []
  /-- Micro-TLB, most recently used first, at most 32 (spec/10 R155). -/
  utlb : List TlbEnt := []
  deriving DecidableEq, Repr

/-! ## Clusters, dies -/

/-- Who waits on a fault-buffer entry (spec/10 R157, R158). -/
inductive Waiter where
  /-- A synchronous access or fetch of a thread slot, with the key of the record bound there, or of a gang's follower
  2^90 and its slot. -/
  | sync (th : Nat) (key : Nat)
  /-- An operation of a thread. -/
  | op (th : Nat) (eng : Eng) (num : Nat)
  /-- A launch that a package checks (spec/15 R249). -/
  | launch (pkg : Nat)
  /-- A job of a compaction engine (spec/20 R330). -/
  | compact (pkg e : Nat)
  /-- The scheduler's write of a record word, as the access of a thread at a pc (spec/14 R380), or the frame
  mechanism's of a word of a slice heap, whose pages grant programs no W (R233). -/
  | recWrite (frame : Bool) (th : Nat) (pc : Pc) (spn : Nat) (addr mask val : Word)
  deriving DecidableEq, Repr

/-- A fault-buffer entry: the message (R156) and its waiters. -/
structure FaultEnt where
  msg : BitVec 256
  waiters : List Waiter
  deriving DecidableEq, Repr

/-- A record in a ready queue: key, priority, ticks at which it became queued (spec/15 R252). -/
structure QEnt where
  key : Nat
  prio : Nat
  since : Nat
  /-- Flipped bits of its code word, which holds the record's address (spec/22 R349). -/
  err : BitVec 72 := 0
  deriving DecidableEq, Repr

/-- A token parked for a record, with the domain that the record's word 2 names and its place in the order of the
record's parked tokens (spec/14 R244). -/
structure Parked where
  key : Nat
  tok : Token
  dom : Nat
  ord : Nat := 0
  /-- Flipped bits of its code word, which holds the token (spec/22 R349). -/
  err : BitVec 72 := 0
  deriving DecidableEq, Repr

/-- A thread on its way to a slot of another core (spec/15 R257): key of its record, the slot, the
thread, its image. -/
structure Arrival where
  key : Nat
  slot : Nat
  thread : Thread
  image : Nat
  deriving DecidableEq, Repr

/-- The state of a cluster. -/
structure Cluster where
  /-- Cluster TLB, most recently used first, at most 1,024. -/
  tlb : List TlbEnt := []
  fb : Tbl FaultEnt := []
  /-- Messages that found the buffer full and wait for a free entry (R157). -/
  late : List Waiter := []
  fbGen : Nat := 0
  fbHost : Bool := false
  svcctl : Bool := false
  /-- Service window: three operand words, the command's result, and while a `tlbi` runs the copies that held
  translations it removed and have yet to end, by thread and number (spec/10 R161, R163). -/
  svcA : Word := 0
  svcB : Word := 0
  svcC : Word := 0
  svcRes : Word := 0
  svcBusy : List (Nat × Nat) := []
  migen : Bool := true
  mode : Nat := 0
  queue : List QEnt := []
  /-- The slot table's words 0 and 1 (spec/15 R255), entry 4c + t. -/
  slot0 : Tbl Word := []
  slot1 : Tbl Word := []
  arriving : List Arrival := []
  cload : Tbl Nat := []
  cloadRun : Tbl Nat := []
  drawer : List Parked := []
  budget : Nat := 0
  used : Nat := 0
  balance : Int := 0
  /-- The interval of 100 tbase ticks that the balance belongs to (spec/22 R358). -/
  ival : Nat := 0
  /-- The time-base copy as it was last read (spec/22 R361). -/
  tb : Nat := 0
  /-- A cluster that has failed, and the physical one that stands for it, as a seat of `Config.clusterPerm`
  (spec/00 R2, spec/22 R356). -/
  fenced : Bool := false
  seat : Option Nat := none
  /-- Flipped bits of code words of the fault buffer and the slot table (spec/22 R349), by `fbErr` and `stErr`. -/
  errs : Tbl (BitVec 72) := []
  freq : Nat := 100
  cur : Nat := 100
  bias : Nat := 0
  deriving DecidableEq, Repr

/-- The state of a die (spec/22 R357); VNOM is the part's value, `Config.vnom`. -/
structure Die where
  voff : Nat := 0
  restoring : Bool := false
  cecnt : Nat := 0
  ceRun : Nat := 0
  deriving DecidableEq, Repr

/-! ## Records and domains -/

/-- Why a record is suspended (spec/14 R240). -/
inductive Suspend where
  | yield | recv | dsync | forced
  deriving DecidableEq, Repr

/-- A member's snapshot (spec/15 R259): the context image's words, record word 0, and the frame-store
words that a slot area held (log entry 22). -/
structure Snap where
  img : List Word
  w0 : Word
  store : List Word
  /-- The record's `heldPc`, its gang place and its saved followers. -/
  heldPc : List (Nat × Nat × Pc × Word × Nat) := []
  gang : Option GangRole := none
  followers : List (Nat × Thread × List Word) := []
  vlive : Bool := false
  deriving DecidableEq, Repr

/-- What the scheduler holds of a continuation record (spec/14 R237, spec/15 R250). -/
structure RecInfo where
  pkg : Nat
  spn : Nat
  addr : Word
  status : Nat
  dom : Nat
  /-- Words 0, 2 and 3 as the scheduler last read or wrote them. -/
  w0 : Word := 0
  w2 : Word := 0
  w3 : Word := 0
  cluster : Nat := 0
  since : Nat := 0
  fresh : Bool := true
  why : Suspend := .yield
  /-- Number of its context image (spec/16 R275). -/
  image : Option Nat := none
  /-- Core it is pinned to (spec/05 R80). -/
  pinned : Option Nat := none
  /-- Thread slot it is bound to. -/
  slot : Option Nat := none
  /-- The slot where it last ran, its last time-base value, its gang place. -/
  lastTime : Nat := 0
  gang : Option GangRole := none
  /-- Fault entry a forced save met it waiting on: cluster, entry, generation (R158). -/
  faultWait : Option (Nat × Nat × Nat) := none
  /-- The access that waited was the thread's instruction fetch. -/
  faultFetch : Bool := false
  /-- What the held list does not hold of an operation: engine, number, the command's address, the
  guard bits of a `vlda` or the bytes a ring copy has delivered, bit 0 path 0x5, bit 1 no split, above
  them the format code of a `vlda` or the register of a `lda`. -/
  heldPc : List (Nat × Nat × Pc × Word × Nat) := []
  /-- The inbox tokens of the image, oldest first; those beyond 32 are parked in a drawer (R244). -/
  inbox : List Token := []
  /-- A `dsync` result kept for the resumed thread, and a due watchdog trap. -/
  dsyncRes : Option Word := none
  wdTrap : Option Word := none
  /-- Fault entry that its bind waits on, and a delivered fault met there (log entry 23). -/
  bindWait : Option (Nat × Nat × Nat) := none
  bindFault : Bool := false
  /-- Followers of a saved gang: slot, thread, words of a slot area or frame track (R261). -/
  followers : List (Nat × Thread × List Word) := []
  /-- Writes that stood at the suspension (spec/02 R30). -/
  fetchFrom : Nat := 0
  /-- What the thread's constant-path loads must not go behind (spec/12 R206), and the time-base copy it stopped
  under (spec/22 R361). -/
  constFrom : Nat := 0
  constSeen : Tbl Nat := []
  tbHold : Nat := 0
  /-- Whether its thread holds live vector state (spec/08 R133). -/
  vlive : Bool := false
  /-- The slot that it left last, and the ticks it has waited in `dsync` (R262). -/
  lastSlot : Nat := 0
  waited : Nat := 0
  /-- The context that the next bind restores in place of the image's. -/
  snap : Option Snap := none
  deriving DecidableEq, Repr

/-- An effect of `spawn` or `send` in an armed domain, applied at the next `dsync` (spec/15 R259). -/
inductive Deferred where
  | spawn (pkg spn : Nat) (addr w0 w2 w3 : Word) (cluster : Nat)
  | send (key st cluster dom : Nat) (addr : Word) (tok : Token)
  deriving DecidableEq, Repr

/-- Domain states with their codes (R251). -/
inductive DomState where
  | running | draining | saved | rollingBack | ended | killed
  deriving DecidableEq, Repr

/-- A slice object on a heap: offset in granules, granules, GEN (spec/14 R233). -/
structure HeapObj where
  off : Nat
  len : Nat
  gen : Nat := 0
  deriving DecidableEq, Repr

/-- A live or ended domain (spec/15 R247). -/
structure Domain where
  level : Nat
  spn : Nat
  parent : Option Nat := none
  desc : Word := 0
  root : Word := 0
  memb : Nat
  home : Nat := 0
  slotBase : Word := 0
  slotBytes : Nat := 16384
  heapBase : Word := 0
  heapBytes : Nat := 0
  fat : Word := 0
  drain : Nat := 200000
  wdog : Nat := 10000000
  ctxBase : Word := 0
  ctxn : Nat := 0
  arm : Bool := false
  rbcnt : Nat := 0
  st : DomState := .running
  /-- Member records (keys) that are live, and how many members have ended. -/
  members : List Nat := []
  ended : Nat := 0
  /-- Arrivals of this superstep, by record key; a gang's follower by 2^90 and its number. -/
  arrived : List Nat := []
  armReq : Option Bool := none
  armFailed : Bool := false
  /-- Level 6: counts reported by other packages (R258), and members that ended on packages where the domain was
  killed. -/
  counts : Tbl Nat := []
  gone : Nat := 0
  heap : List HeapObj := []
  /-- Context images in use: image number to record key. -/
  images : Tbl Nat := []
  /-- Ticks left of a drain, threads saved by force, held commands in their order (R251, R264). -/
  drainLeft : Nat := 0
  forced : Nat := 0
  heldCmd : List Nat := []
  /-- Snapshot: rollbacks that restored it, context images by record key, heads by core and track. -/
  snapCount : Nat := 0
  snapCtx : Tbl Snap := []
  snapHeads : Tbl Nat := []
  deferred : List Deferred := []
  /-- Deferred sends that a completed `dsync` applied and that wait for room in a drawer (spec/14 R244). -/
  due : List Deferred := []
  deriving DecidableEq, Repr

/-! ## Packages -/

/-- What an injector does to a flit: symbols of its codeword inverted, its lane's share suppressed, or held back
some ns (spec/21 R345). -/
inductive Strike where
  | corrupt (symbols : Nat) | drop | delay (ns : Nat)
  deriving DecidableEq, Repr

/-- A flit that a port is to send: its type, number, destination package and address, and the data that it carries
(spec/21 R338). -/
structure FlitReq where
  type : Nat
  num : Nat
  dst : Nat
  addr : Nat
  data : List Byte := []
  deriving DecidableEq, Repr

/-- A Wenic port (spec/21 R338-R345). -/
structure Port where
  state : Nat := 0
  spused : Bool := false
  failed : Nat := 15
  fecunc : Nat := 0
  retry : Nat := 0
  feccor : Nat := 0
  /-- WINJ0-8, and the flits that each lane has carried since its ARM was set. -/
  winj : Tbl Word := []
  carried : Tbl Nat := []
  /-- Highest SEQ received in order, next SEQ to send, flits not acknowledged: SEQ and bytes. -/
  rxSeq : Nat := 4095
  txSeq : Nat := 0
  unacked : List (Nat × List Byte) := []
  /-- Payloads accepted, and flits to send, as the link's output. -/
  received : List (List Byte) := []
  toSend : List (List Byte) := []
  /-- First SEQ a pending replay request names, and the SEQ of the last flit that was discarded behind it. -/
  replayFrom : Option Nat := none
  gapAt : Option Nat := none
  /-- The SEQ that a replay request received here names; flits for which 256 others leave no room (R339). -/
  asked : Option Nat := none
  waiting : List FlitReq := []
  /-- Flits sent so far, and what injectors do to flits, by that count (R345). -/
  nsent : Nat := 0
  struck : List (Nat × Strike) := []
  deriving DecidableEq, Repr

/-- A job's descriptor, the header that it names and the entries up to NTOK, two words each, as the job read them
(spec/20 R322, R323, R329). -/
structure KvJob where
  hdr : Nat
  hdrKey : Nat
  free : Nat
  nfree : Nat
  tier : Nat
  rel : Nat
  w0 : Word
  ntok : Nat
  sgen : Nat
  hb : Nat
  act : Nat
  bpt : Nat
  arrs : List Nat
  ents : List (Word × Word)
  deriving DecidableEq, Repr

/-- A compaction engine (spec/20 R328): THR, BUSY, RESULT, the running job's descriptor and the THR that it
read, the table as it read it; after the array switch the header, the old SGEN, the tokens removed and the GBNs to release. -/
structure Compactor where
  thr : BitVec 8 := 0
  busy : Bool := false
  result : Nat := 0
  job : Word := 0
  jobThr : Nat := 0
  table : Option KvJob := none
  switched : Bool := false
  hdr : Nat := 0
  oldGen : Nat := 0
  removed : Nat := 0
  release : List Nat := []
  /-- Where the release list and word 4 of the descriptor lie, found before the switch: ranges, key. -/
  relAt : List (Nat × Nat) := []
  doneAt : Nat := 0
  /-- Fault entry that the job waits on: cluster, entry, generation. -/
  wait : Option (Nat × Nat × Nat) := none
  deriving DecidableEq, Repr

/-- A request on path 0x8 that its destination has yet to acknowledge (spec/21 R342). -/
structure RemoteReq where
  num : Nat
  th : Nat
  spn : Nat
  addr : Word
  body : RemoteBody
  deriving DecidableEq, Repr

/-- Numbers a destination has applied: the highest, those of its window, and those below the highest that it has yet
to apply (R342, spec/12 R209). -/
structure Window where
  top : Nat := 0
  seen : List Nat := []
  gaps : List Nat := []
  deriving DecidableEq, Repr

/-- A firmware image of the flash (spec/23 R365). -/
abbrev Image := List Byte

/-- The state of a package. -/
structure Pkg where
  ready : Bool := false
  stage : Nat := 0
  err : Nat := 0
  slot : Nat := 0
  svn : Nat := 0
  m0 : List Byte := []
  m1 : List Byte := []
  cap0 : Word := 0
  cap1 : Word := 0
  /-- Package resets so far; each may leave another spare map (spec/22 R356). -/
  boots : Nat := 0
  /-- Images written to the flash slots; none: as the part came. -/
  flashA : Option Image := none
  flashB : Option Image := none
  /-- A minimum SVN that firmware has fused. -/
  minSvn : Nat := 0
  aliasKey : List Byte := []
  /-- The identity key's signature of the alias key's public half (spec/23 R366). -/
  aliasCert : List Byte := []
  /-- Which of CAPW0, CAPW1, PKGCFG and TBSET firmware has written in stage 5 (spec/23 R369). -/
  wrote : BitVec 4 := 0
  ideKeys : List (List Byte) := []
  reports : List (List Byte) := []
  pkgId : Nat := 0
  npkgm1 : Nat := 0
  tbase : Nat := 0
  /-- Ticks still to be omitted, as a negative number, and ticks since the last one omitted or added (spec/21
  R347). -/
  tbAdj : Int := 0
  tbGap : Nat := 0
  /-- LSTAT and the launch under way. -/
  lBusy : Bool := false
  lResult : Nat := 0
  lMiss : Nat := 0
  lDom : Nat := 0
  lDesc : Word := 0
  lCluster : Nat := 0
  /-- DSTAT. -/
  dDom : Nat := 0
  kvb2 : Word := 0
  kvn2 : Word := 0
  kvb3 : Word := 0
  kvn3 : Word := 0
  kvspn : Nat := 0
  cmp0 : Compactor := {}
  cmp1 : Compactor := {}
  ports : Tbl Port := []
  reqNext : Tbl Nat := []
  reqUnacked : Tbl (List RemoteReq) := []
  reqSeen : Tbl Window := []
  /-- Responses produced for a requester: source package, number, value. -/
  responses : List (Nat × Nat × List Byte) := []
  sigNext : Tbl Nat := []
  sigUnacked : Tbl (List (Nat × Nat × Word)) := []
  sigSeen : Tbl Window := []
  /-- SEVc,h by 2c + h; unlisted is the reset value of R352. -/
  sev : Tbl Word := []
  log : Tbl (BitVec 256) := []
  logHead : Nat := 0
  logLost : Nat := 0
  logOvf : Bool := false
  errHost : Bool := false
  temp : Nat := 0
  trip : Nat := 105
  resume : Nat := 95
  gates : Nat := 0
  gated : Bool := false
  hbm : Nat := 512000000000
  cxl : Nat := 0
  cxlPorts : Nat := 0
  cxlLost : List Nat := []
  /-- Interrupts raised, newest first: (0, v) MSI-X vector v; (1, c) fault interrupt of cluster c's
  bench core; (2, 0) the package controller's error interrupt. -/
  ints : List (Nat × Nat) := []
  /-- What the host last read, and the unsupported or poisoned completions as an empty list. -/
  hostRead : List Byte := []
  deriving DecidableEq, Repr

/-! ## The machine -/

/-- What reaches the machine from outside and has no row in the opcode table (log entry 77). -/
inductive Input where
  /-- Bits flip: of an SRAM code word (key / 8), a slot of a track, a symbol of an HBM4E line (key / 64), a register
  of a thread, engine state of a core, control state of a cluster (spec/22 R349). -/
  | flipSram (word : Nat) (bits : BitVec 72)
  | flipSlot (core track slot : Nat) (bits : BitVec 72)
  | flipLine (line symbol : Nat) (bits : BitVec 16)
  | flipThread (th at_ : Nat) (bits : BitVec 72)
  | flipCore (core at_ : Nat) (bits : BitVec 72)
  | flipCluster (cluster at_ : Nat) (bits : BitVec 72)
  /-- A track's port stands some slots from where it should (spec/05 R94). -/
  | slip (core track : Nat) (by_ : Int)
  /-- A device's CXL line (key / 64) returns poison (spec/21 R337). -/
  | poison (line : Nat)
  /-- Firmware rewrites the interleave over the ports of these capacities (R336, R337). -/
  | interleave (pkg : Nat) (caps : List Nat)
  /-- The host's access to BAR0 at an offset: its size, and the value of a write (R334). -/
  | bar0 (pkg off size : Nat) (write : Option Word)
  /-- A copy in progress, of a thread and by number, writes some of its bytes (spec/11 R179). -/
  | progress (core thr n : Nat)
  /-- A core or a cluster fails (spec/22 R356). -/
  | failCore (core : Nat)
  | failCluster (cluster : Nat)
  deriving DecidableEq, Repr

/-- Whose turn it is (log entry 10): a thread's issue, an event of the opcode table, the passing of tbase ticks, or
what reaches the machine from outside. -/
inductive Turn where
  | issue (core thr : Nat)
  | event (i : Instr)
  | tick (n : Nat)
  | input (x : Input)
  deriving DecidableEq, Repr

/-- What a step leaves for its end: a thread to end as killed, a domain to roll back, a partition to
reset (spec/14 R246, spec/15 R260, spec/22 R353). The step carries them out before it ends. -/
inductive Pend where
  | kill (th : Nat)
  | rollback (dom : Nat)
  | resetCluster (cluster : Nat)
  | resetPackage (pkg : Nat)
  deriving DecidableEq, Repr

/-- A code word that a read has corrected in the turn in progress, with what that changed in its data (spec/22 R350): a
word of SRAM, a line of HBM4E with its new bytes, a slot with its new value, a word of a thread, of a core, of a
cluster. What it corrected stays corrected where the rest of what the turn did comes to nothing. -/
inductive Fix where
  | sram (word : Nat) (mask : Word)
  | hbm (line : Nat) (bytes : List Byte)
  | slot (core track slot : Nat) (val : Word)
  | thread (th k : Nat) (mask : Word)
  | core (core k : Nat) (mask : Word)
  | cluster (cl k : Nat) (mask : Word)
  deriving DecidableEq, Repr

structure State where
  /-- Bytes of memory, addresses strictly rising, no zero byte listed (log entry 1). -/
  mem : List Host.Cell := []
  /-- What bytes outside the SRAMs held before each write of them, newest write first: the values that a
  constant-path load may return (spec/12 R206). -/
  old : List (List Host.Cell) := []
  /-- Flipped bits of SRAM code words by word number (key / 8), and bad symbols of HBM4E lines by
  line number (key / 64): symbol numbers with the bits flipped (spec/22 R349). -/
  sramErr : Tbl (BitVec 72) := []
  hbmErr : Tbl (List (Nat × BitVec 16)) := []
  /-- Lines of CXL memory (key / 64) that return poison (spec/21 R337). -/
  cxlPoison : List Nat := []
  threads : Tbl Thread := []
  cores : Tbl Core := []
  clusters : Tbl Cluster := []
  dies : Tbl Die := []
  pkgs : Tbl Pkg := []
  recs : Tbl RecInfo := []
  doms : Tbl Domain := []
  /-- The turns to come; when none is listed the current thread issues. -/
  turns : List Turn := []
  /-- The current thread: core and thread index. -/
  cc : Nat := 0
  ct : Nat := 0
  /-- Counter of free values used (log entry 11). -/
  fresh : Nat := 0
  /-- Ends of threads, rollbacks and resets that the step in progress has yet to carry out. -/
  pend : List Pend := []
  /-- How many requests the byte budgets have granted to each in the turn in progress, and those of earlier turns that
  one has paid for which waits before its next (spec/22 R358; log entry 29). -/
  granted : List (Waiter × Nat) := []
  paid : List (Waiter × Nat) := []
  /-- Requests to other packages that the turn in progress has translated and that have yet to leave: source,
  destination, request (spec/21 R342). -/
  asking : List (Nat × Nat × RemoteReq) := []
  /-- Code words that the turn in progress has corrected, newest first. -/
  fixes : List Fix := []
  deriving DecidableEq, Repr

/-- The machine right after reset: every table empty, so that every register reads its reset value. -/
def State.reset : State := {}

/-- Why the machine stops with a fault. -/
inductive Fault where
  /-- Raised by the step when a turn names a core or thread index that the machine does not have
  (spec/00 R1). Safe: no such agent exists. -/
  | noSuchUnit
  deriving DecidableEq, Repr

/-- Why a step is refused. -/
inductive Refusal where
  /-- Raised by Dispatch for an instruction without a meaning. Safe: nothing is claimed of it. -/
  | notModelled (mnemonic : String)
  deriving DecidableEq, Repr

end Sys2Proof.Machine
end

