-- ==== Sys2Proof/Machine/Ops.lean ====
section
/-! DEFINITION. The named operations over the state: units by number, a thread's registers, guards,
the program counter, taking an exception and returning from one, the completion of an instruction. -/

namespace Sys2Proof.Machine

/-! ## Units by number -/

def State.threadAt (s : State) (k : Nat) : Thread := tgetD s.threads k {}
def State.setThreadAt (s : State) (k : Nat) (t : Thread) : State :=
  { s with threads := tput s.threads k t }
def State.coreAt (s : State) (k : Nat) : Core := tgetD s.cores k {}
def State.setCoreAt (s : State) (k : Nat) (c : Core) : State := { s with cores := tput s.cores k c }
def State.clusterAt (s : State) (k : Nat) : Cluster := tgetD s.clusters k {}
def State.setClusterAt (s : State) (k : Nat) (c : Cluster) : State :=
  { s with clusters := tput s.clusters k c }
def State.dieAt (s : State) (k : Nat) : Die := tgetD s.dies k {}
def State.setDieAt (s : State) (k : Nat) (d : Die) : State := { s with dies := tput s.dies k d }
def State.pkgAt (s : State) (k : Nat) : Pkg := tgetD s.pkgs k {}
def State.setPkgAt (s : State) (k : Nat) (p : Pkg) : State := { s with pkgs := tput s.pkgs k p }

/-- The current thread's number, the current thread and core. -/
def State.tk (s : State) : Nat := 4 * s.cc + s.ct
def State.th (s : State) : Thread := s.threadAt s.tk
def State.setTh (s : State) (t : Thread) : State := s.setThreadAt s.tk t
def State.core (s : State) : Core := s.coreAt s.cc
def State.setCore (s : State) (c : Core) : State := s.setCoreAt s.cc c
def State.modTh (s : State) (f : Thread → Thread) : State := s.setTh (f s.th)
def State.modCore (s : State) (f : Core → Core) : State := s.setCore (f s.core)
def State.modThreadAt (s : State) (k : Nat) (f : Thread → Thread) : State :=
  s.setThreadAt k (f (s.threadAt k))
def State.modCoreAt (s : State) (k : Nat) (f : Core → Core) : State := s.setCoreAt k (f (s.coreAt k))
def State.modClusterAt (s : State) (k : Nat) (f : Cluster → Cluster) : State :=
  s.setClusterAt k (f (s.clusterAt k))
def State.modPkgAt (s : State) (k : Nat) (f : Pkg → Pkg) : State := s.setPkgAt k (f (s.pkgAt k))

/-- Package, core within the package, cluster and die of a core number (spec/00 R1). -/
def pkgOf (core : Nat) : Nat := core / Config.cores
def coreIn (core : Nat) : Nat := core % Config.cores
def clusterOf (core : Nat) : Nat := pkgOf core * Config.clusters + coreIn core / 64
def dieOf (core : Nat) : Nat := pkgOf core * 18 + coreIn core / 64 / Config.clustersPerDie
/-- Package of a cluster number, cluster within it. -/
def pkgOfCluster (cl : Nat) : Nat := cl / Config.clusters
def clusterIn (cl : Nat) : Nat := cl % Config.clusters
/-- Core number of core index i of a cluster. -/
def coreOfCluster (cl i : Nat) : Nat := pkgOfCluster cl * Config.cores + 64 * clusterIn cl + i

/-! ## Code words of registers (spec/22 R349)

Where the flipped bits of a register's code word are listed: of a general register by its physical number, of a
vector register word by word, of the others one by one. -/

def gErr (p : Nat) : Nat := p
def vErr (n w : Nat) : Nat := 1024 + 8 * n + w
def pErr (n : Nat) : Nat := 2048 + n
def fErr (n : Nat) : Nat := 2064 + n
/-- A code word of vector register n. -/
def isVErr (n k : Nat) : Bool := decide (vErr n 0 ≤ k) && decide (k < vErr (n + 1) 0)
def kErr (n w : Nat) : Nat := 4 * n + w
def aErr (n w : Nat) : Nat := 1024 + 32 * n + w
def qErr (q : Nat) : Nat := 2048 + q
def fbErr (i w : Nat) : Nat := 4 * i + w
def stErr (e w : Nat) : Nat := 1024 + 2 * e + w

/-- A word of the slot table is written: it takes a new code. -/
def Cluster.putSlot0 (c : Cluster) (e : Nat) (w : Word) : Cluster :=
  { c with slot0 := tput c.slot0 e w, errs := tdel c.errs (stErr e 0) }
def Cluster.putSlot1 (c : Cluster) (e : Nat) (w : Word) : Cluster :=
  { c with slot1 := tput c.slot1 e w, errs := tdel c.errs (stErr e 1) }

/-- A fault-buffer entry is written. -/
def Cluster.putFault (c : Cluster) (i : Nat) (x : FaultEnt) : Cluster :=
  { c with fb := tput c.fb i x, errs := c.errs.filter fun e => !(decide (fbErr i 0 ≤ e.1) && decide (e.1 < fbErr (i + 1) 0)) }

/-! ## A thread's registers -/

/-- The register that a general register name stands for (spec/03 R35, R36, R38). -/
def gphys (t : Thread) (r : GReg) : Nat :=
  if r.toNat < 16 then r.toNat
  else if t.inTrap then 256 + r.toNat
  else 64 + (t.cwb + (r.toNat - 16)) % 168

/-- G(r); g0 reads 0 (R35). -/
def Thread.g (t : Thread) (r : GReg) : Word := if r = 0 then 0 else tgetD t.regs (gphys t r) 0

/-- G(r) := v; a write to g0 is discarded (R35). -/
def Thread.setG (t : Thread) (r : GReg) (v : Word) : Thread :=
  if r = 0 then t
  else { t with regs := tput t.regs (gphys t r) v, errs := tdel t.errs (gErr (gphys t r)) }

/-- P(r); p7 reads all ones (spec/00 R5). -/
def Thread.pr (t : Thread) (r : PIdx) : Word := if r = 7 then BitVec.allOnes 64 else tgetD t.p r.toNat 0

/-- P(r) := v; a write to p7 is discarded. -/
def Thread.setP (t : Thread) (r : PIdx) (v : Word) : Thread :=
  if r = 7 then t else { t with p := tput t.p r.toNat v, errs := tdel t.errs (pErr r.toNat) }

def Thread.vr (t : Thread) (r : VIdx) : VReg := tgetD t.v r.toNat {}
def Thread.setV (t : Thread) (r : VIdx) (v : VReg) : Thread :=
  { t with v := tput t.v r.toNat v, vlive := true, errs := t.errs.filter fun e => !(isVErr r.toNat e.1) }
def Thread.fr (t : Thread) (r : FIdx) : Future := tgetD t.f r.toNat {}
def Thread.setF (t : Thread) (r : FIdx) (f : Future) : Thread :=
  { t with f := tput t.f r.toNat f, errs := tdel t.errs (fErr r.toNat) }
def Thread.lsn (t : Thread) (n : Nat) : Word := tgetD t.ls n 0
def Thread.len (t : Thread) (n : Nat) : Word := tgetD t.le n 0
def Thread.lcn (t : Thread) (n : Nat) : Word := tgetD t.lc n 0
def Thread.setLs (t : Thread) (n : Nat) (v : Word) : Thread := { t with ls := tput t.ls n v }
def Thread.setLe (t : Thread) (n : Nat) (v : Word) : Thread := { t with le := tput t.le n v }
def Thread.setLc (t : Thread) (n : Nat) (v : Word) : Thread := { t with lc := tput t.lc n v }

def State.g (s : State) (r : GReg) : Word := s.th.g r
def State.setG (s : State) (r : GReg) (v : Word) : State := s.setTh (s.th.setG r v)
def State.p (s : State) (r : PIdx) : Word := s.th.pr r
def State.setP (s : State) (r : PIdx) (v : Word) : State := s.setTh (s.th.setP r v)

/-- Fields of cls (spec/04 R66). -/
def clsCount (c : Word) : Nat := c.toNat % 16
def clsGp (c : Word) : PIdx := BitVec.ofNat 3 (c.toNat / 2 ^ 4)
def clsGn (c : Word) : Bool := c.getLsbD 7
def mkCls (count : Nat) (gp : PIdx) (gn : Bool) : Word :=
  BitVec.ofNat 64 (count + 2 ^ 4 * gp.toNat + 2 ^ 7 * gn.toNat)

/-! ## Timelines (spec/11 R166) -/

def Thread.tl (t : Thread) : Eng → Timeline
  | .ld => t.tlLd | .ce => t.tlCe | .te => t.tlTe | .me => t.tlMe

def Thread.setTl (t : Thread) (e : Eng) (l : Timeline) : Thread :=
  match e with
  | .ld => { t with tlLd := l } | .ce => { t with tlCe := l }
  | .te => { t with tlTe := l } | .me => { t with tlMe := l }

/-- CUR moves past the numbers that have ended; at most `fuel` of them. -/
def tlAdvance : Nat → Timeline → Timeline
  | 0, l => l
  | k + 1, l =>
    if l.ended.contains (l.cur + 1)
    then tlAdvance k { l with cur := l.cur + 1, ended := l.ended.filter (· ≠ l.cur + 1) }
    else l

/-- A number ends (R166). -/
def Timeline.endNum (l : Timeline) (n : Nat) : Timeline :=
  tlAdvance (l.ended.length + 1) { l with ended := n :: l.ended }

/-- A number is taken (R166). -/
def Thread.takeNum (t : Thread) (e : Eng) : Thread × Nat :=
  let l := t.tl e
  (t.setTl e { l with last := l.last + 1 }, l.last + 1)

/-- Every future of the thread that names an operation follows its end (R169). -/
def endFutures (f : Tbl Future) (e : Eng) (n : Nat) (st : OpEnd) (c : Bool) (fa : Word) : Tbl Future :=
  f.map fun (k, x) =>
    if x.v && x.eng == e && x.n == n && x.st == .pending
    then (k, { x with st := st, c := c, faddr := fa }) else (k, x)

/-- An operation ends: its number, and the futures that name it (R167). -/
def Thread.endOp (t : Thread) (e : Eng) (n : Nat) (st : OpEnd) (c : Bool) (fa : Word) : Thread :=
  let t := t.setTl e ((t.tl e).endNum n)
  { t with f := endFutures t.f e n st c fa }

/-! ## Guards (spec/02 R15, spec/04 R67) -/

def guardVal (t : Thread) (gp : PIdx) (gn : Bool) : Word := if gn then ~~~(t.pr gp) else t.pr gp

/-- A member of a clause: COUNT ≠ 0 outside the trap window (R67). -/
def Thread.inClause (t : Thread) : Bool := !t.inTrap && clsCount t.cls != 0

/-- The effective guard: the instruction's own, AND the clause guard for a member (R67). -/
def Thread.effGuard (t : Thread) (gd : Guard) : Word :=
  let own := guardVal t gd.gp gd.gn
  if t.inClause then own &&& guardVal t (clsGp t.cls) (clsGn t.cls) else own

/-! ## The program counter (spec/02 R12, R13, spec/04 R56) -/

/-- A legal instruction start (R12). -/
def legalStart (a : Pc) : Bool := a.toNat % 4 == 0 && a.toNat % 32 != 28

/-- The sequential successor of an instruction of n bytes (R12). -/
def successor (pc : Pc) (n : Nat) : Pc :=
  let e := pc + BitVec.ofNat 48 n
  if e.toNat % 32 = 28 then e + 4 else e

/-- The loop level that would take a back-edge at successor `s` (R61): the highest n that is active,
ends at s and has LC(n) > 1. -/
def backLevel (t : Thread) (s : Pc) : Option Nat :=
  [3, 2, 1, 0].find? fun n => (t.lcn n).toNat > 1 && t.len n == s.setWidth 64

/-- The back-edge rule of R61 over the levels from n - 1 down to 0. -/
def backEdge (s : Pc) : Nat → Thread → Thread × Pc
  | 0, t => (t, s)
  | n + 1, t =>
    if t.lcn n ≠ 0 ∧ t.len n = s.setWidth 64 then
      if 1 < (t.lcn n).toNat then (t.setLc n (t.lcn n - 1), (t.lsn n).setWidth 48)
      else backEdge s n (t.setLc n 0)
    else backEdge s n t

/-! ## Traps -/

/-- A trap with its cause code (spec/16 R267) and value. -/
structure Trap where
  code : Nat
  tval : Word
  vh : Bool := false
  async : Bool := false
  moved : Nat := 0
  kind : Nat := 0
  deriving DecidableEq, Repr

def trIllegal (v : Word) : Trap := { code := 1, tval := v }
def trMisaligned (v : Word) : Trap := { code := 2, tval := v }
def trAccess (v : Word) : Trap := { code := 3, tval := v }
def trOwnership (v : Word) : Trap := { code := 4, tval := v }
def trBounds (v : Int) : Trap := { code := 5, tval := BitVec.ofInt 64 v }
def trShift (v : Word) : Trap := { code := 6, tval := v }
def trWinOverflow : Trap := { code := 7, tval := 0 }
def trWinFill : Trap := { code := 8, tval := 0 }
def trFrameOverflow (fsp : Nat) : Trap := { code := 9, tval := BitVec.ofNat 64 (8 * fsp) }
def trSlice (r : Nat) : Trap := { code := 10, tval := BitVec.ofNat 64 r }
def trStale (v : Word) : Trap := { code := 11, tval := v }
def trDelivered (v : Word) : Trap := { code := 12, tval := v }
def trClause : Trap := { code := 13, tval := 0 }
def trRing (v : Word) : Trap := { code := 14, tval := v }
def trWatchdog (v : Word) : Trap := { code := 15, tval := v }
def trSoftware (v : Word) : Trap := { code := 16, tval := v }
def trChecksum (v : Word) : Trap := { code := 17, tval := v }

/-- tcause of a trap (spec/16 R268). -/
def Trap.cause (t : Trap) : Word :=
  BitVec.ofNat 64 (t.code % 32 + 2 ^ 5 * t.vh.toNat + 2 ^ 6 * t.async.toNat +
    2 ^ 8 * (t.moved % 256) + 2 ^ 16 * (t.kind % 4))

/-- The thread is to end as killed; the step carries it out (spec/14 R246). -/
def State.killThread (s : State) (th : Nat) : State :=
  let s := s.modThreadAt th fun t => { t with dying := true }
  { s with pend := s.pend ++ [.kill th] }

/-- The handler address (spec/16 R268). -/
def handlerPc (tvec : Word) : Pc := BitVec.ofNat 48 (tvec.toNat % 2 ^ 48 / 4 * 4)

/-- TAKING AN EXCEPTION (spec/16 R269, R270) at the instruction at the current pc: the thread saves the
pc, the cause and the value, saves and ends the clause, enters the trap window and continues at the
handler. A trap in the trap window, or with no handler or a misaligned one, ends the thread as killed;
a double trap is recorded and leaves tpc, tcause and tval as the first trap wrote them. A misaligned handler
traps once the first trap's entry is made. -/
def takeTrap (tr : Trap) (s : State) : State :=
  let t := s.th
  if t.inTrap then
    (s.setTh { t with dbl := some (tr.cause, tr.tval, t.pc.setWidth 64) }).killThread s.tk
  else
    let t1 := { t with tpc := t.pc.setWidth 64, tcause := tr.cause, tval := tr.tval }
    if t.tvec.toNat % 2 ^ 48 / 4 = 0 then (s.setTh t1).killThread s.tk
    else
      let t2 := { t1 with
        cls := BitVec.ofNat 64 (2 ^ 8 * (t.cls.toNat % 2 ^ 8) + t.cls.toNat % 2 ^ 8 / 2 ^ 4 * 2 ^ 4)
        inTrap := true, pc := handlerPc t.tvec, waiting := none, waited := 0
        gang := t.gang.map fun g => { g with token := none } }
      if legalStart (handlerPc t.tvec) then s.setTh t2
      else (s.setTh { t2 with dbl := some ((trMisaligned (t2.pc.setWidth 64)).cause,
              t2.pc.setWidth 64, t2.pc.setWidth 64) }).killThread s.tk

/-- RETURN FROM AN EXCEPTION (spec/04 R74): the clause state comes back and its saved copy is
cleared, the thread leaves the trap window and continues at tpc. -/
def returnFromTrap (s : State) : State :=
  let t := s.th
  s.setTh { t with
    cls := BitVec.ofNat 64 (t.cls.toNat / 2 ^ 8 % 2 ^ 8)
    inTrap := false, pc := t.tpc.setWidth 48 }

/-! ## How an instruction runs -/

/-- Where a completed instruction goes on (spec/04 R56). -/
inductive Next where
  /-- Case 2 or 3: a loop back-edge or the successor. -/
  | fall
  /-- Case 1: the instruction transfers control. -/
  | jump (tgt : Pc)
  /-- The software trap, taken after completion (R73). -/
  | soft (n : Word)
  /-- The thread gave up its slot or ended: nothing follows in it. -/
  | left
  deriving DecidableEq, Repr

/-- One more error of an access: the fields of `ErrRep`. -/
structure ErrMore where
  cls : Nat
  src : Nat
  addr : Word
  synd : Nat
  core : Option Nat
  deriving DecidableEq, Repr

/-- An error found by a read: class, source, address, detail (spec/22 R351, R355). -/
structure ErrRep where
  cls : Nat
  src : Nat
  addr : Word
  synd : Nat := 0
  /-- Core of the store that holds the error, where it is a core's. -/
  core : Option Nat := none
  /-- The other errors that the same access found: each is handled on its own (R353). -/
  others : List ErrMore := []
  deriving DecidableEq, Repr

def ErrMore.rep (e : ErrMore) : ErrRep := { cls := e.cls, src := e.src, addr := e.addr, synd := e.synd, core := e.core }
def ErrRep.more (e : ErrRep) : ErrMore := ⟨e.cls, e.src, e.addr, e.synd, e.core⟩

/-- All the errors of an access with another source or core. -/
def ErrRep.onAll (e : ErrRep) (f : ErrRep → ErrRep) : ErrRep :=
  { f e with others := e.others.map fun x => (f x.rep).more }

/-- The errors that one access found, as one report. -/
def errsOf : List ErrRep → Option ErrRep
  | [] => none
  | e :: es => some { e with others := es.map ErrRep.more }

/-- Why an instruction or an operation stops before its end. -/
inductive Stop where
  /-- A precise trap: nothing is written (spec/16 R266). -/
  | trap (t : Trap)
  /-- A trap after a partial effect that R278 lists. -/
  | trapKeep (t : Trap)
  /-- Not executed; tried again at the thread's next turn. -/
  | wait
  /-- An uncorrectable error consumed (spec/22 R350, R353). -/
  | err (e : ErrRep)
  /-- An event that is not enabled. -/
  | refuse
  deriving DecidableEq, Repr

/-- A computation over the state that may stop; the state at the stop is kept with it. -/
abbrev Act (α : Type) := EStateM Stop State α

def stopTrap {α : Type} (t : Trap) : Act α := throw (.trap t)
def stopKeep {α : Type} (t : Trap) : Act α := throw (.trapKeep t)
def stopWait {α : Type} : Act α := throw .wait

/-- What the byte budgets have granted in this turn is paid for when the same is asked for again (spec/22 R358). -/
def State.keepPaid (s : State) : State :=
  { s with paid := s.granted ++ s.paid.filter fun x => !(s.granted.any fun y => y.1 == x.1), granted := [] }

/-- Wait, with the requests granted so far paid for. -/
def stopPaid {α : Type} : Act α := fun s => .error .wait s.keepPaid

/-- Trap when a condition holds. -/
def trapIf (b : Bool) (t : Trap) : Act Unit := if b then throw (.trap t) else pure ()

/-- Change the current thread. -/
def updTh (f : Thread → Thread) : Act Unit := modify fun s => s.modTh f
def updCore (f : Core → Core) : Act Unit := modify fun s => s.modCore f

/-- A state update made when the instruction completes: both halves of a pair word compute theirs
before either is made (spec/02 R25). -/
abbrev Upd := State → State

end Sys2Proof.Machine
end

