-- ==== Sys2Proof/Machine/Errors.lean ====
section
/-! DEFINITION. Error codes, the error log and the severity matrix (spec/22 R349-R357, R381). -/

namespace Sys2Proof.Machine

def domKey (pkg id : Nat) : Nat := pkg * 2 ^ 32 + id
def State.domAt (s : State) (k : Nat) : Option Domain := tget s.doms k
def State.setDomAt (s : State) (k : Nat) (d : Domain) : State := { s with doms := tput s.doms k d }
def State.modDomAt (s : State) (k : Nat) (f : Domain → Domain) : State :=
  match s.domAt k with
  | some d => s.setDomAt k (f d)
  | none => s

/-- The domain of a thread. -/
def State.domOfThread (s : State) (th : Nat) : Option (Nat × Domain) :=
  let k := domKey (pkgOf (th / 4)) (s.threadAt th).dom
  (s.domAt k).map fun d => (k, d)

def State.armed (s : State) (th : Nat) : Bool :=
  match s.domOfThread th with
  | some (_, d) => d.arm
  | none => false

/-! ## SECDED (72,64) (R381) -/

/-- The columns of data bits: the 56 values of weight three in increasing order, then eight of
weight five. -/
def eccColumns : List Nat :=
  ((List.range 256).filter fun n => (List.range 8).foldl (fun c i => c + n / 2 ^ i % 2) 0 == 3) ++
  [0x1F, 0x2F, 0x37, 0x3B, 0x3D, 0x3E, 0x4F, 0x57]

/-- The column of bit k of a code word: data bits 0-63, then check bits. -/
def eccColumn (k : Nat) : Nat := if k < 64 then eccColumns.getD k 0 else 2 ^ (k - 64)

def xorAll (l : List Nat) : Nat := l.foldl Nat.xor 0

/-- The check bits of a data word. -/
def eccCheck (w : Word) : Nat := xorAll ((List.range 64).map fun k => if w.getLsbD k then eccColumn k else 0)

/-- The syndrome of flipped bits (the code is linear). -/
def eccSyndrome (e : BitVec 72) : Nat :=
  xorAll ((List.range 72).map fun k => if e.getLsbD k then eccColumn k else 0)

inductive EccResult where
  | clean
  /-- Bit k is the one that the code corrects. -/
  | correct (k : Nat)
  | uncorrectable
  deriving DecidableEq, Repr

/-- What a read of a code word with flipped bits finds. -/
def eccRead (e : BitVec 72) : EccResult :=
  let sy := eccSyndrome e
  if sy = 0 then .clean
  else match (List.range 72).find? fun k => eccColumn k == sy with
    | some k => .correct k
    | none => .uncorrectable

/-! ## The severity matrix and the log -/

/-- The reset action of a class (R352). -/
def sevResetAct : Nat → Nat
  | 0 => 1 | 1 => 3 | 2 => 2 | 3 => 2 | 4 => 3 | 5 => 3 | 6 => 3 | _ => 2

def sevResetField (c : Nat) : Nat := (1 + c) * 2 ^ 4 + sevResetAct c

/-- The reset value of SEVc,h. -/
def sevReset (c : Nat) : Word :=
  BitVec.ofNat 64 (sevResetField c * (1 + 2 ^ 16 + 2 ^ 32 + 2 ^ 48))

def Pkg.sevReg (p : Pkg) (c h : Nat) : Word := tgetD p.sev (2 * c + h) (sevReset c)

/-- The field of a class and source. -/
def Pkg.sevField (p : Pkg) (cls src : Nat) : Nat :=
  (p.sevReg cls (src / 4)).toNat / 2 ^ (16 * (src % 4)) % 2 ^ 16

def State.interrupt (s : State) (pkg kind v : Nat) : State :=
  s.modPkgAt pkg fun p => { p with ints := (kind, v) :: p.ints }

/-- A log entry is written at HEAD, or counted as lost (R355). -/
def Pkg.writeLog (p : Pkg) (e : ErrRep) (core thr die act : Nat) : Pkg :=
  if (tgetD p.log p.logHead 0).getLsbD 0 then
    { p with logLost := min (p.logLost + 1) (2 ^ 32 - 1), logOvf := true }
  else
    let w : Nat := 1 + 2 * p.logOvf.toNat + 2 ^ 2 * (e.cls % 8) + 2 ^ 5 * (e.src % 8) +
      2 ^ 8 * (act % 8) + 2 ^ 64 * (e.synd % 2 ^ 32) + 2 ^ 104 * (die % 32) + 2 ^ 109 * (thr % 4) +
      2 ^ 111 * (core % 2 ^ 17) + 2 ^ 128 * e.addr.toNat + 2 ^ 192 * (p.tbase % 2 ^ 64)
    { p with
      log := tput p.log p.logHead (BitVec.ofNat 256 w)
      logHead := (p.logHead + 1) % 256
      logOvf := false }

/-- Sources whose uncorrectable errors count as supply events while the die is undervolted (R357). -/
def supSource (src : Nat) : Bool := src == 0 || src == 1 || src == 2 || src == 6

def Die.uv (d : Die) : Bool := d.voff != 0 || d.restoring

/-- Report an error found on a core, consumed by a thread of a slot if there is one, `armed` saying whether that is
a member of an armed domain: its class after R357, the action of the matrix, the log, the interrupt, and a reset of
the context's partition (R353, R354). It answers the class and the action taken, 5 for a rollback. -/
def noteError (s : State) (pkg : Nat) (core : Option Nat) (ctx : Option Nat) (armed : Bool) (e : ErrRep) :
    State × Nat × Nat :=
  let core := match e.core with
    | some c => some c
    | none => core
  let die := (core.map dieOf).getD (pkg * 18 + 16)
  let sup := (e.cls == 1 || e.cls == 5) && supSource e.src && core.isSome && (s.dieAt die).uv
  let s := if sup then s.setDieAt die { s.dieAt die with voff := 0, restoring := true } else s
  let s := if e.cls = 0 ∧ supSource e.src ∧ core.isSome
    then s.setDieAt die { s.dieAt die with ceRun := (s.dieAt die).ceRun + 1 } else s
  let e := if sup then { e with cls := 6 } else e
  let f := (s.pkgAt pkg).sevField e.cls e.src
  let act := f % 8
  let armed := armed && ctx.isSome && (e.cls == 1 || e.cls == 5 || e.cls == 6) && act != 4
  let taken := if armed then 5 else act
  let s := if act = 0 then s else s.modPkgAt pkg fun p =>
    p.writeLog e ((core.map coreIn).getD 0x1FFFF) ((ctx.map (· % 4)).getD 0) (die % 18) taken
  let vec := f / 2 ^ 4 % 2 ^ 6
  let intr := act == 2 || act == 4 || (act == 3 && ctx.isNone)
  let s := if intr then
      (if (s.pkgAt pkg).errHost then s.interrupt pkg 0 (if vec = 0 then 1 else vec)
       else s.interrupt pkg 2 0)
    else s
  let s :=
    if act = 4 then
      if e.src = 3 ∨ e.src = 4 ∨ e.src = 5 then { s with pend := s.pend ++ [.resetPackage pkg] }
      else match (ctx.map (· / 4)).orElse (fun _ => core) with
        | some c => { s with pend := s.pend ++ [.resetCluster (clusterOf c)] }
        | none => { s with pend := s.pend ++ [.resetPackage pkg] }
    else s
  (s, e.cls, taken)

/-- The context of an error ends killed: by the matrix, and for class UE whatever it says but a reset (R353). -/
def errKills (cls taken : Nat) : Bool := taken == 3 || (cls == 1 && taken != 4 && taken != 5)

/-- One error reported, and what it means for the thread that consumed it. The number answered is the action taken. -/
def reportOne (s : State) (pkg : Nat) (core : Option Nat) (ctx : Option Nat) (e : ErrRep) :
    State × Nat :=
  let (s, cls, taken) := noteError s pkg core ctx ((ctx.map s.armed).getD false) e
  match ctx with
  | none => (s, taken)
  | some th =>
    if taken = 5 then
      match s.domOfThread th with
      | some (k, _) => ({ s with pend := s.pend ++ [.rollback k] }, taken)
      | none => (s, taken)
    else (if errKills cls taken then s.killThread th else s, taken)

/-- The errors that an access found, each reported on its own (R353); a context that one of them killed stays so. -/
def reportError (s : State) (pkg : Nat) (core : Option Nat) (ctx : Option Nat) (e : ErrRep) : State × Nat :=
  e.others.foldl (fun x o => ((reportOne x.1 pkg core ctx o.rep).1, x.2)) (reportOne s pkg core ctx e)

/-- The same for the current thread's core, with the current thread as the context. -/
def State.reportHere (s : State) (e : ErrRep) : State × Nat :=
  reportError s (pkgOf s.cc) (some s.cc) (some s.tk) e

end Sys2Proof.Machine
end

