-- ==== Sys2Proof/Machine/TrackPort.lean ====
section
/-! DEFINITION. The storage and the port of a shift track: slots, position codes, realignment, the
failing track, shift steps (spec/05 R75-R76, R83, R94-R96, spec/22 R349). -/

namespace Sys2Proof.Machine

def Core.track (c : Core) (t : Nat) : Track := tgetD c.tracks t {}
def Core.setTrack (c : Core) (t : Nat) (x : Track) : Core := { c with tracks := tput c.tracks t x }
def State.trackAt (s : State) (core t : Nat) : Track := (s.coreAt core).track t
def State.modTrack (s : State) (core t : Nat) (f : Track → Track) : State :=
  s.modCoreAt core fun c => c.setTrack t (f (c.track t))

/-- The 3-bit Gray code of a slot number (R76). -/
def grayCode (slot : Nat) : BitVec 3 := BitVec.ofNat 3 (Nat.xor (slot % 8) (slot % 8 / 2))

/-- The residue that a code stands for (R94). -/
def grayResidue (c : BitVec 3) : Nat := ((List.range 8).find? fun r => grayCode r == c).getD 0

/-- The position code stored with a slot. -/
def Track.code (x : Track) (slot : Nat) : BitVec 3 := tgetD x.codes slot (grayCode slot)

/-- Charge shift steps (R83, spec/22 R356). -/
def State.chargeSteps (s : State) (core : Nat) (d : Nat) : State :=
  s.modCoreAt core fun c => { c with tsteps := c.tsteps + BitVec.ofNat 64 d }

/-- The offset that the port computes at an expected slot: the distance from it to the slot under the
port, taken into -3 to +4 (R94). A port below slot 0 reads slot 0's code, one above the last slot the code of the
number it stands at (log entry 80). -/
def portOffset (x : Track) (h : Nat) : Int :=
  let under : Nat := ((h : Int) + x.slip).toNat
  let r := (grayResidue (x.code under) + 8 - h % 8) % 8
  if r ≤ 4 then (r : Int) else (r : Int) - 8

/-- One realignment is counted (R94, R95). -/
def State.countRealign (s : State) (core t : Nat) : State :=
  s.modCoreAt core fun c => { c with rcnt := min (c.rcnt + 1) (2 ^ 32 - 1), last := t }

/-- Verify the position code at an expected slot, with at most `fuel` realignments (R94). -/
def portVerify (core t h : Nat) : Nat → State → State × Bool
  | 0, s => (s, portOffset (s.trackAt core t) h == 0)
  | fuel + 1, s =>
    let d := portOffset (s.trackAt core t) h
    if d = 0 then (s, true)
    else
      let s := s.countRealign core t
      let s := if d = 4 then s
        else (s.modTrack core t fun x => { x with slip := x.slip - d }).chargeSteps core d.natAbs
      portVerify core t h fuel s

def Core.failing (c : Core) (t : Nat) : Bool := c.fail.getLsbD t

/-- The value of the track-shift trap (R96). -/
def shiftVal (t slot : Nat) : Word := BitVec.ofNat 64 (t + 2 ^ 16 * slot)

/-- A track becomes failing: its bit, FCNT, and a TRK error of the context (R96). -/
def State.failTrack (s : State) (core t : Nat) (ctx : Option Nat) : State :=
  let s := s.modCoreAt core fun c => { c with
    fail := c.fail ||| BitVec.ofNat 32 (2 ^ t), fcnt := min (c.fcnt + 1) 255 }
  (reportError s (pkgOf core) (some core) ctx { cls := 3, src := 1, addr := 0, synd := t }).1

/-- What an access at a slot meets: nothing, a failing track, or an uncorrectable error and its syndrome. -/
inductive PortEnd where
  | ok | shift
  | ue (synd : Nat)
  deriving DecidableEq, Repr

/-- Verify at a slot on behalf of a context. -/
def portCheck (core t h : Nat) (ctx : Option Nat) (s : State) : State × Bool :=
  if (s.coreAt core).failing t then (s, false)
  else
    let (s, ok) := portVerify core t h 3 s
    if ok then (s, true) else (s.failTrack core t ctx, false)

/-- The data of a slot after its code is checked: a corrected error is written back and reported
(spec/22 R350); an uncorrectable one leaves the slot. -/
def slotData (core t slot : Nat) (ctx : Option Nat) (s : State) : State × Option Word :=
  let x := s.trackAt core t
  let w := tgetD x.slots slot 0
  match tget x.synd slot with
  | none => (s, some w)
  | some e =>
    let low (e : BitVec 72) : Word := e.setWidth 64
    match eccRead e with
    | .uncorrectable => (s, none)
    | .clean => (s, some (w ^^^ low e))
    | .correct k =>
      let w' := w ^^^ low (e ^^^ BitVec.ofNat 72 (2 ^ k))
      let s := { s with fixes := .slot core t slot w' :: s.fixes }
      let s := s.modTrack core t fun x => { x with slots := tput x.slots slot w', synd := tdel x.synd slot }
      ((reportError s (pkgOf core) (some core) ctx
        { cls := 0, src := 1, addr := 0, synd := eccSyndrome e }).1, some w')

/-- Write a slot: a whole code word, so that old errors are gone unseen (spec/22 R350). -/
def State.slotWrite (s : State) (core t slot : Nat) (w : Word) : State :=
  s.modTrack core t fun x => { x with slots := tput x.slots slot w, synd := tdel x.synd slot }

/-- Move the head of a track, charging the steps (R83). -/
def State.moveHead (s : State) (core t dst : Nat) : State :=
  let h := (s.trackAt core t).head
  (s.modTrack core t fun x => { x with head := dst }).chargeSteps core ((dst : Int) - (h : Int)).natAbs

/-- Read a slot at a position that the port has reached. -/
def slotRead (core t slot : Nat) (ctx : Option Nat) (s : State) : State × Except PortEnd Word :=
  let (s, ok) := portCheck core t slot ctx s
  if ok then
    match slotData core t slot ctx s with
    | (s, some w) => (s, .ok w)
    | (s, none) => (s, .error (.ue (eccSyndrome (tgetD (s.trackAt core t).synd slot 0))))
  else (s, .error .shift)

/-- The uncorrectable error of a slot, as consumed: SYND is the ECC syndrome (spec/22 R355). -/
def slotErr (synd : Nat) : ErrRep := { cls := 1, src := 1, addr := 0, synd := synd }

end Sys2Proof.Machine
end

