-- ==== Sys2Proof/Machine/Access.lean ====
section
/-! DEFINITION. Memory as an agent reaches it: paths and what each permits (spec/10 R147, R148),
translation and fault messages (R151-R157), the frame-relative path (spec/14 R228), error codes of
SRAM, HBM4E and CXL memory (spec/22 R349, R350), and the bytes themselves. -/

namespace Sys2Proof.Machine

/-- Who makes an access: its package, the core whose micro-TLB it uses, its cluster, its space, the
unit and the command that a fault message names (R155, R156), and who waits on a fault. -/
structure Agent where
  pkg : Nat
  core : Option Nat
  th : Nat
  cluster : Nat
  spn : Nat
  unit : Nat
  pc : Pc
  tln : Nat
  waiter : Waiter
  deriving DecidableEq, Repr

/-- The key of a record: its package, its space, its address (spec/14 R237). -/
def recKey (pkg spn : Nat) (addr : Word) : Nat := (pkg * 4096 + spn) * 2 ^ 57 + addr.toNat % 2 ^ 57

/-- The key of the record bound to a thread; none for a gang's follower. -/
def State.keyOf (s : State) (th : Nat) : Option Nat :=
  let t := s.threadAt th
  if t.rec_ = 0 then none else some (recKey (pkgOf (th / 4)) t.spn t.rec_)

/-- What names a thread among the arrivals of a domain and the waiters on a fault: its record, or itself for a gang's
follower. -/
def State.memberKey (s : State) (th : Nat) : Nat := (s.keyOf th).getD (2 ^ 90 + th)

/-- The load-store unit on behalf of a thread. -/
def State.agentOf (s : State) (th : Nat) : Agent :=
  let t := s.threadAt th
  ⟨pkgOf (th / 4), some (th / 4), th, clusterOf (th / 4), t.spn, 0, t.pc, 0, .sync th (s.memberKey th)⟩

/-- The current thread's load-store unit. -/
def State.lsu (s : State) : Agent := s.agentOf s.tk

/-- What an access does, for R148 and the permissions of R151; `heap` is a write of the frame mechanism to a slice
heap, whose pages grant programs no W (spec/14 R233; log entry 26). -/
inductive Acc where
  | load | store | atomic | fetch | heap
  deriving DecidableEq, Repr

/-- KIND of a fault message (R156). -/
def Acc.kind : Acc → Nat
  | .load => 0 | .store | .heap => 1 | .atomic => 2 | .fetch => 3

/-! ## Entries (R151-R153) -/

def TlbEnt.valid (e : TlbEnt) : Bool := e.t.getLsbD 0
def TlbEnt.global (e : TlbEnt) : Bool := e.t.getLsbD 1
def TlbEnt.sizeCode (e : TlbEnt) : Nat := e.t.toNat / 2 ^ 2 % 4
def TlbEnt.spn (e : TlbEnt) : Nat := e.t.toNat / 2 ^ 4 % 2 ^ 12
def pageSize : Nat → Nat
  | 0 => 2 ^ 16 | 1 => 2 ^ 21 | _ => 2 ^ 30
def TlbEnt.size (e : TlbEnt) : Nat := pageSize e.sizeCode
/-- First virtual address of the page. -/
def TlbEnt.base (e : TlbEnt) : Nat := e.t.toNat / 2 ^ 16 % 2 ^ 41 * 2 ^ 16
def TlbEnt.frame (e : TlbEnt) : Nat := e.d.toNat / 2 ^ 16 % 2 ^ 30 * 2 ^ 16
def TlbEnt.elem (e : TlbEnt) : Nat := e.d.toNat / 2 ^ 60
def TlbEnt.geo (e : TlbEnt) : Nat := e.d.toNat / 2 ^ 58 % 4
def TlbEnt.sframe (e : TlbEnt) : Nat := e.s.toNat / 2 ^ 12 % 2 ^ 34 * 2 ^ 12
def TlbEnt.rl (e : TlbEnt) : Nat := e.s.toNat / 2 ^ 48 % 16

/-- Memory width in bits of an element of a page format (R152). -/
def elemBits (elem : Nat) : Nat := match elem with
  | 9 | 14 => 4 | 13 => 2 | 2 | 10 | 11 => 16 | 3 | 12 => 32 | 4 => 64 | _ => 8

/-- Bytes of the scale area (R153). -/
def TlbEnt.scaleBytes (e : TlbEnt) : Nat := e.size / (4 * elemBits e.elem)

/-- An entry matches an access (R155). -/
def TlbEnt.hits (e : TlbEnt) (spn va : Nat) : Bool :=
  e.valid && (e.global || e.spn == spn) && e.base ≤ va && va < e.base + e.size

/-- The permission that an access needs: bit 0 R, bit 1 W, bit 2 X of word D (R151). -/
def TlbEnt.permits (e : TlbEnt) : Acc → Bool
  | .load | .heap => e.d.getLsbD 0
  | .store => e.d.getLsbD 1
  | .atomic => e.d.getLsbD 0 && e.d.getLsbD 1
  | .fetch => e.d.getLsbD 2

/-- A physical range lies wholly in one tier (R149); a page that lies partly beyond the installed size counts as
in a hole (log entry 82). -/
def Pkg.inTier (p : Pkg) (lo n : Nat) : Bool :=
  lo + n ≤ p.hbm || (2 ^ 44 ≤ lo && lo + n ≤ 2 ^ 44 + p.cxl)

/-- The hole an entry's frames lie in: 2 the data frame, 3 the scale area (R156). -/
def TlbEnt.hole (e : TlbEnt) (p : Pkg) : Option Nat :=
  if !p.inTier e.frame e.size then some 2
  else if e.geo ≠ 0 ∧ !p.inTier e.sframe e.scaleBytes then some 3
  else none

/-! ## Finding a translation (R155) -/

/-- An entry moved to the front of a list of at most n. -/
def useEntry (n : Nat) (e : TlbEnt) (l : List TlbEnt) : List TlbEnt :=
  (e :: l.filter (· ≠ e)).take n

/-- The lookup of R155: the micro-TLB if the agent has one, then the cluster TLB, which is asked
again when a micro-TLB entry denies the permission; a match there refills the micro-TLB. The cause of a fault is
that of R156: a miss also where the micro-TLB denied and the cluster TLB has no entry (log entry 82). -/
def lookup (s : State) (core : Option Nat) (cl spn va : Nat) (acc : Acc) :
    State × Except Nat TlbEnt :=
  let c := s.clusterAt cl
  let viaCluster (s : State) : State × Except Nat TlbEnt :=
    match c.tlb.find? fun (e : TlbEnt) => e.hits spn va with
    | none => (s, .error 0)
    | some e =>
      let s := s.setClusterAt cl { c with tlb := useEntry 1024 e c.tlb }
      let s := match core with
        | some k => s.modCoreAt k fun x =>
            { x with utlb := useEntry 32 e (x.utlb.filter fun u => !(u.hits spn va)) }
        | none => s
      (s, if e.permits acc then .ok e else .error 1)
  let r := match core with
    | none => viaCluster s
    | some k =>
      match (s.coreAt k).utlb.find? fun (e : TlbEnt) => e.hits spn va with
      | none => viaCluster s
      | some e =>
        if e.permits acc then
          (s.modCoreAt k fun x => { x with utlb := useEntry 32 e x.utlb }, .ok e)
        else viaCluster s
  match r with
  | (s, .ok e) =>
    match e.hole (s.pkgAt (pkgOfCluster cl)) with
    | some h => (s, .error h)
    | none => (s, .ok e)
  | e => e

/-! ## Fault messages (R156, R157) -/

def mkMessage (addr : Word) (pc : Pc) (gen spn cause kind unit th tln : Nat) : BitVec 256 :=
  BitVec.ofNat 256 (addr.toNat + 2 ^ 64 * pc.toNat + 2 ^ 144 * (gen % 256) + 2 ^ 152 * (spn % 4096) +
    2 ^ 164 * cause + 2 ^ 168 * kind + 2 ^ 170 * unit + 2 ^ 173 * (th % 4) +
    2 ^ 175 * (coreIn (th / 4)) + 2 ^ 192 * (tln % 2 ^ 64))

def msgAddr (m : BitVec 256) : Word := m.setWidth 64
def msgGen (m : BitVec 256) : Nat := m.toNat / 2 ^ 144 % 256
def msgSpn (m : BitVec 256) : Nat := m.toNat / 2 ^ 152 % 4096
def msgKind (m : BitVec 256) : Nat := m.toNat / 2 ^ 168 % 4
def writeClass (kind : Nat) : Bool := kind == 1 || kind == 2

/-- Post a message for a waiter: it joins a matching entry, or takes the lowest free entry and raises
the fault interrupt; none when the buffer is full (R157, R160). -/
def postFault (s : State) (cl : Nat) (addr : Word) (pc : Pc) (spn cause kind unit th tln : Nat)
    (w : Waiter) : State × Option (Nat × Nat) :=
  let c := s.clusterAt cl
  let gen := c.fbGen
  match c.fb.find? fun (_, e) => msgGen e.msg == gen && msgSpn e.msg == spn % 4096 &&
      (msgAddr e.msg).toNat / 2 ^ 16 == addr.toNat / 2 ^ 16 &&
      writeClass (msgKind e.msg) == writeClass kind with
  | some (i, e) =>
    let ws := if e.waiters.contains w then e.waiters else e.waiters ++ [w]
    (s.setClusterAt cl { c with fb := tput c.fb i { e with waiters := ws } }, some (i, gen))
  | none =>
    match (List.range 64).find? fun i => (tget c.fb i).isNone with
    | none => (s, none)
    | some i =>
      let e : FaultEnt := ⟨mkMessage addr pc gen spn cause kind unit th tln, [w]⟩
      let s := s.setClusterAt cl (c.putFault i e)
      let p := pkgOfCluster cl
      (if c.fbHost then s.interrupt p 0 0 else s.interrupt p 1 (clusterIn cl), some (i, gen))

/-- Set the fault entry that an operation waits on. -/
def setOpWait (ops : List Op) (num : Nat) (w : Option (Nat × Nat × Nat)) : List Op :=
  ops.map fun o => if o.num = num then { o with wait := w } else o

def State.modOps (s : State) (th : Nat) (e : Eng) (f : List Op → List Op) : State :=
  match e with
  | .ld => s.modThreadAt th fun t => { t with ldq := f t.ldq }
  | .ce => s.modCoreAt (th / 4) fun c => { c with ce := f c.ce }
  | .te => s.modCoreAt (th / 4) fun c => { c with te := f c.te }
  | .me => s.modCoreAt (th / 4) fun c => { c with me := f c.me }

/-- A compaction engine of a package (spec/20 R328). -/
def Pkg.cmp (p : Pkg) (e : Nat) : Compactor := if e = 0 then p.cmp0 else p.cmp1
def Pkg.setCmp (p : Pkg) (e : Nat) (c : Compactor) : Pkg := if e = 0 then { p with cmp0 := c } else { p with cmp1 := c }

/-- The waiter blocks on an entry (R155). -/
def State.block (s : State) (w : Waiter) (cl entry gen moved : Nat) (vh fetch : Bool) : State :=
  match w with
  | .sync th _ => s.modThreadAt th fun t => { t with blocked := some ⟨cl, entry, gen, moved, vh, fetch⟩ }
  | .op th e num => s.modOps th e fun ops =>
      ops.map fun o => if o.num = num ∧ o.th = th then { o with wait := some (cl, entry, gen) } else o
  | .compact pkg e => s.modPkgAt pkg fun p => p.setCmp e { p.cmp e with wait := some (cl, entry, gen) }
  | .launch _ | .recWrite .. => s

/-- The package whose id is `id` (spec/21 R341). -/
def State.pkgOfId (s : State) (id : Nat) : Nat :=
  ((s.pkgs.find? fun (_, p) => p.pkgId == id).map (·.1)).getD id

/-! ## Requests that cross the fabric (spec/21 R338, R342) -/

/-- Ports of a package that are up, in ascending order. -/
def Pkg.upPorts (p : Pkg) : List Nat := (List.range 18).filter fun n => (tgetD p.ports n {}).state == 2

/-- The port that a request to a package id takes (R342). -/
def Pkg.plane (p : Pkg) (id addr : Nat) : Option Nat :=
  p.upPorts[(id + addr / 2 ^ 12 % 2 ^ 16) % p.upPorts.length]?

/-- One bit of the CRC-32 of polynomial 0x04C11DB7 (R338). -/
def crcBit (c : BitVec 32) (b : Bool) : BitVec 32 :=
  if c.getLsbD 31 != b then (c <<< 1) ^^^ 0x04C11DB7 else c <<< 1

/-- The CRC of some bytes. -/
def flitCrc (bs : List Byte) : BitVec 32 :=
  let bits (b : Byte) : List Bool := (List.range 8).map fun i => b.getLsbD (if Config.crcReflected then i else 7 - i)
  let c := (bs.flatMap bits).foldl crcBit Config.crcInit
  let c := if Config.crcReflected then c.reverse else c
  c ^^^ Config.crcFinal

/-- A flit: SEQ and TYPE, ACK, payload, CRC. -/
def mkFlit (seq type ack : Nat) (payload : List Byte) : List Byte :=
  let bs := leBytes 2 (seq % 2 ^ 12 + 2 ^ 12 * type) ++ leBytes 2 (ack % 2 ^ 12) ++ payload
  bs ++ leBytes 4 (flitCrc bs).toNat

/-- A lane carries traffic: lanes 0-7, the one that the spare (8) replaces excepted. -/
def Port.carries (p : Port) (lane : Nat) : Bool := if lane = 8 then p.spused else lane != p.failed

/-- The flit on which an injector fires. -/
def winjNth (w : Word) : Nat := max 1 (w.toNat % 2 ^ 32)

/-- ARM is cleared and FIRED set. -/
def winjFired (w : Word) : Word := (w &&& ~~~(BitVec.ofNat 64 (2 ^ 63) : Word)) ||| BitVec.ofNat 64 (2 ^ 62)

/-- What an injector does to its flit, by MODE and PARAM. -/
def winjStrike (w : Word) : Strike :=
  let n := w.toNat / 2 ^ 48 % 2 ^ 12
  match w.toNat / 2 ^ 60 % 4 with
  | 0 => .corrupt (min 68 (max 1 n))
  | 1 => .drop
  | _ => .delay n

/-- A flit that a lane carries is counted by the lane's injector, if it is armed, and the NTH has it fire on that flit
(R345). -/
def Port.countLane (p : Port) (lane : Nat) : Port :=
  let w := tgetD p.winj lane 0
  if !p.carries lane || !w.getLsbD 63 then p
  else
    let n := tgetD p.carried lane 0 + 1
    let p := { p with carried := tput p.carried lane n }
    if n < winjNth w then p
    else { p with winj := tput p.winj lane (winjFired w), struck := p.struck ++ [(p.nsent, winjStrike w)] }

/-- A flit goes out on the lanes. -/
def Port.emit (p : Port) (f : List Byte) : Port :=
  let p := (List.range 9).foldl Port.countLane p
  { p with toSend := p.toSend ++ [f], nsent := p.nsent + 1 }

def Port.carry (p : Port) (fs : List (List Byte)) : Port := fs.foldl Port.emit p

/-- An idle flit (TYPE 0). -/
def Port.idleFlit (p : Port) : List Byte := mkFlit p.txSeq 0 p.rxSeq (List.replicate 120 0)

/-- Idle flits go out, as many as are named: a link that has nothing else to send carries them. -/
def Port.idle : Nat → Port → Port
  | 0, p => p
  | n + 1, p => Port.idle n (p.emit p.idleFlit)

/-- A codeword is five flits: what it lacks of them once nothing more is to be sent are idle flits (log entry 24). -/
def Port.fill (p : Port) : Port := Port.idle ((5 - p.nsent % 5) % 5) p

/-- A flit of a type with a body takes the next SEQ and is kept until it is acknowledged. -/
def Port.put (p : Port) (r : FlitReq) : Port :=
  let f := mkFlit p.txSeq r.type p.rxSeq (List.ofFn (Config.flitBody r.type r.num r.dst r.addr r.data))
  { p.emit f with txSeq := (p.txSeq + 1) % 4096, unacked := p.unacked ++ [(p.txSeq, f)] }

/-- A port sends a flit; one that finds 256 unacknowledged waits, in its order (R339). -/
def Port.send (p : Port) (r : FlitReq) : Port :=
  if 256 ≤ p.unacked.length ∨ p.waiting ≠ [] then { p with waiting := p.waiting ++ [r] } else p.put r

/-- The flits that wait go out while there is room. -/
def Port.pump : Nat → Port → Port
  | 0, p => p
  | n + 1, p => match p.waiting with
    | [] => p
    | r :: rs => if 256 ≤ p.unacked.length then p else Port.pump n ({ p with waiting := rs }.put r)

/-- The data of a body, 64 bytes to a flit (log entry 24). -/
def flitCuts : Nat → List Byte → List (List Byte)
  | 0, bs => [bs]
  | n + 1, bs => if bs.length ≤ 64 then [bs] else bs.take 64 :: flitCuts n (bs.drop 64)

/-- A body leaves a package for another one, with its data, on the plane that its address gives. -/
def State.sendFlit (s : State) (pkg dst type num addr : Nat) (data : List Byte) : State :=
  let id := (s.pkgAt dst).pkgId
  match (s.pkgAt pkg).plane id addr with
  | none => s
  | some n => s.modPkgAt pkg fun p => { p with
      ports := tput p.ports n ((flitCuts data.length data).zipIdx.foldl
        (fun x c => x.send ⟨type, num, id, addr + 64 * c.2, c.1⟩) (tgetD p.ports n {})) }

/-- What the body of a request carries: what is written, how much is read, what is added. -/
def bodyData : RemoteBody → List Byte
  | .write bs => bs
  | .read n => leBytes 8 n
  | .amoAdd n v => leBytes n v.toNat

/-- How far a 32-bit number b lies behind a. -/
def numBehind (a b : Nat) : Nat := (a + 2 ^ 32 - b % 2 ^ 32) % 2 ^ 32

/-- Numbers to a destination from the oldest that is not acknowledged to the next. -/
def Pkg.numSpan (p : Pkg) (dst : Nat) : Nat :=
  match tgetD p.reqUnacked dst [] with
  | [] => 0
  | r :: _ => numBehind (tgetD p.reqNext dst 0) r.num

/-- A package can send a request: the port of its plane is up and keeps fewer than 256 flits that are not
acknowledged (R339), the destination's window of 4,096 numbers reaches back to the oldest that it has yet to
acknowledge (R342), and the destination's request processing is not stopped by heat (spec/22 R360). -/
def State.canSend (s : State) (pkg dst addr : Nat) : Bool :=
  match (s.pkgAt pkg).plane (s.pkgAt dst).pkgId addr with
  | none => false
  | some n =>
    let x := tgetD (s.pkgAt pkg).ports n {}
    decide (x.unacked.length < 256) && x.waiting.isEmpty && decide ((s.pkgAt pkg).numSpan dst < 4096) &&
      !(s.pkgAt dst).gated

/-- A number joins those of a window of n, the n up to the highest; the numbers that a new highest one leaves behind
are yet to be applied. -/
def Window.record (w : Window) (n num : Nat) : Window :=
  let ahead := numBehind num w.top
  let first := if w.seen.isEmpty then 0 else 1
  let (top, skipped) := if ahead < 2 ^ 31
    then (num, (List.range (ahead - first)).map fun i => (w.top + first + i) % 2 ^ 32) else (w.top, [])
  { top := top, seen := (num :: w.seen).filter fun x => decide (numBehind top x < n)
    gaps := (w.gaps ++ skipped).filter fun x => x != num }

/-- A number of a window of n has been applied: it is among those seen, or lies behind the window and was not left
out. -/
def Window.applied (w : Window) (n num : Nat) : Bool :=
  w.seen.contains num ||
    (decide (n ≤ numBehind w.top num) && decide (numBehind w.top num < 2 ^ 31) && !(w.gaps.contains num))

/-- A request takes its number, leaves with what it carries, and is applied once where it arrives, in the same step;
its response stands there. It is kept until it is acknowledged. -/
def State.request (s : State) (ag : Agent) (dst va : Nat) (body : RemoteBody) (reply : List Byte) : State :=
  let p := s.pkgAt ag.pkg
  let num := tgetD p.reqNext dst 0
  let r : RemoteReq := ⟨num, ag.th, ag.spn, BitVec.ofNat 64 va, body⟩
  let s := s.sendFlit ag.pkg dst 1 num va (bodyData body)
  let s := s.modPkgAt ag.pkg fun p => { p with
    reqNext := tput p.reqNext dst ((num + 1) % 2 ^ 32)
    reqUnacked := tput p.reqUnacked dst (tgetD p.reqUnacked dst [] ++ [r]) }
  s.modPkgAt dst fun p => { p with
    reqSeen := tput p.reqSeen ag.pkg ((tgetD p.reqSeen ag.pkg {}).record 4096 num)
    responses := p.responses ++ [(ag.pkg, num, reply)] }

/-- An access that was translated on another package leaves for it, with what it carries. -/
def State.carried (s : State) (ag : Agent) (key : Nat) (b : RemoteBody) (reply : List Byte) : State :=
  let dst := key / 2 ^ 48
  if dst = ag.pkg then s
  else
    let fits (x : Nat × Nat × RemoteReq) : Bool :=
      x.1 == ag.pkg && x.2.1 == dst && x.2.2.addr.toNat % 2 ^ 16 == key % 2 ^ 16 &&
        (match b, x.2.2.body with | .read _, .read _ => true | .write _, .write _ => true | _, _ => false)
    match s.asking.find? fits with
    | some x => ({ s with asking := s.asking.erase x }).request { ag with spn := x.2.2.spn } dst x.2.2.addr.toNat b reply
    | none => s

/-- Translate for an agent: the physical key of a virtual address of a package, or the agent blocks
on the fault message and the computation stops (R155). `moved` counts what a partly executed
instruction has done; `ask` says that the translation is of one request, which is to leave for the package. -/
def translate (ag : Agent) (pkg va : Nat) (acc : Acc) (addr : Word) (moved : Nat := 0)
    (vh : Bool := false) (ask : Bool := true) : Act (Nat × TlbEnt) := do
  let s ← get
  let local_ := pkg == ag.pkg
  if !local_ && !(s.canSend ag.pkg pkg va) then stopWait else
  let cl := if local_ then ag.cluster else pkg * Config.clusters + clusterIn ag.cluster
  let (s1, r) := lookup s (if local_ then ag.core else none) cl ag.spn va acc
  match r with
  | .ok e => do
    set (if local_ || !ask then s1 else { s1 with asking := s1.asking ++
      [(ag.pkg, pkg, ⟨0, ag.th, ag.spn, BitVec.ofNat 64 va, if acc = .load then .read 0 else .write []⟩)] })
    pure (pkg * 2 ^ 48 + e.frame + va % e.size, e)
  | .error cause => do
    let (s2, p) := postFault s1 cl addr ag.pc ag.spn cause acc.kind (if local_ then ag.unit else 4)
      ag.th ag.tln ag.waiter
    match p with
    | some (i, gen) => set (s2.block ag.waiter cl i gen moved vh (acc == .fetch))
    | none => set s2
    stopPaid

/-! ## Paths (R147, R148) -/

/-- What an address names before translation. -/
inductive Pre where
  | sram (key : Nat)
  | virt (pkg va : Nat)
  | frame (o : Nat)
  | reg (off : Nat)
  deriving DecidableEq, Repr

def sramKey (core off : Nat) : Nat := pkgOf core * 2 ^ 48 + 2 ^ 47 + 32768 * coreIn core + off

/-- Bits 59:0 of an address, its selector. -/
def low60 (ea : Word) : Nat := ea.toNat % 2 ^ 60
def selector (ea : Word) : Nat := ea.toNat / 2 ^ 60

/-- Address arithmetic that keeps the path selector (spec/03 R51). -/
def addrAdd (a : Word) (off : Int) : Word :=
  BitVec.ofNat 64 (selector a * 2 ^ 60 + (((low60 a : Int) + off) % 2 ^ 60).toNat)

/-- R147 and R148 on one address: what it names, or the access trap. `dev` says that the access is
`ld.d` or `st.d`, the only ones that path 0x9 permits. -/
def pathCheck (s : State) (ag : Agent) (acc : Acc) (dev : Bool) (ea : Word) : Except Trap Pre :=
  let bad : Except Trap Pre := .error (trAccess ea)
  let x := low60 ea
  let core := ag.core.getD (coreOfCluster ag.cluster 0)
  let notFetch (p : Except Trap Pre) : Except Trap Pre := if acc = .fetch then bad else p
  match selector ea with
  | 0 => if x < 2 ^ 57 then .ok (.virt ag.pkg x) else bad
  | 1 => notFetch (if x < 2 ^ 15 then .ok (.sram (sramKey core x)) else bad)
  | 2 => notFetch (if x < 2 ^ 21 then
      .ok (.sram (sramKey (coreOfCluster ag.cluster (x / 2 ^ 15)) (x % 2 ^ 15))) else bad)
  | 3 =>
    let ci := x / 2 ^ 22
    let die := clusterIn ag.cluster / Config.clustersPerDie
    notFetch (if ci < Config.clustersPerDie ∧ x / 2 ^ 15 % 128 < 64 then
      .ok (.sram (sramKey (coreOfCluster (ag.pkg * Config.clusters + die * Config.clustersPerDie + ci)
        (x / 2 ^ 15 % 64)) (x % 2 ^ 15))) else bad)
  | 4 => notFetch (if x < 2 ^ 32 ∧ x / 2 ^ 15 < Config.cores then
      .ok (.sram (sramKey (ag.pkg * Config.cores + x / 2 ^ 15) (x % 2 ^ 15))) else bad)
  | 5 => notFetch (if x < 2 ^ 36 then .ok (.frame x) else bad)
  | 6 => if acc = .load then (if x < 2 ^ 57 then .ok (.virt ag.pkg x) else bad) else bad
  | 7 => notFetch (if x < 2 ^ 57 then .ok (.virt ag.pkg x) else bad)
  | 8 =>
    let id := x / 2 ^ 46
    let p := s.pkgAt ag.pkg
    notFetch (if id ≤ p.npkgm1 then
      .ok (.virt (if id = p.pkgId then ag.pkg else s.pkgOfId id) (x % 2 ^ 46)) else bad)
  | 9 => if dev ∧ (acc = .load ∨ acc = .store) ∧ x < 2 ^ 32 then .ok (.reg x) else bad
  | _ => bad

/-! ## The frame-relative path (spec/14 R228) -/

/-- The frames of the resident windows: the topmost RES window frames. -/
def Thread.residentFrames (t : Thread) : List Frame :=
  (t.frames.filter fun f => f.kind == .window).take t.res

/-- Whether a path 0x5 access of n bytes at offset o is refused. -/
def frameRefused (t : Thread) (o n : Nat) (store : Bool) : Bool :=
  o + n > 8 * t.fsp ||
  ((List.range ((o + n - 1) / 8 + 1 - o / 8)).any fun i =>
    let w := o / 8 + i
    (t.residentFrames.any fun f => f.at_ + 1 ≤ w && w ≤ f.at_ + 40) ||
    (store && t.frames.any fun f =>
      w == f.at_ || (f.kind != .window && f.at_ ≤ w && w < f.at_ + f.size)))

/-- A byte offset of the frame store in the frame area, as a path 0x0 address (R222). -/
def Thread.frameAddr (t : Thread) (o : Nat) : Word :=
  addrAdd t.ab ((o : Int) - (if t.ftrk.isSome then 16384 else 0))

/-- Resolve one access of n bytes: the checks of R147 and R148, the frame store of the thread for
path 0x5, and the translation. A fault message of a path 0x5 access names the path 0x0 address that it resolves to
(R156; log entry 82). The access does not cross a page, a slot or the frame track's end. -/
def resolve (ag : Agent) (acc : Acc) (dev : Bool) (ea : Word) (n : Nat) (moved : Nat := 0)
    (vh : Bool := false) : Act Place := do
  let s ← get
  match pathCheck s ag acc dev ea with
  | .error t => stopTrap { t with vh := vh }
  | .ok (.sram k) => pure (.cell k)
  | .ok (.reg off) => pure (.reg off)
  | .ok (.virt p va) => do
    let (k, _) ← translate ag p va acc ea moved vh
    pure (if selector ea = 6 then .const k else .cell k)
  | .ok (.frame o) => do
    let t := s.threadAt ag.th
    trapIf (frameRefused t o n (acc != .load)) { trAccess ea with vh := vh }
    match t.ftrk with
    | some tr =>
      if o / 8 < 2048 then
        if o + n > 16384 then stopTrap { trMisaligned ea with vh := vh }
        else pure (.slot (ag.th / 4) tr (o / 8) (o % 8))
      else do
        let a := t.frameAddr o
        let (k, _) ← translate ag ag.pkg (low60 a) acc a moved vh
        pure (.cell k)
    | none => do
      let a := t.frameAddr o
      let (k, _) ← translate ag ag.pkg (low60 a) acc a moved vh
      pure (.cell k)

/-! ## Bytes, with the error codes of the stores (spec/22 R349, R350) -/

def isSram (key : Nat) : Bool := key % 2 ^ 48 ≥ 2 ^ 47
def sramCore (key : Nat) : Nat :=
  key / 2 ^ 48 * Config.cores + (key % 2 ^ 48 - 2 ^ 47) / 32768

/-- Xor a data word in memory with flipped bits. -/
def State.xorWord (s : State) (key : Nat) (e : Word) : State :=
  { s with mem := memWrites s.mem key (leBytes 8 (leVal (memReads s.mem key 8) ^^^ e.toNat)) }

/-- What a read of SRAM word number wn finds, on behalf of a context: a corrected word is written
back and reported (R350); false when it is uncorrectable. -/
def sramWord (wn : Nat) (core : Option Nat) (ctx : Option Nat) (s : State) : State × Bool :=
  match tget s.sramErr wn with
  | none => (s, true)
  | some e =>
    let clear (s : State) : State := { s with sramErr := tdel s.sramErr wn }
    let low (e : BitVec 72) : Word := e.setWidth 64
    match eccRead e with
    | .uncorrectable => (s, false)
    | .clean => (clear (s.xorWord (8 * wn) (low e)), true)
    | .correct k =>
      let m := low (e ^^^ BitVec.ofNat 72 (2 ^ k))
      let s := { clear (s.xorWord (8 * wn) m) with fixes := .sram wn m :: s.fixes }
      let r : ErrRep := { cls := 0, src := 0, addr := BitVec.ofNat 64 (2 ^ 62 + (8 * wn % 2 ^ 48 - 2 ^ 47))
                          synd := eccSyndrome e, core := some (sramCore (8 * wn)) }
      ((reportError s (8 * wn / 2 ^ 48) core ctx r).1, true)

/-- The same for HBM4E line ln: one bad symbol is corrected, two are detected, more may go unnoticed
(log entry 14). -/
def hbmLine (ln : Nat) (core : Option Nat) (ctx : Option Nat) (s : State) : State × Bool :=
  match tget s.hbmErr ln with
  | none => (s, true)
  | some es =>
    let clear (s : State) : State := { s with hbmErr := tdel s.hbmErr ln }
    match es with
    | [] => (clear s, true)
    | [_] => ((reportError { clear s with fixes := .hbm ln [] :: s.fixes } (64 * ln / 2 ^ 48) core ctx
        { cls := 0, src := 3, addr := BitVec.ofNat 64 (64 * ln % 2 ^ 48) }).1, true)
    | [_, _] => (s, false)
    | _ =>
      if Config.hbmManyErrors s.fresh then ({ s with fresh := s.fresh + 1 }, false)
      else
        let bs := (List.range 64).map fun i => Config.freeByte (s.fresh + 1 + i)
        (clear { s with fresh := s.fresh + 65, mem := memWrites s.mem (64 * ln) bs }, true)

/-- A granule of CXL memory whose device is unreachable (spec/21 R336, R337). -/
def Pkg.cxlGone (p : Pkg) (pa : Nat) : Bool :=
  2 ^ 44 ≤ pa && pa < 2 ^ 45 && p.cxlPorts ≠ 0 &&
  p.cxlLost.contains ((pa - 2 ^ 44) / 4096 % p.cxlPorts)

/-- The lines of n bytes that CXL memory does not answer: of a device out of reach, or with poison where its
old contents are read; a whole line written takes the poison away (R337; log entry 81). -/
def State.cxlBad (s : State) (key n : Nat) (write : Bool) : List Nat :=
  ((List.range ((key + n - 1) / 64 + 1 - key / 64)).map (key / 64 + ·)).filter fun ln =>
    (s.pkgAt (key / 2 ^ 48)).cxlGone (64 * ln % 2 ^ 48) ||
      (s.cxlPoison.contains ln && !(write && key ≤ 64 * ln && 64 * ln + 64 ≤ key + n))

/-- The lines of n bytes that a write makes whole carry no poison. -/
def State.unpoison (s : State) (key n : Nat) : State :=
  if s.cxlPoison.isEmpty then s
  else { s with cxlPoison := s.cxlPoison.filter fun ln => !(decide (key ≤ 64 * ln) && decide (64 * ln + 64 ≤ key + n)) }

/-- The code word that holds a byte: its first key, and its size (R349). -/
def codeWord (key : Nat) : Nat := if isSram key then 8 * (key / 8) else 64 * (key / 64)
def codeSize (key : Nat) : Nat := if isSram key then 8 else 64

/-- The address an error report names: SRAM on path 0x4, memory by its physical address. -/
def errAddr (key : Nat) : Word :=
  if isSram key then BitVec.ofNat 64 (4 * 2 ^ 60 + (key % 2 ^ 48 - 2 ^ 47))
  else BitVec.ofNat 64 (key % 2 ^ 48)

/-- The code words of `size` bytes each that n bytes at a key touch, without those that a write makes whole. -/
def wordsRead (size key n : Nat) (write : Bool) : List Nat :=
  ((List.range ((key + n - 1) / size + 1 - key / size)).map (key / size + ·)).filter fun w =>
    !(write && decide (key ≤ size * w) && decide (size * w + size ≤ key + n))

/-- Errors of code words that a write makes whole are gone unseen (R350). -/
def clearWhole {α : Type} (size key n : Nat) (l : Tbl α) : Tbl α :=
  l.filter fun e => !(decide (key ≤ size * e.1) && decide (size * e.1 + size ≤ key + n))

/-- An access consumes the errors that it found, if it found any. -/
def throwErrs (l : List ErrRep) : Act Unit :=
  match errsOf l with
  | some e => throw (.err e)
  | none => pure ()

/-- Code words are read one by one, each by a read that says whether the word is in order; what the others are. -/
def scanWords (read : Nat → State → State × Bool) (err : State → Nat → ErrRep) : List Nat → State → State × List ErrRep
  | [], s => (s, [])
  | w :: ws, s =>
    let (s, ok) := read w s
    let (s', l) := scanWords read err ws s
    (s', if ok then l else err s w :: l)

/-- The code words that n bytes at a key touch are read; a whole word about to be written is not, and its error is
gone once the others are found in order (R350). -/
def eccScan (ag : Agent) (key n : Nat) (write : Bool) : Act Unit := do
  let s ← get
  let ctx := ag.core.map fun _ => ag.th
  if n = 0 then pure ()
  else if isSram key then
    if s.sramErr.isEmpty then pure ()
    else do
      let (s, l) := scanWords (fun wn => sramWord wn ag.core ctx)
        (fun s wn => { cls := 1, src := 0, addr := errAddr (8 * wn), synd := eccSyndrome (tgetD s.sramErr wn 0)
                       core := some (sramCore key) }) (wordsRead 8 key n write) s
      set s
      throwErrs l
      if write then modify fun s => { s with sramErr := clearWhole 8 key n s.sramErr }
  else do
    throwErrs ((s.cxlBad key n write).map fun ln => { cls := 1, src := 4, addr := errAddr (64 * ln) })
    if s.hbmErr.isEmpty then pure ()
    else do
      let (s, l) := scanWords (fun ln => hbmLine ln ag.core ctx)
        (fun _ ln => { cls := 1, src := 3, addr := errAddr (64 * ln) }) (wordsRead 64 key n write) s
      set s
      throwErrs l
      if write then modify fun s => { s with hbmErr := clearWhole 64 key n s.hbmErr }
    if write then modify fun s => s.unpoison key n

/-- A location lies in a cluster's own SRAM. -/
def ownSram (cl key : Nat) : Bool := isSram key && clusterOf (sramCore key) == cl

/-- A request that leaves a cluster is charged to the cluster's byte budget (spec/22 R358). -/
def State.charge (s : State) (cl key n : Nat) : State :=
  if ownSram cl key then s
  else s.modClusterAt cl fun c =>
    { c with used := (c.used + n) % 2 ^ 32, balance := if c.budget = 0 then c.balance else c.balance - n }

/-- Requests counted for a waiter. -/
def countOf (l : List (Waiter × Nat)) (w : Waiter) : Nat := ((l.find? fun x => x.1 == w).map (·.2)).getD 0

/-- A waiter's next request has passed. -/
def State.passed (s : State) (w : Waiter) : State :=
  { s with granted := (w, countOf s.granted w + 1) :: s.granted.filter fun x => x.1 != w }

/-- A request of n bytes is granted and charged. One that leaves the cluster while the balance is not above 0 waits;
those of the same waiter that were granted before it stay granted when it is tried again (R358; log entry 29). -/
def grant (ag : Agent) (key n : Nat) : Act Unit := do
  let s ← get
  let c := s.clusterAt ag.cluster
  if c.budget = 0 ∨ ownSram ag.cluster key then set (s.charge ag.cluster key n)
  else if countOf s.granted ag.waiter < countOf s.paid ag.waiter then set (s.passed ag.waiter)
  else if c.balance ≤ 0 then stopPaid
  else set ((s.charge ag.cluster key n).passed ag.waiter)

/-- Memory after a write of the locations named: outside the SRAMs, what they held before is kept. -/
def State.wrote (s : State) (keys : List Nat) (m : List Host.Cell) : State :=
  let l := keys.filter fun k => !isSram k
  { s with mem := m, old := if l.isEmpty then s.old else l.map (fun k => (k, memRead s.mem k)) :: s.old }

/-- Read n bytes at a key for an agent that no byte budget meters. -/
def cellGet (ag : Agent) (key n : Nat) : Act (List Byte) := do
  eccScan ag key n false
  let bs := memReads (← get).mem key n
  modify fun s => s.carried ag key (.read n) bs
  pure bs

/-- Read n bytes of memory at a key. -/
def cellRead (ag : Agent) (key n : Nat) : Act (List Byte) := do
  grant ag key n
  cellGet ag key n

/-- Bytes go to memory whose code words are in order. -/
def cellStore (ag : Agent) (key : Nat) (bs : List Byte) : Act Unit :=
  modify fun s => (s.carried ag key (.write bs) []).wrote
    ((List.range bs.length).map (key + ·)) (memWrites s.mem key bs)

/-- Write bytes at a key for an agent that no byte budget meters. -/
def cellPut (ag : Agent) (key : Nat) (bs : List Byte) : Act Unit := do
  eccScan ag key bs.length true
  cellStore ag key bs

/-- Write bytes of memory at a key. -/
def cellWrite (ag : Agent) (key : Nat) (bs : List Byte) : Act Unit := do
  grant ag key bs.length
  cellPut ag key bs

/-! ## The constant path (spec/12 R206) -/

/-- What a location held when `t` writes had been made. -/
def State.byteAt (s : State) (t a : Nat) : Byte :=
  ((s.old.take (s.old.length - t)).foldl (fun b w => match w.find? fun e => e.1 == a with
    | some e => e.2
    | none => b) (memRead s.mem a))

/-- The earliest point whose values a thread's constant-path load of n bytes may return. -/
def Thread.constFloor (t : Thread) (key n : Nat) : Nat :=
  (List.range n).foldl (fun m i => max m (tgetD t.constSeen (key + i) 0)) t.constFrom

/-- A constant-path load of n bytes that single-copy atomicity keeps together: any value that they have
held since the thread's last package-scope `.ll` fence and its own last such load of them. -/
def constUnit (th key n : Nat) (s : State) : State × List Byte :=
  let lo := (s.threadAt th).constFloor key n
  let p := lo + Config.freeNat s.fresh % (s.old.length - lo + 1)
  let bs := (List.range n).map fun i => s.byteAt p (key + i)
  (({ s with fresh := s.fresh + 1 }).modThreadAt th fun t =>
    { t with constSeen := (List.range n).foldl (fun l i => tput l (key + i) p) t.constSeen }, bs)

/-- The same unit by unit of 8 bytes (spec/10 R150). -/
def constUnits (th : Nat) : Nat → Nat → Nat → State → State × List Byte
  | 0, _, _, s => (s, [])
  | fuel + 1, key, n, s =>
    if n ≤ 8 then constUnit th key n s
    else
      let (s, a) := constUnit th key 8 s
      let (s, b) := constUnits th fuel (key + 8) (n - 8) s
      (s, a ++ b)

def constRead (ag : Agent) (key n : Nat) : Act (List Byte) := do
  let _ ← cellRead ag key n
  let (s, bs) := constUnits ag.th (n + 1) key n (← get)
  set s
  pure bs

/-- The port of a frame track is moved to a word's slot (spec/14 R222). -/
def frameSlotRead (ag : Agent) (core t slot : Nat) (moved : Nat := 0) : Act Word := do
  modify fun s => s.moveHead core t slot
  let (s, r) := slotRead core t slot (some ag.th) (← get)
  set s
  match r with
  | .ok w => pure w
  | .error (.ue n) => throw (.err (slotErr n))
  | .error _ => stopKeep { trShift (shiftVal t slot) with moved := moved }

def frameSlotWrite (ag : Agent) (core t slot : Nat) (w : Word) (moved : Nat := 0) : Act Unit := do
  modify fun s => s.moveHead core t slot
  let (s, ok) := portCheck core t slot (some ag.th) (← get)
  set s
  if ok then modify fun s => s.slotWrite core t slot w
  else stopKeep { trShift (shiftVal t slot) with moved := moved }

/-- Read n bytes at a place; a device register is read elsewhere. -/
def placeRead (ag : Agent) (p : Place) (n : Nat) : Act (List Byte) :=
  match p with
  | .cell k => cellRead ag k n
  | .const k => constRead ag k n
  | .slot core t slot off => do
    let rec go : Nat → Nat → Act (List Byte)
      | 0, _ => pure []
      | m + 1, w => do
        let x ← frameSlotRead ag core t w
        pure (leBytes 8 x.toNat ++ (← go m (w + 1)))
    let bs ← go ((off + n + 7) / 8) slot
    pure ((bs.drop off).take n)
  | .reg _ => pure []

/-- Write bytes at a place. -/
def placeWrite (ag : Agent) (p : Place) (bs : List Byte) : Act Unit :=
  match p with
  | .cell k | .const k => cellWrite ag k bs
  | .slot core t slot off => do
    let words := (off + bs.length + 7) / 8
    let rec go : Nat → Nat → Nat → Act Unit
      | 0, _, _ => pure ()
      | m + 1, w, done => do
        let old ← if off = 0 ∧ done + 8 ≤ bs.length then pure (0 : Word)
          else frameSlotRead ag core t w
        let ob := leBytes 8 old.toNat
        let nb := (List.range 8).map fun i =>
          let j := (w - slot) * 8 + i
          if off ≤ j ∧ j < off + bs.length then bs.getD (j - off) 0 else ob.getD i 0
        frameSlotWrite ag core t w (BitVec.ofNat 64 (leVal nb))
        go m (w + 1) (done + 8)
    go words slot 0
  | .reg _ => pure ()

/-- Code words that some bytes about to be written together touch: what they do not make whole is read first. -/
def storeScan (ag : Agent) (keys : List Nat) : Act Unit :=
  (keys.map codeWord).eraseDups.forM fun w =>
    eccScan ag w (codeSize w) ((List.range (codeSize w)).all fun i => keys.contains (w + i))

/-- Write bytes at several places in one step: granted, then verified, then written (R350: a store that cannot be
performed writes nothing). -/
def placesWrite (ag : Agent) (l : List (Place × List Byte)) : Act Unit := do
  let cells := l.filterMap fun x => match x.1 with
    | .cell k | .const k => some (k, x.2)
    | _ => none
  cells.forM fun x => grant ag x.1 x.2.length
  storeScan ag (cells.flatMap fun x => (List.range x.2.length).map (x.1 + ·))
  l.forM fun x => match x.1 with
    | .cell k | .const k => cellStore ag k x.2
    | p => placeWrite ag p x.2

/-- A load of n bytes: resolve, then read. -/
def loadBytes (ag : Agent) (ea : Word) (n : Nat) : Act (List Byte) := do
  let p ← resolve ag .load false ea n
  placeRead ag p n

/-- A store: resolve, then write. -/
def storeBytes (ag : Agent) (ea : Word) (bs : List Byte) : Act Unit := do
  let p ← resolve ag .store false ea bs.length
  placeWrite ag p bs

/-- An aligned 8-byte word at an address. -/
def loadWord (ag : Agent) (ea : Word) : Act Word := do
  pure (BitVec.ofNat 64 (leVal (← loadBytes ag ea 8)))

def storeWord (ag : Agent) (ea : Word) (w : Word) : Act Unit := storeBytes ag ea (leBytes 8 w.toNat)

/-- A write of the frame mechanism to a slice heap (spec/14 R233; log entry 26). -/
def heapStore (ag : Agent) (ea : Word) (w : Word) : Act Unit := do
  let p ← resolve ag .heap false ea 8
  placeWrite ag p (leBytes 8 w.toNat)

end Sys2Proof.Machine
end

