-- ==== Sys2Proof/Machine/Operands.lean ====
section
/-! DEFINITION. What an instruction's fields say of it before it runs: how its guard applies
(spec/08 R122), whether it needs the engine owner (spec/03 R32), the future and timeline it names,
the registers whose pending asynchronous loads it waits for (spec/08 R137, spec/11 R175), and the
classes that the control rules of spec/04 and spec/16 name. -/

namespace Sys2Proof

/-! ## Guards (spec/08 R119, R122) -/

/-- Guard bits that a format uses (R119). -/
def guardBits (f : Fmt) : Nat := min 64 f.lanes

/-- How a guard applies (R122): bit 0 decides, or the used bits of a lane mask, or one lane's bit. -/
inductive GuardKind where
  | bit0
  | lanes (n : Nat)
  | lane (i : Nat)
  deriving DecidableEq, Repr

/-- The low n bits of a mask. -/
def lowBits (m : Word) (n : Nat) : Word := m &&& BitVec.ofNat 64 (2 ^ n - 1)

/-- Whether an effective guard lets an instruction execute at all. -/
def GuardKind.live (k : GuardKind) (m : Word) : Bool :=
  match k with
  | .bit0 => m.getLsbD 0
  | .lanes n => lowBits m n != 0
  | .lane i => m.getLsbD i

/-- The kind of R122. The single-lane forms `vext` and `vins` select the lane they name. -/
def Instr.guardKind (i : Instr) (fmt : Fmt) : GuardKind :=
  match i with
  | .vext _ _ _ _ idx | .vins _ _ _ _ idx => .lane idx.toNat
  | .vadd _ ef .. | .vsub _ ef .. | .vmul _ ef .. | .vfma _ ef .. | .vmin _ ef .. | .vmax _ ef ..
  | .vabs _ ef .. | .vneg _ ef .. | .vand _ ef .. | .vor _ ef .. | .vxor _ ef .. | .vshl _ ef ..
  | .vshr _ ef .. | .vsra _ ef .. | .vsel _ ef .. | .vmov _ ef .. | .vcmp _ _ ef .. | .vcvt _ ef ..
  | .vrcp _ ef .. | .vrsqrt _ ef .. | .vexp2 _ ef .. | .vlog2 _ ef .. | .vredsum _ ef ..
  | .vredmax _ ef .. | .vbcast _ ef .. | .vperm _ ef .. | .vshuf _ ef .. | .vpack _ ef ..
  | .vunpack _ ef .. | .vldg _ ef .. | .vsts _ ef .. => .lanes (guardBits (ef.getD fmt))
  | .vld .. | .vst .. | .vlda .. => .lanes (guardBits fmt)
  | _ => .bit0

/-! ## Engine ownership (spec/03 R32) -/

/-- Executed only by the engine owner. `sbind` to a ring is checked by its entry (R140). -/
def Instr.needsOwner : Instr → Bool
  | .ring .. | .rpub .. | .radv .. | .rwait .. | .rfree .. | .rstat .. | .kld .. | .kst ..
  | .kmov .. | .kadd .. | .ksub .. | .kmax .. | .kmin .. | .knorm .. | .kbind .. | .kbindQ ..
  | .kgen .. | .kgenBump .. | .vsave .. | .vrest .. | .mma .. | .mmz .. | .mova .. | .mchk ..
  | .msta .. | .attnS .. | .attnP .. | .attnV .. | .attnF .. | .qabs .. | .lxcfg .. | .smxcfg ..
  | .cpr .. | .cps .. | .tstream .. | .tfill .. | .vldMx .. | .vquant .. | .vdeq .. => true
  | .sbind _ _ op => match op with | .rc _ | .rp _ => true | _ => false
  | _ => false

/-! ## Timelines -/

/-- The timeline an instruction takes a number on, and the future it writes (R123). -/
def Instr.timeline : Instr → Option (Eng × FIdx)
  | .lda _ _ fd .. | .ldau _ _ fd .. | .vlda _ fd .. => some (.ld, fd)
  | .cp _ fd .. | .cpm _ fd .. | .cpg _ fd .. | .cpr _ fd .. | .cps _ fd .. | .cpsig _ fd .. =>
    some (.ce, fd)
  | .seek _ fd .. | .seekr _ fd .. | .rew _ fd .. | .seekReg _ fd .. | .seekrReg _ fd ..
  | .tstream _ fd .. | .tfill _ fd .. => some (.te, fd)
  | .mma _ fd .. | .mmz _ fd .. | .attnS _ fd .. | .attnP _ fd .. | .attnV _ fd ..
  | .attnF _ fd .. | .qabs _ fd .. | .lxcfg _ fd .. | .smxcfg _ fd .. => some (.me, fd)
  | _ => none

/-! ## Registers that a pending asynchronous load holds -/

/-- General registers from `r` up, n of them, as far as names go. -/
def gRange (r : GReg) (n : Nat) : List GReg :=
  ((List.range n).filter fun k => r.toNat + k < 64).map fun k => r + BitVec.ofNat 6 k

def dimRegs : Dim → Nat
  | .d1 => 1 | .d2 => 4 | .d3 => 7

def barRegs : BarOp → List GReg
  | .none => [] | .arrival g => [g] | .bytes g => [g]

/-- The general registers that an instruction reads or writes by name. -/
def Instr.gUses : Instr → List GReg
  | .add _ d a b _ | .sub _ d a b _ => [d, a, b]
  | .and _ d a b | .or _ d a b | .xor _ d a b | .sll _ d a b | .srl _ d a b | .sra _ d a b
  | .mul _ d a b | .mulh _ d a b | .mulhu _ d a b | .div _ d a b | .divu _ d a b | .rem _ d a b
  | .remu _ d a b | .min _ d a b | .max _ d a b | .minu _ d a b | .maxu _ d a b => [d, a, b]
  | .clz _ d a | .ctz _ d a | .popc _ d a | .sext _ d a _ | .zext _ d a _ | .mov _ d a => [d, a]
  | .rdsr _ d _ => [d]
  | .wrsr _ _ a => [a]
  | .addi _ d a _ _ => [d, a]
  | .andi _ d a _ | .ori _ d a _ | .xori _ d a _ | .slli _ d a _ | .srli _ d a _ | .srai _ d a _ =>
    [d, a]
  | .li _ d _ | .liI32 _ d _ | .liI64 _ d _ | .leaPc _ d _ | .leaPcI32 _ d _ => [d]
  | .lea _ d a _ | .leaI32 _ d a _ => [d, a]
  | .bfx _ d a _ _ _ | .bfi _ d a _ _ => [d, a]
  | .cmp _ _ _ _ a b => [a, b]
  | .cmpi _ _ _ _ a _ => [a]
  | .sel _ d _ b c => [d, b, c]
  | .call .. => [63]
  | .jr _ a => [a]
  | .callr _ a => [a, 63]
  | .ret _ => [23, 16]
  | .exit _ => [16]
  | .loop _ _ a _ => [a]
  | .ld _ _ d a _ _ | .ldu _ _ d a _ _ | .st _ _ d a _ _ | .ldM32 _ _ d a _ _ | .lduM32 _ _ d a _ _
  | .stM32 _ _ d a _ _ => [d, a]
  | .lda _ _ _ d a _ | .ldau _ _ _ d a _ => [d, a]
  | .amoadd _ d a b _ _ | .amoswp _ d a b _ _ | .amoand _ d a b _ _ | .amoor _ d a b _ _ => [d, a, b]
  | .amocas _ d a b c _ _ => [d, a, b, c]
  | .amomin _ d a b _ _ _ | .amomax _ d a b _ _ _ => [d, a, b]
  | .famoFx _ a b _ => [a, b]
  | .fxrd _ d a _ _ => [d, a]
  | .hpos _ d _ => [d]
  | .seekReg _ _ _ b | .seekrReg _ _ _ b => [b]
  | .trd _ d _ | .twr _ _ d | .trds _ d _ _ | .twrs _ _ d _ => [d]
  | .tstream _ _ _ _ c _ | .tfill _ _ _ _ c _ => [c]
  | .vbcast _ _ _ a | .vins _ _ _ a _ => [a]
  | .vext _ _ d _ _ => [d]
  | .vld _ _ a _ _ | .vst _ _ a _ _ | .vlda _ _ _ a _ | .vldMx _ _ _ _ a _ _ | .vldg _ _ _ a _ _
  | .vsts _ _ _ a _ _ => [a]
  | .sbind _ _ op => match op with | .sg a b => [a, b] | _ => []
  | .cp _ _ o1 o2 o3 bar dim spl => [o1, o2] ++ gRange o3 (dimRegs dim) ++ barRegs bar ++ spl.toList
  | .cpm _ _ o1 o2 o3 m bar dim spl _ =>
    [o1, o2, m] ++ gRange o3 (dimRegs dim) ++ barRegs bar ++ spl.toList
  | .cpg _ _ o1 o2 o3 o5 o6 bar _ => [o1, o2, o3, o5, o6] ++ barRegs bar
  | .cpr _ _ _ o2 o3 bar str _ => [o2, o3] ++ barRegs bar ++ str.toList
  | .cps _ _ o1 _ o3 bar str => [o1, o3] ++ barRegs bar ++ str.toList
  | .cpsig _ _ o1 o2 o3 sg dim => [o1, o2, sg] ++ gRange o3 (dimRegs dim)
  | .cpcan _ d a => [d, a]
  | .ring _ _ a .. => [a]
  | .rpub _ _ b | .radv _ _ b | .rwait _ _ b | .rfree _ _ b => [b]
  | .rstat _ d _ _ => [d]
  | .binit _ a b | .bwait _ a b | .btest _ _ _ a b => [a, b]
  | .arrive _ d a => [d, a]
  | .arrivetx _ d a b => [d, a, b]
  | .tlwait _ _ a => [a]
  | .tlrd _ _ d _ => [d]
  | .cut _ _ d => [d]
  | .graft _ a | .sdrop _ a => [a]
  | .frl _ d a => [d, a]
  | .spawn _ d a => [d, a]
  | .send _ d a b => [d, a, b]
  | .recv _ d c | .recvTry _ d c | .dmem _ d c => [d, c]
  | .dsync _ d _ => [d]
  | .snaparm _ d a => [d, a]
  | .gang _ d _ => [d]
  | .kld _ _ a .. | .kst _ _ a .. => [a]
  | .kmov _ _ src _ => match src with | .g r => [r] | .k _ => []
  | .kadd _ _ _ src _ | .ksub _ _ _ src _ | .kmax _ _ _ src _ | .kmin _ _ _ src _ =>
    match src with | .g r => [r] | .k _ => []
  | .knorm _ _ _ c _ => [c]
  | .kbindQ _ _ c .. => [c]
  | .kgen _ d _ => [d]
  | .vsave _ a .. | .vrest _ a .. => [a]
  | .mchk _ d set _ => d :: set.toList
  | .msta _ _ b .. => [b]
  | .lxcfg _ _ a | .smxcfg _ _ a => [a]
  | .tlbw _ d a b c => [d, a, b, c]
  | .tlbi _ d a b .. => [d, a, b]
  | .frep _ d a b => [d, a, b]
  | .rdtime _ d => [d]
  | .sevw _ a => [a]
  | _ => []

/-- A vector register and its neighbour. -/
def vNext (v : VIdx) : VIdx := v + 1

/-- The vector registers that an instruction reads or writes by name. -/
def Instr.vUses : Instr → List VIdx
  | .vtrds _ d .. | .vtwrs _ _ d _ => [d]
  | .vadd _ _ d a b .. | .vsub _ _ d a b .. | .vmul _ _ d a b .. | .vmin _ _ d a b | .vmax _ _ d a b
  | .vand _ _ d a b | .vor _ _ d a b | .vxor _ _ d a b | .vshl _ _ d a b | .vshr _ _ d a b
  | .vsra _ _ d a b | .vsel _ _ d _ a b | .vperm _ _ d a b | .vpack _ _ d a b _ => [d, a, b]
  | .vfma _ _ d a b c .. | .vshuf _ _ d a b c => [d, a, b, c]
  | .vabs _ _ d a _ | .vneg _ _ d a _ | .vmov _ _ d a | .vcvt _ _ _ d a .. | .vrcp _ _ d a ..
  | .vrsqrt _ _ d a .. | .vexp2 _ _ d a | .vlog2 _ _ d a .. | .vredsum _ _ d a .. | .vredmax _ _ d a
  | .vunpack _ _ d a .. => [d, a]
  | .vcmp _ _ _ _ _ a b => [a, b]
  | .vbcast _ _ d _ | .vins _ _ d _ _ => [d]
  | .vext _ _ _ a _ => [a]
  | .vquant _ _ _ d a .. => [d, a, vNext a]
  | .vdeq _ _ _ d a .. => [d, vNext d, a]
  | .vld _ d .. | .vst _ d .. | .vlda _ _ d .. | .vldMx _ d .. => [d]
  | .vldg _ _ d _ b _ | .vsts _ _ d _ b _ => [d, b]
  | .sbind _ v _ | .sunbind _ v => [v]
  | .kbind _ v .. => [v]
  | .mova _ ef d .. => match ef with
    | some .bf16 | some .fp16 => [d, d + 1]
    | _ => [d, d + 1, d + 2, d + 3]
  | .vsave _ _ _ parts | .vrest _ _ _ parts =>
    if parts.getLsbD 0 then (List.range 32).map (BitVec.ofNat 5 ·) else []
  | _ => []

/-- Registers of both halves of a pair word. -/
def Instr.gUsesAll : Instr → List GReg
  | .pair _ a b => Instr.gUses a ++ Instr.gUses b
  | i => Instr.gUses i
def Instr.vUsesAll : Instr → List VIdx
  | .pair _ a b => Instr.vUses a ++ Instr.vUses b
  | i => Instr.vUses i

/-! ## Classes that the control rules name -/

/-- Majors 0x28-0x2C without `nop`, and `mark`, `cut`, `graft`: a clause member may not be one
(spec/04 R68). -/
def Instr.clauseBarred : Instr → Bool
  | .br .. | .call .. | .jr .. | .callr .. | .ret _ | .loop .. | .lbrk .. | .clause .. | .loopi ..
  | .wait .. | .exit _ | .trap .. | .tret _ | .mark .. | .cut .. | .graft .. => true
  | _ => false

/-- Illegal in the trap window with a true guard (spec/16 R271, spec/14 R230). -/
def Instr.trapBarred : Instr → Bool
  | .call .. | .callr .. | .ret _ | .loop .. | .loopi .. | .lbrk .. | .clause .. | .mark .. | .cut ..
  | .graft .. | .sdrop .. | .frl .. => true
  | _ => false

/-- The loop level whose count an instruction writes (spec/04 R62, R64). -/
def Instr.writesCount : Instr → Option Nat
  | .wrsr _ n _ => if 0x018 ≤ n.toNat ∧ n.toNat < 0x01C then some (n.toNat - 0x018) else none
  | .loop _ n _ _ | .loopi _ n _ _ => some n.toNat
  | _ => none

/-- `wrsr cls` is not itself counted by the clause that it writes (spec/04 R66). -/
def Instr.writesCls : Instr → Bool
  | .wrsr _ n _ => n == 8
  | _ => false

end Sys2Proof

namespace Sys2Proof.Machine

/-! ## Guards (spec/08 R119, R122) -/

/-- The format held in fmt (spec/03 R41). -/
def Core.format (c : Core) : Fmt := (Fmt.ofCode c.fmt.toNat).getD .fp32

/-- The effective guard of an instruction; an event has no guard. -/
def State.mask (s : State) (i : Instr) : Word :=
  match i.guard with
  | some gd => s.th.effGuard gd
  | none => BitVec.allOnes 64

/-- An instruction executes: its guard is true, or selects a lane. The clause header is never skipped
(spec/04 R65). A pair word executes when one of its halves does. -/
def State.live (s : State) (i : Instr) : Bool :=
  match i with
  | .clause .. => true
  | .pair _ a b =>
    ((Instr.guardKind a s.core.format).live (s.mask i)) ||
    ((Instr.guardKind b s.core.format).live (s.mask i))
  | _ => (Instr.guardKind i s.core.format).live (s.mask i)

/-- What of an instruction executes: of a pair word, the half whose guard lets it, where the other's does not; a
dead half waits for none of its sources (R122). -/
def State.liveForm (s : State) (i : Instr) : Instr :=
  match i with
  | .pair _ a b =>
    let on (j : Instr) : Bool := (Instr.guardKind j s.core.format).live (s.mask i)
    if on a && on b then i else if on a then a else if on b then b else i
  | _ => i

/-! ## Engine ownership (spec/03 R32) -/

/-- The ownership trap: the value is the owner's index, 4 for none. -/
def State.ownerTrap (s : State) (vh : Bool := false) : Option Trap :=
  if s.core.owner = some s.ct then none
  else some { trOwnership (BitVec.ofNat 64 (s.core.owner.getD 4)) with vh := vh }

/-! ## Timelines -/

/-- F(fd) := the number n of a timeline, with a state (R123, R169). -/
def mkFuture (e : Eng) (n : Nat) (st : OpEnd) : Future :=
  { v := true, eng := e, c := false, n := n, st := st, faddr := 0 }

/-- A timeline instruction whose guard is false takes its number, which ends at once (R123). -/
def skipTimeline (e : Eng) (fd : FIdx) (t : Thread) : Thread :=
  let (t, n) := t.takeNum e
  (t.setTl e ((t.tl e).endNum n)).setF fd (mkFuture e n .done)

/-! ## Registers that a pending asynchronous load holds -/

/-- The physical general register that a queued `lda` writes, fixed at issue: its second operand. -/
def Op.ldReg (o : Op) : Option Nat :=
  match o.instr with
  | .lda _ _ _ d .. | .ldau _ _ _ d .. => if d = 0 then none else (o.args[1]?).map (·.toNat)
  | _ => none
def Op.ldVec (o : Op) : Option VIdx :=
  match o.instr with
  | .vlda _ _ d .. => some d
  | _ => none

/-- An instruction waits for the pending loads of the registers that it names. -/
def Thread.loadHeld (t : Thread) (i : Instr) : Bool :=
  t.ldq.any fun o =>
    (match o.ldReg with
      | some r => (Instr.gUsesAll i).any fun g => g != 0 && gphys t g == r
      | none => false) ||
    (match o.ldVec with
      | some v => (Instr.vUsesAll i).contains v
      | none => false)

/-! ## Classes that the control rules name -/

/-- Address of a loop's end (spec/04 R62). -/
def loopEnd (pc : Pc) (off : BitVec 20) : Pc := pc + BitVec.ofNat 48 (4 * off.toNat)

/-- With a true guard the instruction transfers control under case 1 of spec/04 R56, so that it takes
no back-edge. The software trap takes its back-edge first (R73). -/
def State.transfers (s : State) (i : Instr) (n : Nat) : Bool :=
  match i with
  | .br .. | .call .. | .jr .. | .callr .. | .ret _ | .lbrk .. | .tret _ | .exit _ => true
  | .loop _ _ a off => s.g a == 0 && loopEnd s.th.pc off != successor s.th.pc n
  | .loopi _ _ c off => c == 0 && loopEnd s.th.pc off != successor s.th.pc n
  | _ => false

end Sys2Proof.Machine
end

