-- ==== Sys2Proof/Machine/RegErr.lean ====
section
/-! DEFINITION. The error codes of registers and engine state (spec/22 R349-R351): the code words that an instruction
reads, what a read of one finds, and what its errors mean. A register that an instruction writes whole takes a new
code, so that an old error is gone unseen. -/

namespace Sys2Proof

/-! ## What an instruction reads -/

/-- How many of the general registers that `Instr.gUses` lists first are only written. -/
def Instr.gDests : Instr → Nat
  | .wrsr .. | .bfi .. | .cmp .. | .cmpi .. | .jr .. | .ret _ | .exit _ | .loop .. | .st .. | .stM32 .. | .famoFx ..
  | .seekReg .. | .seekrReg .. | .twr .. | .twrs .. | .tstream .. | .tfill .. | .vbcast .. | .vins .. | .vld .. | .vst ..
  | .vlda .. | .vldMx .. | .vldg .. | .vsts .. | .sbind .. | .cp .. | .cpm .. | .cpg .. | .cpr .. | .cps .. | .cpsig ..
  | .ring .. | .rpub .. | .radv .. | .rwait .. | .rfree .. | .binit .. | .bwait .. | .btest .. | .tlwait .. | .graft ..
  | .sdrop .. | .kld .. | .kst .. | .kmov .. | .kadd .. | .ksub .. | .kmax .. | .kmin .. | .knorm .. | .kbindQ ..
  | .vsave .. | .vrest .. | .msta .. | .lxcfg .. | .smxcfg .. | .sevw .. => 0
  | .recv .. | .recvTry .. | .dmem .. => 2
  | _ => 1

/-- General registers that an instruction reads by name. A `callr` writes its last one. -/
def Instr.gReads : Instr → List GReg
  | .callr _ a => [a]
  | i => (Instr.gUses i).drop i.gDests

/-- Predicate registers that an instruction reads beside its guard's. -/
def Instr.pReads (i : Instr) : List PIdx :=
  (match i with
    | .pand _ _ a b _ _ | .por _ _ a b _ _ | .pxor _ _ a b _ _ => [a, b]
    | .pmov _ _ a _ => [a]
    | .sel _ _ p _ _ => [p]
    | .vsel _ _ _ p _ _ => [p]
    | _ => [])

/-- Futures that an instruction reads. -/
def Instr.fReads : Instr → List FIdx
  | .fwait _ f | .ftst _ _ _ f | .fcan _ f => [f]
  | .fmov _ _ fa => [fa]
  | _ => []

/-- Vector registers that an instruction reads; `part` says that it keeps lanes of its destination. -/
def Instr.vReads (i : Instr) (part : Bool) : List VIdx :=
  match i with
  | .vtwrs .. | .vst .. | .vsts .. | .kbind .. | .vsave .. | .vins .. | .vcmp .. | .vext .. => Instr.vUses i
  | .vdeq _ _ _ d a .. => if part then [d, vNext d, a] else [a]
  | .mova .. | .vrest .. | .sunbind .. | .sbind .. | .vlda .. => []
  | _ => if part then Instr.vUses i else (Instr.vUses i).drop 1

/-- Scale registers that an instruction reads itself. -/
def Instr.kReads : Instr → List KIdx
  | .kst _ k .. | .kgen _ _ k => [k]
  | .kmov _ d src keep => (match src with | .k r => [r] | .g _ => []) ++ (if keep then [d] else [])
  | .kadd _ _ a src _ | .ksub _ _ a src _ | .kmax _ _ a src _ | .kmin _ _ a src _ =>
    a :: (match src with | .k r => [r] | .g _ => [])
  | .knorm _ _ a _ _ => [a]
  | _ => []

/-- The code word of scale entries that an instruction writes in part, so that it reads it first (R350): register and
word. -/
def Instr.kPart : Instr → List (KIdx × Nat)
  | .vldMx _ _ k o .. | .vquant _ _ _ _ _ k o .. => [(k, o.toNat / 2)]
  | _ => []

/-- Accumulators that an instruction reads itself. -/
def Instr.aReads : Instr → List AIdx
  | .mova _ _ _ a .. | .msta _ a .. => [a]
  | _ => []

/-- Rings that an instruction reads itself. -/
def Instr.qReads : Instr → List QIdx
  | .rpub _ q _ | .radv _ q _ | .rwait _ q _ | .rfree _ q _ | .rstat _ _ q _ | .kbindQ _ q .. => [q]
  | .cpr _ _ q .. | .cps _ _ _ q .. | .tstream _ _ q .. | .tfill _ _ _ q .. => [q]
  | .sbind _ _ op => match op with | .rc q | .rp q => [q] | _ => []
  | _ => []

end Sys2Proof

namespace Sys2Proof.Machine

/-- Physical number of register k (0-47, g16 up) of the window `b` windows below the current one (spec/03 R36). -/
def Thread.winPhys (t : Thread) (b k : Nat) : Nat := 64 + (t.cwb + 168 * b - 40 * b + k) % 168

/-- Window registers that an instruction reads without naming them. -/
def Thread.winReads (t : Thread) : Instr → List Nat
  | .spillw _ => if t.res ≤ 1 then [] else (List.range 40).map (t.winPhys (t.res - 1) ·)
  | .cut .. | .graft .. => (List.range t.res).flatMap fun b => (List.range 40).map (t.winPhys b ·)
  | _ => []

/-- The code words of a thread's registers that an instruction reads, and of engine state. -/
def State.threadWords (s : State) (i : Instr) : List Nat :=
  let t := s.th
  let one (i : Instr) : List Nat :=
    let part := !((Instr.guardKind i s.core.format == .lanes 64) && s.mask i == BitVec.allOnes 64)
    ((Instr.gReads i).filter (· != 0)).map (fun r => gErr (gphys t r)) ++ (t.winReads i).map gErr ++
    ((Instr.pReads i).filter (· != 7)).map (fun r => pErr r.toNat) ++ (Instr.fReads i).map (fun r => fErr r.toNat) ++
    (Instr.vReads i part).flatMap fun r => (List.range 8).map (vErr r.toNat ·)
  match i with
  | .pair _ a b => one a ++ one b
  | i => one i

/-- The predicates that the effective guard of an instruction is made of: its own, and a clause's. -/
def State.guardWords (s : State) (i : Instr) : List Nat :=
  let own := (i.guard.map (·.gp)).toList
  ((if s.th.inClause then clsGp s.th.cls :: own else own).filter (· != 7)).map fun r => pErr r.toNat

/-- The registers that an instruction pops, and those that it pushes, where they are bound (spec/08 R141): those that
its formats, as they stand, make it read and write. -/
def State.streamUses (s : State) (i : Instr) : List VIdx × List VIdx :=
  let f := i.fmts s.core.format
  match i with
  | .vtrds _ d .. | .vld _ d .. | .vbcast _ _ d _ | .vins _ _ d .. | .vldMx _ d .. => ([], [d])
  | .vtwrs _ _ d _ | .vst _ d .. => ([d], [])
  | .vsts _ _ d _ b _ => ([d, b], [])
  | .vcmp _ _ _ _ _ a b => ([a, b], [])
  | .vext _ _ _ a _ => ([a], [])
  | .vquant _ _ _ d a .. => (if f.2 = .fp32 then [a, vNext a] else [a], [d])
  | .vdeq _ _ _ d a .. => ([a], if f.1 = .fp32 then [d, vNext d] else [d])
  | .kbind .. | .vlda .. | .mova .. | .vsave .. | .vrest .. | .sbind .. | .sunbind .. => ([], [])
  | i => ((Instr.vUses i).drop 1, (Instr.vUses i).take 1)

/-- The rings of the streams that an instruction pops or pushes. -/
def State.streamRings (s : State) (i : Instr) : List Nat :=
  let (rs, ws) := s.streamUses i
  (rs ++ ws).filterMap fun v =>
    if v.toNat < 24 then none
    else match tget s.th.binds (v.toNat - 24) with
      | some b => if b.kind ≤ 1 then some (qErr b.ring) else none
      | none => none

/-- The code words of engine state that an instruction reads. -/
def State.engineWords (s : State) (i : Instr) : List Nat :=
  let one (i : Instr) : List Nat :=
    (Instr.kReads i).flatMap (fun k => (List.range 4).map (kErr k.toNat ·)) ++
    (Instr.kPart i).map (fun x => kErr x.1.toNat x.2) ++
    (Instr.aReads i).flatMap (fun a => (List.range 32).map (aErr a.toNat ·)) ++
    ((Instr.qReads i).map fun q => qErr q.toNat) ++ s.streamRings i ++
    (match i with
      | .vsave _ _ _ parts => if parts.getLsbD 1 then s.core.errs.map (·.1) else []
      | _ => [])
  match i with
  | .pair _ a b => one a ++ one b
  | i => one i

/-- Bits of a register's value flip: what a code of three flips or more may leave unseen. -/
def Thread.flip (t : Thread) (k : Nat) (m : Word) : Thread :=
  if m = 0 then t
  else if k < 1024 then { t with regs := tput t.regs k (tgetD t.regs k 0 ^^^ m) }
  else if k < 2048 then
    let n := (k - 1024) / 8
    let r := tgetD t.v n {}
    { t with v := tput t.v n { r with data := r.data ^^^ (m.setWidth 512 <<< (64 * ((k - 1024) % 8))) } }
  else if k < 2064 then { t with p := tput t.p (k - 2048) (tgetD t.p (k - 2048) 0 ^^^ m) }
  else t

/-- The reset value of a scale register: 0x7F in each entry (spec/18 R284). -/
def kReset : BitVec 256 := BitVec.ofNat 256 (leVal (List.replicate 32 (0x7F : Byte)))

def Core.flip (c : Core) (k : Nat) (m : Word) : Core :=
  if m = 0 then c
  else if k < 1024 then
    { c with kents := tput c.kents (k / 4) (tgetD c.kents (k / 4) kReset ^^^ (m.setWidth 256 <<< (64 * (k % 4)))) }
  else if k < 2048 then
    let x := 2 * (k - 1024)
    let put (a : Tbl (BitVec 32)) (j : Nat) (m : BitVec 32) : Tbl (BitVec 32) := tput a j (tgetD a j 0 ^^^ m)
    { c with acc := put (put c.acc x (m.setWidth 32)) (x + 1) ((m >>> 32).setWidth 32) }
  else c

/-- An error of source 2: register files and engine state (R351). -/
def regError (cls : Nat) (e : BitVec 72) : ErrRep := { cls := cls, src := 2, addr := 0, synd := eccSyndrome e }

/-- What the read of a code word finds: the flips that are left of it, given those that it had; none is uncorrectable. -/
def wordMask (e : BitVec 72) : Option Word :=
  match eccRead e with
  | .uncorrectable => none
  | .clean => some (e.setWidth 64)
  | .correct b => some ((e ^^^ BitVec.ofNat 72 (2 ^ b)).setWidth 64)

/-- What the reads of some code words find, given the flips of a word, how a word is mended and what notes that. A
correctable error is corrected and reported; the uncorrectable ones are answered in their order. -/
def wordErrs (errs : State → Tbl (BitVec 72)) (mend : Nat → Word → State → State) (fix : Nat → Word → Fix)
    (rep : ErrRep → State → State) : List Nat → State → State × List ErrRep
  | [], s => (s, [])
  | k :: ks, s =>
    match tget (errs s) k with
    | none => wordErrs errs mend fix rep ks s
    | some e =>
      match wordMask e with
      | none =>
        let (s, l) := wordErrs errs mend fix rep ks s
        (s, regError 1 e :: l)
      | some m =>
        let s := mend k m s
        wordErrs errs mend fix rep ks
          (if eccSyndrome e = 0 then s else rep (regError 0 e) { s with fixes := fix k m :: s.fixes })

/-- The same with the errors as one report. -/
def wordScan (errs : State → Tbl (BitVec 72)) (mend : Nat → Word → State → State) (fix : Nat → Word → Fix)
    (rep : ErrRep → State → State) (ks : List Nat) (s : State) : State × Option ErrRep :=
  let (s, l) := wordErrs errs mend fix rep ks s
  (s, errsOf l)

/-- A register word of a thread is mended, and one of a core's engine state. -/
def mendThread (th k : Nat) (m : Word) (s : State) : State :=
  s.modThreadAt th fun t => { (t.flip k m : Thread) with errs := tdel t.errs k }
def mendCore (core k : Nat) (m : Word) (s : State) : State :=
  s.modCoreAt core fun c => { (c.flip k m : Core) with errs := tdel c.errs k }

/-- Reads of registers of a thread, on its behalf. -/
def threadScan (th : Nat) : List Nat → State → State × Option ErrRep :=
  wordScan (fun s => (s.threadAt th).errs) (mendThread th) (.thread th)
    (fun e s => (reportError s (pkgOf (th / 4)) (some (th / 4)) (some th) e).1)

/-- Reads of engine state of a core, on behalf of a thread. -/
def coreScan (core th : Nat) : List Nat → State → State × Option ErrRep :=
  wordScan (fun s => (s.coreAt core).errs) (mendCore core) (.core core)
    (fun e s => (reportError s (pkgOf core) (some core) (some th) e).1)

/-- Bits of a control word of a cluster flip: of a fault-buffer entry, of the slot table. -/
def Cluster.flip (c : Cluster) (k : Nat) (m : Word) : Cluster :=
  if m = 0 then c
  else if k < 1024 then match tget c.fb (k / 4) with
    | some e => { c with fb := tput c.fb (k / 4) { e with msg := e.msg ^^^ (m.setWidth 256 <<< (64 * (k % 4))) } }
    | none => c
  else
    let e := (k - 1024) / 2
    if k % 2 = 0 then { c with slot0 := tput c.slot0 e (tgetD c.slot0 e 0 ^^^ m) }
    else { c with slot1 := tput c.slot1 e (tgetD c.slot1 e 0 ^^^ m) }

/-- A control word of a cluster is mended. -/
def mendCluster (cl k : Nat) (m : Word) (s : State) : State :=
  s.modClusterAt cl fun c => { (c.flip k m : Cluster) with errs := tdel c.errs k }

/-- An error of the control state has source 7 (R351). -/
def ErrRep.control (e : ErrRep) : ErrRep := e.onAll fun x => { x with src := 7 }

/-- Reads of control words of a cluster, for a core and a context. -/
def controlScan (cl : Nat) (core ctx : Option Nat) (ks : List Nat) (s : State) : State × Option ErrRep :=
  let (s, r) := wordScan (fun s => (s.clusterAt cl).errs) (mendCluster cl) (.cluster cl)
    (fun e s => (reportError s (pkgOfCluster cl) core ctx e.control).1) ks s
  (s, r.map ErrRep.control)

/-- The same in a computation: an uncorrectable error stops it. -/
def controlRead (cl : Nat) (core ctx : Option Nat) (ks : List Nat) : Act Unit := do
  let (s, r) := controlScan cl core ctx ks (← get)
  set s
  match r with
  | some e => throw (.err e)
  | none => pure ()

/-! ## What stays corrected (spec/22 R350) -/

/-- A correction is made. -/
def Fix.apply : Fix → State → State
  | .sram wn m, s => { s.xorWord (8 * wn) m with sramErr := tdel s.sramErr wn }
  | .hbm ln bs, s => { s with hbmErr := tdel s.hbmErr ln, mem := memWrites s.mem (64 * ln) bs }
  | .slot c t sl w, s => s.modTrack c t fun x => { x with slots := tput x.slots sl w, synd := tdel x.synd sl }
  | .thread th k m, s => mendThread th k m s
  | .core c k m, s => mendCore c k m s
  | .cluster cl k m, s => mendCluster cl k m s

/-- The state before a computation, with the code words that it corrected. -/
def State.refix (s0 s : State) : State :=
  (s.fixes.take (s.fixes.length - s0.fixes.length)).foldr Fix.apply { s0 with fixes := s.fixes }

/-- Two reports as one. -/
def errsBoth (a b : Option ErrRep) : Option ErrRep :=
  match a, b with
  | some x, some y => some { x with others := x.others ++ y.more :: y.others }
  | some x, none => some x
  | none, y => y

/-- What the read of an instruction's guard finds. -/
def guardScan (i : Instr) (s : State) : State × Option ErrRep :=
  if s.th.errs.isEmpty then (s, none) else threadScan s.tk (s.guardWords i) s

/-- What the reads of an instruction's registers find; nothing where no flip is listed. -/
def regScan (i : Instr) (s : State) : State × Option ErrRep :=
  if s.th.errs.isEmpty && s.core.errs.isEmpty then (s, none)
  else
    let (s, a) := threadScan s.tk (s.threadWords i) s
    let (s, b) := coreScan s.cc s.tk (s.engineWords i) s
    (s, errsBoth a b)

/-- What the reads of every register of a thread find, and of the engine state that goes with it. -/
def contextScan (th : Nat) (s : State) : State × Option ErrRep :=
  let (s, a) := threadScan th ((s.threadAt th).errs.map (·.1)) s
  if (s.coreAt (th / 4)).owner = some (th % 4) then
    let (s, b) := coreScan (th / 4) th ((s.coreAt (th / 4)).errs.map (·.1)) s
    (s, errsBoth a b)
  else (s, a)

/-- Every register of a thread and the engine state that goes with it are read, as a save of its context does. -/
def saveScan (th : Nat) : Act Unit := do
  let (s, r) := contextScan th (← get)
  set s
  match r with
  | some e => throw (.err e)
  | none => pure ()

end Sys2Proof.Machine
end

