-- ==== Sys2Proof/Machine/Issue.lean ====
section
/-! DEFINITION. How an instruction runs: the order of checks of spec/16 R272, the guard (spec/08
R122), the completion with clause count, loop back-edge and next pc (spec/04 R56, R61, R67), and
what becomes of an instruction that stops. -/

namespace Sys2Proof.Machine

abbrev Outcome := Host.Outcome State Fault Refusal

/-! ## Checks before the guard (spec/16 R272 orders 2-4) -/

/-- A format that decode left to issue, EF being 0, is not one of the instruction's (spec/08 R120). -/
def State.fmtBad (s : State) (i : Instr) : Bool :=
  !(i.fmtOk (i.fmts s.core.format).1 (i.fmts s.core.format).2)

/-- The format check of an instruction, and of a pair word's scalar half; the vector half's comes after
every check of the scalar half (spec/16 R272). -/
def State.fmtTrap (s : State) (i : Instr) : Bool :=
  match i with
  | .pair _ a _ => s.fmtBad a
  | _ => s.fmtBad i

/-- The format check of a pair word's vector half. -/
def State.vecFmtTrap (s : State) (i : Instr) : Option Trap :=
  match i with
  | .pair _ _ b => if s.fmtBad b then some { trIllegal i.low with vh := true } else none
  | _ => none

/-- The checks made before the guard: format, clause misuse, misaligned back-edge target. -/
def State.preTrap (s : State) (i : Instr) : Option Trap :=
  let t := s.th
  let lvl := if t.inTrap then none else backLevel t (successor t.pc i.bytes)
  if s.fmtTrap i then some (trIllegal i.low)
  else if t.inClause ∧ (i.clauseBarred ∨ lvl.isSome) then some trClause
  else match lvl with
    | some n =>
      if (s.mask i).getLsbD 0 ∧ s.transfers i i.bytes then none
      else if legalStart ((t.lsn n).setWidth 48) then none
      else some (trMisaligned (t.lsn n))
    | none => none

/-- The checks made after the guard: the trap window (R271), and engine ownership (spec/03 R32). -/
def State.postTrap (s : State) (i : Instr) : Option Trap :=
  if s.th.inTrap ∧ i.trapBarred ∧ (s.mask i).getLsbD 0 then some (trIllegal i.low)
  else if i.needsOwner then s.ownerTrap
  else none

/-! ## Completion -/

/-- COUNT after a member completes (spec/04 R67). -/
def decCount (c : Word) : Word := if clsCount c = 0 then c else c - 1

/-- The thread goes on at a pc; a gang member records the choice (spec/15 R261). -/
def Thread.goTo (t : Thread) (nx : Pc) : Thread :=
  { t with
    pc := nx
    gang := t.gang.map fun g => { g with trail := g.trail ++ [nx], count := g.count + 1 } }

/-- A `wrsr cls` that its effective guard lets execute is not counted by the clause (spec/04 R66, R67). -/
def Thread.wroteCls (t0 : Thread) (i : Instr) : Bool :=
  i.writesCls && (match i.guard with
    | some gd => (t0.effGuard gd).getLsbD 0
    | none => false)

/-- The level whose count an instruction writes, its effective guard letting it execute. -/
def Thread.wroteCount (t0 : Thread) (i : Instr) : Option Nat :=
  match i.writesCount, i.guard with
  | some n, some gd => if (t0.effGuard gd).getLsbD 0 then some n else none
  | _, _ => none

/-- The counts of the loops that the end-of-body test changed, in a thread that is otherwise as the instruction
left it; the count of the level that the instruction wrote itself stands (spec/04 R64; log entry 76). -/
def Thread.takeCounts (t0 e t : Thread) (own : Option Nat) : Nat → Thread
  | 0 => t
  | n + 1 =>
    let t := Thread.takeCounts t0 e t own n
    if e.lcn n = t0.lcn n ∨ own = some n then t else t.setLc n (e.lcn n)

/-- The thread after an instruction that began as `t0` completes: clause count, next pc. The back-edge
of R61 is that of the loop registers before the instruction, so that its target is known before it executes; it
is examined outside the trap window only (spec/16 R271). -/
def advanceThread (i : Instr) (t0 t : Thread) (jump : Option Pc) : Thread :=
  let t := if t0.inClause ∧ !t0.wroteCls i then { t with cls := decCount t.cls } else t
  match jump with
  | some tgt => t.goTo tgt
  | none =>
    let sc := successor t0.pc i.bytes
    if t0.inTrap then t.goTo sc
    else
      let (e, nx) := backEdge sc 4 t0
      (Thread.takeCounts t0 e t (t0.wroteCount i) 4).goTo nx

/-- The state after an instruction that began in `s0` completes. -/
def complete (i : Instr) (n : Next) (s0 s : State) : State :=
  match n with
  | .fall => s.setTh (advanceThread i s0.th s.th none)
  | .jump tgt => s.setTh (advanceThread i s0.th s.th (some tgt))
  | .soft v => takeTrap (trSoftware v) (s.setTh (advanceThread i s0.th s.th none))
  | .left => s

/-- What a package has sent is as it was before, all else as it is (spec/21 R338, R342). -/
def Pkg.unsent (p0 p : Pkg) : Pkg :=
  { p with
    ports := p0.ports, reqNext := p0.reqNext, reqUnacked := p0.reqUnacked, reqSeen := p0.reqSeen
    responses := p0.responses }

/-- The state before a computation, with what it has found in the stores: corrected words, the error log, supply
events (spec/22 R350). -/
def State.keepStores (s0 s : State) : State :=
  let s1 := State.refix s0 s
  { s1 with
    pkgs := s.pkgs.map fun (k, p) => (k, Pkg.unsent (s0.pkgAt k) p), dies := s.dies, fresh := s.fresh, pend := s.pend, granted := s.granted, paid := s.paid }

/-- What the device has found and counted on the way to a trap, in the state before the instruction: failing
tracks and realignments, the error log, corrected words (spec/05 R94-R96, spec/22 R350). -/
def State.keepFound (s0 s : State) : State :=
  let c := s.core
  ((State.keepStores s0 s).modCore fun x => { x with
    fail := c.fail, fcnt := c.fcnt, rcnt := c.rcnt, last := c.last, tsteps := c.tsteps }).modTh
      fun t => { t with dying := s.th.dying }

/-- The same where a track turned failing: what slots hold and where their ports stand stays, heads and claims are
as before (spec/05 R90, spec/08 R141, spec/16 R278); the elements that a drain corrected stay corrected (spec/19
R310). -/
def State.keepSlots (s0 s : State) : State :=
  let track (k : Nat) (x : Track) : Track := { x with head := (s0.core.track k).head, claim := (s0.core.track k).claim }
  (State.keepFound s0 s).modCore fun c => { c with
    tracks := s.core.tracks.map fun (k, x) => (k, track k x), acc := s.core.acc, shadow := s.core.shadow, stage := s.core.stage }

/-- What a stop for a translation keeps: the messages, the blocked mark, what was found in the stores; all else is as
before. -/
def waitState (th : Nat) (s0 s' : State) : State :=
  { State.keepStores s0 s' with clusters := s'.clusters }.modThreadAt th fun t =>
    { t with blocked := (s'.threadAt th).blocked, dying := (s'.threadAt th).dying }

/-- A computation that is made whole or, when it has to wait, not at all. -/
def whole {α : Type} (th : Nat) (x : Act α) : Act α := fun s =>
  match x s with
  | .error .wait s' => .error .wait (waitState th s s')
  | r => r

/-- A computation that a trap leaves with nothing changed (spec/14 R232, R234): the MOVED of its trap is 0. -/
def untouched {α : Type} (x : Act α) : Act α := fun s =>
  match x s with
  | .error (.trapKeep t) s' => .error (.trapKeep { t with moved := 0 }) (State.keepFound s s')
  | r => r

/-- What becomes of an instruction that stops: `s0` is the state before it, `s` at the stop. A track-shift trap
moves no stream, head or register; the slots that were written stay. -/
def stopped (st : Stop) (s0 s : State) : Outcome :=
  match st with
  | .trap t => .next (takeTrap t s0)
  | .trapKeep t => .next (takeTrap t (if t.code = 6 then State.keepSlots s0 s else s))
  | .wait => .next s
  | .err e => .next (s.reportHere e).1
  | .refuse => .next s0

/-- What an instruction with a false guard does: a timeline number ends (R123), else nothing. -/
def skipped (i : Instr) (s : State) : State :=
  match i.timeline with
  | some (e, fd) => s.modTh (skipTimeline e fd)
  | none => s

/-- Run the effect of an instruction whose guard lets it execute. -/
def runBody (i : Instr) (body : Act Next) (s : State) : Outcome :=
  if s.th.loadHeld (s.liveForm i) then .next s
  else match regScan (s.liveForm i) s with
    | (s, some e) => .next (s.reportHere e).1
    | (s, none) => match body s with
      | .ok n s' => .next (complete i n s s')
      | .error st s' => stopped st s s'

/-- The same with the guard's code words read. -/
def guarded (i : Instr) (body : Act Next) (s : State) : Outcome :=
  if s.live i then
    match s.postTrap i with
    | some tr => .next (takeTrap tr s)
    | none => runBody i body s
  else match s.vecFmtTrap i with
    | some tr => .next (takeTrap tr s)
    | none => .next (complete i .fall s (skipped i s))

/-- Issue an instruction with a given effect (spec/16 R272). An error that its guard's predicate holds is found
whatever the guard says (spec/22 R350). -/
def issue (i : Instr) (body : Act Next) (s : State) : Outcome :=
  match s.preTrap i with
  | some tr => .next (takeTrap tr s)
  | none =>
    match guardScan i s with
    | (s, some e) => .next (s.reportHere e).1
    | (s, none) => guarded i body s

/-! ## Bodies -/

/-- The second phase of a half: what it writes, after every source is read and every check made
(spec/02 R25). -/
abbrev Commit := Act Unit

/-- A half of a pair word, or an instruction of the same kind alone: its reads and checks, answering
what it then writes. -/
abbrev Half := Act Commit

/-- An instruction that is a half by itself. -/
def alone (h : Half) : Act Next := do
  let c ← h
  c
  pure .fall

/-- A register-only effect on the current thread. -/
def onThread (f : Thread → Thread) : Act Next := do
  modify fun s => s.modTh f
  pure .fall

/-- A register-only effect on the state. -/
def onState (f : State → State) : Act Next := do
  modify f
  pure .fall

/-- A half that only writes the thread's registers, from the state that it reads. -/
def pureHalf (f : State → Thread → Thread) : Half := do
  let s ← get
  pure (modify fun s' => s'.modTh (f s))

/-- Issue an engine operation: it takes the next number of its timeline, its future names it as pending,
and it joins its queue (spec/11 R166, R178 step 5). -/
def enqueueOp (e : Eng) (i : Instr) (fd : FIdx) (f : Op → Op) (s : State) : State :=
  let (t, n) := s.th.takeNum e
  let o := f { num := n, eng := e, th := s.tk, instr := i, fd := fd, pc := t.pc }
  (s.setTh (t.setF fd (mkFuture e n .pending))).modOps s.tk e fun l => l ++ [o]

/-- A target is a legal instruction start (spec/02 R13). -/
def checkStart (tgt : Pc) : Act Unit := trapIf (!legalStart tgt) (trMisaligned (tgt.setWidth 64))

/-- An event: whole; where its condition does not hold it does not come about, and nothing changes. -/
def eventDo (body : Act Unit) (s : State) : Outcome :=
  match body s with
  | .ok _ s' => .next s'
  | .error .wait s' => .next s'
  | .error _ _ => .next s

/-- An event needs a condition. -/
def need (b : Bool) : Act Unit := if b then pure () else throw .refuse

/-- The value of an option, or the event does not come about. -/
def needSome {α : Type} (o : Option α) : Act α :=
  match o with
  | some a => pure a
  | none => throw .refuse

end Sys2Proof.Machine
end

