-- ==== Sys2Proof/Machine/Flags.lean ====
section
/-! DEFINITION. Predicates as a scalar or lane-wise outcome writes them, the conditions of `cmp`, and
the sticky flag (spec/03 R44, R53, R54, spec/08 R128, spec/11 R172). -/

namespace Sys2Proof.Machine

/-- A scalar outcome in all 64 bits (R53). -/
def allBits (c : Bool) : Word := if c then BitVec.allOnes 64 else 0

/-- The condition of `cmp` and `cmpi` (R53). -/
def condVal (c : Cond) (x y : Word) : Bool :=
  match c with
  | .eq => x == y
  | .ne => x != y
  | .lt => decide (x.toInt < y.toInt)
  | .ge => decide (y.toInt ≤ x.toInt)
  | .ltu => decide (x.toNat < y.toNat)
  | .geu => decide (y.toNat ≤ x.toNat)
  | .tst => x &&& y != 0
  | .ntst => x &&& y == 0

/-- A scalar compare's outcome c: pt takes it, pf its complement (R53). -/
def setPair (pt pf : PIdx) (c : Bool) (t : Thread) : Thread :=
  (t.setP pt (allBits c)).setP pf (allBits !c)

/-- The two predicates of a snapshot, each in all 64 bits (R172). -/
def setSnap (pt pf : PIdx) (a b : Bool) (t : Thread) : Thread :=
  (t.setP pt (allBits a)).setP pf (allBits b)

/-- A predicate with the bits of `m` taken from `v` (R128). -/
def mergeBits (old v m : Word) : Word := (old &&& ~~~m) ||| (v &&& m)

/-- A lane-wise compare over the n lanes that `m` selects: bit i of pt and pf (R128). -/
def setLanes (pt pf : PIdx) (c m : Word) (t : Thread) : Thread :=
  let t1 := t.setP pt (mergeBits (t.pr pt) c m)
  t1.setP pf (mergeBits (t.pr pf) (~~~c) m)

/-- The optional complement of a predicate operand (R54). -/
def pOperand (t : Thread) (r : PIdx) (n : Bool) : Word := if n then ~~~(t.pr r) else t.pr r

/-- A ternary element with code 0b10 was read on a core (R44). -/
def Core.setTern (c : Core) (seen : Bool) : Core := if seen then { c with stky := true } else c

end Sys2Proof.Machine
end

