-- ==== Sys2Proof/Machine/Integer.lean ====
section
/-! DEFINITION. Integer register operations, immediates and addresses, compares, predicate operations
and select, and the system registers (spec/03 R39-R55). -/

namespace Sys2Proof.Machine

/-! ## Values (R46-R48) -/

/-- An exact sum or difference, wrapped or clamped to the signed range (R46, R48). -/
def narrow (x : Int) (sat : Bool) : Word :=
  BitVec.ofInt 64 (if sat then max (-(2 ^ 63)) (min x (2 ^ 63 - 1)) else x)

/-- A register shift amount: its low 6 bits (R46). -/
def shAmt (b : Word) : Nat := b.toNat % 64

def mulhVal (a b : Word) : Word := BitVec.ofInt 64 (a.toInt * b.toInt / 2 ^ 64)
def mulhuVal (a b : Word) : Word := BitVec.ofNat 64 (a.toNat * b.toNat / 2 ^ 64)

/-- Signed quotient: truncated, -1 by zero, wrapping at -2^63 / -1 (R47). -/
def divVal (a b : Word) : Word :=
  if b = 0 then BitVec.allOnes 64 else BitVec.ofInt 64 (a.toInt.tdiv b.toInt)

def remVal (a b : Word) : Word := if b = 0 then a else BitVec.ofInt 64 (a.toInt.tmod b.toInt)

def divuVal (a b : Word) : Word :=
  if b = 0 then BitVec.allOnes 64 else BitVec.ofNat 64 (a.toNat / b.toNat)

def remuVal (a b : Word) : Word := if b = 0 then a else BitVec.ofNat 64 (a.toNat % b.toNat)

/-- Zero bits above the highest 1 among the low n bits. -/
def clzCount (a : Word) : Nat → Nat
  | 0 => 0
  | n + 1 => if a.getLsbD n then 0 else 1 + clzCount a n

/-- Zero bits from bit 64 - n up to the lowest 1. -/
def ctzCount (a : Word) : Nat → Nat
  | 0 => 0
  | n + 1 => if a.getLsbD (63 - n) then 0 else 1 + ctzCount a n

def popCount (a : Word) : Nat → Nat
  | 0 => 0
  | n + 1 => (a.getLsbD n).toNat + popCount a n

/-- The low n bits of a value, sign- or zero-extended. -/
def sextN (a : Word) (n : Nat) : Word := BitVec.ofInt 64 ((a.setWidth n).toInt)
def zextN (a : Word) (n : Nat) : Word := BitVec.ofNat 64 (a.toNat % 2 ^ n)

/-- `bfi` (R52). -/
def bfiVal (d a : Word) (pos len : Nat) : Word :=
  let m : Word := BitVec.ofNat 64 ((2 ^ len - 1) * 2 ^ pos)
  (d &&& ~~~m) ||| (BitVec.ofNat 64 (a.toNat % 2 ^ len * 2 ^ pos) &&& m)

/-- `bfx` (R52). -/
def bfxVal (a : Word) (pos len : Nat) (sg : Bool) : Word :=
  if sg then sextN (a >>> pos) len else zextN (a >>> pos) len

/-- The sign-extended 20-bit immediate. -/
def imm20 (i : BitVec 20) : Word := i.signExtend 64

/-- A result for G(D) from the state that the instruction reads. -/
def gHalf (d : GReg) (f : State → Word) : Half := pureHalf fun s t => t.setG d (f s)

/-! ## Register operations (R46) -/

def addHalf (d a b : GReg) (sat : Bool) : Half := gHalf d fun s => narrow ((s.g a).toInt + (s.g b).toInt) sat
def subHalf (d a b : GReg) (sat : Bool) : Half := gHalf d fun s => narrow ((s.g a).toInt - (s.g b).toInt) sat
def andHalf (d a b : GReg) : Half := gHalf d fun s => s.g a &&& s.g b
def orHalf (d a b : GReg) : Half := gHalf d fun s => s.g a ||| s.g b
def xorHalf (d a b : GReg) : Half := gHalf d fun s => s.g a ^^^ s.g b
def sllHalf (d a b : GReg) : Half := gHalf d fun s => s.g a <<< shAmt (s.g b)
def srlHalf (d a b : GReg) : Half := gHalf d fun s => s.g a >>> shAmt (s.g b)
def sraHalf (d a b : GReg) : Half := gHalf d fun s => (s.g a).sshiftRight (shAmt (s.g b))
def mulHalf (d a b : GReg) : Half := gHalf d fun s => s.g a * s.g b
def mulhHalf (d a b : GReg) : Half := gHalf d fun s => mulhVal (s.g a) (s.g b)
def mulhuHalf (d a b : GReg) : Half := gHalf d fun s => mulhuVal (s.g a) (s.g b)
def divHalf (d a b : GReg) : Half := gHalf d fun s => divVal (s.g a) (s.g b)
def divuHalf (d a b : GReg) : Half := gHalf d fun s => divuVal (s.g a) (s.g b)
def remHalf (d a b : GReg) : Half := gHalf d fun s => remVal (s.g a) (s.g b)
def remuHalf (d a b : GReg) : Half := gHalf d fun s => remuVal (s.g a) (s.g b)
def minHalf (d a b : GReg) : Half :=
  gHalf d fun s => if (s.g a).toInt ≤ (s.g b).toInt then s.g a else s.g b
def maxHalf (d a b : GReg) : Half :=
  gHalf d fun s => if (s.g b).toInt ≤ (s.g a).toInt then s.g a else s.g b
def minuHalf (d a b : GReg) : Half :=
  gHalf d fun s => if (s.g a).toNat ≤ (s.g b).toNat then s.g a else s.g b
def maxuHalf (d a b : GReg) : Half :=
  gHalf d fun s => if (s.g b).toNat ≤ (s.g a).toNat then s.g a else s.g b
def clzHalf (d a : GReg) : Half := gHalf d fun s => BitVec.ofNat 64 (clzCount (s.g a) 64)
def ctzHalf (d a : GReg) : Half := gHalf d fun s => BitVec.ofNat 64 (ctzCount (s.g a) 64)
def popcHalf (d a : GReg) : Half := gHalf d fun s => BitVec.ofNat 64 (popCount (s.g a) 64)
def sextHalf (d a : GReg) (n1 : BitVec 6) : Half := gHalf d fun s => sextN (s.g a) (n1.toNat + 1)
def zextHalf (d a : GReg) (n1 : BitVec 6) : Half := gHalf d fun s => zextN (s.g a) (n1.toNat + 1)
def movHalf (d a : GReg) : Half := gHalf d fun s => s.g a

/-! ## Immediates and addresses (R49-R52) -/

def addiHalf (d a : GReg) (imm : BitVec 20) (sat : Bool) : Half :=
  gHalf d fun s => narrow ((s.g a).toInt + imm.toInt) sat
def andiHalf (d a : GReg) (imm : BitVec 20) : Half := gHalf d fun s => s.g a &&& imm20 imm
def oriHalf (d a : GReg) (imm : BitVec 20) : Half := gHalf d fun s => s.g a ||| imm20 imm
def xoriHalf (d a : GReg) (imm : BitVec 20) : Half := gHalf d fun s => s.g a ^^^ imm20 imm
def slliHalf (d a : GReg) (n : BitVec 20) : Half := gHalf d fun s => s.g a <<< (n.toNat % 64)
def srliHalf (d a : GReg) (n : BitVec 20) : Half := gHalf d fun s => s.g a >>> (n.toNat % 64)
def sraiHalf (d a : GReg) (n : BitVec 20) : Half := gHalf d fun s => (s.g a).sshiftRight (n.toNat % 64)
def liHalf (d : GReg) (imm : BitVec 20) : Half := gHalf d fun _ => imm20 imm
def leaHalf (d a : GReg) (off : BitVec 20) : Half := gHalf d fun s => addrAdd (s.g a) off.toInt
def leaPcHalf (d : GReg) (off : BitVec 20) : Half :=
  gHalf d fun s => (s.th.pc + off.signExtend 48).setWidth 64
def bfxHalf (d a : GReg) (pos len1 : BitVec 6) (sg : Bool) : Half :=
  gHalf d fun s => bfxVal (s.g a) pos.toNat (len1.toNat + 1) sg
def bfiHalf (d a : GReg) (pos len1 : BitVec 6) : Half :=
  gHalf d fun s => bfiVal (s.g d) (s.g a) pos.toNat (len1.toNat + 1)

/-! ## Compares, predicates, select (R53-R55) -/

def cmpHalf (c : Cond) (pt pf : PIdx) (a b : GReg) : Half :=
  pureHalf fun s t => setPair pt pf (condVal c (s.g a) (s.g b)) t
def cmpiHalf (c : Cond) (pt pf : PIdx) (a : GReg) (imm : BitVec 20) : Half :=
  pureHalf fun s t => setPair pt pf (condVal c (s.g a) (imm20 imm)) t
def pandHalf (d a b : PIdx) (na nb : Bool) : Half :=
  pureHalf fun s t => t.setP d (pOperand s.th a na &&& pOperand s.th b nb)
def porHalf (d a b : PIdx) (na nb : Bool) : Half :=
  pureHalf fun s t => t.setP d (pOperand s.th a na ||| pOperand s.th b nb)
def pxorHalf (d a b : PIdx) (na nb : Bool) : Half :=
  pureHalf fun s t => t.setP d (pOperand s.th a na ^^^ pOperand s.th b nb)
def pmovHalf (d a : PIdx) (na : Bool) : Half := pureHalf fun s t => t.setP d (pOperand s.th a na)
def selHalf (d : GReg) (p : PIdx) (b c : GReg) : Half :=
  gHalf d fun s => if (s.p p).getLsbD 0 then s.g b else s.g c

/-! ## The instructions -/

def execAdd (gd : Guard) (d a b : GReg) (sat : Bool) (s : State) : Outcome :=
  issue (.add gd d a b sat) (alone (addHalf d a b sat)) s
def execSub (gd : Guard) (d a b : GReg) (sat : Bool) (s : State) : Outcome :=
  issue (.sub gd d a b sat) (alone (subHalf d a b sat)) s
def execAnd (gd : Guard) (d a b : GReg) (s : State) : Outcome :=
  issue (.and gd d a b) (alone (andHalf d a b)) s
def execOr (gd : Guard) (d a b : GReg) (s : State) : Outcome :=
  issue (.or gd d a b) (alone (orHalf d a b)) s
def execXor (gd : Guard) (d a b : GReg) (s : State) : Outcome :=
  issue (.xor gd d a b) (alone (xorHalf d a b)) s
def execSll (gd : Guard) (d a b : GReg) (s : State) : Outcome :=
  issue (.sll gd d a b) (alone (sllHalf d a b)) s
def execSrl (gd : Guard) (d a b : GReg) (s : State) : Outcome :=
  issue (.srl gd d a b) (alone (srlHalf d a b)) s
def execSra (gd : Guard) (d a b : GReg) (s : State) : Outcome :=
  issue (.sra gd d a b) (alone (sraHalf d a b)) s
def execMul (gd : Guard) (d a b : GReg) (s : State) : Outcome :=
  issue (.mul gd d a b) (alone (mulHalf d a b)) s
def execMulh (gd : Guard) (d a b : GReg) (s : State) : Outcome :=
  issue (.mulh gd d a b) (alone (mulhHalf d a b)) s
def execMulhu (gd : Guard) (d a b : GReg) (s : State) : Outcome :=
  issue (.mulhu gd d a b) (alone (mulhuHalf d a b)) s
def execDiv (gd : Guard) (d a b : GReg) (s : State) : Outcome :=
  issue (.div gd d a b) (alone (divHalf d a b)) s
def execDivu (gd : Guard) (d a b : GReg) (s : State) : Outcome :=
  issue (.divu gd d a b) (alone (divuHalf d a b)) s
def execRem (gd : Guard) (d a b : GReg) (s : State) : Outcome :=
  issue (.rem gd d a b) (alone (remHalf d a b)) s
def execRemu (gd : Guard) (d a b : GReg) (s : State) : Outcome :=
  issue (.remu gd d a b) (alone (remuHalf d a b)) s
def execMin (gd : Guard) (d a b : GReg) (s : State) : Outcome :=
  issue (.min gd d a b) (alone (minHalf d a b)) s
def execMax (gd : Guard) (d a b : GReg) (s : State) : Outcome :=
  issue (.max gd d a b) (alone (maxHalf d a b)) s
def execMinu (gd : Guard) (d a b : GReg) (s : State) : Outcome :=
  issue (.minu gd d a b) (alone (minuHalf d a b)) s
def execMaxu (gd : Guard) (d a b : GReg) (s : State) : Outcome :=
  issue (.maxu gd d a b) (alone (maxuHalf d a b)) s
def execClz (gd : Guard) (d a : GReg) (s : State) : Outcome :=
  issue (.clz gd d a) (alone (clzHalf d a)) s
def execCtz (gd : Guard) (d a : GReg) (s : State) : Outcome :=
  issue (.ctz gd d a) (alone (ctzHalf d a)) s
def execPopc (gd : Guard) (d a : GReg) (s : State) : Outcome :=
  issue (.popc gd d a) (alone (popcHalf d a)) s
def execMov (gd : Guard) (d a : GReg) (s : State) : Outcome :=
  issue (.mov gd d a) (alone (movHalf d a)) s
def execSext (gd : Guard) (d a : GReg) (n1 : BitVec 6) (s : State) : Outcome :=
  issue (.sext gd d a n1) (alone (sextHalf d a n1)) s
def execZext (gd : Guard) (d a : GReg) (n1 : BitVec 6) (s : State) : Outcome :=
  issue (.zext gd d a n1) (alone (zextHalf d a n1)) s
def execAddi (gd : Guard) (d a : GReg) (imm : BitVec 20) (sat : Bool) (s : State) : Outcome :=
  issue (.addi gd d a imm sat) (alone (addiHalf d a imm sat)) s
def execAndi (gd : Guard) (d a : GReg) (imm : BitVec 20) (s : State) : Outcome :=
  issue (.andi gd d a imm) (alone (andiHalf d a imm)) s
def execOri (gd : Guard) (d a : GReg) (imm : BitVec 20) (s : State) : Outcome :=
  issue (.ori gd d a imm) (alone (oriHalf d a imm)) s
def execXori (gd : Guard) (d a : GReg) (imm : BitVec 20) (s : State) : Outcome :=
  issue (.xori gd d a imm) (alone (xoriHalf d a imm)) s
def execSlli (gd : Guard) (d a : GReg) (imm : BitVec 20) (s : State) : Outcome :=
  issue (.slli gd d a imm) (alone (slliHalf d a imm)) s
def execSrli (gd : Guard) (d a : GReg) (imm : BitVec 20) (s : State) : Outcome :=
  issue (.srli gd d a imm) (alone (srliHalf d a imm)) s
def execSrai (gd : Guard) (d a : GReg) (imm : BitVec 20) (s : State) : Outcome :=
  issue (.srai gd d a imm) (alone (sraiHalf d a imm)) s
def execLea (gd : Guard) (d a : GReg) (imm : BitVec 20) (s : State) : Outcome :=
  issue (.lea gd d a imm) (alone (leaHalf d a imm)) s
def execLi (gd : Guard) (d : GReg) (imm : BitVec 20) (s : State) : Outcome :=
  issue (.li gd d imm) (alone (liHalf d imm)) s
def execLeaPc (gd : Guard) (d : GReg) (imm : BitVec 20) (s : State) : Outcome :=
  issue (.leaPc gd d imm) (alone (leaPcHalf d imm)) s
def execLiI32 (gd : Guard) (d : GReg) (imm : BitVec 32) (s : State) : Outcome :=
  issue (.liI32 gd d imm) (onThread fun t => t.setG d (imm.signExtend 64)) s
def execLiI64 (gd : Guard) (d : GReg) (imm : BitVec 64) (s : State) : Outcome :=
  issue (.liI64 gd d imm) (onThread fun t => t.setG d imm) s
def execLeaI32 (gd : Guard) (d a : GReg) (off : BitVec 32) (s : State) : Outcome :=
  issue (.leaI32 gd d a off) (onThread fun t => t.setG d (addrAdd (t.g a) off.toInt)) s
def execLeaPcI32 (gd : Guard) (d : GReg) (off : BitVec 32) (s : State) : Outcome :=
  issue (.leaPcI32 gd d off)
    (onThread fun t => t.setG d ((t.pc + off.signExtend 48).setWidth 64)) s
def execBfx (gd : Guard) (d a : GReg) (pos len1 : BitVec 6) (sg : Bool) (s : State) : Outcome :=
  issue (.bfx gd d a pos len1 sg) (alone (bfxHalf d a pos len1 sg)) s
def execBfi (gd : Guard) (d a : GReg) (pos len1 : BitVec 6) (s : State) : Outcome :=
  issue (.bfi gd d a pos len1) (alone (bfiHalf d a pos len1)) s
def execCmp (gd : Guard) (c : Cond) (pt pf : PIdx) (a b : GReg) (s : State) : Outcome :=
  issue (.cmp gd c pt pf a b) (alone (cmpHalf c pt pf a b)) s
def execCmpi (gd : Guard) (c : Cond) (pt pf : PIdx) (a : GReg) (imm : BitVec 20) (s : State) : Outcome :=
  issue (.cmpi gd c pt pf a imm) (alone (cmpiHalf c pt pf a imm)) s
def execPand (gd : Guard) (d a b : PIdx) (na nb : Bool) (s : State) : Outcome :=
  issue (.pand gd d a b na nb) (alone (pandHalf d a b na nb)) s
def execPor (gd : Guard) (d a b : PIdx) (na nb : Bool) (s : State) : Outcome :=
  issue (.por gd d a b na nb) (alone (porHalf d a b na nb)) s
def execPxor (gd : Guard) (d a b : PIdx) (na nb : Bool) (s : State) : Outcome :=
  issue (.pxor gd d a b na nb) (alone (pxorHalf d a b na nb)) s
def execPmov (gd : Guard) (d a : PIdx) (na : Bool) (s : State) : Outcome :=
  issue (.pmov gd d a na) (alone (pmovHalf d a na)) s
def execSel (gd : Guard) (d : GReg) (p : PIdx) (b c : GReg) (s : State) : Outcome :=
  issue (.sel gd d p b c) (alone (selHalf d p b c)) s

/-! ## System registers (R39-R45) -/

/-- self (R43). -/
def State.selfReg (s : State) : Word :=
  BitVec.ofNat 64 (s.ct + 2 ^ 2 * coreIn s.cc + 2 ^ 32 * ((s.pkgAt (pkgOf s.cc)).pkgId % 2 ^ 14))

/-- wst (R42). -/
def Thread.wst (t : Thread) : Word := BitVec.ofNat 64 (t.res % 8 + 2 ^ 32 * (t.depth % 2 ^ 32))

/-- The value of a system register (R40). -/
def State.sysReg (s : State) (n : Nat) : Word :=
  let t := s.th
  match n with
  | 0x000 => s.core.fmt.setWidth 64
  | 0x001 => t.wst
  | 0x002 => s.selfReg
  | 0x003 => BitVec.ofNat 64 s.core.stky.toNat
  | 0x004 => t.rngs.setWidth 64
  | 0x008 => t.cls
  | 0x020 => t.tvec
  | 0x021 => t.tpc
  | 0x022 => t.tcause
  | 0x023 => t.tval
  | 0x030 => (s.pkgAt (pkgOf s.cc)).cap0
  | 0x031 => (s.pkgAt (pkgOf s.cc)).cap1
  | _ =>
    if n < 0x014 then t.lsn (n - 0x010)
    else if n < 0x018 then t.len (n - 0x014)
    else t.lcn (n - 0x018)

/-- A value that a write of a system register refuses with an illegal trap: reserved bits, an
impossible format or clause count (R41, spec/04 R64, R66, spec/16 R268). -/
def sysRefused (n : Nat) (v : Word) : Bool :=
  match n with
  | 0x000 => v.toNat / 16 != 0 || v.toNat == 0 || v.toNat == 14 || v.toNat == 15
  | 0x008 => v.toNat / 2 ^ 16 != 0 || decide (8 < clsCount v) || decide (8 < v.toNat / 2 ^ 8 % 16)
  | 0x020 => v.toNat / 2 ^ 48 != 0 || v.toNat % 4 != 0
  | 0x021 => v.toNat / 2 ^ 48 != 0
  | _ => decide (0x010 ≤ n) && decide (n < 0x018) && v.toNat / 2 ^ 48 != 0

/-- rngs as written: 0 is stored as 0x9E3779B9 (R45). -/
def rngsStored (v : Word) : BitVec 32 := if v.setWidth 32 = 0#32 then 0x9E3779B9 else v.setWidth 32

/-- The bits of tcause that a write keeps (spec/16 R268). -/
def tcauseMask : Word := 0x3FF7F

/-- The write of a system register (R39). -/
def writeSys (n : Nat) (v : Word) (s : State) : State :=
  match n with
  | 0x000 => s.modCore fun c => { c with fmt := v.setWidth 4 }
  | 0x003 => s.modCore fun c => { c with stky := c.stky && !v.getLsbD 0 }
  | 0x004 => s.modTh fun t => { t with rngs := rngsStored v }
  | 0x008 => s.modTh fun t => { t with cls := v }
  | 0x020 => s.modTh fun t => { t with tvec := v }
  | 0x021 => s.modTh fun t => { t with tpc := v }
  | 0x022 => s.modTh fun t => { t with tcause := v &&& tcauseMask }
  | 0x023 => s.modTh fun t => { t with tval := v }
  | _ =>
    if n < 0x014 then s.modTh fun t => t.setLs (n - 0x010) v
    else if n < 0x018 then s.modTh fun t => t.setLe (n - 0x014) v
    else s.modTh fun t => t.setLc (n - 0x018) v

def execRdsr (gd : Guard) (d : GReg) (sreg : BitVec 12) (s : State) : Outcome :=
  issue (.rdsr gd d sreg) (onState fun s => s.setG d (s.sysReg sreg.toNat)) s

def execWrsr (gd : Guard) (sreg : BitVec 12) (a : GReg) (s : State) : Outcome :=
  issue (.wrsr gd sreg a) (do
    let v := (← get).g a
    trapIf (sysRefused sreg.toNat v) (trIllegal v)
    onState (writeSys sreg.toNat v)) s

end Sys2Proof.Machine
end

