-- ==== Sys2Proof/Machine/Float.lean ====
section
/-! DEFINITION. Element values, rounding, conversions, exact sums, the exp2 procedure and the
functions whose exact result is no dyadic number (spec/07 R101-R118, spec/08 R125, R130). -/

namespace Sys2Proof.Machine

/-- An exact value: NaN, an infinity, or (-1)^neg * m * 2^e; a zero keeps its sign. -/
inductive Num where
  | nan
  | inf (neg : Bool)
  | fin (neg : Bool) (m : Nat) (e : Int)
  deriving DecidableEq, Repr

/-! ## Floating formats (R101, R102) -/

/-- Exponent width, mantissa width, bias of a floating format; FP32's for the others. -/
def fmtParams : Fmt → Nat × Nat × Nat
  | .bf16 => (8, 7, 127)
  | .fp16 => (5, 10, 15)
  | .e4m3 => (4, 3, 7)
  | .e5m2 => (5, 2, 15)
  | .e2m3 => (2, 3, 1)
  | .e3m2 => (3, 2, 3)
  | .e2m1 => (2, 1, 1)
  | _ => (8, 23, 127)

/-- A floating format. -/
def isFloat : Fmt → Bool
  | .int8 | .int16 | .int32 | .int64 | .ternary => false
  | _ => true

/-- Formats with infinities and IEEE-like NaN codes (R102). -/
def hasInf : Fmt → Bool
  | .fp32 | .bf16 | .fp16 | .e5m2 => true
  | _ => false

/-- The largest finite value's exponent and mantissa fields. -/
def maxFields (f : Fmt) : Nat × Nat :=
  let (w, m, _) := fmtParams f
  if hasInf f then (2 ^ w - 2, 2 ^ m - 1)
  else match f with
    | .e4m3 => (15, 6)
    | _ => (2 ^ w - 1, 2 ^ m - 1)

/-- The sign bit's place: the code's width less one. -/
def signPos (f : Fmt) : Nat := let (w, m, _) := fmtParams f; w + m

/-- Canonical NaN; +0 where the format has none (R103, R112). -/
def nanCode : Fmt → Nat
  | .fp32 => 0x7FC00000
  | .bf16 => 0x7FC0
  | .fp16 => 0x7E00
  | .e4m3 => 0x7F
  | .e5m2 => 0x7E
  | _ => 0

def maxCode (f : Fmt) : Nat :=
  let (_, m, _) := fmtParams f
  (maxFields f).1 * 2 ^ m + (maxFields f).2

def infCode (f : Fmt) : Nat :=
  let (w, m, _) := fmtParams f
  (2 ^ w - 1) * 2 ^ m

/-- A code with a sign bit. -/
def withSign (f : Fmt) (neg : Bool) (c : Nat) : Nat := c + neg.toNat * 2 ^ signPos f

/-- The value of a floating code (R101, R102). -/
def floatVal (f : Fmt) (c : Nat) : Num :=
  let (w, m, bias) := fmtParams f
  let neg := c / 2 ^ (w + m) % 2 == 1
  let e := c / 2 ^ m % 2 ^ w
  let man := c % 2 ^ m
  if hasInf f ∧ e = 2 ^ w - 1 then (if man = 0 then .inf neg else .nan)
  else if f = .e4m3 ∧ e = 15 ∧ man = 7 then .nan
  else if e = 0 then .fin neg man (1 - bias - m)
  else .fin neg (2 ^ m + man) ((e : Int) - bias - m)

/-- Bits that an element's code has: 6 for the 6-bit formats. -/
def codeBits : Fmt → Nat
  | .e2m3 | .e3m2 => 6
  | f => f.width

/-- Two's complement value of the low w bits. -/
def sval (w c : Nat) : Int := if c % 2 ^ w < 2 ^ (w - 1) then (c % 2 ^ w : Nat) else (c % 2 ^ w : Nat) - 2 ^ w

/-- An integer's code in w bits. -/
def icode (w : Nat) (x : Int) : Nat := (x % 2 ^ w).toNat

/-- The value of a ternary code; 0b10 reads as 0 (R105). -/
def ternVal (c : Nat) : Int := if c = 1 then 1 else if c = 3 then -1 else 0

def ternCode (x : Int) : Nat := if x = 1 then 1 else if x = -1 then 3 else 0

def intNum (x : Int) : Num := .fin (decide (x < 0)) x.natAbs 0

/-- The value of an element of a format. -/
def elemVal (f : Fmt) (c : Nat) : Num :=
  match f with
  | .int8 | .int16 | .int32 | .int64 => intNum (sval f.width c)
  | .ternary => intNum (ternVal (c % 4))
  | _ => floatVal f c

/-! ## Rounding (R109-R111) -/

/-- One step of the generator (R110). -/
def rngStep (s : BitVec 32) : BitVec 32 :=
  let s := s ^^^ (s <<< 13)
  let s := s ^^^ (s >>> 17)
  s ^^^ (s <<< 5)

/-- The 16 bits that decide an element. -/
def rngT (s : BitVec 32) : Nat := s.toNat / 2 ^ 16

/-- Bits of a number. -/
def bitLen (n : Nat) : Nat := if n = 0 then 0 else Nat.log2 n + 1

/-- m * 2^e in units of 2^q: the whole units, and the rest r of 2^k. -/
def units (m : Nat) (e q : Int) : Nat × Nat × Nat :=
  if q ≤ e then (m * 2 ^ (e - q).toNat, 0, 0)
  else
    let k := (q - e).toNat
    (m / 2 ^ k, m % 2 ^ k, k)

/-- Whether the magnitude is rounded up (R109, R110); t decides SR. -/
def roundUp (mode : Rm) (neg : Bool) (lo r k t : Nat) : Bool :=
  if r = 0 then false
  else match mode with
    | .rne => decide (2 ^ k < 2 * r) || (2 * r == 2 ^ k && lo % 2 == 1)
    | .rz => false
    | .rdn => neg
    | .rup => !neg
    | .rna => decide (2 ^ k ≤ 2 * r)
    | .sr => decide (t < r * 2 ^ 16 / 2 ^ k)

/-- The result beyond the largest finite magnitude (R111); `away` says that SR chose the neighbour
farther from zero. -/
def overflow (f : Fmt) (mode : Rm) (sat neg away : Bool) : Nat :=
  let mx := withSign f neg (maxCode f)
  let top := if hasInf f then withSign f neg (infCode f)
    else match f with | .e4m3 => nanCode f | _ => mx
  if sat then mx
  else match mode with
    | .rne | .rna => top
    | .sr => if away then top else mx
    | .rz => mx
    | .rup => if neg then mx else top
    | .rdn => if neg then top else mx

/-- Round an exact value to a floating format (R109-R112). Under SR a value that lies on the continued grid beyond the
largest finite magnitude is not rounded up, and without `.sat` gives that magnitude (log entry 84). -/
def roundF (f : Fmt) (mode : Rm) (sat : Bool) (t : Nat) (x : Num) : Nat :=
  match x with
  | .nan => nanCode f
  | .inf neg => if hasInf f then withSign f neg (infCode f) else overflow f .rne sat neg true
  | .fin neg m e =>
    let (_, mb, bias) := fmtParams f
    if m = 0 then withSign f neg 0
    else
      let top : Int := (bitLen m : Int) - 1 + e
      let q : Int := max top (1 - (bias : Int)) - mb
      let (lo, r, k) := units m e q
      let up := roundUp mode neg lo r k t
      let n := if up then lo + 1 else lo
      let (n, q) := if n = 2 ^ (mb + 1) then (2 ^ mb, q + 1) else (n, q)
      if n < 2 ^ mb then withSign f neg n
      else
        let ef := (q + mb + bias).toNat
        let mf := n - 2 ^ mb
        if (maxFields f).1 < ef ∨ (ef = (maxFields f).1 ∧ (maxFields f).2 < mf) then
          overflow f mode sat neg up
        else withSign f neg (ef * 2 ^ mb + mf)

/-- Round an exact value to an integer; NaN gives 0, an infinity a value beyond every range. -/
def roundI (mode : Rm) (t : Nat) (x : Num) : Int :=
  match x with
  | .nan => 0
  | .inf neg => if neg then -(2 ^ 200) else 2 ^ 200
  | .fin neg m e =>
    let (lo, r, k) := units m e 0
    let n : Int := (if roundUp mode neg lo r k t then lo + 1 else lo : Nat)
    if neg then -n else n

/-- Clamp to the signed range of w bits. -/
def clampS (w : Nat) (x : Int) : Int := max (-(2 ^ (w - 1))) (min x (2 ^ (w - 1) - 1))

/-! ## Conversions (R112) -/

/-- An exact value to a target format, from a source of any kind but a plain integer. -/
def convNum (dst : Fmt) (mode : Rm) (sat : Bool) (t : Nat) (x : Num) : Nat :=
  match dst with
  | .int8 | .int16 | .int32 | .int64 => icode dst.width (clampS dst.width (roundI mode t x))
  | .ternary => ternCode (max (-1) (min 1 (roundI mode t x)))
  | _ => roundF dst mode sat t x

/-- Every value of `src` is representable in `dst` (R112). -/
def widerEq (dst src : Fmt) : Bool :=
  dst == src || (match src with
    | .e2m1 => isFloat dst
    | .e2m3 => dst == .e4m3 || dst.isF
    | .e3m2 => dst == .e4m3 || dst == .e5m2 || dst.isF
    | .e4m3 | .e5m2 => dst.isF
    | .fp16 | .bf16 => dst == .fp32
    | _ => false)

/-- Convert an element's code (R112). An infinity narrowed with `.sat` gives the largest value
(R111). -/
def convert (dst src : Fmt) (mode : Rm) (sat : Bool) (t : Nat) (c : Nat) : Nat :=
  if src.isI ∧ dst.isI then
    let x := sval src.width c
    icode dst.width (if sat ∧ dst.width < src.width then clampS dst.width x else x)
  else
    let x := elemVal src c
    match x with
    | .inf neg => if sat ∧ isFloat dst ∧ !widerEq dst src then withSign dst neg (maxCode dst)
        else convNum dst mode sat t x
    | _ => convNum dst mode sat t x

/-! ## Exact arithmetic -/

/-- A signed dyadic number i * 2^e. -/
structure Dy where
  i : Int
  e : Int
  deriving DecidableEq, Repr

def Dy.add (a b : Dy) : Dy :=
  if a.e ≤ b.e then ⟨a.i + b.i * 2 ^ (b.e - a.e).toNat, a.e⟩
  else ⟨a.i * 2 ^ (a.e - b.e).toNat + b.i, b.e⟩

def Dy.num (d : Dy) : Num := .fin (decide (d.i < 0)) d.i.natAbs d.e

def Num.isNan : Num → Bool | .nan => true | _ => false
def Num.isInf : Num → Bool | .inf _ => true | _ => false
def Num.isZero : Num → Bool | .fin _ m _ => m == 0 | _ => false
def Num.sign : Num → Bool | .nan => false | .inf n => n | .fin n _ _ => n
def Num.dy : Num → Dy
  | .fin n m e => ⟨if n then -(m : Int) else m, e⟩
  | _ => ⟨0, 0⟩
def Num.neg : Num → Num
  | .nan => .nan | .inf n => .inf !n | .fin n m e => .fin (!n) m e
def Num.abs : Num → Num
  | .nan => .nan | .inf _ => .inf false | .fin _ m e => .fin false m e
/-- Scale by 2^k. -/
def Num.scale (x : Num) (k : Int) : Num := match x with | .fin n m e => .fin n m (e + k) | x => x

/-- An exact product (R125). Its sign is that of the factors' signs, also where it is zero: a zero that has no sign of its
own counts as +0 (R115; log entry 90). -/
def Num.mul (a b : Num) : Num :=
  match a, b with
  | .nan, _ => .nan
  | _, .nan => .nan
  | .inf n, y => if y.isZero then .nan else .inf (n != y.sign)
  | x, .inf n => if x.isZero then .nan else .inf (n != x.sign)
  | .fin n m e, .fin n' m' e' => .fin (n != n') (m * m') (e + e')

/-- The exact sum of some values (R115, R125): NaN for a NaN or infinities of both signs; an exact zero
is +0, or -0 when every addend is -0, or under `rdn`. -/
def sumNums (rdn : Bool) (l : List Num) : Num :=
  if l.any Num.isNan || ((l.any fun x => x.isInf && x.sign) && (l.any fun x => x.isInf && !x.sign))
  then .nan
  else match l.find? Num.isInf with
    | some x => x
    | none =>
      let d : Dy := l.foldl (fun (d : Dy) (x : Num) => d.add x.dy) ⟨0, (l.head?.map fun (x : Num) => x.dy.e).getD 0⟩
      if d.i = 0 then .fin (rdn || l.all Num.sign) 0 0 else d.num

/-- Order of two finite or infinite values: a < b. -/
def Num.lt (a b : Num) : Bool :=
  match a, b with
  | .nan, _ => false
  | _, .nan => false
  | .inf n, .inf n' => n && !n'
  | .inf n, _ => n
  | _, .inf n => !n
  | .fin .., .fin .. => decide ((a.dy.add b.neg.dy).i < 0)

def Num.eq (a b : Num) : Bool :=
  match a, b with
  | .nan, _ => false
  | _, .nan => false
  | .inf n, .inf n' => n == n'
  | .inf _, _ => false
  | _, .inf _ => false
  | .fin .., .fin .. => decide ((a.dy.add b.neg.dy).i = 0)

/-- Order of `vmin` and `vmax`: -0 below +0 (R126). -/
def Num.below (a b : Num) : Bool := a.lt b || (a.isZero && b.isZero && a.sign && !b.sign)

/-! ## FP32 shorthands -/

def f32 (c : BitVec 32) : Num := floatVal .fp32 c.toNat
def toF32 (x : Num) : BitVec 32 := BitVec.ofNat 32 (roundF .fp32 .rne false 0 x)
/-- Round up in magnitude, for the magnitudes of a check shadow (spec/19 R309). -/
def toF32Up (x : Num) : BitVec 32 := BitVec.ofNat 32 (roundF .fp32 .rup false 0 x)
def f32Add (a b : BitVec 32) : BitVec 32 := toF32 (sumNums false [f32 a, f32 b])
def f32Mul (a b : BitVec 32) : BitVec 32 := toF32 ((f32 a).mul (f32 b))
def f32Nan : BitVec 32 := 0x7FC00000

/-! ## exp2 (R113) -/

/-- Integer square root of n, bit by bit from bit `b` - 1 down. -/
def isqrt (n : Nat) : Nat → Nat → Nat
  | 0, r => r
  | b + 1, r => if (r + 2 ^ b) * (r + 2 ^ b) ≤ n then isqrt n b (r + 2 ^ b) else isqrt n b r

/-- T(i) = round_rne(2^(i/64)): the 64th root of 2^(i + 64 * 26), six square roots, with a sticky bit
for the inexact rest. -/
def expTable (i : Nat) : BitVec 32 :=
  if i = 0 then 0x3F800000
  else
    let r := (List.range 6).foldl (fun x k => isqrt x (1728 / 2 ^ (k + 1) + 1) 0) (2 ^ (i + 64 * 26))
    toF32 (.fin false (2 * r + 1) (-27))

def expC1 : BitVec 32 := 0x3F317218
def expC2 : BitVec 32 := 0x3E75FDF0
def expC3 : BitVec 32 := 0x3D635847

/-- floor(m * 2^e) with sign. -/
def floorNum (x : Num) : Int :=
  match x with
  | .fin _ _ e => if 0 ≤ e then x.dy.i * 2 ^ e.toNat else x.dy.i / 2 ^ (-e).toNat
  | _ => 0

/-- 2^x as an FP32 code (R113). -/
def exp2F (x : Num) : BitVec 32 :=
  match x with
  | .nan => f32Nan
  | .inf neg => if neg then 0 else 0x7F800000
  | .fin .. =>
    if !(x.lt (intNum 128)) then 0x7F800000
    else if x.lt (intNum (-160)) then 0
    else
      let n := floorNum (x.scale 6)
      let i := (n % 64).toNat
      let e := (n - (i : Int)) / 64
      let y := (x.dy.add ⟨-n, -6⟩).num
      let u := toF32 ((f32 expC3).mul y)
      let u := f32Add expC2 u
      let u := toF32 ((f32 u).mul y)
      let u := f32Add expC1 u
      let p := toF32 ((f32 u).mul y)
      let m := f32Add (expTable i) (f32Mul (expTable i) p)
      toF32 ((f32 m).scale e)

/-! ## Functions with a sticky bit (spec/08 R130)

The exact result lies strictly between two neighbours of a grid much finer than the target's, or on
the grid; an odd last bit stands for the first case, which every rounding of R109 and R110 then treats
as it treats the exact result. -/

/-- 1 / x. -/
def rcpNum (x : Num) : Num :=
  match x with
  | .nan => .nan
  | .inf neg => .fin neg 0 0
  | .fin neg m e =>
    if m = 0 then .inf neg
    else
      let k := bitLen m + 80
      let q := 2 ^ k / m
      let st := if 2 ^ k % m = 0 then 0 else 1
      .fin neg (2 * q + st) (-e - k - 1)

/-- 1 / sqrt x. -/
def rsqrtNum (x : Num) : Num :=
  match x with
  | .nan => .nan
  | .inf neg => if neg then .nan else .fin false 0 0
  | .fin neg m e =>
    if m = 0 then .inf neg
    else if neg then .nan
    else
      let (m, e) := if e % 2 = 0 then (m, e) else (2 * m, e - 1)
      let k := bitLen m + 80
      let n := 2 ^ (2 * k) / m
      let r := isqrt n (bitLen n / 2 + 1) 0
      let st := if m * r * r = 2 ^ (2 * k) then 0 else 1
      .fin false (2 * r + st) (-(e / 2) - k - 1)

/-- Fraction bits of log2 of y in [1, 2), y held between lo and hi in units of 2^-300: each squaring
gives one bit. -/
def logBits : Nat → Nat → Nat → Nat → Nat
  | 0, _, _, acc => acc
  | n + 1, lo, hi, acc =>
    let lo := lo * lo / 2 ^ 300
    let hi := hi * hi / 2 ^ 300 + 1
    if 2 ^ 301 ≤ lo then logBits n (lo / 2) (hi / 2 + 1) (2 * acc + 1)
    else logBits n lo hi (2 * acc)

/-- log2 x. -/
def log2Num (x : Num) : Num :=
  match x with
  | .nan => .nan
  | .inf neg => if neg then .nan else .inf false
  | .fin neg m e =>
    if m = 0 then .inf true
    else if neg then .nan
    else
      let b := bitLen m - 1
      let ex : Int := (b : Int) + e
      if m = 2 ^ b then (if ex = 0 then .fin false 0 0 else intNum ex)
      else
        let y := m * 2 ^ (300 - b)
        let s : Int := ex * 2 ^ 110 + (logBits 110 y y 0 : Nat)
        if 0 ≤ s then .fin false (2 * s.toNat + 1) (-111)
        else .fin true (2 * (-s).toNat - 1) (-111)

/-! ## Block scales and quantising (R107, R108) -/

/-- The exponent of a scale; none for NaN. -/
def scaleExp (x : Nat) : Option Int := if x = 255 then none else some ((x : Int) - 127)

/-- The value of an element under a scale (R107). -/
def scaledVal (f : Fmt) (x : Nat) (c : Nat) : Num :=
  match scaleExp x with
  | none => .nan
  | some k => (elemVal f c).scale (match f with | .int8 => k - 6 | _ => k)

/-- emax of R108. -/
def blockEmax : Fmt → Int
  | .e4m3 => 8 | .e5m2 => 15 | .e2m3 => 2 | .e3m2 => 4 | .e2m1 => 2 | _ => 0

/-- floor(log2 |x|) of a non-zero finite value. -/
def ilog2 : Num → Int
  | .fin _ m e => (bitLen m : Int) - 1 + e
  | _ => 0

def maxInt (l : List Int) : Option Int :=
  l.foldl (fun m x => match m with | none => some x | some y => some (max x y)) none

/-- Quantise values to a block format with a given emax and element rule (R108): the scale and the
codes. `ts` decides SR element by element. -/
def quantWith (emax : Int) (zero : Num → Nat) (conv : Nat → Int → Num → Nat) (ts : List Nat)
    (xs : List Num) : Nat × List Nat :=
  if xs.any fun x => x.isNan || x.isInf then (255, xs.map fun _ => 0)
  else match maxInt ((xs.filter fun x => !x.isZero).map ilog2) with
    | none => (0, xs.map zero)
    | some l =>
      let e := min (max (l - emax) (-127)) 127
      ((e + 127).toNat, (xs.zip ts).map fun (x, t) => conv t e x)

/-- Quantise to a destination format (R108). -/
def quantBlock (f : Fmt) (mode : Rm) (ts : List Nat) (xs : List Num) : Nat × List Nat :=
  quantWith (blockEmax f)
    (fun x => if isFloat f then withSign f x.sign 0 else 0)
    (fun t e x => convNum f mode true t (x.scale (match f with | .int8 => 6 - e | _ => -e)))
    ts xs

/-! ## Fixed-point cells (R116-R118) -/

/-- VAL of a cell, two's complement 192 bits. -/
def cellVal (c : Nat) : Int := sval 192 c

/-- One contribution to the low 194 bits of a cell (R117). -/
def cellAdd (c : Nat) (v : BitVec 32) : Nat :=
  let hi := c / 2 ^ 192
  match f32 v with
  | .nan => c % 2 ^ 192 + 2 ^ 192 * (hi ||| 2)
  | x =>
    let k : Int := match x with
      | .inf neg => if neg then -(2 ^ 192) else 2 ^ 192
      | y => roundI .rne 0 (y.scale 96)
    let t := cellVal c + k
    if 2 ^ 191 - 1 < t then (2 ^ 191 - 1) + 2 ^ 192 * (hi ||| 1)
    else if t < -(2 ^ 191) then 2 ^ 191 + 2 ^ 192 * (hi ||| 1)
    else icode 192 t + 2 ^ 192 * hi

/-- A cell read as FP32 (R118). -/
def cellF32 (c : Nat) : BitVec 32 :=
  if c / 2 ^ 193 % 2 = 1 then f32Nan else toF32 ((intNum (cellVal c)).scale (-96))

end Sys2Proof.Machine
end

