-- ==== Sys2Proof/Machine/Frames.lean ====
section
/-! DEFINITION. The frame store: its words, frames and windows, pushes and pops, `spillw` and `fillw`,
marks, cuts, grafts and slice objects (spec/03 R36, R37, spec/14 R222-R236). -/

namespace Sys2Proof.Machine

/-! ## Words of the frame store (R222) -/

/-- Capacity in words. -/
def Thread.frameCap (t : Thread) : Nat := (if t.ftrk.isSome then 2048 else 0) + t.al / 8

/-- Read frame-store word w of a thread; `moved` counts the words that the instruction has moved. -/
def frameRead (th w : Nat) (moved : Nat := 0) : Act Word := do
  let s ← get
  let ag := s.agentOf th
  let t := s.threadAt th
  match t.ftrk with
  | some tr =>
    if w < 2048 then frameSlotRead ag (th / 4) tr w moved
    else
      let a := t.frameAddr (8 * w)
      let (k, _) ← translate ag ag.pkg (low60 a) .load a moved
      pure (BitVec.ofNat 64 (leVal (← cellRead ag k 8)))
  | none =>
    let a := t.frameAddr (8 * w)
    let (k, _) ← translate ag ag.pkg (low60 a) .load a moved
    pure (BitVec.ofNat 64 (leVal (← cellRead ag k 8)))

/-- Write frame-store word w. -/
def frameWrite (th w : Nat) (v : Word) (moved : Nat := 0) : Act Unit := do
  let s ← get
  let ag := s.agentOf th
  let t := s.threadAt th
  match t.ftrk with
  | some tr =>
    if w < 2048 then frameSlotWrite ag (th / 4) tr w v moved
    else
      let a := t.frameAddr (8 * w)
      let (k, _) ← translate ag ag.pkg (low60 a) .store a moved
      cellWrite ag k (leBytes 8 v.toNat)
  | none =>
    let a := t.frameAddr (8 * w)
    let (k, _) ← translate ag ag.pkg (low60 a) .store a moved
    cellWrite ag k (leBytes 8 v.toNat)

/-- Read n words up from w; `done` counts them for MOVED, where the instruction reports it (spec/16 R278). -/
def frameReads (th : Nat) : Nat → Option Nat → Nat → Act (List Word)
  | _, _, 0 => pure []
  | w, done, n + 1 => do
    let x ← frameRead th w (done.getD 0)
    pure (x :: (← frameReads th (w + 1) (done.map (· + 1)) n))

/-- Write words up from w, counted in the same way. -/
def frameWrites (th : Nat) : Nat → Option Nat → List Word → Act Unit
  | _, _, [] => pure ()
  | w, done, x :: xs => do
    frameWrite th w x (done.getD 0)
    frameWrites th (w + 1) (done.map (· + 1)) xs

/-! ## Headers (R224, R225) -/

def FrameKind.code : FrameKind → Nat
  | .window => 0 | .mark => 1 | .graft => 2

/-- The header word of a frame, `link` words above the header below it. -/
def Frame.header (f : Frame) (link : Nat) : Word :=
  BitVec.ofNat 64 (f.size % 2 ^ 18 + 2 ^ 18 * (f.loc % 2 ^ 12) + 2 ^ 30 * (link % 2 ^ 16) +
    2 ^ 46 * f.tag.toNat + 2 ^ 62 * f.kind.code)

def hdrSize (w : Word) : Nat := w.toNat % 2 ^ 18
def hdrLoc (w : Word) : Nat := w.toNat / 2 ^ 18 % 2 ^ 12
def hdrTag (w : Word) : BitVec 16 := BitVec.ofNat 16 (w.toNat / 2 ^ 46)
def hdrKind (w : Word) : FrameKind :=
  match w.toNat / 2 ^ 62 with
  | 1 => .mark | 2 => .graft | _ => .window

/-- Words from a header down to the header of the frame below. -/
def linkTo (at_ : Nat) : List Frame → Nat
  | [] => 0
  | f :: _ => at_ - f.at_

/-- The 12 loop registers of a thread, as a delimiter and a slice hold them. -/
def Thread.loopWords (t : Thread) : List Word :=
  (List.range 4).map t.lsn ++ (List.range 4).map t.len ++ (List.range 4).map t.lcn

/-- The loop registers from 12 words; bits 63:48 of the addresses are reserved (spec/04 R64). -/
def Thread.setLoopWords (t : Thread) (ws : List Word) : Thread :=
  let pc (w : Word) : Word := (w.setWidth 48).setWidth 64
  let put (f : Thread → Nat → Word → Thread) (o : Nat) (t : Thread) : Thread :=
    (List.range 4).foldl (fun t n => f t n (ws.getD (o + n) 0)) t
  put Thread.setLc 8 (put (fun t n w => t.setLe n (pc w)) 4 (put (fun t n w => t.setLs n (pc w)) 0 t))

/-! ## Windows (spec/03 R36, R37) -/

/-- Forward and backward moves of the window. -/
def Thread.winFwd (t : Thread) : Thread := { t with cwb := (t.cwb + 40) % 168 }
def Thread.winBack (t : Thread) (n : Nat := 1) : Thread := { t with cwb := (t.cwb + 128 * n) % 168 }

/-- Registers 0 to n - 1 of a window. -/
def Thread.winRegs (t : Thread) (b n : Nat) : List Word :=
  (List.range n).map fun k => tgetD t.regs (t.winPhys b k) 0

/-- Write registers of a window from register k up. -/
def putRegs (t : Thread) (b : Nat) : Nat → List Word → Thread
  | _, [] => t
  | k, x :: xs => putRegs { t with regs := tput t.regs (t.winPhys b k) x, errs := tdel t.errs (gErr (t.winPhys b k)) } b (k + 1) xs

/-- The window frames from the top down; frame b belongs to the window b below the current one. -/
def Thread.winFrames (t : Thread) : List Frame := t.frames.filter fun f => f.kind == .window

/-- A pending asynchronous load still has to write one of the registers. -/
def Thread.regPending (t : Thread) (rs : List Nat) : Bool :=
  t.ldq.any fun o => match o.ldReg with
    | some r => rs.contains r
    | none => false

/-- Operations of a thread that act on its frame store (R229). -/
def State.frameOps (s : State) (th : Nat) : Bool :=
  let c := s.coreAt (th / 4)
  ((s.threadAt th).ldq ++ c.ce ++ c.te ++ c.me).any fun o => o.th == th && o.frame

/-- R229: wait until the operations on path 0x5 have ended. -/
def waitFrameOps (th : Nat) : Act Unit := do
  if (← get).frameOps th then stopWait

/-- Write the words of the window b below the current one into its frame (R227). -/
def putWindow (th b : Nat) (done : Option Nat := none) : Act Unit := do
  let t := (← get).threadAt th
  match t.winFrames[b]? with
  | some f => frameWrites th (f.at_ + 1) done (t.winRegs b 40)
  | none => pure ()

/-- Wait until no asynchronous load has to write a register of the window b below the current one (spec/03 R34). -/
def waitWindow (th b : Nat) : Act Unit := do
  let t := (← get).threadAt th
  if t.regPending ((List.range 40).map (t.winPhys b ·)) then stopWait

/-- The same of every window, for an instruction that moves them. -/
def waitWindows (th : Nat) : Act Unit := do
  if ((← get).threadAt th).regPending ((List.range 168).map (64 + ·)) then stopWait

/-- A general register by its place relative to the current window, and back. -/
def Thread.relReg (t : Thread) (p : Nat) : Nat := if 64 ≤ p ∧ p < 232 then 64 + (p - 64 + 168 - t.cwb) % 168 else p
def Thread.absReg (t : Thread) (r : Nat) : Nat := if 64 ≤ r ∧ r < 232 then 64 + (r - 64 + t.cwb) % 168 else r

/-- `spillw` (R227). -/
def spillWindow (th : Nat) : Act Unit := do
  let t := (← get).threadAt th
  if t.res ≤ 1 then pure ()
  else do
    waitFrameOps th
    waitWindow th (t.res - 1)
    putWindow th (t.res - 1) (some 0)
    modify fun s => s.modThreadAt th fun t => { t with res := t.res - 1, depth := t.depth + 1 }

/-- `fillw` (R227). -/
def fillWindow (th : Nat) : Act Unit := do
  let t := (← get).threadAt th
  if t.depth = 0 ∨ 4 ≤ t.res then pure ()
  else do
    waitFrameOps th
    waitWindow th t.res
    match t.winFrames[t.res]? with
    | some f => do
      let ws ← frameReads th (f.at_ + 1) (some 0) 40
      modify fun s => s.modThreadAt th fun t =>
        let t := putRegs t t.res 0 ws
        { t with res := t.res + 1, depth := t.depth - 1 }
    | none => pure ()

/-! ## Pushes (R226) -/

/-- Frame-overflow when a push would carry FSP to `fsp'` past the capacity. -/
def pushCheck (t : Thread) (fsp' : Nat) : Act Unit := trapIf (t.frameCap < fsp') (trFrameOverflow fsp')

/-- Push a frame: its header and the words that a delimiter has above it, then FSP. -/
def pushFrame (th : Nat) (f : Frame) (body : List Word := []) : Act Unit := do
  let t := (← get).threadAt th
  pushCheck t (f.at_ + f.size)
  frameWrites th f.at_ none (f.header (linkTo f.at_ t.frames) :: body)
  modify fun s => s.modThreadAt th fun t =>
    { t with frames := f :: t.frames, fsp := f.at_ + f.size }

/-- Frames of an image read from its words: base word number, words, frames found so far (top first). -/
def parseFrames (at_ : Nat) : Nat → List Word → List Frame → List Frame
  | 0, _, acc => acc
  | fuel + 1, ws, acc =>
    match ws with
    | [] => acc
    | h :: _ =>
      let n := hdrSize h
      if n = 0 then acc
      else parseFrames (at_ + n) fuel (ws.drop n) (⟨at_, hdrKind h, hdrTag h, hdrLoc h, n⟩ :: acc)

/-! ## Slice objects (R233) -/

def handleOf (addr : Nat) (gen : Nat) : Word := BitVec.ofNat 64 (addr % 2 ^ 57 / 64 * 64 + gen % 64)
def handleAddr (h : Word) : Nat := h.toNat % 2 ^ 57 / 64 * 64
def handleGen (h : Word) : Nat := h.toNat % 64

/-- The lowest free run of n granules of a heap (log entry 15). -/
def heapFit (objs : List HeapObj) (total n : Nat) : Option Nat :=
  let cands := 0 :: (objs.map fun o => o.off + o.len)
  (cands.filter fun c => c + n ≤ total &&
    objs.all fun o => o.off + o.len ≤ c || c + n ≤ o.off).foldl
      (fun (m : Option Nat) c => match m with | none => some c | some x => some (min x c)) none

/-- A domain in the state has neither ended nor been killed. -/
def DomState.live : DomState → Bool
  | .ended | .killed => false
  | _ => true

/-- A heap holds an object at an address. -/
def Domain.holds (d : Domain) (addr : Nat) : Bool :=
  decide (d.heapBase.toNat ≤ addr) && d.heap.any fun o => d.heapBase.toNat + 64 * o.off == addr

/-- The live domain of a package whose heap holds an object at an address: one of the asking thread's own space
before one of another (R234). -/
def State.heapOwner (s : State) (pkg spn addr : Nat) : Option (Nat × Domain) :=
  let own (p : Domain → Bool) : Option (Nat × Domain) :=
    s.doms.find? fun (k, d) => k / 2 ^ 32 == pkg && d.st.live && d.holds addr && p d
  (own fun d => d.spn == spn).orElse fun _ => own fun _ => true

/-- A thread's access to an object: in the space of its owner. -/
def State.heapAgent (s : State) (th addr : Nat) : Agent :=
  let ag := s.agentOf th
  match s.heapOwner (pkgOf (th / 4)) ag.spn addr with
  | some (_, d) => { ag with spn := d.spn }
  | none => ag

/-- A thread's access to an object on the heap of a domain. -/
def State.heapAgentOf (s : State) (th : Nat) (d : Domain) : Agent := { s.agentOf th with spn := d.spn }

/-- Read an object's word. -/
def objRead (th addr i : Nat) : Act Word := do
  loadWord ((← get).heapAgent th addr) (BitVec.ofNat 64 (addr + 8 * i))

def objReads (th addr : Nat) : Nat → Nat → Act (List Word)
  | _, 0 => pure []
  | i, n + 1 => do
    let x ← objRead th addr i
    pure (x :: (← objReads th addr (i + 1) n))

/-- Write an object's words from its first: every place is found before one is written (R232). -/
def objWrites (ag : Agent) (addr : Nat) (ws : List Word) : Act Unit := do
  let ps ← (List.range ws.length).mapM fun i => resolve ag .heap false (BitVec.ofNat 64 (addr + 8 * i)) 8
  (List.zip ps ws).forM fun (p, w) => placeWrite ag p (leBytes 8 w.toNat)

/-- The live object that a handle names, with its word 0, or slice trap 4 (R234, R235). -/
def sliceOf (th : Nat) (h : Word) : Act (Nat × Word) := do
  let s ← get
  let addr := handleAddr h
  trapIf (h == 0 || (s.heapOwner (pkgOf (th / 4)) (s.threadAt th).spn addr).isNone) (trSlice 4)
  let w0 ← objRead th addr 0
  trapIf (!w0.getLsbD 6 || w0.toNat % 64 != handleGen h) (trSlice 4)
  pure (addr, w0)

/-- Free an object: its generation advances (R235). -/
def freeSlice (th addr : Nat) : Act Unit := do
  let w0 ← objRead th addr 0
  let w0 := BitVec.ofNat 64 (w0.toNat / 128 * 128 + (w0.toNat % 64 + 1) % 64)
  heapStore ((← get).heapAgent th addr) (BitVec.ofNat 64 addr) w0
  modify fun s => match s.heapOwner (pkgOf (th / 4)) (s.threadAt th).spn addr with
    | some (k, d) => s.setDomAt k { d with
        heap := d.heap.filter fun o => d.heapBase.toNat + 64 * o.off != addr }
    | none => s

/-- Build an object from an image: on the heap of the thread's domain, in its space (R233), the words, the handle; none
when the heap has no room. -/
def buildSlice (th : Nat) (tag : BitVec 16) (orig : Nat) (resume : Pc) (nfr gd : Nat)
    (loops image : List Word) : Act (Option Word) := do
  let s ← get
  match s.domOfThread th with
  | none => pure none
  | some (dk, d) =>
    let gran := (8 * (20 + image.length) + 63) / 64
    match heapFit d.heap (d.heapBytes / 64) gran with
    | none => pure none
    | some off => do
      let addr := d.heapBase.toNat + 64 * off
      let ag := s.heapAgentOf th d
      let old ← loadWord ag (BitVec.ofNat 64 addr)
      let gen := old.toNat % 64
      let w0 := BitVec.ofNat 64 (gen + 2 ^ 6 + 2 ^ 16 * tag.toNat + 2 ^ 32 * image.length)
      objWrites ag addr ([w0, BitVec.ofNat 64 orig,
        BitVec.ofNat 64 (dk % 2 ^ 32 + 2 ^ 32 * d.level), resume.setWidth 64,
        BitVec.ofNat 64 (2 ^ 32 * nfr), BitVec.ofNat 64 gd, 0, 0] ++ loops ++ image)
      modify fun s => s.modDomAt dk fun d => { d with heap := ⟨off, gran, gen⟩ :: d.heap }
      pure (some (handleOf addr gen))

/-- The words of frames from the lowest of `fs` (given top first) to the top of the store, with the
window words of resident frames taken from the registers. -/
def liftWords (th orig : Nat) (lifted : List Frame) : Act (List Word) := do
  let s ← get
  let t := s.threadAt th
  let raw ← frameReads th orig none (t.fsp - orig)
  let wins := lifted.filter fun f => f.kind == .window
  pure ((List.range (min wins.length t.res)).foldl (fun ws b =>
    match wins[b]? with
    | some f =>
      let lo := f.at_ + 1 - orig
      ws.take lo ++ t.winRegs b 40 ++ ws.drop (lo + 40)
    | none => ws) raw)

/-- Rebase the pointers of an image (R234): words 1 to SIZE - 1 of each window frame whose selector
is 5 and whose offset lies in the image. `left` counts the words of the present frame still to come,
`win` says that it is a window frame. -/
def rebase (orig n : Nat) (d : Int) : Nat → Bool → List Word → List Word
  | _, _, [] => []
  | 0, _, h :: ws => h :: rebase orig n d (hdrSize h - 1) (hdrKind h == .window) ws
  | left + 1, win, w :: ws =>
    (if win ∧ selector w = 5 ∧ 8 * orig ≤ low60 w ∧ low60 w < 8 * (orig + n) then addrAdd w d else w) ::
      rebase orig n d left win ws

/-- The nearest mark delimiter with a tag, by the header words read down from the top of the store (R222, R232). -/
def findMark (th : Nat) (tag : BitVec 16) : Nat → List Frame → Act (Option Nat)
  | _, [] => pure none
  | i, f :: fs => do
    let h ← frameRead th f.at_
    if hdrKind h = .mark ∧ hdrTag h = tag then pure (some i) else findMark th tag (i + 1) fs

/-- `cut` (R232). -/
def cutAct (tag : BitVec 16) (d : GReg) (succ : Pc) : Act Pc := do
  let s ← get
  let th := s.tk
  let t := s.th
  match ← findMark th tag 0 t.frames with
  | none => stopTrap (trSlice 1)
  | some i => do
    let lifted := t.frames.take i
    let wins := lifted.filter fun f => f.kind == .window
    let n := wins.length
    trapIf (n == 0) (trSlice 2)
    waitFrameOps th
    waitWindows th
    match t.frames[i]?, lifted.getLast?, wins.getLast? with
    | some D, some low, some lowWin => do
      let image ← liftWords th low.at_ lifted
      let below := t.frames.drop (i + 1)
      let ins := (image.drop (lowWin.at_ + 1 - low.at_)).take 8
      let wordsM ← match (below.filter fun f => f.kind == .window).head? with
        | some M => if n < t.res then pure [] else frameReads th (M.at_ + 1) none 40
        | none => pure []
      let body ← frameReads th (D.at_ + 1) none 13
      let some h ← buildSlice th tag low.at_ succ n d.toNat t.loopWords image
        | stopTrap (trSlice 3)
      modify fun s => s.modTh fun t =>
        let res := t.res
        let t := t.winBack n
        let t := putRegs t 0 0 wordsM
        let t := putRegs t 0 40 ins
        let t := t.setLoopWords (body.drop 1)
        let t := { t with
          frames := below, fsp := D.at_
          res := if n < res then res - n else 1
          depth := if n < res then t.depth else t.depth - (n - res) - 1 }
        t.setG d h
      pure ((body.getD 0 0).setWidth 48)
    | _, _, _ => stopTrap (trSlice 1)

/-- The register that a slice's word 5 names in the window that the graft makes current, where no window holds it: a
pending load may still have to write it (spec/03 R34). -/
def Thread.destPending (t : Thread) (w5 : Word) : Bool :=
  let r := w5.toNat % 64
  r != 0 && decide (r < 16) && t.regPending [r]

/-- `graft` (R234). The count GRAFTING rises and falls within this one step (log entry 16). -/
def graftAct (a : GReg) (succ : Pc) : Act Pc := do
  let s ← get
  let th := s.tk
  let t := s.th
  let (addr, w0) ← sliceOf th (t.g a)
  let nw := w0.toNat / 2 ^ 32
  let hd ← objReads th addr 0 20
  let raw ← objReads th addr 20 nw
  let orig := (hd.getD 1 0).toNat
  let nfr := (hd.getD 4 0).toNat / 2 ^ 32
  pushCheck t (t.fsp + 2 + nw)
  waitFrameOps th
  waitWindows th
  if t.destPending (hd.getD 5 0) then stopWait
  let base := t.fsp + 2
  let img := rebase orig nw (8 * ((base : Int) - orig)) 0 false raw
  let img := match img with
    | h0 :: rest => BitVec.ofNat 64 (h0.toNat - h0.toNat / 2 ^ 30 % 2 ^ 16 * 2 ^ 30 + 2 ^ 30 * 2) :: rest
    | [] => []
  let delim : Frame := { at_ := t.fsp, kind := .graft, size := 2 }
  let copies := parseFrames base nw img []
  frameWrites th t.fsp none [delim.header (linkTo t.fsp t.frames), succ.setWidth 64]
  frameWrites th base none img
  if nfr = 1 then (if t.res = 4 then putWindow th 3 else pure ())
  else (List.range t.res).forM (putWindow th ·)
  let topWords := match copies.find? fun f => f.kind == .window with
    | some f => (img.drop (f.at_ + 1 - base)).take 40
    | none => []
  modify fun s => s.modTh fun t =>
    let res := t.res
    let t := { t with frames := copies ++ delim :: t.frames, fsp := base + nw }
    let t := t.winFwd
    let t := putRegs t 0 0 topWords
    let t :=
      if nfr = 1 then
        (if res = 4 then { t with depth := t.depth + 1 } else { t with res := res + 1 })
      else { t with res := 1, depth := t.depth + res + nfr - 1 }
    let t := t.setLoopWords (hd.drop 8)
    t.setG (BitVec.ofNat 6 (hd.getD 5 0).toNat) 0
  pure ((hd.getD 3 0).setWidth 48)

/-- `sdrop` (R235): the free waits for grafts in progress. -/
def sdropAct (a : GReg) : Act Next := do
  let s ← get
  let th := s.tk
  let t := s.th
  let finish (addr : Nat) : Act Next := do
    let w4 ← objRead th addr 4
    if w4.toNat % 2 ^ 32 ≠ 0 then stopWait
    else do
      freeSlice th addr
      modify fun s => s.modTh fun t => { t with sdropped := none }
      pure .fall
  match t.sdropped with
  | some ad => finish ad.toNat
  | none =>
    if t.g a = 0 then pure .fall
    else do
      let (addr, w0) ← sliceOf th (t.g a)
      let w2 ← objRead th addr 2
      trapIf (w2.toNat % 2 ^ 32 != t.dom) (trSlice 5)
      heapStore (s.heapAgent th addr) (BitVec.ofNat 64 addr) (w0 &&& ~~~(0x40 : Word))
      modify fun s => s.modTh fun t => { t with sdropped := some (BitVec.ofNat 64 addr) }
      finish addr

/-- `frl` (R236). -/
def frlAct (d a : GReg) : Act Next := do
  let s ← get
  let th := s.tk
  let t := s.th
  let n := (t.g a).toNat
  trapIf (a != 0 && decide (4095 < n)) (trSlice 3)
  match t.frames with
  | [] => stopTrap (trSlice 6)
  | F :: rest => do
    trapIf (F.kind != .window) (trSlice 6)
    if a = 0 then pure ()
    else do
      pushCheck t (F.at_ + 41 + n)
      waitFrameOps th
      let F' : Frame := { F with loc := n, size := 41 + n }
      frameWrite th F.at_ (F'.header (linkTo F.at_ rest))
      modify fun s => s.modTh fun t => { t with frames := F' :: rest, fsp := F.at_ + 41 + n }
    onThread fun t => t.setG d (BitVec.ofNat 64 (5 * 2 ^ 60 + 8 * (F.at_ + 41)))

/-- `mark` (R231). -/
def markAct (tag : BitVec 16) (off : BitVec 32) : Act Next := do
  let s ← get
  let t := s.th
  let resume := t.pc + BitVec.ofInt 48 (4 * off.toInt)
  trapIf (!legalStart resume) (trMisaligned (resume.setWidth 64))
  pushFrame s.tk { at_ := t.fsp, kind := .mark, tag := tag, size := 14 } (resume.setWidth 64 :: t.loopWords)
  pure .fall

/-! ## The instructions of major 0x6C (R230) -/

def execMark (gd : Guard) (tag : BitVec 16) (off : BitVec 32) (s : State) : Outcome :=
  issue (.mark gd tag off) (markAct tag off) s

def execCut (gd : Guard) (tag : BitVec 16) (d : GReg) (s : State) : Outcome :=
  issue (.cut gd tag d) (untouched (whole s.tk (do pure (.jump (← cutAct tag d (successor s.th.pc 8)))))) s

def execGraft (gd : Guard) (a : GReg) (s : State) : Outcome :=
  issue (.graft gd a) (untouched (whole s.tk (do pure (.jump (← graftAct a (successor s.th.pc 8)))))) s

def execSdrop (gd : Guard) (a : GReg) (s : State) : Outcome := issue (.sdrop gd a) (sdropAct a) s

def execFrl (gd : Guard) (d a : GReg) (s : State) : Outcome := issue (.frl gd d a) (frlAct d a) s

def execSpillw (gd : Guard) (s : State) : Outcome :=
  issue (.spillw gd) (do spillWindow (← get).tk; pure .fall) s

def execFillw (gd : Guard) (s : State) : Outcome :=
  issue (.fillw gd) (do fillWindow (← get).tk; pure .fall) s

end Sys2Proof.Machine
end

