-- ==== Sys2Proof/Machine/Save.lean ====
section
/-! DEFINITION. The paired save image, the scalar part and the held list of a context image, and the
loading of each back (spec/16 R275-R277, spec/19 R309, R321). -/

namespace Sys2Proof.Machine

/-! ## Accumulators and check shadows (spec/19 R299, R309) -/

def Core.accAt (c : Core) (n i j : Nat) : BitVec 32 := tgetD c.acc (64 * n + 8 * i + j) 0

/-- The shadow that a restore sets from the values of an 8 by 8 tile (R309). -/
def shadowFrom (v : Nat → Nat → BitVec 32) : Shadow :=
  let r8 := List.range 8
  { rs := r8.map fun i => (i, toF32 (sumNums false (r8.map fun j => f32 (v i j))))
    cs := r8.map fun j => (j, toF32 (sumNums false (r8.map fun i => f32 (v i j))))
    mr := r8.map fun i => (i, toF32Up (sumNums false (r8.map fun j => (f32 (v i j)).abs)))
    mc := r8.map fun j => (j, toF32Up (sumNums false (r8.map fun i => (f32 (v i j)).abs)))
    xf := false }

/-- Every accumulator's shadow, and BUF's, set from the restored values. -/
def Core.freshShadows (c : Core) : Core :=
  { c with
    shadow := (List.range 16).map fun n => (n, shadowFrom (c.accAt n))
    stage := { c.stage with
      bufShadow := if c.stage.bufState = .scores then
          (List.range 4).map fun g => (g, shadowFrom fun h j => tgetD c.stage.buf (32 * h + 8 * g + j) 0)
        else [] } }

/-- The engine owner's state at the bind of a fresh record (R284, R299). -/
def Core.resetEngine (c : Core) : Core :=
  { c with rings := [], kents := [], kgen := [], acc := [], shadow := [], stage := {}, lxcIssued := 32, errs := [] }

/-! ## Fields -/

def Tag.bits (t : Tag) : Nat := 2 ^ 7 * t.k.toNat + 2 ^ 3 * t.gen.toNat + t.o.toNat
def tagOf (n : Nat) : Tag := ⟨BitVec.ofNat 6 (n / 2 ^ 7), BitVec.ofNat 4 (n / 2 ^ 3), BitVec.ofNat 3 n⟩
def tagHalf (t : Option Tag) : Nat := match t with | some t => 2 ^ 15 + t.bits | none => 0
def tagOfHalf (n : Nat) : Option Tag := if n / 2 ^ 15 % 2 = 1 then some (tagOf (n % 2 ^ 13)) else none

/-- Four halfwords of a word. -/
def halves (f : Nat → Nat) : Word :=
  BitVec.ofNat 64 ((List.range 4).foldl (fun a i => a + 2 ^ (16 * i) * (f i % 2 ^ 16)) 0)
def half (w : Word) (i : Nat) : Nat := w.toNat / 2 ^ (16 * i) % 2 ^ 16

def words2 (a b : BitVec 32) : Word := BitVec.ofNat 64 (a.toNat + 2 ^ 32 * b.toNat)
def loHalf (w : Word) : BitVec 32 := w.setWidth 32
def hiHalf (w : Word) : BitVec 32 := (w >>> 32).setWidth 32

def Bind.word0 (b : Bind) : Word :=
  BitVec.ofNat 64 (1 + 2 * b.kind + 2 ^ 8 * b.ring + 2 ^ 16 * b.track + 2 ^ 24 * icode 5 b.stride +
    2 ^ 32 * b.j)

def bindOf (w0 w1 w2 : Word) : Option Bind :=
  let n := w0.toNat
  if n % 2 = 0 then none
  else some { kind := n / 2 % 4, ring := n / 2 ^ 8 % 8, track := n / 2 ^ 16 % 32,
              stride := sval 5 (n / 2 ^ 24), j := n / 2 ^ 32 % 2 ^ 8, cursor := w1, cstride := w2 }

def Ring.word0 (r : Ring) : Word :=
  BitVec.ofNat 64 (r.base + 2 ^ 15 * r.sb + 2 ^ 23 * r.ns + 2 ^ 30 * r.pool.toNat + 2 ^ 31 * r.kf +
    2 ^ 37 * r.pp + 2 ^ 43 * r.cp + 2 ^ 49 * r.fc)

def ringOf (w : Word) (tags : Tbl Tag) : Ring :=
  let n := w.toNat
  ⟨n % 2 ^ 15, n / 2 ^ 15 % 2 ^ 8, n / 2 ^ 23 % 2 ^ 7, n / 2 ^ 30 % 2 == 1, n / 2 ^ 31 % 2 ^ 6,
    n / 2 ^ 37 % 2 ^ 6, n / 2 ^ 43 % 2 ^ 6, n / 2 ^ 49 % 2 ^ 7, tags⟩

def Core.ring (c : Core) (q : Nat) : Ring := tgetD c.rings q {}
def Core.setRing (c : Core) (q : Nat) (r : Ring) : Core :=
  { c with rings := tput c.rings q r, errs := tdel c.errs (qErr q) }

/-- The entries of a scale register, and its generation (spec/18 R284). -/
def Core.k (c : Core) (n : Nat) : BitVec 256 := tgetD c.kents n kReset
def Core.kg (c : Core) (n : Nat) : BitVec 4 := tgetD c.kgen n 0

/-- Entries e to e + n - 1 of a scale register are written: those of its code words that they fill take a new code
(spec/22 R350). -/
def Core.putK (c : Core) (k e n : Nat) (v : BitVec 256) : Core :=
  { c with
    kents := tput c.kents k v
    errs := c.errs.filter fun x =>
      !((List.range 4).any fun w => x.1 == kErr k w && decide (e ≤ 8 * w) && decide (8 * w + 8 ≤ e + n)) }

/-- The `mchk` status word (spec/19 R313). -/
def Stage.status (g : Stage) : Word :=
  BitVec.ofNat 64 (g.cor % 2 ^ 16 + 2 ^ 16 * (g.unc % 2 ^ 16) + 2 ^ 32 * g.ctol.toNat)

def bufCode : BufState → Nat
  | .empty => 0 | .scores => 1 | .probs => 2
def bufOf : Nat → BufState
  | 1 => .scores | 2 => .probs | _ => .empty

/-! ## The paired save image (R277) -/

/-- A word of the stage state, by offset from 0x2680 (spec/19 R321). -/
def stageWord (g : Stage) (o : Nat) : Word :=
  if o = 0 then g.lxc
  else if o = 0x08 then BitVec.ofNat 64 (g.mult.toNat + 2 ^ 32 * bufCode g.bufState)
  else if o = 0x10 then g.status
  else if o = 0x18 then BitVec.ofNat 64 g.zcnt
  else if o < 0xA0 then
    let h := (o - 0x20) / 16
    if o % 16 = 0 then words2 (tgetD g.max h 0xFF800000) (tgetD g.hi h 0)
    else words2 (tgetD g.lo h 0) 0
  else if o < 0x4A0 then
    let x := o - 0xA0
    match g.bufState with
    | .empty => 0
    | .scores => words2 (tgetD g.buf (x / 4) 0) (tgetD g.buf (x / 4 + 1) 0)
    | .probs =>
      if x < 256 then BitVec.ofNat 64 (leVal ((List.range 8).map fun i =>
        (tgetD g.buf (x + i) 0).setWidth 8))
      else 0
  else if o < 0x8A0 then
    BitVec.ofNat 64 (leVal ((List.range 8).map fun i => tgetD g.q (o - 0x4A0 + i) 0))
  else if o < 0x8C0 then
    BitVec.ofNat 64 (leVal ((List.range 8).map fun i => tgetD g.qs (o - 0x8A0 + i) 0))
  else 0

/-- The word at offset o of the image of a thread; `v` and `e` say which parts are written. -/
def pairWord (t : Thread) (c : Core) (v e : Bool) (o : Nat) : Word :=
  if o < 0x800 then (if v then ((t.vr (BitVec.ofNat 5 (o / 64))).data >>> (8 * (o % 64))).setWidth 64 else 0)
  else if o < 0x840 then
    (if v then halves fun i => tagHalf (t.vr (BitVec.ofNat 5 ((o - 0x800) / 2 + i))).tag else 0)
  else if o < 0x8A0 then t.loopWords.getD ((o - 0x840) / 8) 0
  else if o = 0x8A0 then t.cls
  else if o < 0x8C0 then 0
  else if o < 0x9C0 then
    (if v then
      match tget t.binds ((o - 0x8C0) / 32) with
      | none => 0
      | some b => match (o - 0x8C0) % 32 / 8 with
        | 0 => b.word0 | 1 => b.cursor | 2 => b.cstride | _ => 0
     else 0)
  else if o < 0x9E0 then
    (if e then BitVec.ofNat 64 ((List.range 16).foldl
      (fun a i => a + 2 ^ (4 * i) * (c.kg ((o - 0x9C0) * 2 + i)).toNat) 0) else 0)
  else if o = 0x9E0 then BitVec.ofNat 64 (v.toNat + 2 * e.toNat)
  else if o < 0xA00 then 0
  else if !e then 0
  else if o < 0x1200 then ((c.k ((o - 0xA00) / 32)) >>> (8 * ((o - 0xA00) % 32))).setWidth 64
  else if o < 0x2200 then
    let x := (o - 0x1200) / 4
    words2 (tgetD c.acc x 0) (tgetD c.acc (x + 1) 0)
  else if o < 0x2280 then (if o % 16 = 0 then (c.ring ((o - 0x2200) / 16)).word0 else 0)
  else if o < 0x2680 then
    let r := c.ring ((o - 0x2280) / 128)
    halves fun i => tagHalf (tget r.tags ((o - 0x2280) % 128 / 2 + i))
  else stageWord c.stage (o - 0x2680)

def pairWords : Nat := 1536

/-- Every vector register is written. -/
def Thread.setAllV (t : Thread) (l : Tbl VReg) : Thread :=
  { t with v := l, vlive := true, errs := t.errs.filter fun e => !((List.range 32).any fun n => isVErr n e.1) }

/-- The vector part loaded from an image's words (spec/08 R133). -/
def loadVectorPart (ws : List Word) (t : Thread) : Thread :=
  t.setAllV <| (List.range 32).map fun n =>
    let d := ((ws.drop (8 * n)).take 8).foldr (fun (w : Word) (a : Nat) => w.toNat + 2 ^ 64 * a) 0
    (n, { data := BitVec.ofNat 512 d,
          tag := tagOfHalf (half (ws.getD (0x100 + n / 4) 0) (n % 4)) : VReg })

/-- Every vector register is written zero, untagged, every stream is unbound, and no vector state is live (R133). -/
def Thread.clearV (t : Thread) : Thread := { t.setAllV [] with binds := [], vlive := false }

/-- The bindings that an image records. -/
def imageBinds (ws : List Word) : Tbl Bind :=
  (List.range 8).filterMap fun m =>
    let w := ws.drop (0x118 + 4 * m)
    (bindOf (w.getD 0 0) (w.getD 1 0) (w.getD 2 0)).map fun b => (m, b)

/-- A table from the words of an image, two FP32 codes a word, without the zeros. -/
def tblF32 (ws : List Word) : Tbl (BitVec 32) :=
  ((ws.zipIdx).flatMap fun (w, i) => [(2 * i, loHalf w), (2 * i + 1, hiHalf w)]).filter fun e => e.2 != 0

def tblBytes (ws : List Word) : Tbl (BitVec 8) :=
  ((ws.flatMap fun w => leBytes 8 w.toNat).zipIdx.map fun (b, i) => (i, b)).filter fun e => e.2 != 0

/-- The stage state from the words at 0x2680. -/
def loadStage (ws : List Word) : Stage :=
  let w (o : Nat) : Word := ws.getD (o / 8) 0
  let st := bufOf ((w 8).toNat / 2 ^ 32 % 4)
  let bufw := (ws.drop (0xA0 / 8)).take 128
  let hs := List.range 8
  { lxc := w 0
    mult := loHalf (w 8)
    max := hs.map fun h => (h, loHalf (w (0x20 + 16 * h)))
    hi := hs.map fun h => (h, hiHalf (w (0x20 + 16 * h)))
    lo := hs.map fun h => (h, loHalf (w (0x28 + 16 * h)))
    zcnt := (loHalf (w 0x18)).toNat
    bufState := st
    buf := match st with
      | .empty => []
      | .scores => tblF32 bufw
      | .probs => (tblBytes (bufw.take 32)).map fun (i, b) => (i, b.setWidth 32)
    bufShadow := []
    q := tblBytes ((ws.drop (0x4A0 / 8)).take 128)
    qs := tblBytes ((ws.drop (0x8A0 / 8)).take 4)
    ctol := hiHalf (w 0x10)
    cor := half (w 0x10) 0
    unc := half (w 0x10) 1 }

/-- The engine part loaded from an image's words. -/
def loadEnginePart (ws : List Word) (c : Core) : Core :=
  let c := { c with
    kgen := (List.range 64).map fun n =>
      (n, BitVec.ofNat 4 ((ws.getD (0x138 + n / 16) 0).toNat / 2 ^ (4 * (n % 16))))
    kents := (List.range 64).map fun n =>
      (n, BitVec.ofNat 256 (((ws.drop (0x140 + 4 * n)).take 4).foldr (fun (w : Word) (a : Nat) => w.toNat + 2 ^ 64 * a) 0))
    acc := tblF32 ((ws.drop 0x240).take 512)
    rings := (List.range 8).map fun q =>
      (q, ringOf (ws.getD (0x440 + 2 * q) 0) ((List.range 64).filterMap fun sl =>
        (tagOfHalf (half (ws.getD (0x450 + 16 * q + sl / 4) 0) (sl % 4))).map fun t => (sl, t)))
    stage := loadStage (ws.drop 0x4D0) }
  { c.freshShadows with lxcIssued := c.stage.lxc, errs := [] }

/-! ## The scalar part (R276) -/

/-- What a context image records beside the state of the thread. -/
structure SaveInfo where
  recAddr : Word
  claims : List Nat
  heads : List (Nat × Nat)
  /-- RES and DEPTH as they stood before the spills. -/
  wst : Word
  held : List Op
  deriving DecidableEq, Repr

def futureWords (f : Future) : List Word :=
  [BitVec.ofNat 64 f.n,
   BitVec.ofNat 64 (f.c.toNat + 2 * (match f.eng with | .ld => 0 | .ce => 1 | .te => 2 | .me => 3) +
     8 * f.v.toNat + 16 * (if f.st = .faulted then 1 else 0)),
   f.faddr]

/-- The scalar part, words 0-255. -/
def scalarWords (t : Thread) (i : SaveInfo) : List Word :=
  let z (n : Nat) : List Word := List.replicate n 0
  let dbl := t.dbl.getD (0, 0, 0)
  let inbox := t.rq.take 32
  let tl (e : Eng) : List Word := [BitVec.ofNat 64 (t.tl e).last, BitVec.ofNat 64 (t.tl e).cur]
  [i.recAddr,
   BitVec.ofNat 64 (t.inTrap.toNat + 2 * t.delivered.isSome.toNat + 4 * t.dbl.isSome.toNat +
     2 ^ 8 * inbox.length),
   i.wst, t.rngs.setWidth 64, t.tvec, t.tpc, t.tcause, t.tval,
   (t.delivered.map fun d => d.addr).getD 0, dbl.1, dbl.2.1, dbl.2.2] ++
  (List.range 15).map (fun n => tgetD t.regs (n + 1) 0) ++
  [BitVec.ofNat 64 (i.claims.foldl (fun a n => a + 2 ^ n) 0)] ++
  (List.range 7).map (fun n => tgetD t.p n 0) ++
  [BitVec.ofNat 64 t.fsp] ++ tl .ld ++ tl .ce ++ tl .te ++ tl .me ++
  (List.range 8).map (fun k => halves fun j => tgetD i.heads (4 * k + j) 0) ++
  (List.range 16).flatMap (fun n => futureWords (tgetD t.f n {})) ++
  (List.range 8).map (fun k => tgetD t.regs (t.winPhys 0 (40 + k)) 0) ++ z 4 ++
  (List.range 48).map (fun k => tgetD t.regs (272 + k) 0) ++
  (inbox.flatMap fun x => [x.tok, x.src ||| BitVec.ofNat 64 x.bounce.toNat]) ++
  z (64 - 2 * inbox.length) ++ z 32

/-! ## The held list (R276) -/

/-- A recorded binding in 16 bits. -/
def bindHalf (b : Option Tag) : Nat :=
  match b with
  | some t => 2 ^ 15 + 2 ^ 6 * t.gen.toNat + t.k.toNat
  | none => 0
def bindOfHalf (n : Nat) : Option Tag :=
  if n / 2 ^ 15 % 2 = 1 then some ⟨BitVec.ofNat 6 n, BitVec.ofNat 4 (n / 2 ^ 6), 0⟩ else none

def engCode : Eng → Nat
  | .ld => 0 | .ce => 1 | .te => 2 | .me => 3
def engOf : Nat → Eng
  | 0 => .ld | 1 => .ce | 2 => .te | _ => .me

/-- A matrix command other than the two configuration commands records bindings. -/
def Op.recordsBinds (o : Op) : Bool :=
  match o.instr with
  | .mma .. | .mmz .. | .attnS .. | .attnP .. | .attnV .. | .attnF .. | .qabs .. => true
  | _ => false

/-- Entry of a held operation: 16 words. -/
def heldWords (o : Op) : List Word :=
  let w := ((encodeWord o.instr).map fun x => x.2).getD 0
  let args :=
    if o.recordsBinds then
      [halves fun i => bindHalf (o.bindA.getD i none), halves fun i => bindHalf (o.bindB.getD i none)]
    else if o.eng = .ld then o.args.take 1
    else o.args
  [BitVec.ofNat 64 w, BitVec.ofNat 64 (w / 2 ^ 64), BitVec.ofNat 64 o.num,
   BitVec.ofNat 64 (engCode o.eng + 2 ^ 4 * o.fd.toNat + 2 ^ 8 * o.rest.toNat)] ++
  (args.take 12) ++ List.replicate (12 - (args.take 12).length) 0

/-- The held list: 256 words from 0x3800. -/
def heldListWords (l : List Op) : List Word :=
  let l := l.take 15
  [BitVec.ofNat 64 l.length] ++ List.replicate 7 0 ++ l.flatMap heldWords ++
    List.replicate (248 - 16 * l.length) 0

/-- An operation from its entry; none where the words are no command. -/
def heldOp (th : Nat) (hp : List (Nat × Nat × Pc × Word × Nat)) (ws : List Word) : Option Op :=
  let w0 := ws.getD 0 0
  let w := w0.toNat + 2 ^ 64 * (ws.getD 1 0).toNat
  let w3 := (ws.getD 3 0).toNat
  match decodeWord (w % 4) w with
  | .error _ => none
  | .ok i =>
    let e := engOf (w3 % 4)
    let num := (ws.getD 2 0).toNat
    let extra := (hp.find? fun x => x.1 == engCode e && x.2.1 == num).map fun x => x.2.2
    let fl := (extra.map (·.2.2)).getD 0
    let o : Op := { num := num, eng := e, th := th, instr := i, fd := BitVec.ofNat 4 (w3 / 2 ^ 4)
                    pc := (extra.map (·.1)).getD 0, rest := w3 / 2 ^ 8 % 2 == 1, args := ws.drop 4
                    mask := (extra.map (·.2.1)).getD 0, frame := fl % 2 == 1, noSplit := fl / 2 % 2 == 1
                    served := fl / 4 }
    some (if o.recordsBinds then { o with
        args := []
        bindA := (List.range 4).map fun k => bindOfHalf (half (ws.getD 4 0) k)
        bindB := (List.range 4).map fun k => bindOfHalf (half (ws.getD 5 0) k) }
      else o)

/-! ## Loading the scalar part -/

/-- The state of a future that an image records: pending when the held list names its operation. -/
def loadFuture (held : List Op) (a b c : Word) : Future :=
  let n := a.toNat
  let e := engOf (b.toNat / 2 % 4)
  let v := b.getLsbD 3
  ⟨v, e, b.getLsbD 0, n,
    if b.getLsbD 4 then .faulted
    else if v ∧ held.any fun o => o.eng == e && o.num == n then .pending else .done, c⟩

/-- Numbers above CUR that have ended: those up to LAST that no held operation keeps. -/
def loadTimeline (held : List Op) (e : Eng) (last cur : Word) : Timeline :=
  let l := last.toNat
  let c := cur.toNat
  ⟨l, c, ((List.range (l - c)).map fun i => c + 1 + i).filter fun n =>
    !(held.any fun o => o.eng == e && o.num == n)⟩

/-- The thread's registers from words 0-255 of an image, the windows and frames apart. -/
def loadScalar (ws : List Word) (held : List Op) (t : Thread) : Thread :=
  let w (o : Nat) : Word := ws.getD (o / 8) 0
  let flags := w 8
  let rs := (List.range 15).map (fun n => (n + 1, w (0x60 + 8 * n)))
  let tw := (List.range 48).map (fun k => (272 + k, w (0x380 + 8 * k)))
  let regs := (rs ++ tw).foldl (fun r x => tput r x.1 x.2) t.regs
  let nin := flags.toNat / 2 ^ 8 % 2 ^ 8
  { t with
    regs := regs
    inTrap := flags.getLsbD 0
    delivered := if flags.getLsbD 1 then some ⟨w 0x40, 0, 0, false⟩ else none
    rngs := loHalf (w 0x18), tvec := w 0x20, tpc := w 0x28, tcause := w 0x30, tval := w 0x38
    p := (List.range 7).map fun n => (n, w (0xE0 + 8 * n))
    tlLd := loadTimeline held .ld (w 0x120) (w 0x128)
    tlCe := loadTimeline held .ce (w 0x130) (w 0x138)
    tlTe := loadTimeline held .te (w 0x140) (w 0x148)
    tlMe := loadTimeline held .me (w 0x150) (w 0x158)
    f := (List.range 16).map fun n =>
      (n, loadFuture held (w (0x1A0 + 24 * n)) (w (0x1A8 + 24 * n)) (w (0x1B0 + 24 * n)))
    fsp := (w 0x118).toNat
    rq := (List.range nin).map fun i =>
      let x := w (0x508 + 16 * i)
      { tok := w (0x500 + 16 * i), bounce := x.getLsbD 0, src := x &&& ~~~(1 : Word) }
    res := ((w 0x10).toNat % 8), depth := (w 0x10).toNat / 2 ^ 32
    cwb := 120 }

/-- Words of an image in context-area order: scalar part, paired image, held list. -/
def imageWords (t : Thread) (c : Core) (owner : Bool) (i : SaveInfo) : List Word :=
  scalarWords t i ++ (List.range pairWords).map (fun k => pairWord t c true owner (8 * k)) ++
    heldListWords i.held

end Sys2Proof.Machine
end

