-- ==== Sys2Proof/Machine/Records.lean ====
section
/-! DEFINITION. Continuation records as the scheduler keeps them: their words, ready queues, tokens,
supersteps, the end of a thread, suspension (spec/14 R237-R246, R380, spec/15 R247-R262). -/

namespace Sys2Proof.Machine

/-! ## Records (spec/14 R237, R238) -/

def State.recAt (s : State) (k : Nat) : Option RecInfo := tget s.recs k
def State.setRec (s : State) (k : Nat) (r : RecInfo) : State := { s with recs := tput s.recs k r }
def State.modRec (s : State) (k : Nat) (f : RecInfo → RecInfo) : State :=
  match s.recAt k with
  | some r => s.setRec k (f r)
  | none => s

def w0Pc (w : Word) : Pc := w.setWidth 48
def w0E (w : Word) : Bool := w.getLsbD 48
def w0M (w : Word) : Bool := w.getLsbD 49
def w0T (w : Word) : Bool := w.getLsbD 50
def w0S (w : Word) : Bool := w.getLsbD 51
def w0X (w : Word) : Bool := w.getLsbD 52
def w2Dom (w : Word) : Nat := w.toNat % 2 ^ 32
def w2Level (w : Word) : Nat := w.toNat / 2 ^ 32 % 8
def w2Prio (w : Word) : Nat := w.toNat / 2 ^ 35 % 8
def w3Status (w : Word) : Nat := w.toNat / 2 ^ 56
def w3Ovx (w : Word) : Nat := w.toNat / 2 ^ 48 % 2 ^ 8
def w3Ftrk (w : Word) : Nat := w.toNat / 2 ^ 43 % 32
def w3Amode (w : Word) : Nat := w.toNat / 2 ^ 19 % 4
def w3Acl (w : Word) : Nat := w.toNat / 2 ^ 8 % 2 ^ 11
def w3Acore (w : Word) : Nat := w.toNat / 2 ^ 2 % 2 ^ 6

/-- Reserved fields of a record that must be 0 (R242): word 0 bits 63:53, word 2 bits 63:38, word 3 bits
42:21 and 1:0. -/
def recReserved (w0 w2 w3 : Word) : Bool :=
  w0.toNat / 2 ^ 53 != 0 || w2.toNat / 2 ^ 38 != 0 || w3.toNat / 2 ^ 21 % 2 ^ 22 != 0 || w3.toNat % 4 != 0

/-- An agent without a core, for the accesses that the device itself makes for a domain (R249). -/
def deviceAgent (cl spn : Nat) (w : Waiter) : Agent :=
  ⟨pkgOfCluster cl, none, 4 * coreOfCluster cl 0, cl, spn, 0, 0, 0, w⟩

/-- The masked bits of a word are written: charged, with the code word read that it does not make whole. -/
def maskedStore (ag : Agent) (acc : Acc) (addr mask val : Word) : Act Unit := do
  let (key, _) ← translate ag ag.pkg (low60 addr) acc addr
  grant ag key 8
  eccScan ag key 8 (mask == BitVec.allOnes 64)
  modify fun s =>
    let old := BitVec.ofNat 64 (leVal (memReads s.mem key 8))
    s.wrote ((List.range 8).map (key + ·)) (memWrites s.mem key (leBytes 8 ((old &&& ~~~mask) ||| (val &&& mask)).toNat))

/-- A write of the same word. -/
def Waiter.sameWord (pkg spn : Nat) (addr : Word) : Waiter → Bool
  | .recWrite _ th _ n a _ _ => pkgOf (th / 4) == pkg && n == spn && a == addr
  | _ => false

/-- A write joins an earlier one of its word that waits; none when there is no such write. -/
def joinWrite (pkg spn : Nat) (addr : Word) (w : Waiter) (s : State) : Option State :=
  (s.clusters.find? fun (_, c) =>
    (c.fb.any fun (_, e) => e.waiters.any (Waiter.sameWord pkg spn addr)) || c.late.any (Waiter.sameWord pkg spn addr)).map
    fun (cl, c) =>
      match c.fb.find? fun (_, e) => e.waiters.any (Waiter.sameWord pkg spn addr) with
      | some (i, e) => s.setClusterAt cl { c with fb := tput c.fb i { e with waiters := e.waiters ++ [w] } }
      | none => s.setClusterAt cl { c with late := c.late ++ [w] }

/-- A waiter that no entry of the fault buffer holds is kept to be tried again. -/
def keepLate (cl : Nat) (w : Waiter) (s : State) : State :=
  let c := s.clusterAt cl
  if (c.fb.any fun (_, e) => e.waiters.contains w) || c.late.contains w then s
  else s.setClusterAt cl { c with late := c.late ++ [w] }

/-- The scheduler's write of the masked bits of a word, as the access of a thread at a pc, under a space (R380): a
miss posts a message and the write waits for its service, and later writes of the word behind it. An error that it
consumes is reported without a context (log entry 87). The frame mechanism writes a slice heap, whose pages need
grant no W (R233). -/
def writeAs (frame : Bool) (th : Nat) (pc : Pc) (spn : Nat) (addr mask val : Word) (s : State) : State :=
  let pkg := pkgOf (th / 4)
  let cl := clusterOf (th / 4)
  let w := Waiter.recWrite frame th pc spn addr mask val
  match joinWrite pkg spn addr w s with
  | some s' => s'
  | none =>
    match maskedStore ⟨pkg, none, th, cl, spn, 0, pc, 0, w⟩ (if frame then .heap else .store) addr mask val s with
    | .ok _ s' => s'
    | .error (.err e) s' => (reportError s' pkg (some (th / 4)) none e).1
    | .error _ s' => keepLate cl w s'

/-- The same on the device's own account. -/
def schedWrite (cl spn : Nat) (addr mask val : Word) (s : State) : State :=
  writeAs false (4 * coreOfCluster cl 0) 0 spn addr mask val s

/-- Where the accesses to a record are made from: the slot that holds it or that it left last. -/
def RecInfo.writer (r : RecInfo) : Nat :=
  match r.slot with
  | some th => th
  | none => if r.fresh then 4 * coreOfCluster r.cluster 0 else r.lastSlot

/-- The scheduler's write of a record's word for a thread at a pc. -/
def recWrite (r : RecInfo) (pc : Pc) (i : Nat) (mask val : Word) (s : State) : State :=
  writeAs false r.writer pc r.spn (addrAdd r.addr (8 * i)) mask val s

def statusMask : Word := BitVec.ofNat 64 (255 * 2 ^ 56)

/-- STATUS changes, in the scheduler's table and in word 3 (R250, R380). -/
def State.setStatus (s : State) (k st : Nat) (pc : Pc := 0) : State :=
  match s.recAt k with
  | none => s
  | some r =>
    let w := BitVec.ofNat 64 (st * 2 ^ 56)
    let s := s.setRec k { r with status := st, w3 := (r.w3 &&& ~~~statusMask) ||| w }
    recWrite r pc 3 statusMask w s

/-! ## Domains (spec/15 R247, R251) -/

def DomState.code : DomState → Nat
  | .running => 1 | .draining => 2 | .saved => 3 | .rollingBack => 4 | .ended => 5 | .killed => 6

/-- The placement of a domain: whether it has a core of its package (R247). -/
def Domain.placed (d : Domain) (core : Nat) : Bool :=
  let n := coreIn core
  match d.level with
  | 1 => n == d.home
  | 2 | 3 => n / 64 == d.home
  | 4 => n / 64 / Config.clustersPerDie == d.home
  | _ => true

/-- The lowest cluster of the placement, within the package. -/
def Domain.firstCluster (d : Domain) : Nat :=
  match d.level with
  | 1 => d.home / 64
  | 2 | 3 => d.home
  | 4 => d.home * Config.clustersPerDie
  | _ => 0

/-- Cores of the placement, for the default number of context images (R247). -/
def Domain.placedCores (d : Domain) : Nat :=
  match d.level with
  | 1 => 1
  | 2 | 3 => 64
  | 4 => 64 * Config.clustersPerDie
  | _ => Config.cores

/-- Key of the level-2 domain that a gang forms (spec/15 R261). -/
def gangDom (leader : Nat) : Nat := 2 ^ 64 + leader

/-- A domain's key, its parents' after it. -/
def chainFrom (s : State) : Nat → Nat → List Nat
  | 0, _ => []
  | fuel + 1, k =>
    match s.domAt k with
    | none => []
    | some d => k :: (match d.parent with
      | some p => chainFrom s fuel p
      | none => [])

/-- A domain with all that are above it. -/
def State.chain (s : State) (k : Nat) : List Nat := chainFrom s (s.doms.length + 1) k

/-- The chain of a thread: its gang's domain, its own, its parents' (R258). -/
def State.chainOf (s : State) (th : Nat) : List Nat :=
  let t := s.threadAt th
  let own := s.chain (domKey (pkgOf (th / 4)) t.dom)
  match t.gang with
  | some g => gangDom g.leader :: own
  | none => own

/-- The nearest domain of a level on a chain. -/
def State.nearest (s : State) (chain : List Nat) (level : Nat) : Option Nat :=
  chain.find? fun k => match s.domAt k with
    | some d => d.level == level
    | none => false

def State.domRunning (s : State) (k : Nat) : Bool :=
  match s.domAt k with
  | some d => d.st == .running
  | none => false

/-! ## Ready queues (R252) -/

def State.now (s : State) (pkg : Nat) : Nat := (s.pkgAt pkg).tbase

/-- The core that a record is bound to: where its tracks are (spec/05 R80), or where it last ran, in an armed domain
(R253). -/
def State.ownCore (s : State) (r : RecInfo) : Option Nat :=
  r.pinned.orElse fun _ =>
    if !r.fresh && ((s.domAt (domKey r.pkg r.dom)).map (·.arm)).getD false then some (r.lastSlot / 4) else none

/-- A record joins the ready queue of its cluster (R252). -/
def State.enqueue (s : State) (k : Nat) : State :=
  match s.recAt k with
  | none => s
  | some r =>
    let e : QEnt := { key := k, prio := w2Prio r.w2, since := s.now r.pkg }
    s.modClusterAt r.cluster fun c => { c with queue := (c.queue.filter fun x => x.key != k) ++ [e] }

/-- A record leaves the queue that it is in. -/
def State.unqueue (s : State) (k : Nat) : State :=
  { s with clusters := s.clusters.map fun (n, c) => (n, { c with queue := c.queue.filter fun x => x.key != k }) }

/-- STATUS 1, and the queue (R250). -/
def State.makeQueued (s : State) (k : Nat) : State := (s.setStatus k 1).enqueue k

/-- Effective priority (R252). -/
def effPrio (now : Nat) (e : QEnt) : Nat := min 7 (e.prio + (now - e.since) / 100000)

/-- The best of some queue entries: highest effective priority, then oldest. -/
def bestEntry (now : Nat) : List QEnt → Option QEnt
  | [] => none
  | e :: es => match bestEntry now es with
    | none => some e
    | some f => if effPrio now e < effPrio now f then some f else some e

/-! ## Tokens (spec/14 R244, R245) -/

/-- Memory address of a record's context image (spec/16 R275). -/
def State.imageAddr (s : State) (r : RecInfo) : Option Word :=
  match r.image, s.domAt (domKey r.pkg r.dom) with
  | some i, some d => some (addrAdd d.ctxBase (16384 * i))
  | _, _ => none

/-- The tokens parked for a record in the drawers of a package. -/
def State.parkedFor (s : State) (pkg k : Nat) : List Parked :=
  (s.clusters.filter fun (c, _) => pkgOfCluster c == pkg).flatMap fun (_, c) => c.drawer.filter fun p => p.key == k

/-- A token joins a drawer, behind those that are parked for its record. -/
def State.park (s : State) (cl k : Nat) (tok : Token) (dom : Nat) : State :=
  let n := (s.parkedFor (pkgOfCluster cl) k).foldl (fun n p => max n (p.ord + 1)) 0
  s.modClusterAt cl fun c => { c with drawer := c.drawer ++ [{ key := k, tok := tok, dom := dom, ord := n }] }

/-- A token joins a list in the order of parking. -/
def insertParked (p : Parked) : List Parked → List Parked
  | [] => [p]
  | q :: qs => if p.ord ≤ q.ord then p :: q :: qs else q :: insertParked p qs

/-- A parked token is read out of its drawer's code words, for a context if there is one; none where it cannot be
corrected (spec/22 R350). -/
def readParked (pkg : Nat) (ctx : Option Nat) (x : State × List (Parked × Token)) (p : Parked) : State × List (Parked × Token) :=
  if p.err = 0 then (x.1, x.2 ++ [(p, p.tok)])
  else match wordMask p.err with
    | none => ((reportError x.1 pkg none ctx (regError 1 p.err).control).1, x.2)
    | some m =>
      (if eccSyndrome p.err = 0 then x.1 else (reportError x.1 pkg none ctx (regError 0 p.err).control).1,
        x.2 ++ [(p, { p.tok with tok := p.tok.tok ^^^ m })])

/-- Take from every drawer of a package the tokens for a record, in the order in which they were parked (R244). -/
def takeParked (pkg k : Nat) (s : State) : State × List Token :=
  let l := (s.parkedFor pkg k).foldr insertParked []
  let drop (c : Nat) (x : Cluster) : Cluster :=
    if pkgOfCluster c = pkg then { x with drawer := x.drawer.filter fun p => p.key != k } else x
  let s := { s with clusters := s.clusters.map fun (c, x) => (c, drop c x) }
  let (s, l) := l.foldl (readParked pkg ((s.recAt k).bind (·.slot))) (s, [])
  (s, l.map (·.2))

/-- A token reaches a bound thread: its queue, of 16 entries, which sets its event flag (R265), or the drawer. -/
def giveThread (th : Nat) (k : Nat) (tok : Token) (s : State) : State :=
  if (s.threadAt th).rq.length < 16 then s.modThreadAt th fun t => { t with rq := t.rq ++ [tok], evf := true }
  else s.park (clusterOf (th / 4)) k tok (domKey (pkgOf (th / 4)) (s.threadAt th).dom)

/-- Tokens parked for the record of a bound thread follow into its queue as far as there is room (R245). -/
def refillQueue (th k : Nat) (s : State) : State :=
  let (s, l) := takeParked (pkgOf (th / 4)) k s
  l.foldl (fun s tok => giveThread th k tok s) s

/-- A token reaches a suspended record: the image's inbox, of 32 entries, then the drawer; a record that
waits in `recv` becomes queued. -/
def giveSaved (k : Nat) (r : RecInfo) (tok : Token) (s : State) : State :=
  let s :=
    if r.inbox.length < 32 ∧ s.parkedFor r.pkg k = [] then
      match s.imageAddr r with
      | some a =>
        let n := r.inbox.length
        let s := schedWrite r.cluster r.spn (addrAdd a (0x500 + 16 * n)) (BitVec.allOnes 64) tok.tok s
        let s := schedWrite r.cluster r.spn (addrAdd a (0x508 + 16 * n)) (BitVec.allOnes 64)
          (tok.src ||| BitVec.ofNat 64 tok.bounce.toNat) s
        let s := schedWrite r.cluster r.spn (addrAdd a 8) (BitVec.ofNat 64 (255 * 2 ^ 8))
          (BitVec.ofNat 64 ((n + 1) * 2 ^ 8)) s
        s.modRec k fun r => { r with inbox := r.inbox ++ [tok] }
      | none => s.park r.cluster k tok (domKey r.pkg r.dom)
    else s.park r.cluster k tok (domKey r.pkg r.dom)
  if r.why = .recv then s.makeQueued k else s

/-- Free entries of a drawer: 4,096 tokens (R244). -/
def drawerFull (c : Cluster) : Bool := decide (4096 ≤ c.drawer.length)

/-- Package of a sender's key. -/
def senderPkg (s : State) (sender : Nat) : Nat :=
  match s.recAt sender with
  | some r => r.pkg
  | none => pkgOf ((sender - 2 ^ 90) / 4)

/-- Bits 56:6 of the address by which a sender names a record: on path 0x8 if it lies in another package
(log entry 27). -/
def goneAddr (s : State) (sender gone : Nat) : Word :=
  let pkg := gone / 2 ^ 69
  let a := gone % 2 ^ 57
  BitVec.ofNat 64 (if senderPkg s sender = pkg then a / 64 * 64
    else (2 ^ 46 * (s.pkgAt pkg).pkgId + a % 2 ^ 46) % 2 ^ 57 / 64 * 64)

/-- A bounce to the sender's receive queue, from a record by its key; discarded when the sender has ended. -/
def bounce (sender : Nat) (tok : Word) (gone : Nat) (s : State) : State :=
  let b : Token := { tok := tok, bounce := true, src := goneAddr s sender gone }
  match s.recAt sender with
  | none =>
    if 2 ^ 90 ≤ sender ∧ (s.threadAt (sender - 2 ^ 90)).bound then giveThread (sender - 2 ^ 90) sender b s else s
  | some r =>
    match r.status, r.slot with
    | 2, some th => giveThread th sender b s
    | 3, _ => giveSaved sender r b s
    | 1, _ => s.park r.cluster sender b (domKey r.pkg r.dom)
    | _, _ => s

/-- Where a token for a record goes (R244): the state, or none when the drawer is full. `st` is the
record's STATUS, `cl` its affinity cluster, `dom` the domain that its word 2 names. -/
def placeToken (k st cl dom : Nat) (tok : Token) (s : State) : Option State :=
  let toDrawer (cl : Nat) : Option State :=
    if drawerFull (s.clusterAt cl) then none else some (s.park cl k tok dom)
  match st with
  | 0 | 1 => toDrawer cl
  | 2 =>
    match (s.recAt k).bind (·.slot) with
    | some th =>
      if (s.threadAt th).rq.length < 16 || !drawerFull (s.clusterAt (clusterOf (th / 4)))
      then some (giveThread th k tok s) else none
    | none => toDrawer cl
  | 3 =>
    match s.recAt k with
    | some r =>
      if decide (r.inbox.length < 32 ∧ s.parkedFor r.pkg k = []) || !drawerFull (s.clusterAt r.cluster)
      then some (giveSaved k r tok s) else none
    | none => toDrawer cl
  | _ => some (bounce tok.key tok.tok k s)

/-! ## Supersteps and snapshots (spec/15 R258, R259) -/

/-- The core of a live member: where it is bound, else where it last ran. -/
def RecInfo.memberCore (r : RecInfo) : Option Nat :=
  match r.slot with
  | some th => some (th / 4)
  | none => if 4 ≤ r.status then none else if r.fresh then r.pinned else some (r.pinned.getD (r.lastSlot / 4))

/-- Cores whose SRAM the last snapshot of a domain holds. -/
def Domain.snapCores (d : Domain) : List Nat := (d.snapHeads.map fun x => x.1 / 32).eraseDups

/-- The bound threads of a domain. -/
def State.domThreads (s : State) (dk : Nat) : List Nat :=
  (s.threads.filter fun (th, t) => t.bound && domKey (pkgOf (th / 4)) t.dom == dk).map (·.1)

/-- Cores that hold a live member of a domain: one that is bound there, a gang's followers among them, or saved to come
back there. -/
def State.memberCores (s : State) (dk : Nat) (d : Domain) : List Nat :=
  let saved (r : RecInfo) : List Nat := if 4 ≤ r.status then [] else r.followers.map fun f => f.1 / 4
  let cores (r : RecInfo) : List Nat := r.memberCore.toList ++ saved r
  ((s.domThreads dk).map (· / 4) ++ (d.members.filterMap s.recAt).flatMap cores).eraseDups

/-- A core holds a bound record of another domain. -/
def otherDomBound (s : State) (core dom : Nat) : Bool :=
  (List.range 4).any fun i =>
    let t := s.threadAt (4 * core + i)
    t.bound && t.dom != dom

/-- An arming fails when t30 or t31 of a member core is claimed, or another domain's record is bound
there. -/
def armFails (s : State) (k : Nat) (d : Domain) : Bool :=
  (s.memberCores k d).any fun c =>
    (s.trackAt c 30).claim != .none || (s.trackAt c 31).claim != .none ||
      otherDomBound s c (k % 2 ^ 32)

/-- Flipped bits of the words of a core's SRAM, by their place there. -/
def State.sramFlips (s : State) (c : Nat) : Tbl (BitVec 72) :=
  let w0 := sramKey c 0 / 8
  (s.sramErr.filter fun e => decide (w0 ≤ e.1) && decide (e.1 < w0 + 4096)).map fun e => (e.1 - w0, e.2)

/-- SRAM of a core to slots of t30 and t31 (R259). Every word is read; one that cannot be corrected is reported, and its
slot takes the same flips (log entry 93). -/
def snapSram (s : State) (c : Nat) : State :=
  let w0 := sramKey c 0 / 8
  let s := (s.sramFlips c).foldl (fun s e =>
    let (s, ok) := sramWord (w0 + e.1) (some c) none s
    if ok then s else (reportError s (pkgOf c) (some c) none
      { cls := 1, src := 0, addr := errAddr (8 * (w0 + e.1)), synd := eccSyndrome e.2, core := some c }).1) s
  let bad := s.sramFlips c
  let words := (List.range 4096).map fun i => BitVec.ofNat 64 (leVal (memReads s.mem (sramKey c (8 * i)) 8))
  let tbl (ws : List Word) : Tbl Word := (ws.zipIdx.map fun (w, i) => (i, w)).filter fun e => e.2 != 0
  let s := s.modTrack c 30 fun x => { x with slots := tbl (words.take 2048), synd := bad.filter fun e => e.1 < 2048 }
  s.modTrack c 31 fun x => { x with
    slots := tbl (words.drop 2048), synd := (bad.filter fun e => 2048 ≤ e.1).map fun e => (e.1 - 2048, e.2) }

/-- Write ARM and RBCNT into the descriptor (R247). -/
def writeDesc (k : Nat) (d : Domain) (s : State) : State :=
  let cl := (k / 2 ^ 32) * Config.clusters + d.firstCluster
  let s := schedWrite cl d.spn d.desc (BitVec.ofNat 64 (2 ^ 35)) (BitVec.ofNat 64 (2 ^ 35 * d.arm.toNat)) s
  schedWrite cl d.spn (addrAdd d.desc 96) 0xFFFF (BitVec.ofNat 64 d.rbcnt) s

/-- A submitted record joins its queue (R242, R252). -/
def State.submit (s : State) (k : Nat) : State := s.makeQueued k

/-- The scheduler holds a record that runs or may run. -/
def State.recLive (s : State) (k : Nat) : Bool :=
  match s.recAt k with
  | some r => r.status == 1 || r.status == 2 || r.status == 3
  | none => false

/-- A record is known to the scheduler and queued (R250); its domain counts it as a member. -/
def acceptAt (pkg spn : Nat) (addr w0 w2 w3 : Word) (cluster : Nat) (s : State) : State × Nat :=
  let k := recKey pkg spn addr
  let dk := domKey pkg (w2Dom w2)
  match s.domAt dk with
  | none => (s, k)
  | some d =>
    let r : RecInfo := {
      pkg := pkg, spn := spn, addr := addr &&& BitVec.ofNat 64 (2 ^ 57 - 1), status := 0, dom := w2Dom w2,
      w0 := w0, w2 := w2, w3 := w3, cluster := cluster }
    ((s.setRec k r).setDomAt dk { d with members := d.members.filter (· != k) ++ [k] }, k)

/-- The record is accepted and queued, unless it is queued or running already. -/
def submitAt (pkg spn : Nat) (addr w0 w2 w3 : Word) (cluster : Nat) (s : State) : State :=
  if s.recLive (recKey pkg spn addr) then s
  else
    let (s, k) := acceptAt pkg spn addr w0 w2 w3 cluster s
    s.submit k

/-- STATUS of a record that a token is sent to, as the scheduler knows it; of a record that has ended and whose word 3
says fresh, software has made a new one (R244). -/
def State.targetStatus (s : State) (k st : Nat) : Nat :=
  match s.recAt k with
  | none => st
  | some r => if st = 0 ∧ 4 ≤ r.status then 0 else r.status

/-- One effect that an armed domain deferred is applied; a send that finds its drawer full waits, and those behind
it to the same record with it. -/
def applyOne (x : State × List Deferred) (d : Deferred) : State × List Deferred :=
  let (s, left) := x
  match d with
  | .spawn pkg spn addr w0 w2 w3 cl => (submitAt pkg spn addr w0 w2 w3 cl s, left)
  | .send k st cl dom _ tok =>
    let behind := left.any fun y => match y with | .send j .. => j == k | .spawn .. => false
    if behind then (s, left ++ [d])
    else match placeToken k (s.targetStatus k st) cl dom tok s with
      | some s' => (s', left)
      | none => (s, left ++ [d])

/-- Apply what an armed domain's `spawn` and `send` deferred (R259): the state, and what waits. -/
def applyDeferred (ds : List Deferred) (s : State) : State × List Deferred := ds.foldl applyOne (s, [])

/-- The sends of a domain that wait for room are tried again. -/
def applyDue (k : Nat) (s : State) : State :=
  match s.domAt k with
  | none => s
  | some d =>
    if d.due = [] then s
    else
      let (s, left) := applyDeferred d.due s
      s.modDomAt k fun d => { d with due := left }

/-- A completed `dsync` is noted in the saved thread of a gang's follower that waits in it. -/
def saveResult (f : Nat) (done : Thread → Thread) (s : State) : State :=
  { s with recs := s.recs.map fun (k, r) => (k, { r with followers := r.followers.map fun (x, t, ws) =>
      (x, if x = f ∧ t.waiting = some .dsync then done t else t, ws) }) }

/-- The superstep of a domain completes (R258, R259), an arming asked for having failed or not: it takes effect; in an
armed domain every member core's SRAM is copied and the members' saved contexts become the snapshot;
waiting members are queued with the result; deferred effects are applied. The completion of a `dsync` at level 5
or above orders the constant path of every member behind what the others have written (spec/12 R207). -/
def completeWith (fails : Bool) (k : Nat) (s : State) : State :=
  match s.domAt k with
  | none => s
  | some d =>
    let fence (n : Nat) : Nat := if 5 ≤ d.level then s.old.length else n
    let failed := d.armReq == some true && fails
    let arm := match d.armReq with
      | some true => !failed
      | some false => false
      | none => d.arm
    let d1 := { d with arm := arm, armReq := none, armFailed := failed, arrived := [], deferred := [] }
    let s := s.setDomAt k d1
    let s := if arm != d.arm then writeDesc k d1 s else s
    let (s, left) := applyDeferred d.deferred s
    let s := s.modDomAt k fun d => { d with due := d.due ++ left }
    let s := if arm then
        let cores := s.memberCores k d1
        let s := cores.foldl snapSram s
        s.modDomAt k fun d => { d with
          snapCount := 0
          snapCtx := d.members.filterMap fun m => ((s.recAt m).bind (·.snap)).map fun x => (m, x)
          snapHeads := cores.flatMap fun c => (List.range 32).map fun t => (32 * c + t, (s.trackAt c t).head) }
      else s
    let res : Word := if failed then 1 else 0
    let done (t : Thread) : Thread := { t with dsyncRes := some res, waiting := none, waited := 0, constFrom := fence t.constFrom }
    d.arrived.foldl (fun s m => match s.recAt m with
      | some r =>
        if r.status = 2 then match r.slot with
          | some th => if (s.threadAt th).waiting = some .dsync then s.modThreadAt th done else s
          | none => s
        else if r.status = 3 ∧ r.why = .dsync then
          (s.setRec m { r with
            dsyncRes := some res, snap := none, waited := 0, constFrom := fence r.constFrom }).makeQueued m
        else s
      | none =>
        if m < 2 ^ 90 then s
        else if (s.threadAt (m - 2 ^ 90)).waiting = some .dsync then s.modThreadAt (m - 2 ^ 90) done
        else saveResult (m - 2 ^ 90) done s) s

/-- The same where the domain's own members decide whether an arming fails. -/
def completeSuperstep (k : Nat) (s : State) : State :=
  completeWith (((s.domAt k).map (armFails s k)).getD false) k s

/-- Members counted for this superstep. -/
def Domain.counted (d : Domain) : Nat := d.arrived.length + d.ended

/-- Complete the superstep of a domain when every member has arrived or ended and somebody waits. At
level 6 the count goes to the lowest-numbered package of the domain (R258). -/
def checkSuperstep (k : Nat) (s : State) : State :=
  match s.domAt k with
  | none => s
  | some d =>
    if d.level = 6 ∨ d.arrived = [] ∨ d.counted < d.memb then s else completeSuperstep k s

/-! ## The end of a member (spec/14 R246, spec/15 R251) -/

/-- Tokens parked for records of a domain go back to their senders (R244). -/
def bounceParked (k : Nat) (s : State) : State :=
  let l := s.clusters.flatMap fun (_, c) => c.drawer.filter fun p => p.dom == k
  let s := { s with clusters := s.clusters.map fun (n, c) =>
    (n, { c with drawer := c.drawer.filter fun p => p.dom != k }) }
  let (s, l) := l.foldl (readParked (k / 2 ^ 32) none) (s, [])
  l.foldl (fun s (p, tok) => if tok.bounce then s else bounce tok.key tok.tok p.key s) s

/-- Packages that hold a live level-6 domain with an id. -/
def State.sixPkgs (s : State) (dom : Nat) : List Nat :=
  (s.doms.filter fun (k, d) => k % 2 ^ 32 == dom % 2 ^ 32 && decide (k < 2 ^ 64) && d.level == 6 && d.st.live).map
    fun (k, _) => k / 2 ^ 32

/-- The domains that a superstep of domain k is one of: at level 6 that of every package that holds it. -/
def State.sixDoms (s : State) (k : Nat) (d : Domain) : List Nat :=
  if d.level = 6 then (s.sixPkgs k).map fun p => domKey p (k % 2 ^ 32) else [k]

/-- Every slice that a domain owns is freed when it ends (R233): its generation advances, and it is not live. -/
def freeHeap (k : Nat) (s : State) : State :=
  match s.domAt k with
  | none => s
  | some d =>
    let cl := (k / 2 ^ 32) * Config.clusters + d.firstCluster
    let s := d.heap.foldl (fun s o =>
      writeAs true (4 * coreOfCluster cl 0) 0 d.spn (addrAdd d.heapBase (64 * o.off)) 0x7F
        (BitVec.ofNat 64 ((o.gen + 1) % 64)) s) s
    s.modDomAt k fun d => { d with heap := [] }

/-- Every member of a domain that the scheduler knows has ended. -/
def State.allEnded (s : State) (d : Domain) : Bool :=
  d.members.all fun m => match s.recAt m with
    | some r => decide (4 ≤ r.status)
    | none => true

/-- A domain whose last live member has ended, on every package at level 6, has ended: its images and slices are
free, and tokens parked for its records go back. -/
def checkDomainEnd (k : Nat) (s : State) : State :=
  match s.domAt k with
  | none => s
  | some d =>
    let ks := s.sixDoms k d
    if d.st.live && ks.all fun x => ((s.domAt x).map s.allEnded).getD true then
      ks.foldl (fun s x => bounceParked x (freeHeap x (s.modDomAt x fun d =>
        { d with st := .ended, images := [], arrived := [], deferred := [], due := [], heldCmd := [], drainLeft := 0 }))) s
    else s

/-- Members that have ended on a package where a level-6 domain was killed count on the others (R258). -/
def goneSix (dk n : Nat) (s : State) : State :=
  ((s.sixPkgs dk).filter (· != dk / 2 ^ 32)).foldl (fun s p =>
    s.modDomAt (domKey p (dk % 2 ^ 32)) fun d => { d with gone := d.gone + n, counts := tdel d.counts (dk / 2 ^ 32) }) s

/-- A record's end is counted in its domain and in the domains above it. -/
def memberEnded (k : Nat) (s : State) : State :=
  match s.recAt k with
  | none => s
  | some r =>
    let dk := domKey r.pkg r.dom
    let chain := s.chain dk
    let s := match s.domAt dk with
      | some d => if d.level = 6 ∧ d.st = .killed then goneSix dk 1 s else s
      | none => s
    let s := chain.foldl (fun s x => s.modDomAt x fun d =>
      { d with ended := d.ended + 1, arrived := d.arrived.filter (· != k) }) s
    let s := chain.foldl (fun s x => checkSuperstep x s) s
    checkDomainEnd (domKey r.pkg r.dom) s

/-- Tokens of a record that has ended are bounced to their senders (R246). -/
def bounceAll (k : Nat) (r : RecInfo) (toks : List Token) (s : State) : State :=
  let (s, parked) := takeParked r.pkg k s
  (toks ++ parked).foldl (fun s x =>
    if x.bounce then s
    else bounce (if x.key = 0 then recKey r.pkg r.spn x.src else x.key) x.tok k s) s

/-- The claim of a suspended record, and that of a follower which is saved with it, by its slot. -/
def savedClaim (k f : Nat) : Claim := .record (2 ^ 90 * (f + 1) + k)

/-- A claim is a suspended record's, or that of a follower saved with it. -/
def Claim.ofRecord (k : Nat) : Claim → Bool
  | .record x => x % 2 ^ 90 == k
  | _ => false

/-- The tracks that a record holds, on whatever core, are released (spec/05 R80). -/
def State.unclaim (s : State) (k : Nat) : State :=
  { s with cores := s.cores.map fun (n, c) => (n, { c with tracks := c.tracks.map fun (i, x) =>
      (i, { x with claim := if x.claim.ofRecord k then .none else x.claim }) }) }

/-- A record ends with a status; `val` is the exit value (R246), `pc` where its thread stood. Its tokens go back, those
of its saved context among them. A record that a double trap killed keeps its context image (spec/16 R275). -/
def endRecord (k st : Nat) (val : Option Word) (toks : List Token) (keepImage : Bool) (s : State) (pc : Pc := 0) : State :=
  match s.recAt k with
  | none => s
  | some r =>
    let s := s.unqueue k
    let s := s.modClusterAt (clusterOf (r.lastSlot / 4)) fun c =>
      { c with arriving := c.arriving.filter fun a => a.key != k }
    let s := s.unclaim k
    let s := match val with
      | some v => recWrite r pc 7 (BitVec.allOnes 64) v s
      | none => s
    let x : Word := BitVec.ofNat 64 (2 ^ 52)
    let s := recWrite r pc 0 x x s
    let s := s.setStatus k st pc
    let s := s.modRec k fun r => { r with slot := none, w0 := r.w0 ||| x, inbox := [] }
    let s := if keepImage then s else
      match r.image with
      | some i => (s.modRec k fun r => { r with image := none }).modDomAt (domKey r.pkg r.dom)
          fun d => { d with images := tdel d.images i }
      | none => s
    memberEnded k (bounceAll k r (toks ++ r.inbox) s)

/-! ## Operations of a thread (spec/11 R167, R168) -/

/-- The operations of a thread on an engine, those that have yet to come back to its queue behind the others. -/
def State.opsOf (s : State) (th : Nat) (e : Eng) : List Op :=
  let c := s.coreAt (th / 4)
  let mine (l : List Op) : List Op := l.filter fun o => o.th == th
  (match e with
    | .ld => (s.threadAt th).ldq
    | .ce => mine c.ce
    | .te => mine c.te
    | .me => mine c.me) ++ (s.threadAt th).requeue.filter fun o => o.eng == e

def State.allOps (s : State) (th : Nat) : List Op :=
  s.opsOf th .ld ++ s.opsOf th .ce ++ s.opsOf th .te ++ s.opsOf th .me

/-- A copy ends: no `tlbi` waits for it any longer (spec/10 R163). -/
def State.unpin (s : State) (o : Op) : State :=
  let drop (l : List (Nat × Nat)) : List (Nat × Nat) := l.filter fun x => !(x == (o.th, o.num))
  if o.eng ≠ .ce then s
  else { s with
    threads := s.threads.map fun (k, t) => (k, { t with tlbiWait := t.tlbiWait.map fun w => (drop w.1, w.2) })
    clusters := s.clusters.map fun (k, c) => (k, { c with svcBusy := drop c.svcBusy }) }

/-- An operation leaves its queue and its number ends (R167). -/
def State.endOp (s : State) (o : Op) (st : OpEnd) (c : Bool) (fa : Word) : State :=
  let keep (ops : List Op) : List Op := ops.filter fun x => !(x.th == o.th && x.eng == o.eng && x.num == o.num)
  let s := (s.unpin o).modOps o.th o.eng keep
  s.modThreadAt o.th fun t => { (t.endOp o.eng o.num st c fa) with requeue := keep t.requeue }

/-- Cancel an operation that has not started. -/
def State.cancelOp (s : State) (o : Op) : State := s.endOp o .done true 0

/-- Fields of LXC (spec/19 R314). -/
def lxcLw (w : Word) : Nat := w.toNat % 2 ^ 8
def lxcWuk (w : Word) : Nat := w.toNat / 2 ^ 13 % 2 ^ 6
def lxcWuv (w : Word) : Nat := w.toNat / 2 ^ 19 % 2 ^ 6
def lxcRing (w : Word) : Nat := w.toNat / 2 ^ 25 % 8
def lxcWef (w : Word) : Nat := w.toNat / 2 ^ 28 % 16

/-- Slots that a matrix command reads: the ring, the first slot from CP, how many, the bytes needed of
each (spec/19 R301, R303). -/
structure SlotNeed where
  ring : Nat
  off : Nat
  n : Nat
  bytes : Nat
  deriving DecidableEq, Repr

/-- Memory width in bits of an element in a slot (spec/19 R303). -/
def slotBits (f : Ef) : Nat := (f.getD .fp32).width

/-- Slots of the token operand of a mode (spec/19 R317, R319). -/
def tokenSlots (mode : AttnMode) (lxc : Word) : Nat :=
  match mode with
  | .plain n => n.toNat
  | _ => lxcLw lxc / 32

/-- Width of the query or of the values, in runs of 32. -/
def modeRuns (mode : AttnMode) (lxc : Word) : Nat :=
  match mode with
  | .plain n | .expand n => n.toNat
  | .absorb => lxcLw lxc / 32

/-- The weight that MODE 1 expands with. -/
def weightNeed (mode : AttnMode) (lxc : Word) (off : Nat) : List SlotNeed :=
  match mode with
  | .expand n => [⟨lxcRing lxc, off, 1, lxcLw lxc * (32 * n.toNat) * slotBits (Fmt.ofCode (lxcWef lxc)) / 8⟩]
  | _ => []

/-- What a matrix command reads under a value of LXC: first operand, second operand, weights. -/
def Op.slotNeeds (i : Instr) (lxc : Word) : List SlotNeed × List SlotNeed × List SlotNeed :=
  match i with
  | .mma _ _ _ qa qb _ _ fa fb qoff n _ _ =>
    ([⟨qa.toNat, qoff.toNat, 1, 32 * n.toNat * slotBits fa⟩], [⟨qb.toNat, qoff.toNat, 1, 32 * n.toNat * slotBits fb⟩], [])
  | .attnS _ _ mode fq fk qa qb _ qoff _ _ =>
    ((if mode = .absorb then [] else [⟨qa.toNat, 0, 1, 32 * modeRuns mode lxc * slotBits fq⟩]),
      [⟨qb.toNat, qoff.toNat, tokenSlots mode lxc, 128 * slotBits fk⟩], weightNeed mode lxc (lxcWuk lxc))
  | .attnV _ _ mode fv _ qb _ qoff _ =>
    ([], [⟨qb.toNat, qoff.toNat, tokenSlots mode lxc, 128 * slotBits fv⟩], weightNeed mode lxc (lxcWuv lxc))
  | .attnF _ _ _ _ (some (fw, qb, qoff, ndv)) _ =>
    ([], [⟨qb.toNat, qoff.toNat, 1, lxcLw lxc * (32 * (ndv.toNat + 1)) * slotBits fw / 8⟩], [])
  | .qabs _ _ fq fw qa qb qoff n =>
    ([⟨qa.toNat, 0, 1, 32 * n.toNat * slotBits fq⟩],
      [⟨qb.toNat, qoff.toNat, 1, lxcLw lxc * (32 * n.toNat) * slotBits fw / 8⟩], [])
  | _ => ([], [], [])

/-- A ring does not hold the slots that a command needs. -/
def Core.lacks (c : Core) (i : Instr) : Bool :=
  let (a, b, w) := Op.slotNeeds i c.stage.lxc
  (a ++ b ++ w).any fun x => (c.ring x.ring).fc < x.off + x.n

/-- An operation waits on a ring slot or a fill count for one of the slots that it has left (R168). -/
def ringWaits (c : Core) (o : Op) : Bool :=
  let full (q : QIdx) := (c.ring q.toNat).ns ≤ (c.ring q.toNat).fc
  let empty (q : QIdx) := (c.ring q.toNat).fc == 0
  match o.instr with
  | .cpr _ _ q .. => o.args.getD 5 0 != 0 && full q
  | .cps _ _ _ q .. => o.args.getD 5 0 != 0 && empty q
  | .tstream _ _ q .. => o.started && o.args.getD 2 0 != 0 && full q
  | .tfill _ _ _ q .. => o.started && o.args.getD 2 0 != 0 && empty q
  | i => o.eng == .me && !o.started && c.lacks i

/-- Of the operations of one engine in order, those that are held; none while one has still to run to
its end (R168). -/
def heldOf (c : Core) (forced : Bool) : Bool → List Op → Option (List Op)
  | _, [] => some []
  | before, o :: os =>
    if ringWaits c o ∨ (!o.started ∧ (before ∨ forced)) then
      (heldOf c forced true os).map fun l =>
        { o with rest := o.rest || o.started, held := [], wait := none, places := [], got := [], landed := [] } :: l
    else none

/-- The held list of a thread, or none while an operation has to end first. -/
def State.holdList (s : State) (th : Nat) (forced : Bool) : Option (List Op) := do
  let c := s.coreAt (th / 4)
  let l ← heldOf c forced false (s.opsOf th .ld)
  let a ← heldOf c forced false (s.opsOf th .ce)
  let b ← heldOf c forced false (s.opsOf th .te)
  let d ← heldOf c forced false (s.opsOf th .me)
  pure (l ++ a ++ b ++ d)

/-- The operations of a thread leave the queues. -/
def State.dropOps (s : State) (th : Nat) : State :=
  let keep (l : List Op) : List Op := l.filter fun o => o.th != th
  let s := (s.opsOf th .ce).foldl State.unpin s
  let s := s.modCoreAt (th / 4) fun c => { c with ce := keep c.ce, te := keep c.te, me := keep c.me }
  s.modThreadAt th fun t => { t with ldq := [], requeue := [] }

/-! ## Leaving a slot -/

/-- Tracks that a thread holds. -/
def State.claimsOf (s : State) (th : Nat) : List Nat :=
  (List.range 32).filter fun t => (s.trackAt (th / 4) t).claim == .thread (th % 4)

/-- Every claim of a thread becomes another (spec/05 R80, spec/04 R71). -/
def State.reclaim (s : State) (th : Nat) (c : Claim) : State :=
  (s.claimsOf th).foldl (fun s t => s.modTrack (th / 4) t fun x => { x with claim := c }) s

/-- Engine ownership is given up. -/
def State.dropOwner (s : State) (th : Nat) : State :=
  s.modCoreAt (th / 4) fun c => if c.owner = some (th % 4) then { c with owner := none } else c

/-- The slot is free; the window registers' last values stay nowhere (log entry 2). -/
def State.freeSlot (s : State) (th : Nat) : State :=
  ((s.setThreadAt th {}).modClusterAt (clusterOf (th / 4)) fun c =>
    { c.putSlot1 (4 * (coreIn (th / 4) % 64) + th % 4) 0 with slot1 := tdel c.slot1 (4 * (coreIn (th / 4) % 64) + th % 4) })

/-- The other threads of a leader's gang. -/
def State.followers (s : State) (leader : Nat) : List Nat :=
  (s.threads.filter fun (th, t) => th != leader && (match t.gang with
    | some g => g.leader == leader
    | none => false)).map (·.1)

/-- What the end of its leader means for a follower (spec/15 R261): after an exit an attached follower
follows the leader's last choices and exits; after a kill it runs on. -/
def leaderGone (lead : GangRole) (exited : Bool) (t : Thread) : Thread :=
  { t with gang := t.gang.map fun g =>
      if !g.attached then g
      else if exited then { g with ending := true, rest := lead.trail.drop (lead.trail.length - (lead.count - g.count)) }
      else { g with attached := false } }

/-- A thread ends (spec/04 R71 steps 2-5, spec/14 R246): claims, bindings and ownership go, the slot is
free, the record takes its status; a gang's domain counts the end. -/
def endThread (th st : Nat) (val : Option Word) (s : State) : State :=
  let t := s.threadAt th
  let key := s.keyOf th
  let s := s.reclaim th .none
  let s := s.dropOwner th
  let s := s.freeSlot th
  let s := match t.gang with
    | some g =>
      let s := s.modDomAt (gangDom g.leader) fun d =>
        { d with ended := d.ended + 1, arrived := d.arrived.filter (· != 2 ^ 90 + th) }
      let s := if g.leader = th then
          (s.followers th).foldl (fun s f => s.modThreadAt f (leaderGone g (st == 4))) s else s
      checkSuperstep (gangDom g.leader) s
    | none => s
  match key with
  | some k => endRecord k st val t.rq false s t.pc
  | none => s

/-! ## Suspension (spec/14 R240) -/

/-- A lowest free context image of a domain (spec/16 R275). -/
def freeImage (d : Domain) : Option Nat :=
  let n := if d.ctxn = 0 then 4 * d.placedCores else d.ctxn
  (List.range (min n (d.images.length + 1))).find? fun i => (tget d.images i).isNone

/-- Store words up from an address of the thread's space. -/
def storeWords (th : Nat) (a : Word) : Nat → List Word → Act Unit
  | _, [] => pure ()
  | i, w :: ws => do
    storeWord ((← get).agentOf th) (addrAdd a (8 * i)) w
    storeWords th a (i + 1) ws

def loadWords (th : Nat) (a : Word) : Nat → Nat → Act (List Word)
  | _, 0 => pure []
  | i, n + 1 => do
    let w ← loadWord ((← get).agentOf th) (addrAdd a (8 * i))
    pure (w :: (← loadWords th a (i + 1) n))

/-- A thread that is saved by force stops before its next instruction: a `wait` or `idle` ends and the thread goes on
after it, a blocking instruction counts as not executed (R264). -/
def Thread.stopForced (t : Thread) : Thread :=
  let t := if t.idle then advanceThread (.idle ⟨7, false⟩) t { t with idle := false } none else t
  { t with waitN := 0, waiting := none, waited := 0, gang := t.gang.map fun g => { g with token := none } }

/-- An arrival of a thread whose `dsync` counts as not executed is taken back. -/
def unarrive (key : Nat) (s : State) : State :=
  { s with doms := s.doms.map fun (k, d) => (k, { d with arrived := d.arrived.filter (· != key) }) }

/-- The followers of a gang's leader, to be saved with it; the operations that are held of them stand among those to
come back (R168, R261). One that waits for a fault keeps what it waits for (spec/10 R158); a `wait` ends (spec/04
R70). -/
def saveFollowers (th : Nat) (forced : Bool) : Act (List (Nat × Thread × List Word)) := do
  let s ← get
  (s.followers th).mapM fun f => do
    let some held := (← get).holdList f forced | stopWait
    saveScan f
    let t := (← get).threadAt f
    let shared := t.ftrk.isNone && w3Ovx t.w3 != 0
    let ws ← if shared then pure [] else frameReads f 0 none t.fsp
    let t := if forced then t.stopForced else { t with waitN := 0 }
    pure (f, { t with saving := none, ldq := [], requeue := held }, ws)

/-- What the held list does not hold of an operation. -/
def Op.heldMore (t : Thread) (o : Op) : Nat × Nat × Pc × Word × Nat :=
  (engCode o.eng, o.num, o.pc, o.mask, o.frame.toNat + 2 * o.noSplit.toNat + 4 * (match o.ldReg with
    | some p => t.relReg p
    | none => if o.eng = .ld then o.served else 0))

/-- The time-base copy of a cluster as it shows now: within a tick of the package's count, and never less than it
showed before (spec/22 R361; log entry 12). -/
def State.sampleTime (s : State) (cl : Nat) : State :=
  ({ s with fresh := s.fresh + 1 }).modClusterAt cl fun c =>
    { c with tb := max c.tb (s.now (pkgOfCluster cl) + (Config.tbaseSkew s.fresh).val - 1) }

/-- Suspend a thread under R240 with the pc at which it resumes: operations end or are held, resident
windows are spilled, frames of a slot area are lifted, the context image is written, the slot is freed.
A thread without room for its slice or image is killed; a gang's follower, which has no record, is
suspended only with its leader. `queue` says that the record rejoins its queue. -/
def suspendThread (th : Nat) (why : Suspend) (resume : Pc) (queue : Bool) : Act Unit := whole th do
  let s ← get
  let core := th / 4
  match s.keyOf th with
  | none => pure ()
  | some key => do
    let some held := s.holdList th (why == .forced) | stopWait
    saveScan th
    let fols ← saveFollowers th (why == .forced)
    let s ← get
    let t := s.threadAt th
    let toks := t.rq ++ (takeParked (pkgOf core) key s).2
    let wst := BitVec.ofNat 64 (t.res % 8 + 2 ^ 32 * (t.depth % 2 ^ 32))
    (List.range t.res).forM (putWindow th ·)
    let dk := domKey (pkgOf core) t.dom
    let slotArea := t.ftrk.isNone && w3Ovx t.w3 == 0
    let store ← if slotArea then liftWords th 0 t.frames else pure []
    let h ← if slotArea then
        buildSlice th 0 0 resume t.winFrames.length 0 t.loopWords store
      else pure (some 0)
    let img := match s.domAt dk with
      | some d => freeImage d
      | none => none
    match h, img with
    | some h, some im => do
      let claims := s.claimsOf th
      let info : SaveInfo := ⟨t.rec_, claims, claims.map fun n => (n, (s.trackAt core n).head), wst, held⟩
      let owner := (s.coreAt core).owner == some (th % 4)
      let words := imageWords { t with rq := toks.take 32 } (s.coreAt core) owner info
      let base := match s.domAt dk with
        | some d => addrAdd d.ctxBase (16384 * im)
        | none => 0
      storeWords th base 0 words
      let flags := BitVec.ofNat 64 (resume.toNat + 2 ^ 48 * t.flagE.toNat + 2 ^ 49 * t.flagM.toNat +
        2 ^ 50 * t.flagT.toNat + 2 ^ 51 * slotArea.toNat)
      modify fun s =>
        let s := writeAs false th t.pc t.spn t.rec_ (BitVec.allOnes 64) flags s
        let s := if slotArea then writeAs false th t.pc t.spn (t.rec_ + 8) (BitVec.allOnes 64) h s else s
        let pin := !claims.isEmpty || t.gang.isSome
        let pcs := held.map (Op.heldMore t)
        let s := ((takeParked (pkgOf core) key s).1).sampleTime (clusterOf core)
        let s := s.modRec key fun r => { r with
          w0 := flags, why := why, image := some im, fresh := false, slot := none, lastSlot := th, waited := 0
          pinned := if pin then some core else none
          lastTime := t.lastTime, gang := t.gang
          faultWait := t.blocked.map fun b => (b.cluster, b.entry, b.gen)
          faultFetch := (t.blocked.map (·.fetch)).getD false
          followers := fols, heldPc := pcs
          inbox := toks.take 32, wdTrap := t.wdTrap, fetchFrom := s.old.length
          constFrom := t.constFrom, constSeen := t.constSeen, tbHold := max t.tbHold (s.clusterAt (clusterOf core)).tb
          vlive := t.vlive
          snap := if why = .dsync then some ⟨words, flags, store, pcs, t.gang, fols, t.vlive⟩ else none }
        let s := s.modDomAt dk fun d => { d with images := tput d.images im key }
        let cl := ((s.recAt key).map (·.cluster)).getD (clusterOf core)
        let s := (toks.drop 32).foldl (fun s x => s.park cl key x dk) s
        let s := fols.foldl (fun s (f, _, _) =>
          let s := if why = .forced then unarrive (2 ^ 90 + f) s else s
          ((s.dropOps f).reclaim f (savedClaim key f)).freeSlot f) s
        let s := s.dropOps th
        let s := s.reclaim th (.record key)
        let s := (s.dropOwner th).freeSlot th
        if queue then s.makeQueued key else s.setStatus key 3
    | _, _ => modify fun s => endThread th 5 none (held.foldl State.cancelOp s)

/-! ## Records that an instruction names (spec/14 R242) -/

/-- The record at an address: the package that holds it, its address there, and words 0, 2 and 3 as the
instruction reads them. -/
structure Named where
  pkg : Nat
  addr : Word
  w0 : Word
  w2 : Word
  w3 : Word
  deriving DecidableEq, Repr

/-- The checks and reads of R242. -/
def namedRecord (ea : Word) : Act Named := do
  let s ← get
  trapIf (ea.toNat % 64 != 0) (trMisaligned ea)
  trapIf (selector ea != 0 && selector ea != 8) (trAccess ea)
  match pathCheck s s.lsu .load false ea with
  | .error t => stopTrap t
  | .ok (.virt pkg va) => do
    let w0 ← loadWord s.lsu ea
    let w2 ← loadWord s.lsu (addrAdd ea 16)
    let w3 ← loadWord s.lsu (addrAdd ea 24)
    pure ⟨pkg, BitVec.ofNat 64 va, w0, w2, w3⟩
  | .ok _ => stopTrap (trAccess ea)

/-- The key of a domain that the record's word 2 names. -/
def Named.dom (r : Named) : Nat := domKey r.pkg (w2Dom r.w2)

/-- The space of the record: its domain's, else the issuing thread's (spec/15 R249). -/
def Named.spn (r : Named) (s : State) : Nat := ((s.domAt r.dom).map (·.spn)).getD s.th.spn

def Named.key (r : Named) (s : State) : Nat := recKey r.pkg (r.spn s) r.addr

/-- The current thread's cluster, on a package. -/
def State.clusterOn (s : State) (pkg : Nat) : Nat := pkg * Config.clusters + clusterIn (clusterOf s.cc)

/-- A token that the current thread sends. -/
def State.tokenOf (s : State) (v : Word) : Token :=
  { tok := v, bounce := false, src := s.th.rec_, key := s.memberKey s.tk }

/-- The cluster whose drawer takes a token for a record that is not started or queued (R244): that of the record's
affinity, else the sender's own. -/
def Named.drawer (r : Named) (s : State) : Nat :=
  if w3Amode r.w3 = 0 ∨ Config.clusters ≤ w3Acl r.w3 then s.clusterOn r.pkg
  else r.pkg * Config.clusters + w3Acl r.w3

end Sys2Proof.Machine
end

