-- ==== Sys2Proof/Machine/Ready.lean ====
section
/-! DEFINITION. When a thread is ready, and which thread of a core issues next (spec/03 R33): what its next
instruction waits for, the units' queues (spec/11 R165), gangs (spec/15 R261). -/

namespace Sys2Proof

/-- The track that a sequencer command moves. -/
def Instr.cmdTrack : Instr → Option TIdx
  | .seek _ _ t _ | .seekr _ _ t _ | .rew _ _ t | .seekReg _ _ t _ | .seekrReg _ _ t _
  | .tstream _ _ _ t .. | .tfill _ _ t .. => some t
  | _ => none

end Sys2Proof

namespace Sys2Proof.Machine

/-! ## Rings that commands name (spec/11 R186) -/

/-- The ring of the weights that MODE 1 expands with. -/
def Op.weightRing (o : Op) (mode : AttnMode) : List QIdx :=
  match mode with
  | .expand _ => [BitVec.ofNat 3 (lxcRing o.lxc)]
  | _ => []

/-- Rings that a command names. -/
def Op.ringsOf (o : Op) : List QIdx :=
  match o.instr with
  | .cpr _ _ q .. | .cps _ _ _ q .. | .tstream _ _ q .. | .tfill _ _ _ q .. => [q]
  | .mma _ _ _ qa qb .. | .qabs _ _ _ _ qa qb .. => [qa, qb]
  | .attnS _ _ mode _ _ qa qb .. => (if mode = .absorb then [qb] else [qa, qb]) ++ o.weightRing mode
  | .attnV _ _ mode _ _ qb .. => qb :: o.weightRing mode
  | .attnF _ _ _ _ proj _ => match proj with | some (_, q, _, _) => [q] | none => []
  | _ => []

/-- A command of any engine of a core that names a ring is outstanding. -/
def Core.ringBusy (c : Core) (q : QIdx) : Bool :=
  (c.ce ++ c.te ++ c.me).any fun o => o.ringsOf.contains q

/-! ## Accumulators that commands write (spec/19 R302) -/

/-- First accumulator and how many, under a value of LXC. -/
def Instr.accRange (i : Instr) (lxc : Word) : Nat × Nat :=
  match i with
  | .mma _ _ ad .. => (ad.toNat, 1)
  | .mmz _ _ ad m1 => (ad.toNat, m1.toNat + 1)
  | .attnP _ _ ad m => (ad.toNat, if m = 0 then lxcLw lxc / 8 else m.toNat)
  | .attnV _ _ mode _ ad .. => (ad.toNat, 4 * modeRuns mode lxc)
  | .attnF _ _ ad _ none m => (ad.toNat, if m = 0 then lxcLw lxc / 8 else m.toNat)
  | .attnF _ _ ad _ (some (_, _, _, ndv)) _ => (ad.toNat, 4 * (ndv.toNat + 1))
  | _ => (0, 0)

/-- The accumulators of a range that exist. -/
def accList (r : Nat × Nat) : List Nat := ((List.range r.2).map (r.1 + ·)).filter (· < 16)

/-- One of some commands, in their order, writes an accumulator, each under the LXC that it will find. -/
def meWrites (a : Nat) : Word → List Op → Bool
  | _, [] => false
  | lxc, o :: os =>
    (accList (Instr.accRange o.instr lxc)).contains a ||
      meWrites a (match o.instr with | .lxcfg .. => o.args.getD 0 0 | _ => lxc) os

/-- A command that has yet to end writes an accumulator. -/
def Core.accBusy (c : Core) (a : Nat) : Bool := meWrites a c.stage.lxc c.me

/-! ## Queues (spec/11 R165) -/

/-- The sequencer's queue holds two commands that have yet to begin (spec/05 R82). -/
def Core.trackQueueFull (c : Core) : Bool := decide (2 ≤ (c.te.filter fun o => !o.started).length)

/-- Commands that still hold an entry of the matrix engine's queue (spec/19 R300). -/
def Core.mePending (c : Core) : Nat := (c.me.filter fun o => !o.started).length

/-- The queue that a thread's operations on an engine join has no entry free. -/
def State.queueFull (s : State) (th : Nat) : Eng → Bool
  | .ld => decide (8 ≤ (s.threadAt th).ldq.length)
  | .ce => decide (2 ≤ (s.coreAt (th / 4)).ce.length)
  | .te => (s.coreAt (th / 4)).trackQueueFull
  | .me => decide (2 ≤ (s.coreAt (th / 4)).mePending)

/-- Held operations join their queues, in their order, as far as there is room; what is left of them (R168). -/
def fillQueues (th : Nat) : List Op → State → State × List Op
  | [], s => (s, [])
  | o :: os, s =>
    if s.queueFull th o.eng then
      let (s, l) := fillQueues th os s
      (s, o :: l)
    else fillQueues th os (s.modOps th o.eng fun l => l ++ [o])

/-- The held operations of a thread that have yet to come back join their queues, as far as there is room. -/
def refillOps (th : Nat) (s : State) : State :=
  let l := (s.threadAt th).requeue
  if l.isEmpty then s
  else
    let (s, l) := fillQueues th l s
    s.modThreadAt th fun t => { t with requeue := l }

/-! ## What an instruction waits for (R33) -/

/-- The commands of a thread on a track, or on any. -/
def State.trackOps (s : State) (th : Nat) (t : Option TIdx) : List Op :=
  (s.opsOf th .te).filter fun o => t.isNone || o.instr.cmdTrack == t

/-- A stream that an instruction pops or pushes is not ready: a ring is empty or full, a command moves the track
(spec/08 R141). -/
def State.streamWaits (s : State) (i : Instr) : Bool :=
  let waits (push : Bool) (v : VIdx) : Bool :=
    if v.toNat < 24 then false
    else match tget s.th.binds (v.toNat - 24) with
      | none => false
      | some b =>
        let r := s.core.ring b.ring
        match b.kind with
        | 0 => !push && r.fc == 0
        | 1 => push && b.j == 0 && decide (r.ns ≤ r.fc)
        | 2 => !(s.trackOps s.tk (some (BitVec.ofNat 5 b.track))).isEmpty
        | _ => false
  let (rs, ws) := s.streamUses i
  rs.any (waits false) || ws.any (waits true)

/-- The current thread's `send` waits for an entry of a drawer (spec/14 R244). -/
def State.sendWaits (s : State) (a b : GReg) : Bool :=
  match namedRecord (s.g a) s with
  | .ok r s' => !(s'.armed s'.tk) &&
      (placeToken (r.key s') (s'.targetStatus (r.key s') (w3Status r.w3)) (r.drawer s') r.dom (s'.tokenOf (s'.g b)) s').isNone
  | .error .. => false

/-- The current thread's `bwait` waits: the phase of its barrier word is still the parity (spec/11 R192). -/
def State.bwaitWaits (s : State) (a b : GReg) : Bool :=
  match pathCheck s s.lsu .atomic false (s.g a) with
  | .ok (.sram k) => (s.g a).toNat % 8 == 0 &&
      (BitVec.ofNat 64 (leVal (memReads s.mem k 8))).getLsbD 63 == (s.g b).getLsbD 0
  | _ => false

/-- Detached followers of a leader (spec/15 R261). -/
def State.detached (s : State) (lead : Nat) : List Nat :=
  (s.followers lead).filter fun f => !((((s.threadAt f).gang).map (·.attached)).getD true)

/-- Every detached follower of a leader waits at `rejoin` with a token. -/
def State.rejoined (s : State) (lead : Nat) (tok : BitVec 16) : Bool :=
  (s.detached lead).all fun f => (((s.threadAt f).gang).bind (·.token)) == some tok

/-- The current thread's `rejoin` waits: a leader for its detached followers, a detached follower for its leader. -/
def State.rejoinWaits (s : State) (tok : BitVec 16) : Bool :=
  match s.th.gang with
  | none => false
  | some g => if g.leader = s.tk then !(s.rejoined s.tk tok) else !g.attached

/-- A frame instruction of the current thread waits for the loads of registers that it moves or reads (spec/03 R34). -/
def State.windowsHeld (s : State) (i : Instr) : Bool :=
  let t := s.th
  let win (b : Nat) : Bool := t.regPending ((List.range 40).map (t.winPhys b ·))
  let all := t.regPending ((List.range 168).map (64 + ·))
  match i with
  | .spillw _ => decide (1 < t.res) && win (t.res - 1)
  | .fillw _ => decide (t.depth ≠ 0 ∧ t.res < 4) && win t.res
  | .cut .. => all
  | .graft _ a => all || (match (do objRead s.tk (← sliceOf s.tk (t.g a)).1 5 : Act Word) s with
      | .ok w _ => t.destPending w
      | .error .. => false)
  | _ => false

/-- The current thread's instruction waits, its guard being true: for a future, a timeline, a ring, its operations, a
track, the frame store, an accumulator, a barrier, a superstep, its gang, an event, room in a queue or a drawer. -/
def State.waitsFor (s : State) (i : Instr) : Bool :=
  let t := s.th
  let c := s.core
  let busy := !(s.allOps s.tk).isEmpty
  let moving (x : Option TIdx) : Bool := !(s.trackOps s.tk x).isEmpty
  let frames := s.frameOps s.tk
  let ring (q : QIdx) : Ring := c.ring q.toNat
  s.streamWaits i ||
  (match i.timeline with
    | some (e, _) => s.queueFull s.tk e
    | none => false) ||
  match i with
  | .fwait _ f => (t.fr f).v && (t.fr f).st == .pending
  | .tlwait _ e a => decide ((t.tl e).cur < (t.g a).toNat) && decide ((t.g a).toNat ≤ (t.tl e).last)
  | .rwait _ q b => decide ((ring q).fc < (t.g b).toNat) && decide ((t.g b).toNat ≤ (ring q).ns)
  | .rfree _ q b => decide ((ring q).ns - (ring q).fc < (t.g b).toNat) && decide ((t.g b).toNat ≤ (ring q).ns)
  | .ring _ q .. => c.ringBusy q
  | .exit _ => busy
  | .ret _ => frames || (t.res == 1 && t.depth == 0 && busy)
  | .fence _ _ kinds => kinds.getLsbD 4 && busy
  | .dsync .. => t.dsyncRes.isNone && (t.waiting == some .dsync || busy)
  | .bwait _ a b => s.bwaitWaits a b
  | .rejoin _ tok => s.rejoinWaits tok
  | .idle _ => !t.evf
  | .send _ _ a b => s.sendWaits a b
  | .gang .. => t.gang.isNone && busy
  | .yield _ => (s.holdList s.tk false).isNone
  | .recv .. => t.rq.isEmpty && (s.holdList s.tk false).isNone
  | .spillw _ => decide (1 < t.res) && (frames || s.windowsHeld i)
  | .fillw _ => decide (t.depth ≠ 0 ∧ t.res < 4) && (frames || s.windowsHeld i)
  | .cut .. | .graft .. => frames || s.windowsHeld i
  | .frl _ _ a => a != 0 && frames
  | .sdrop .. => t.sdropped.isSome
  | .tlbi .. => t.tlbiWait.isSome
  | .trel _ x | .hpos _ _ x | .trd _ _ x | .twr _ x _ | .trds _ _ x _ | .twrs _ x _ _ | .vtrds _ _ x _ | .vtwrs _ x _ _ =>
    moving (some x)
  | .tsync _ x => moving x
  | .vclear _ => t.ldq.any fun o => o.ldVec.isSome
  | .vsave _ _ _ parts | .vrest _ _ _ parts => parts.getLsbD 1 &&
      (!(s.opsOf s.tk .me).isEmpty || (c.ce ++ c.te).any fun o => !o.ringsOf.isEmpty)
  | .mova _ _ _ a _ _ | .msta _ a .. => c.accBusy a.toNat
  | _ => false

/-- The current thread's instruction is blocked on a source register, a future, a wait or a full queue. -/
def State.stalls (s : State) (i : Instr) : Bool :=
  s.live i &&
    (let j := s.liveForm i
     s.th.loadHeld j || match j with
      | .pair _ a b => s.waitsFor a || s.waitsFor b
      | j => s.waitsFor j)

/-! ## Gangs (spec/15 R261) -/

/-- Counts of the attached followers of a leader. -/
def State.attachedCounts (s : State) (lead : Nat) : List Nat :=
  (s.followers lead).filterMap fun f => ((s.threadAt f).gang).bind fun g => if g.attached then some g.count else none

/-- A gang member may not issue now: a leader 16 instructions ahead of its slowest attached follower, an
attached follower that has caught up with its leader. -/
def State.gangHolds (s : State) (th : Nat) : Bool :=
  match (s.threadAt th).gang with
  | none => false
  | some g =>
    if g.leader = th then (s.attachedCounts th).any fun c => c + 16 ≤ g.count
    else g.attached && !g.ending && (match (s.threadAt g.leader).gang with
      | some l => l.count ≤ g.count
      | none => false)

/-- A follower has followed every choice of a leader that has exited. -/
def State.gangExits (s : State) (th : Nat) : Bool :=
  match (s.threadAt th).gang with
  | some g => g.attached && g.ending && g.rest.isEmpty
  | none => false

/-! ## The next instruction -/

/-- The state with a thread of a core as the current one. -/
def State.at_ (s : State) (th : Nat) : State := { s with cc := th / 4, ct := th % 4 }

/-- The bytes of a fetch block at a key as a thread fetches them: a block that was written since the thread began or
last passed a suspension point is wholly old or wholly new, by one choice (spec/02 R30); none where the choice is
yet to be made. -/
def State.fetchView (s : State) (t : Thread) (k n : Nat) : Option (List Byte) :=
  let old (k n : Nat) : List Byte := (List.range n).map fun i => s.byteAt t.fetchFrom (k + i)
  if s.old.length = t.fetchFrom then some (memReads s.mem k n)
  else match tget t.fetchOld (k / 32) with
    | some b => some (if b then old k n else memReads s.mem k n)
    | none =>
      if old (32 * (k / 32)) 32 = memReads s.mem (32 * (k / 32)) 32 then some (memReads s.mem k n) else none

/-- The instruction that a thread would issue next; none where its fetch comes to something else. -/
def State.peek (s : State) (th : Nat) : Option Instr :=
  let t := s.threadAt th
  if !legalStart t.pc then none
  else match (lookup s (some (th / 4)) (clusterOf (th / 4)) t.spn t.pc.toNat .fetch).2 with
    | .error _ => none
    | .ok e =>
      let k := pkgOf (th / 4) * 2 ^ 48 + e.frame + t.pc.toNat % e.size
      let n := min 16 (32 - t.pc.toNat % 32)
      match decode ((s.fetchView t k n).getD (memReads s.mem k n)) with
      | .ok (i, _) => some i
      | .error _ => none

/-- The time-base copy of a cluster has come to where a thread left one (spec/22 R361). -/
def State.timeHeld (s : State) (th : Nat) : Bool :=
  let cl := clusterOf (th / 4)
  decide (max (s.clusterAt cl).tb (s.now (pkgOf (th / 4)) - 1) < (s.threadAt th).tbHold)

/-- Nothing but its next instruction keeps a thread from issuing: it is bound, is not blocked, and waits for nothing
that is due before the instruction. -/
def State.mayIssue (s : State) (th : Nat) : Bool :=
  let t := s.threadAt th
  t.bound && !t.dying && t.blocked.isNone && t.waitN == 0 && t.requeue.isEmpty &&
    !s.gangHolds th && !s.gangExits th && !s.timeHeld th

/-- A thread is ready (R33). -/
def State.threadReady (s : State) (th : Nat) : Bool :=
  s.mayIssue th && !(((s.peek th).map (s.at_ th).stalls).getD false)

/-- Threads of a core that are ready. -/
def readyCount (s : State) (core : Nat) : Nat :=
  ((List.range 4).filter fun i => s.threadReady (4 * core + i)).length

/-! ## The pick (R33) -/

/-- The issue classes that an instruction takes: scalar, vector. -/
def Instr.slots : Instr → Bool × Bool
  | .pair .. => (true, true)
  | i => (!i.isVectorClass, i.isVectorClass)

/-- The first of some threads after the last that issued, in the order 0, 1, 2, 3, 0. -/
def nextAfter (last : Nat) (l : List Nat) : Option Nat :=
  ([1, 2, 3, 4].map fun k => (last + k) % 4).find? l.contains

/-- The threads of a core that could issue an instruction of a class now. A pair word is ready where it would have both
slots (log entry 10). -/
def State.candidates (s : State) (core : Nat) (vec : Bool) : List Nat :=
  let c := s.coreAt core
  let l := (List.range 4).filterMap fun i =>
    if s.threadReady (4 * core + i) && (s.threadAt (4 * core + i)).saving.isNone then (s.peek (4 * core + i)).map fun x => (i, Instr.slots x)
    else none
  let only (v : Bool) : List Nat := (l.filter fun x => x.2 == (!v, v)).map (·.1)
  let both : List Nat := ((l.filter fun x => x.2 == (true, true)).map (·.1)).filter fun p =>
    nextAfter c.lastS (p :: only false) == some p && nextAfter c.lastV (p :: only true) == some p
  only vec ++ both

/-- The pick of a core for a class. -/
def State.pickOf (s : State) (core : Nat) (vec : Bool) : Option Nat :=
  nextAfter (if vec then (s.coreAt core).lastV else (s.coreAt core).lastS) (s.candidates core vec)

/-- The thread of a core that has the turn of a thread: of the class of its next instruction, the ready thread that
comes next after the last that issued; of a pair word's two classes the scalar one, and the vector one where only that
has a thread to issue, since the pair then waits for it. The thread itself where it has nothing to issue. -/
def State.pickFor (s : State) (core thr : Nat) : Nat :=
  let th := 4 * core + thr
  if !(s.threadReady th && (s.threadAt th).saving.isNone) then thr
  else match s.peek th with
    | none => thr
    | some i =>
      let (x, y) := if i.isVectorClass then (true, true) else (false, true)
      ((s.pickOf core x).orElse fun _ => s.pickOf core y).getD thr

/-- The state as the turn of its current thread finds it: the thread that the core picks is the current one. -/
def State.turnPick (s : State) : State := { s with ct := s.pickFor s.cc s.ct }

/-- The current thread issues an instruction: its core notes it as the last of the classes. -/
def State.noteIssue (s : State) (i : Instr) : State :=
  if s.stalls i then s
  else s.modCore fun c => { c with
    lastS := if (Instr.slots i).1 then s.ct else c.lastS
    lastV := if (Instr.slots i).2 then s.ct else c.lastV }

end Sys2Proof.Machine
end

