-- ==== Sys2Proof/Machine/Sched.lean ====
section
/-! DEFINITION. The device's scheduler: submission, binding and dispatch of records, the domain states
and commands, forced saves, rollback (spec/14 R239, R242, spec/15 R249-R264). -/

namespace Sys2Proof.Machine

/-! ## Submission (spec/14 R242) -/

/-- A core lies where a domain and a record's affinity allow (R238, R247). -/
def affinityOk (d : Domain) (w3 : Word) (core : Nat) : Bool :=
  let n := coreIn core
  d.placed core && (match w3Amode w3 with
    | 0 => true
    | 1 => n / 64 == w3Acl w3
    | 2 => n / 64 == w3Acl w3 && n % 64 == w3Acore w3
    | _ => false)

/-- A cluster or core that the affinity names lies outside the domain or the package (R242 code 2). -/
def affinityOut (d : Domain) (pkg : Nat) (w3 : Word) : Bool :=
  let base := pkg * Config.cores
  match w3Amode w3 with
  | 0 => false
  | 1 => w3Acl w3 ≥ Config.clusters ||
      !((List.range 64).any fun i => d.placed (base + 64 * w3Acl w3 + i))
  | 2 => w3Acl w3 ≥ Config.clusters || !(d.placed (base + 64 * w3Acl w3 + w3Acore w3))
  | _ => true

/-- The cluster whose queue a record joins (R252). -/
def queueCluster (d : Domain) (pkg : Nat) (w3 : Word) (spawner : Option Nat) : Nat :=
  if w3Amode w3 = 0 then
    match spawner with
    | some c => if pkgOfCluster c = pkg ∧ d.placed (coreOfCluster c 0) then c
        else pkg * Config.clusters + d.firstCluster
    | none => pkg * Config.clusters + d.firstCluster
  else pkg * Config.clusters + w3Acl w3

/-- The status of `spawn` for a record's words (R242). `may` says whether the spawner's own domain lets it
start work in the domain (R249). -/
def spawnCode (s : State) (pkg : Nat) (w0 w2 w3 : Word) (may : Nat → Bool) : Nat :=
  if w3Status w3 ≠ 0 ∨ w0X w0 then 1
  else
    let dk := domKey pkg (w2Dom w2)
    match s.domAt dk with
    | none => if recReserved w0 w2 w3 ∨ w3Amode w3 = 3 then 2 else 3
    | some d =>
      if recReserved w0 w2 w3 ∨ w3Amode w3 = 3 ∨ affinityOut d pkg w3 then 2
      else if d.st ≠ .running ∨ !may dk then 3
      else 0

/-- The cluster whose queue a record's words and its spawner give. -/
def State.clusterFor (s : State) (pkg : Nat) (w2 w3 : Word) (spawner : Option Nat) : Nat :=
  match s.domAt (domKey pkg (w2Dom w2)) with
  | some d => queueCluster d pkg w3 spawner
  | none => pkg * Config.clusters

/-! ## Binding (R239, R253) -/

/-- A track is held by somebody other than a record. -/
def claimedByOther (k : Nat) : Claim → Bool
  | .none => false
  | .record x => x != k
  | .thread _ => true

/-- A core holds a member of an armed domain other than one: bound there, or suspended with its tracks there (R253,
R259). -/
def armedElsewhere (s : State) (core dk : Nat) : Bool :=
  s.doms.any fun (k, d) => k != dk && d.arm && d.st.live && (s.memberCores k d).contains core

/-- A thread is on its way to a slot (R257). -/
def State.expects (s : State) (th : Nat) : Bool := (s.clusterAt (clusterOf (th / 4))).arriving.any fun a => a.slot == th

/-- The slot at which a saved gang is formed again: that of its leader (R261). -/
def RecInfo.gangSlot (r : RecInfo) : Option Nat := r.gang.map (·.leader)

/-- Why a record may not be bound to a slot (R253, R255): 0 not queued, 1 slot busy, 2 outside, 3 engine
owner present, 4 frame track held, 5 pinned elsewhere. -/
def bindRefusal (s : State) (k th : Nat) : Option Nat :=
  match s.recAt k with
  | none => some 0
  | some r =>
    let core := th / 4
    let dk := domKey r.pkg r.dom
    match s.domAt dk with
    | none => some 0
    | some d =>
      let c := s.coreAt core
      if r.status ≠ 1 ∨ d.st ≠ .running then some 0
      else if (s.threadAt th).bound ∨ s.expects th then some 1
      else if r.followers.any fun (f, _, _) => (s.threadAt f).bound || s.expects f then some 1
      else if c.fenced ∨ (s.clusterAt (clusterOf core)).fenced then some 2
      else if pkgOf core ≠ r.pkg ∨ !affinityOk d r.w3 core ∨ armedElsewhere s core dk then some 2
      else if w0E r.w0 ∧ c.owner.isSome then some 3
      else if w0T r.w0 && claimedByOther k (c.track (w3Ftrk r.w3)).claim then some 4
      else if ((s.ownCore r).map (· != core)).getD false ∨ ((r.gangSlot).map (· != th)).getD false then some 5
      else none

/-- Frame area of a record on a slot (R223): base and bytes. -/
def frameArea (d : Domain) (w0 w3 : Word) (th : Nat) (ag : Agent) : Act (Word × Nat) := do
  let ovx := w3Ovx w3
  if ovx = 0 then
    if w0T w0 then pure (0, 0)
    else
      let size := if d.slotBytes = 0 then 16384 else d.slotBytes
      pure (addrAdd d.slotBase (size * (4 * coreIn (th / 4) + th % 4)), size)
  else do
    let a ← loadWord ag (addrAdd d.fat (16 * ovx))
    let n ← loadWord ag (addrAdd d.fat (16 * ovx + 8))
    pure (a, n.toNat)

/-- The frames of a store from its words: header by header from word 0 up to FSP (R224). -/
def walkFrames (th fsp : Nat) : Nat → Nat → List Frame → Act (List Frame)
  | 0, _, acc => pure acc
  | fuel + 1, at_, acc =>
    if fsp ≤ at_ then pure acc
    else do
      let h ← frameRead th at_
      if hdrSize h = 0 then pure acc
      else walkFrames th fsp fuel (at_ + hdrSize h) (parseFrames at_ 1 [h] [] ++ acc)

/-- The windows that wst records as resident, loaded from the frame store (R276). -/
def loadWindows (th : Nat) : Nat → Act Unit
  | 0 => pure ()
  | b + 1 => do
    loadWindows th b
    let t := (← get).threadAt th
    match t.winFrames[b]? with
    | some f => do
      let ws ← frameReads th (f.at_ + 1) none 40
      modify fun s => s.modThreadAt th fun t => putRegs t b 0 ws
    | none => pure ()

/-- Held operations as the thread's registers and the LXC of the commands before them complete them. -/
def heldAgain (t : Thread) : Word → List Op → List Op
  | _, [] => []
  | lxc, o :: os =>
    match o.instr with
    | .lda .. | .ldau .. => { o with args := [o.args.getD 0 0, BitVec.ofNat 64 (t.absReg o.served)] } :: heldAgain t lxc os
    | .vlda .. => { o with args := [o.args.getD 0 0] } :: heldAgain t lxc os
    | .lxcfg .. => { o with lxc := lxc } :: heldAgain t (o.args.getD 0 0) os
    | _ => { o with lxc := lxc } :: heldAgain t lxc os

/-- The LXC of the last `lxcfg` of some operations. -/
def lastLxc (lxc : Word) (l : List Op) : Word :=
  l.foldl (fun w o => match o.instr with | .lxcfg .. => o.args.getD 0 0 | _ => w) lxc

/-- Held operations go back to their queues in increasing number, as each has room (R165, R168). -/
def requeueOps (th : Nat) (held : List Op) (s : State) : State :=
  let lxc := (s.coreAt (th / 4)).lxcIssued
  let s := if held.any fun o => o.eng == .me then s.modCoreAt (th / 4) fun c => { c with lxcIssued := lastLxc lxc held } else s
  refillOps th (s.modThreadAt th fun t => { t with requeue := heldAgain t lxc held })

/-- Tokens for a thread that is bound: 16 in its receive queue, the others in its cluster's drawer, ahead of any that
arrive later (spec/14 R244, R245). -/
def deliverTokens (th k : Nat) (toks : List Token) (s : State) : State :=
  let s := s.modThreadAt th fun t => { t with rq := toks.take 16, evf := !toks.isEmpty }
  (toks.drop 16).foldl (fun s x => s.park (clusterOf (th / 4)) k x (domKey (pkgOf (th / 4)) (s.threadAt th).dom)) s

/-- What a follower's words wait for as its gang is bound, the leader's bind waits for. -/
def ofLeader (th f : Nat) (x : Act Unit) : Act Unit := fun s =>
  match x s with
  | .error .wait s' => .error .wait (s'.modThreadAt th fun t => { t with blocked := (s'.threadAt f).blocked })
  | r => r

/-- Bind a queued record to a free slot (R239). A dead slice handle kills the record. Of a suspended record's registers
the windows that are not resident read 0 until `fillw` loads them (log entry 79). -/
def bindThread (k th : Nat) : Act Unit := whole th do
  let s ← get
  let some r := s.recAt k | throw .refuse
  let core := th / 4
  let dk := domKey r.pkg r.dom
  let some d := s.domAt dk | throw .refuse
  let ag : Agent := ⟨r.pkg, some core, th, clusterOf core, r.spn, 0, w0Pc r.w0, 0, .sync th k⟩
  let rd (i : Nat) : Act Word := loadWord ag (addrAdd r.addr (8 * i))
  let w0 ← rd 0
  let w1 ← rd 1
  let w3 ← rd 3
  let args ← [4, 5, 6, 7].mapM rd
  let (ab, al) ← frameArea d w0 w3 th ag
  let ftrk := if w0T w0 then some (w3Ftrk w3) else none
  let t0 : Thread :=
    { bound := true, rec_ := r.addr, flagE := w0E w0, flagM := w0M w0, flagT := w0T w0, dom := r.dom,
      level := d.level, prio := w2Prio r.w2, w3 := w3, spn := r.spn, pc := w0Pc w0, ftrk := ftrk, ab := ab,
      al := al, fsp := 0, frames := [], lastTime := r.lastTime, gang := r.gang, dsyncRes := r.dsyncRes,
      wdTrap := r.wdTrap, fetchFrom := if r.fresh then s.old.length else r.fetchFrom
      constFrom := r.constFrom, constSeen := r.constSeen, tbHold := r.tbHold }
  let live := !r.fresh && ((r.snap.map (·.vlive)).getD r.vlive)
  modify fun s =>
    let s := s.setThreadAt th t0
    let s := (List.range 32).foldl (fun s n =>
      if (s.trackAt core n).claim = .record k then
        s.modTrack core n fun x => { x with claim := .thread (th % 4) } else s) s
    let s := match ftrk with
      | some n => s.modTrack core n fun x => { x with claim := .thread (th % 4) }
      | none => s
    if w0E w0 then
      let s := s.modCoreAt core fun c => { c with owner := some (th % 4) }
      if r.fresh then s.modCoreAt core Core.resetEngine else s
    else s
  -- the slice that the record holds, placed at word 0
  let (w0s, hasImg, loops, dead) ← (do
    match r.snap with
    | some sn =>
      if sn.store.isEmpty then pure (false, false, [], false)
      else do
        frameWrites th 0 none sn.store
        modify fun s => s.modThreadAt th fun t =>
          { t with fsp := sn.store.length, frames := parseFrames 0 sn.store.length sn.store [] }
        pure (false, true, [], false)
    | none =>
      if !w0S w0 then pure (false, false, [], false)
      else do
        let addr := handleAddr w1
        match (← get).heapOwner r.pkg r.spn addr with
        | none => pure (true, false, [], true)
        | some (ok, _) => do
          let hd ← objReads th addr 0 20
          let h0 := hd.getD 0 0
          if ok ≠ dk ∨ !h0.getLsbD 6 ∨ h0.toNat % 64 ≠ handleGen w1 then pure (true, false, [], true)
          else do
            let nw := h0.toNat / 2 ^ 32
            let raw ← objReads th addr 20 nw
            let orig := (hd.getD 1 0).toNat
            let img := rebase orig nw (-(8 * (orig : Int))) 0 false raw
            let img := match img with
              | x :: xs => BitVec.ofNat 64 (x.toNat - x.toNat / 2 ^ 30 % 2 ^ 16 * 2 ^ 30) :: xs
              | [] => []
            frameWrites th 0 none img
            heapStore ((← get).heapAgent th addr) (BitVec.ofNat 64 addr) (h0 &&& ~~~(0x40 : Word))
            freeSlice th addr
            modify fun s => s.modThreadAt th fun t =>
              { t with fsp := nw, frames := parseFrames 0 nw img [] }
            pure (true, true, hd.drop 8, false))
  if dead then modify fun s => endThread th 5 none s
  else do
    if r.fresh then
      if hasImg then do
        modify fun s => s.modThreadAt th fun t =>
          { t.setLoopWords loops with res := 1, depth := t.winFrames.length - 1 }
        loadWindows th 1
      else do
        modify fun s => s.modThreadAt th fun t =>
          putRegs t 0 0 args
        pushFrame th { at_ := 0, kind := .window, size := 41 }
    else do
      let words ← match r.snap with
        | some sn => pure sn.img
        | none => match (← get).imageAddr r with
          | some a => loadWords th a 0 2048
          | none => pure []
      let hl := words.drop 0x700
      let n := (hl.getD 0 0).toNat
      let held := (List.range (min n 15)).filterMap fun m => heldOp th r.heldPc ((hl.drop (8 + 16 * m)).take 16)
      let pairW := (words.drop 0x100).take 1536
      modify fun s =>
        let s := s.modThreadAt th fun t =>
          let fs := t.frames
          let t := loadVectorPart pairW (loadScalar words held t)
          let t := t.setLoopWords ((pairW.drop 0x108).take 12)
          { t with cls := pairW.getD 0x114 0, binds := imageBinds pairW, frames := fs, vlive := live }
        if w0E w0 then s.modCoreAt core (loadEnginePart pairW) else s
      let t := (← get).threadAt th
      if hasImg then pure ()
      else do
        let fs ← walkFrames th t.fsp (t.fsp + 1) 0 []
        modify fun s => s.modThreadAt th fun t => { t with frames := fs }
      loadWindows th t.res
      modify fun s =>
        let s := s.modThreadAt th fun t => putRegs t 0 40 ((words.drop (0x320 / 8)).take 8)
        let s := requeueOps th held s
        match r.image with
        | some i => s.modDomAt dk fun d => { d with images := tdel d.images i }
        | none => s
    r.followers.forM fun (f, ft, ws) => do
      modify fun s =>
        let s := s.setThreadAt f { ft with blocked := none }
        (List.range 32).foldl (fun s n =>
          if (s.trackAt (f / 4) n).claim = savedClaim k f then
            s.modTrack (f / 4) n fun x => { x with claim := .thread (f % 4) } else s) s
      ofLeader th f (frameWrites f 0 none ws)
      modify (refillOps f)
    modify fun s =>
      let (s, parked) := takeParked r.pkg k s
      let inbox := (s.threadAt th).rq.zipIdx.map fun (x, i) => { x with key := ((r.inbox[i]?).map (·.key)).getD 0 }
      let s := deliverTokens th k (inbox ++ parked) s
      let s := s.unqueue k
      let s := s.modRec k fun r => { r with
        slot := some th, image := none, snap := none, followers := [], dsyncRes := none, wdTrap := none, inbox := []
        w0 := r.w0 &&& ~~~(BitVec.ofNat 64 (2 ^ 51) : Word) }
      let s := if w0s then
          let r' := { r with slot := some th }
          recWrite r' (w0Pc w0) 1 (BitVec.allOnes 64) 0 (recWrite r' (w0Pc w0) 0 (BitVec.ofNat 64 (2 ^ 51)) 0 s)
        else s
      let s := s.modClusterAt (clusterOf core) fun c =>
        let e := 4 * (coreIn core % 64) + th % 4
        (c.putSlot0 e r.addr).putSlot1 e (BitVec.ofNat 64 (2 * 2 ^ 62 + 2 ^ 8 + th % 4 * 2 ^ 6 + coreIn core % 64))
      s.setStatus k 2

/-! ## The dispatch of a cluster (R254) -/

/-- The slot that hardware mode picks for a record: the core of least ready count, lowest index, and its
lowest free thread that R253 lets it use. -/
def pickSlot (s : State) (cl k : Nat) : Option Nat :=
  let cands := (List.range 64).filterMap fun i =>
    let core := coreOfCluster cl i
    ((List.range 4).find? fun t => (bindRefusal s k (4 * core + t)).isNone).map fun t => (readyCount s core, 4 * core + t)
  (cands.foldl (fun (m : Option (Nat × Nat)) x => match m with
    | none => some x
    | some y => if x.1 < y.1 then some x else some y) none).map (·.2)

/-- The queued record of highest effective priority, oldest first, that some slot can take. -/
def pickRecord (s : State) (cl : Nat) : Option (Nat × Nat) :=
  let c := s.clusterAt cl
  let able := c.queue.filter fun e => (pickSlot s cl e.key).isSome &&
    ((s.recAt e.key).bind (·.bindWait)).isNone
  (bestEntry (s.now (pkgOfCluster cl)) able).bind fun e => (pickSlot s cl e.key).map fun th => (e.key, th)

/-- An uncorrectable error that the device consumed for a record, at a thread slot, as its context (spec/22 R353): its
domain rolls back, or it ends as killed where the severity matrix says so. -/
def recordError (k : Nat) (r : RecInfo) (th : Nat) (s : State) (e : ErrRep) : State :=
  let dk := domKey r.pkg r.dom
  let (s, cls, taken) := noteError s r.pkg (some (th / 4)) (some th) (((s.domAt dk).map (·.arm)).getD false) e
  if taken = 5 then { s with pend := s.pend ++ [.rollback dk] }
  else if errKills cls taken ∧ s.recLive k then endRecord k 5 none [] false s
  else s

/-- The errors that a bind consumed. -/
def bindError (k : Nat) (r : RecInfo) (th : Nat) (e : ErrRep) (s : State) : State :=
  (e :: e.others.map ErrMore.rep).foldl (recordError k r th) s

/-- The code word of a queue entry is read (spec/22 R349): corrected; where it cannot be, the entry is lost, and the error
is that of its record. -/
def readEntry (cl : Nat) (s : State) (e : QEnt) : State :=
  let put (x : List QEnt) (s : State) : State :=
    s.modClusterAt cl fun c => { c with queue := c.queue.flatMap fun y => if y.key = e.key then x else [y] }
  match wordMask e.err with
  | some m =>
    let s := put [{ e with key := e.key ^^^ m.toNat, err := 0 }] s
    if eccSyndrome e.err = 0 then s else (reportError s (pkgOfCluster cl) none none (regError 0 e.err).control).1
  | none =>
    let s := put [] s
    match s.recAt e.key with
    | some r => bindError e.key r r.writer (regError 1 e.err).control s
    | none => (reportError s (pkgOfCluster cl) none none (regError 1 e.err).control).1

/-- Dispatch reads the queues of a cluster. -/
def scanQueue (cl : Nat) (s : State) : State :=
  ((s.clusterAt cl).queue.filter fun e => e.err != 0).foldl (readEntry cl) s

/-- Bind, or note what the bind met: a translation that is awaited; a delivered fault, an uncorrectable
error or a refused address, which kill the record (log entry 23). -/
def bindOrKill (k th : Nat) : Act Unit := fun s =>
  match s.recAt k with
  | none => .error .refuse s
  | some r =>
    if r.bindFault then .ok () (endRecord k 5 none [] false s)
    else if r.bindWait.isSome then .error .wait s
    else match bindThread k th s with
      | .error .wait s' =>
        let b := (s'.threadAt th).blocked.map fun b => (b.cluster, b.entry, b.gen)
        .error .wait ((s'.modThreadAt th fun t => { t with blocked := none }).modRec k fun r =>
          { r with bindWait := b })
      | .error (.err e) s' => .ok () (bindError k r th e (s.keepStores s'))
      | .error .refuse s' => .error .refuse s'
      | .error _ _ => .ok () (endRecord k 5 none [] false s)
      | .ok _ s' => .ok () s'

/-! ## Forced saves and domain states (R251, R264) -/

/-- A thread is to be saved by force: it stops, its arrival at a `dsync` that counts as not executed is taken back, and
the save follows at its turns until its operations allow it (R264). -/
def State.beginForced (s : State) (th : Nat) (queue : Bool) : State :=
  (unarrive (s.memberKey th) s).modThreadAt th fun t => { t.stopForced with saving := some queue }

/-- The save by force of a thread, when it can be made. A gang's follower is saved with its leader; one whose
leader has left is killed. -/
def forcedSave (th : Nat) : Act Unit := do
  let s ← get
  let t := s.threadAt th
  if (s.keyOf th).isNone then
    match t.gang with
    | some g => if (s.threadAt g.leader).bound then pure () else set (endThread th 5 none s)
    | none => set (endThread th 5 none s)
  else suspendThread th .forced t.pc (t.saving.getD false)

/-- Draining ends when no member is bound any more (R251); a held command follows. -/
def checkDrained (dk : Nat) (s : State) : State :=
  match s.domAt dk with
  | none => s
  | some d =>
    let bound := d.members.any fun k => ((s.recAt k).map fun r => r.status == 2).getD false
    if d.st = .draining ∧ s.domThreads dk = [] ∧ !bound then s.setDomAt dk { d with st := .saved, drainLeft := 0 }
    else s

/-- Resume a saved domain: every record that a pre-empt suspended is queued (R264). -/
def resumeDomain (dk : Nat) (s : State) : State :=
  match s.domAt dk with
  | none => s
  | some d =>
    let s := s.setDomAt dk { d with st := .running }
    d.members.foldl (fun s k => match s.recAt k with
      | some r => if r.status = 3 ∧ r.why = .forced then s.makeQueued k else s
      | none => s) s

/-- Pre-empt a running domain (R264): its threads are woken from `idle` and run on for DRAIN ticks. -/
def preemptDomain (dk : Nat) (s : State) : State :=
  match s.domAt dk with
  | none => s
  | some d =>
    let s := s.setDomAt dk { d with st := .draining, drainLeft := (if d.drain = 0 then 200000 else d.drain), forced := 0 }
    let s := (s.domThreads dk).foldl (fun s th => s.modThreadAt th fun t => { t with evf := true, idle := false }) s
    checkDrained dk s

/-- Kill every member of a domain (R246, R263). Of a level-6 domain the members that had ended here still count on the
other packages (R258). -/
def killDomain (dk : Nat) (s : State) : State :=
  match s.domAt dk with
  | none => s
  | some d =>
    let s := if d.level = 6 then goneSix dk d.ended s else s
    let s := s.setDomAt dk { d with st := .killed, drainLeft := 0, heldCmd := [], due := [], deferred := [] }
    let s := (s.domThreads dk).foldl (fun s th => s.killThread th) s
    let live := d.members.filter fun k => match s.recAt k with
      | some r => r.status == 1 || r.status == 3 || (r.status == 2 && r.slot.isNone)
      | none => false
    let s := live.foldl (fun s k => endRecord k 5 none [] false s) s
    bounceParked dk (freeHeap dk (s.modDomAt dk fun d => { d with st := .killed }))

/-- A command of DCMD on a domain (R251, R263). -/
def domCommand (dk cmd : Nat) (s : State) : State :=
  match s.domAt dk with
  | none => s
  | some d =>
    if !d.st.live then s
    else if cmd = 3 then killDomain dk s
    else match d.st with
      | .draining | .rollingBack => s.setDomAt dk { d with heldCmd := d.heldCmd ++ [cmd] }
      | .running => if cmd = 1 then preemptDomain dk s else s
      | .saved => if cmd = 2 then resumeDomain dk s else s
      | _ => s

/-- Commands held while a domain was draining or rolling back are applied once it is in another state, in the order in
which they came, until one has it drain again (R251). -/
def applyHeldList (dk : Nat) : List Nat → State → State
  | [], s => s
  | c :: cs, s =>
    match s.domAt dk with
    | none => s
    | some d => match d.st with
      | .draining | .rollingBack => s.setDomAt dk { d with heldCmd := d.heldCmd ++ (c :: cs) }
      | _ => applyHeldList dk cs (domCommand dk c s)

def applyHeld (dk : Nat) (s : State) : State :=
  match s.domAt dk with
  | none => s
  | some d =>
    match d.st with
    | .draining | .rollingBack => s
    | _ => applyHeldList dk d.heldCmd (s.setDomAt dk { d with heldCmd := [] })

/-! ## Rollback (R260) -/

/-- The slots of a track are read, those with flips listed through their code; one that cannot be corrected is reported
(spec/22 R350). -/
def scanTrack (c t : Nat) (s : State) : State :=
  (s.trackAt c t).synd.foldl (fun s e => match slotData c t e.1 none s with
    | (s, some _) => s
    | (s, none) => (reportError s (pkgOf c) (some c) none (slotErr (eccSyndrome e.2))).1) s

/-- SRAM of a core restored from t30 and t31: every code word is written whole; one whose slot cannot be corrected takes
the slot's flips (log entry 93). -/
def restoreSram (s : State) (c : Nat) : State :=
  let s := scanTrack c 31 (scanTrack c 30 s)
  let words (t : Nat) : List Byte := (List.range 2048).flatMap fun i => leBytes 8 (tgetD (s.trackAt c t).slots i 0).toNat
  let w0 := sramKey c 0 / 8
  let bad := (s.trackAt c 30).synd ++ (s.trackAt c 31).synd.map fun e => (e.1 + 2048, e.2)
  { s with
    mem := memWrites s.mem (sramKey c 0) (words 30 ++ words 31)
    sramErr := bad.foldl (fun l e => tput l (w0 + e.1) e.2) (clearWhole 8 (sramKey c 0) 32768 s.sramErr) }

/-- Whose the claims of a thread are which leaves its slot: its record's, or a follower's with its gang's leader. -/
def State.claimKey (s : State) (th : Nat) : Claim :=
  match s.keyOf th, (s.threadAt th).gang.bind fun g => s.keyOf g.leader with
  | some k, _ => .record k
  | none, some k => savedClaim k th
  | none, none => .none

/-- A member that has stopped leaves its slot, and its current state is discarded; its claims stay with a record, as they
stand (log entry 91). What it has seen of time and of the constant path stays (spec/12 R206, spec/22 R362). -/
def discardThread (s : State) (x : Nat × Claim) : State :=
  let th := x.1
  let k := s.keyOf th
  let s := s.sampleTime (clusterOf (th / 4))
  let t := s.threadAt th
  let s := s.dropOps th
  let s := s.reclaim th x.2
  let s := (s.dropOwner th).freeSlot th
  match k with
  | some k => s.modRec k fun r => { r with
      slot := none, pinned := some (th / 4), lastSlot := th, lastTime := t.lastTime, constFrom := t.constFrom
      constSeen := t.constSeen, tbHold := max t.tbHold (s.clusterAt (clusterOf (th / 4))).tb }
  | none => s

/-- The context of a record becomes the snapshot's; one that the snapshot does not hold begins again from the
words of its record (log entry 22). The claim table is not part of it (log entry 91). -/
def rewindRecord (dk : Nat) (snaps : Tbl Snap) (s : State) (k : Nat) : State :=
  match s.recAt k with
  | none => s
  | some r =>
    if r.status = 0 ∨ 4 ≤ r.status then s
    else
      let s := s.unqueue k
      let s := match r.image with
        | some i => s.modDomAt dk fun d => { d with images := tdel d.images i }
        | none => s
      let r0 : RecInfo := { r with
        image := none, slot := none, inbox := [], wdTrap := none, faultWait := none, faultFetch := false, waited := 0
        followers := [], status := 3 }
      match tget snaps k with
      | some sn =>
        (recWrite r 0 0 (BitVec.allOnes 64) sn.w0 s).modRec k fun r => { r0 with
          pinned := r.pinned, w0 := sn.w0, snap := some sn, heldPc := sn.heldPc, gang := sn.gang
          followers := sn.followers, fresh := false, why := .dsync, dsyncRes := some 0 }
      | none => s.modRec k fun r => { r0 with
          pinned := r.pinned, snap := none, heldPc := [], gang := none, fresh := true, why := .dsync, dsyncRes := none }

/-- The members of a domain on its package roll back to the snapshot, having stopped: SRAM and heads are restored,
contexts become the snapshot's. The records are queued when the restore completes. A pre-empt that was draining the
domain is held. -/
def rollbackDomain (dk : Nat) (s : State) : State :=
  match s.domAt dk with
  | none => s
  | some d =>
    if 2 ≤ d.snapCount then killDomain dk s
    else
      let cores := d.snapCores
      let s := ((s.domThreads dk).map fun th => (th, s.claimKey th)).foldl discardThread s
      let s := cores.foldl restoreSram s
      let s := d.snapHeads.foldl (fun s (i, h) => s.moveHead (i / 32) (i % 32) h) s
      let s := d.members.foldl (rewindRecord dk d.snapCtx) s
      let s := s.modDomAt dk fun x => { x with
        st := .rollingBack, rbcnt := (x.rbcnt + 1) % 2 ^ 16, snapCount := x.snapCount + 1
        heldCmd := if d.st = .draining then 1 :: x.heldCmd else x.heldCmd
        drainLeft := 0, arrived := [], deferred := [], armReq := none }
      match s.domAt dk with
      | some x => writeDesc dk x s
      | none => s

/-- Every member of the domain, at level 6 on every package that holds it, stops as a forced save stops it, issuing
nothing further; the rollback follows when their operations allow a forced save (R260, R264). -/
def stopAndRollback (dk : Nat) (s : State) : State :=
  let ks := match s.domAt dk with | some d => s.sixDoms dk d | none => [dk]
  let ths := ks.flatMap s.domThreads
  let s := ths.foldl (fun s th => s.modThreadAt th fun t => { t with dying := true }) s
  if ths.all fun th => (s.holdList th true).isSome then ks.foldl (fun s k => rollbackDomain k s) s
  else { s with pend := s.pend ++ [.rollback dk] }

/-- The restore of a rollback is complete: the domain runs, and its records are queued. -/
def restoreDone (dk : Nat) (s : State) : State :=
  match s.domAt dk with
  | none => s
  | some d =>
    let s := s.setDomAt dk { d with st := .running }
    let s := d.members.foldl (fun s k => match s.recAt k with
      | some r => if r.status = 3 ∧ (r.snap.isSome ∨ r.fresh) then s.makeQueued k else s
      | none => s) s
    applyHeld dk s

end Sys2Proof.Machine
end

