-- ==== Sys2Proof/Machine/Sync.lean ====
section
/-! DEFINITION. Operand rings, barrier words, futures and timelines, fences (spec/11 R169-R174,
R186-R192, spec/12 R200-R207). -/

namespace Sys2Proof.Machine

/-! ## Rings (spec/11 R186, R187) -/

def Ring.free (r : Ring) : Nat := r.ns - r.fc
def Ring.slotBytes (r : Ring) : Nat := 64 * r.sb
/-- Offset in the core's SRAM of slot i. -/
def Ring.slotOff (r : Ring) (i : Nat) : Nat := r.base + i * r.slotBytes

/-- Publish one slot. -/
def Ring.publish (r : Ring) : Ring := { r with pp := (r.pp + 1) % r.ns, fc := r.fc + 1 }
/-- Free one slot; its tag is cleared. -/
def Ring.release (r : Ring) : Ring :=
  { r with cp := (r.cp + 1) % r.ns, fc := r.fc - 1, tags := tdel r.tags r.cp }

def iter {α : Type} (f : α → α) : Nat → α → α
  | 0, x => x
  | n + 1, x => iter f n (f x)

/-- The ring as `rstat` shows it (R188). -/
def Ring.stateWord (r : Ring) : Word :=
  BitVec.ofNat 64 (r.pp + 2 ^ 8 * r.cp + 2 ^ 16 * r.fc + 2 ^ 24 * r.ns + 2 ^ 32 * r.sb)

/-- The path 0x1 address of a ring slot. -/
def Ring.slotAddr (r : Ring) (i : Nat) : Word := BitVec.ofNat 64 (2 ^ 60 + r.slotOff i)

/-- A stream register of a thread is bound to a ring (spec/08 R140). -/
def Thread.ringBound (t : Thread) (q : QIdx) : Bool :=
  t.binds.any fun (_, b) => b.kind ≤ 1 && b.ring == q.toNat

/-- `ring` (R186). -/
def ringAct (q : QIdx) (a : GReg) (sb ns : Nat) (pool : Bool) (kf : Nat) : Act Next := do
  let s ← get
  let base := s.g a
  let x := low60 base
  trapIf (selector base != 1 || decide (2 ^ 15 ≤ x)) (trAccess base)
  trapIf (x % 64 != 0) (trMisaligned base)
  trapIf (decide (32768 < x + ns * (64 * sb))) (trAccess base)
  trapIf (s.th.ringBound q) (trRing (q.setWidth 64))
  if s.core.ringBusy q then stopWait
  else onState fun s => s.modCore fun c =>
    c.setRing q.toNat { base := x, sb := sb, ns := ns, pool := pool, kf := kf }

/-- The declared ring of an operand, or ring-misuse. -/
def ringOperand (q : QIdx) : Act Ring := do
  let r := (← get).core.ring q.toNat
  trapIf (r.ns == 0) (trRing (q.setWidth 64))
  pure r

/-- Change a ring of the current core. -/
def setRingHere (q : QIdx) (r : Ring) : Act Next := onState fun s => s.modCore fun c => c.setRing q.toNat r

def execRing (gd : Guard) (q : QIdx) (a : GReg) (sb : BitVec 8) (ns : BitVec 7) (pool : Bool)
    (kf : BitVec 6) (s : State) : Outcome :=
  issue (.ring gd q a sb ns pool kf) (ringAct q a sb.toNat ns.toNat pool kf.toNat) s

def execRpub (gd : Guard) (q : QIdx) (b : GReg) (s : State) : Outcome :=
  issue (.rpub gd q b) (do
    let r ← ringOperand q
    let n := ((← get).g b).toNat
    trapIf (decide (r.free < n)) (trRing (q.setWidth 64))
    setRingHere q (iter Ring.publish n r)) s

def execRadv (gd : Guard) (q : QIdx) (b : GReg) (s : State) : Outcome :=
  issue (.radv gd q b) (do
    let r ← ringOperand q
    let n := ((← get).g b).toNat
    trapIf (decide (r.fc < n)) (trRing (q.setWidth 64))
    setRingHere q (iter Ring.release n r)) s

def execRwait (gd : Guard) (q : QIdx) (b : GReg) (s : State) : Outcome :=
  issue (.rwait gd q b) (do
    let r ← ringOperand q
    let n := ((← get).g b).toNat
    trapIf (decide (r.ns < n)) (trRing (q.setWidth 64))
    if n ≤ r.fc then pure .fall else stopWait) s

def execRfree (gd : Guard) (q : QIdx) (b : GReg) (s : State) : Outcome :=
  issue (.rfree gd q b) (do
    let r ← ringOperand q
    let n := ((← get).g b).toNat
    trapIf (decide (r.ns < n)) (trRing (q.setWidth 64))
    if n ≤ r.free then pure .fall else stopWait) s

def execRstat (gd : Guard) (d : GReg) (q : QIdx) (sel : BitVec 2) (s : State) : Outcome :=
  issue (.rstat gd d q sel) (do
    let r ← ringOperand q
    trapIf (sel == 3) (trRing (q.setWidth 64))
    onThread fun t => t.setG d (match sel.toNat with
      | 0 => r.stateWord
      | 1 => r.slotAddr r.pp
      | _ => r.slotAddr r.cp)) s

/-! ## Barrier words (spec/11 R190, R191) -/

def barPh (w : Word) : Bool := w.getLsbD 63
def barPend (w : Word) : Int := (BitVec.ofNat 21 (w.toNat / 2 ^ 40)).toInt
def barArr (w : Word) : Nat := w.toNat / 2 ^ 20 % 2 ^ 20
def barExp (w : Word) : Nat := w.toNat % 2 ^ 20

def mkBarrier (ph : Bool) (pend : Int) (arr exp : Nat) : Word :=
  BitVec.ofNat 64 (2 ^ 63 * ph.toNat + 2 ^ 40 * (BitVec.ofInt 21 pend).toNat + 2 ^ 20 * (arr % 2 ^ 20) + exp % 2 ^ 20)

/-- An update by a arrivals and b bytes (R191); none when it is refused. -/
def barrierStep (w : Word) (a : Nat) (b : Int) : Option Word :=
  let arr := barArr w + a
  let pend := barPend w + b
  if (a ≠ 0 ∧ barExp w < arr) ∨ pend < -(2 ^ 20) ∨ 2 ^ 20 - 1 < pend then none
  else if arr = barExp w ∧ pend = 0 then some (mkBarrier (!barPh w) 0 0 (barExp w))
  else some (mkBarrier (barPh w) pend arr (barExp w))

/-- The key of a barrier word (R178 steps 3 and 4): the paths, then 0x1-0x4, then alignment. -/
def barrierKey (s : State) (ag : Agent) (ea : Word) : Except Trap Nat :=
  match pathCheck s ag .atomic false ea with
  | .error t => .error t
  | .ok (.sram k) => if ea.toNat % 8 = 0 then .ok k else .error (trMisaligned ea)
  | .ok _ => .error (trAccess ea)

/-- The key, or the trap. -/
def barrierAt (ag : Agent) (ea : Word) : Act Nat := do
  match barrierKey (← get) ag ea with
  | .error t => stopTrap t
  | .ok k => pure k

def cellWord (ag : Agent) (k : Nat) : Act Word := do
  pure (BitVec.ofNat 64 (leVal (← cellRead ag k 8)))

/-- The BAR error of a refused update (R191). -/
def barError (ea : Word) : ErrRep := { cls := 4, src := 7, addr := ea, synd := ea.toNat % 2 ^ 32 }

/-- One indivisible update at a barrier word on behalf of a thread: the word before it. A refused update
changes nothing and is reported. -/
def barrierUpdate (ag : Agent) (ea : Word) (k a : Nat) (b : Int) : Act Word := do
  let w ← cellWord ag k
  match barrierStep w a b with
  | some w' => cellWrite ag k (leBytes 8 w'.toNat)
  | none => modify fun s => (reportError s ag.pkg (some (ag.th / 4)) (some ag.th) (barError ea)).1
  pure w

/-- `arrive` and `arrivetx` (R192). -/
def arriveBar (d a : GReg) (b : Int) : Act Next := do
  let s ← get
  let ea := s.g a
  let k ← barrierAt s.lsu ea
  let w ← barrierUpdate s.lsu ea k 1 b
  onThread fun t => t.setG d (BitVec.ofNat 64 (barPh w).toNat)

def execBinit (gd : Guard) (a b : GReg) (s : State) : Outcome :=
  issue (.binit gd a b) (do
    let s ← get
    let n := (s.g b).toNat
    trapIf (n == 0 || decide (2 ^ 20 ≤ n)) (trRing (s.g b))
    let k ← barrierAt s.lsu (s.g a)
    cellWrite s.lsu k (leBytes 8 n)
    pure .fall) s

def execArrive (gd : Guard) (d a : GReg) (s : State) : Outcome := issue (.arrive gd d a) (arriveBar d a 0) s

def execArrivetx (gd : Guard) (d a b : GReg) (s : State) : Outcome :=
  issue (.arrivetx gd d a b) (do
    let v := (← get).g b
    trapIf (decide (v.toInt < -(2 ^ 20)) || decide (2 ^ 20 - 1 < v.toInt)) (trRing v)
    arriveBar d a v.toInt) s

/-- The phase bit of a barrier word differs from a parity. -/
def phaseDone (a b : GReg) : Act Bool := do
  let s ← get
  let k ← barrierAt s.lsu (s.g a)
  let w ← cellWord s.lsu k
  pure (barPh w != (s.g b).getLsbD 0)

def execBwait (gd : Guard) (a b : GReg) (s : State) : Outcome :=
  issue (.bwait gd a b) (do
    if ← phaseDone a b then onThread fun t => { t with waiting := none, waited := 0 }
    else do
      updTh fun t => { t with waiting := some (.bwait (t.g a)) }
      stopWait) s

/-- `btest` (R192): pt, then pf, are written, so that one predicate named as both holds the complement (log entry
98). -/
def execBtest (gd : Guard) (pt pf : PIdx) (a b : GReg) (s : State) : Outcome :=
  issue (.btest gd pt pf a b) (do
    let c ← phaseDone a b
    onThread (setPair pt pf c)) s

/-! ## Futures and timelines (spec/11 R169-R174) -/

/-- Complete an instruction and suspend its thread behind it (spec/14 R240, R243). -/
def suspendAfter (i : Instr) (why : Suspend) : Act Next := do
  let th := (← get).tk
  whole th do
    modify fun s => s.setTh (advanceThread i s.th s.th none)
    suspendThread th why (← get).th.pc true
  pure .left

/-- The trap at a faulted future, chosen by its FADDR (R171). -/
def futureTrap (fa : Word) : Trap :=
  let low := BitVec.ofNat 64 (low60 fa)
  let t := match selector fa with
    | 0xD => trChecksum low
    | 0xE => trShift low
    | 0xF => trStale low
    | _ => trDelivered fa
  { t with async := true }

def execFwait (gd : Guard) (f : FIdx) (s : State) : Outcome :=
  issue (.fwait gd f) (do
    let x := (← get).th.fr f
    if !x.v then pure .fall
    else match x.st with
      | .pending => stopWait
      | .faulted => stopTrap (futureTrap x.faddr)
      | .done => if x.c then suspendAfter (.fwait gd f) .yield else pure .fall) s

/-- The snapshot of R172. -/
def snapshot (x : Future) : Bool × Bool :=
  if !x.v then (true, false)
  else match x.st with
    | .pending => (false, false)
    | .faulted => (false, true)
    | .done => (true, x.c)

def execFtst (gd : Guard) (pt pf : PIdx) (f : FIdx) (s : State) : Outcome :=
  issue (.ftst gd pt pf f) (onThread fun t => setSnap pt pf (snapshot (t.fr f)).1 (snapshot (t.fr f)).2 t) s

/-- Cancel an operation of a thread that has not started (R173). -/
def cancelIf (th : Nat) (e : Eng) (n : Nat) (s : State) : State :=
  match (s.opsOf th e).find? fun o => o.num == n with
  | some o => if o.started then s else s.cancelOp o
  | none => s

def execFcan (gd : Guard) (f : FIdx) (s : State) : Outcome :=
  issue (.fcan gd f) (onState fun s =>
    let x := s.th.fr f
    if x.v then cancelIf s.tk x.eng x.n s else s) s

def execFmov (gd : Guard) (fd fa : FIdx) (s : State) : Outcome :=
  issue (.fmov gd fd fa) (onThread fun t => t.setF fd (t.fr fa)) s

def execFmovClr (gd : Guard) (fd : FIdx) (s : State) : Outcome :=
  issue (.fmovClr gd fd) (onThread fun t => t.setF fd {}) s

def execTlwait (gd : Guard) (eng : Eng) (a : GReg) (s : State) : Outcome :=
  issue (.tlwait gd eng a) (do
    let s ← get
    let n := (s.g a).toNat
    let l := s.th.tl eng
    trapIf (decide (l.last < n)) (trRing (s.g a))
    if n ≤ l.cur then pure .fall else stopWait) s

def execTlrd (gd : Guard) (eng : Eng) (d : GReg) (last : Bool) (s : State) : Outcome :=
  issue (.tlrd gd eng d last) (onThread fun t =>
    t.setG d (BitVec.ofNat 64 (if last then (t.tl eng).last else (t.tl eng).cur))) s

/-! ## Fences (spec/12 R202, R203)

Every access takes effect in the one order of the turns, so that only the wait of kind `.e` is left, and
what a package-scope `.ll` fence means for the constant path (R206). -/

/-- A fence of kind `.ll` at a scope orders the thread's later constant-path loads. -/
def constFence (wide : Bool) (s : State) : State :=
  if wide then s.modTh fun t => { t with constFrom := s.old.length } else s

def execFence (gd : Guard) (sc : Scope) (kinds : BitVec 5) (s : State) : Outcome :=
  issue (.fence gd sc kinds) (do
    let s ← get
    if kinds.getLsbD 4 && !(s.allOps s.tk).isEmpty then stopWait
    else onState (constFence (kinds.getLsbD 0 && (sc == .pkg || sc == .dom)))) s

end Sys2Proof.Machine
end

