-- ==== Sys2Proof/Machine/Copy.lean ====
section
/-! DEFINITION. The copy commands at issue: their form, their patterns and their checks (spec/11 R176-R178, R182-R185,
R189). -/

namespace Sys2Proof

/-! ## The form of a command -/

def Instr.copyBar : Instr → BarOp
  | .cp _ _ _ _ _ bar .. | .cpm _ _ _ _ _ _ bar .. | .cpg _ _ _ _ _ _ _ bar _ | .cpr _ _ _ _ _ bar ..
  | .cps _ _ _ _ _ bar _ => bar
  | _ => .none

def Instr.copySplit : Instr → Bool
  | .cp _ _ _ _ _ _ _ spl | .cpm _ _ _ _ _ _ _ _ spl _ => spl.isSome
  | .cpg _ _ _ _ _ _ _ _ spl | .cpr _ _ _ _ _ _ _ spl => spl
  | _ => false

def Instr.copyDim : Instr → Dim
  | .cp _ _ _ _ _ _ dim _ | .cpm _ _ _ _ _ _ _ dim .. | .cpsig _ _ _ _ _ _ dim => dim
  | _ => .d1

/-- The ring that a ring copy names. -/
def Instr.copyRing : Instr → Option QIdx
  | .cpr _ _ q .. | .cps _ _ _ q .. => some q
  | _ => none

def barG (b : BarOp) : GReg := (barRegs b).headD 0

/-- The registers of O1, O2, O4, O5, O6 and those from O3 up (R176); g0 for an unused slot. -/
def Instr.copyRegs : Instr → List GReg × List GReg
  | .cp _ _ d a l bar dim spl => ([d, a, barG bar, 0, spl.getD 0], gRange l (dimRegs dim))
  | .cpm _ _ d a l m bar dim spl _ => ([d, a, barG bar, m, spl.getD 0], gRange l (dimRegs dim))
  | .cpg _ _ d tab tok cnt bpt bar _ => ([d, tab, barG bar, cnt, bpt], [tok])
  | .cpr _ _ _ a cnt bar str _ => ([0, a, barG bar, str.getD 0, 0], [cnt])
  | .cps _ _ d _ cnt bar str => ([d, 0, barG bar, str.getD 0, 0], [cnt])
  | .cpsig _ _ d a l sg dim => ([d, a, sg, 0, 0], gRange l (dimRegs dim))
  | _ => ([], [])

end Sys2Proof

namespace Sys2Proof.Machine

/-! ## Patterns (R177) -/

/-- A pattern: c2 planes of c1 runs. -/
structure Pattern where
  run : Nat
  c1 : Nat := 1
  s1 : Int := 0
  d1 : Int := 0
  c2 : Nat := 1
  s2 : Int := 0
  d2 : Int := 0
  deriving DecidableEq, Repr

/-- The pattern that the registers from O3 up hold. -/
def patternOf (dim : Dim) (w : List Word) : Pattern :=
  let x (i : Nat) : Word := w.getD i 0
  match dim with
  | .d1 => { run := (x 0).toNat }
  | .d2 => { run := (x 0).toNat, c1 := (x 1).toNat, s1 := (x 2).toInt, d1 := (x 3).toInt }
  | .d3 => { run := (x 0).toNat, c1 := (x 1).toNat, s1 := (x 2).toInt, d1 := (x 3).toInt
             c2 := (x 4).toNat, s2 := (x 5).toInt, d2 := (x 6).toInt }

/-- The first run, count or product outside 0 to 2^32 - 1. -/
def Pattern.bad (p : Pattern) : Option Nat :=
  [p.run, p.c1, p.c2, p.run * p.c1, p.c1 * p.c2, p.run * p.c2, p.run * p.c1 * p.c2].find? fun n => 2 ^ 32 ≤ n

def Pattern.bytes (p : Pattern) : Nat := p.run * p.c1 * p.c2

/-- Source and destination offsets of the runs in pattern order. -/
def Pattern.runs (p : Pattern) : List (Int × Int) :=
  (List.range p.c2).flatMap fun (j2 : Nat) => (List.range p.c1).map fun (j1 : Nat) =>
    ((j1 : Int) * p.s1 + (j2 : Int) * p.s2, (j1 : Int) * p.d1 + (j2 : Int) * p.d2)

/-- The lowest and highest offset that a side of a pattern reaches, each with its place in pattern order. -/
structure Reach where
  lo : Int
  loAt : Nat
  hi : Int
  hiAt : Nat
  deriving DecidableEq, Repr

/-- The reach of one side; none when the pattern moves nothing. -/
def Pattern.reach (p : Pattern) (s1 s2 : Int) : Option Reach :=
  if p.bytes = 0 then none
  else
    let low (c : Nat) (s : Int) : Nat := if s < 0 then c - 1 else 0
    let high (c : Nat) (s : Int) : Nat := if s < 0 then 0 else c - 1
    let off (j1 j2 : Nat) : Int := (j1 : Int) * s1 + j2 * s2
    let at_ (j1 j2 : Nat) : Nat := (j2 * p.c1 + j1) * p.run
    let (a1, a2, b1, b2) := (low p.c1 s1, low p.c2 s2, high p.c1 s1, high p.c2 s2)
    some ⟨off a1 a2, at_ a1 a2, off b1 b2 + p.run - 1, at_ b1 b2 + p.run - 1⟩

/-! ## Checks at issue (R178) -/

/-- A failing path as the access trap. -/
def pathTrap (s : State) (ag : Agent) (acc : Acc) (ea : Word) : Option Trap :=
  match pathCheck s ag acc false ea with
  | .error t => some t
  | .ok _ => none

/-- Byte ranges of the frame store that a copy may not touch: below the frame area, from the stack's end up, the
resident windows' registers, and for a store headers and delimiters (spec/14 R228). -/
def Thread.shutSpans (t : Thread) (store : Bool) : List (Int × Int) :=
  let far : Int := 2 ^ 63
  [(-far, if t.ftrk.isSome then 16384 else 0), (8 * (t.fsp : Int), far)] ++
  (t.residentFrames.map fun f => (8 * (f.at_ : Int) + 8, 8 * (f.at_ : Int) + 328)) ++
  (if store then t.frames.map fun f =>
      (8 * (f.at_ : Int), 8 * ((f.at_ : Int) + if f.kind == .window then 1 else f.size))
    else [])

/-- The offset of a run of n bytes that touches one of some ranges. -/
def shutRun (spans : List (Int × Int)) (a : Int) (n : Nat) : Option Int :=
  if 0 < n ∧ spans.any (fun x => decide (x.1 < a + n) && decide (a < x.2)) then some a else none

/-- The first of n tries, from number i up, that finds something. -/
def firstOf {α : Type} (f : Nat → Option α) : Nat → Nat → Option α
  | 0, _ => none
  | n + 1, i => match f i with
    | some x => some x
    | none => firstOf f n (i + 1)

/-- The offset of the first run of a side, in pattern order, that touches one of some ranges; runs on one place are
tried once. -/
def Pattern.firstShut (p : Pattern) (spans : List (Int × Int)) : Option Int :=
  let times (c : Nat) (s : Int) : Nat := if s = 0 then min c 1 else c
  firstOf (fun j2 => firstOf (fun j1 => shutRun spans ((j1 : Int) * p.s1 + j2 * p.s2) p.run) (times p.c1 p.s1) 0)
    (times p.c2 p.s2) 0

/-- Step 3 for one address and the side of a pattern there: the path, on the SRAM paths the two ends of the reach, on
path 0x5 every byte (spec/14 R228), which is resolved to frame-area addresses; on path 0x5 the address of a run that
fails is the failing address, on an SRAM path the byte at the end of the reach (log entry 30). It answers the address
to use. -/
def copyPath (acc : Acc) (ea : Word) (p : Pattern) : Act Word := do
  let s ← get
  let ag := s.lsu
  match pathCheck s ag acc false ea with
  | .error t => stopTrap t
  | .ok (.frame o) =>
    let t := s.th
    match p.firstShut ((t.shutSpans (acc != .load)).map fun x => (x.1 - o, x.2 - o)) with
    | some d => stopTrap (trAccess (addrAdd ea d))
    | none => pure (t.frameAddr o)
  | .ok (.sram _) => do
    match p.reach p.s1 p.s2 with
    | none => pure ()
    | some r =>
      let lo := pathTrap s ag acc (addrAdd ea r.lo)
      let hi := pathTrap s ag acc (addrAdd ea r.hi)
      match lo, hi with
      | some a, some b => stopTrap (if r.loAt ≤ r.hiAt then a else b)
      | some a, none => stopTrap a
      | none, some b => stopTrap b
      | none, none => pure ()
    pure ea
  | .ok _ => pure ea

/-- An address that has to lie on path 0x2 (R182). -/
def needCluster (b : Bool) (ea : Word) : Act Unit := trapIf (b && selector ea != 2) (trAccess ea)

/-- Step 2: the operands; it answers the bytes bound for one barrier word, as the pattern counts them at the source
(log entry 96). -/
def copyOperands (i : Instr) (w v : List Word) : Act Nat := do
  let x (k : Nat) : Word := w.getD k 0
  let dim (n : Nat) : Act Nat := do
    let p := patternOf i.copyDim v
    match p.bad with
    | some b => stopTrap (trRing (BitVec.ofNat 64 b))
    | none => pure (p.bytes * n)
  match i with
  | .cpm _ _ _ _ _ _ _ _ _ bsh => dim (if bsh then popCount (x 3) 64 else 1)
  | .cpg .. => do
    let cnt := (x 3).toNat
    let bpt := (x 4).toNat
    trapIf (cnt == 0 || decide (65536 < cnt)) (trRing (x 3))
    trapIf (bpt == 0 || decide (65536 < bpt)) (trRing (x 4))
    pure (cnt * bpt)
  | .cpr _ _ q .. | .cps _ _ _ q .. => do
    let cnt := (v.getD 0 0).toNat
    trapIf (decide (2 ^ 32 ≤ cnt)) (trRing (v.getD 0 0))
    let r ← ringOperand q
    trapIf (i.copySplit && !r.pool) (trRing (q.setWidth 64))
    pure (cnt * r.slotBytes)
  | _ => dim 1

/-- The stride of a ring copy: STR names a register, or the slots are dense (R189). -/
def ringStride (i : Instr) (w : List Word) (slotBytes : Nat) : Int :=
  match i with
  | .cpr _ _ _ _ _ _ (some _) _ | .cps _ _ _ _ _ _ (some _) => (w.getD 3 0).toInt
  | _ => slotBytes

/-- The two sides of a command, each as a pattern of its first two strides. -/
def copySides (i : Instr) (w v : List Word) (s : State) : Pattern × Pattern :=
  let p := patternOf i.copyDim v
  match i with
  | .cpg .. => ({ run := 64 }, { run := (w.getD 3 0).toNat * (w.getD 4 0).toNat })
  | .cpr _ _ q .. | .cps _ _ _ q .. =>
    let n := (s.core.ring q.toNat).slotBytes
    let r : Pattern := { run := n, c1 := (v.getD 0 0).toNat, s1 := ringStride i w n }
    (r, r)
  | _ => (p, { p with s1 := p.d1, s2 := p.d2 })

/-- Parts of n bytes at a low address that cross no multiple of 32 KiB: offset and length. -/
def parts (low : Nat) : Nat → Nat → Nat → List (Nat × Nat)
  | 0, _, _ => []
  | fuel + 1, off, left =>
    if left = 0 then []
    else
      let k := min left (32768 - (low + off) % 32768)
      (off, k) :: parts low fuel (off + k) (left - k)

def partsOf (ea : Word) (n : Nat) : List (Nat × Nat) := parts (low60 ea) (n / 32768 + 2) 0 n

/-- Element width in bits for counting the blocks of a page (R181). -/
def TlbEnt.ebits (e : TlbEnt) : Nat := if e.elem = 0 then 8 else elemBits e.elem

/-- The blocks of 32 elements that n bytes at page offset po reach: each with the key of its scale byte, none for a
page without scales, and the first byte of it that is reached, counted from po (spec/10 R153, R181). -/
def TlbEnt.blocks (e : TlbEnt) (pkg po n : Nat) : List (Nat × Option Nat × Nat) :=
  let j0 := po * 8 / e.ebits
  let j1 := ((po + n) * 8 + e.ebits - 1) / e.ebits
  let key (i : Nat) : Nat := pkg * 2 ^ 48 + e.sframe + i
  let at_ (j : Nat) : Nat := j * e.ebits / 8 - po
  if n = 0 then []
  else if e.geo = 2 then
    let m := 8 * 2 ^ (e.rl + 6) / e.ebits
    ((List.range ((j1 - 1) / m + 1 - j0 / m)).filter fun i => (j0 / m + i) % 32 == 0).flatMap fun i =>
      let r := j0 / m + i
      let lo := max j0 (r * m)
      (List.range (min j1 (r * m + m) - lo)).map fun d =>
        let so := r / 32 * m + (lo + d) % m
        (so, some (key so), at_ (lo + d))
  else (List.range ((j1 - 1) / 32 + 1 - j0 / 32)).map fun i =>
    let b := j0 / 32 + i
    (b, if e.geo = 0 then none else some (key b), at_ (32 * b))

/-- The translation that stands for a page of a copy's source at issue; where there is none, one without scales (log
entry 88). -/
def State.standing (s : State) (va : Nat) : TlbEnt :=
  ((s.clusterAt s.lsu.cluster).tlb.find? fun (e : TlbEnt) => e.hits s.lsu.spn va).getD ⟨0, 0, 0⟩

/-- How many scale bytes a split pattern delivers under the translations that stand at issue. -/
def scaleCount (s : State) (src : Word) (p : Pattern) : Nat :=
  p.runs.foldl (fun n x => (partsOf (addrAdd src x.1) p.run).foldl (fun n y =>
    let va := low60 (addrAdd src (x.1 + y.1))
    n + ((s.standing va).blocks 0 (va % (s.standing va).size) y.2).length) n) 0

/-- Package that an address names on path 0x8. -/
def remoteId (ea : Word) : Option Nat := if selector ea = 8 then some (low60 ea / 2 ^ 46) else none

/-- Steps 2 to 4 of R178: the arguments to record, whether a path 0x5 address is among them, whether the
source was one. -/
def copyChecks (i : Instr) : Act (List Word × Bool × Bool) := do
  let s ← get
  let w := (Instr.copyRegs i).1.map s.g
  let v := (Instr.copyRegs i).2.map s.g
  let x (k : Nat) : Word := w.getD k 0
  let n ← copyOperands i w v
  let bar := i.copyBar
  match bar with
  | .bytes _ => trapIf (decide (2 ^ 20 - 1 < n)) (trRing (BitVec.ofNat 64 n))
  | _ => pure ()
  let (sr, dr) := copySides i w v s
  let isM := match i with | .cpm .. => true | _ => false
  let isSig := match i with | .cpsig .. => true | _ => false
  let own := match i with | .cpm _ _ _ _ _ _ _ _ _ bsh => !bsh | _ => false
  let src ← match i with | .cps .. => pure (x 1) | _ => copyPath .load (x 1) sr
  needCluster isM (x 0)
  let dst ← match i with | .cpr .. => pure (x 0) | _ => copyPath .store (x 0) dr
  if bar != .none then do
    needCluster own (x 2)
    match pathTrap s s.lsu .atomic (x 2) with
    | some t => stopTrap t
    | none => pure ()
  let sg ← if isSig then do
      let a ← copyPath .atomic (x 2) { run := if (x 2).toNat % 8 = 0 then 8 else 1 }
      trapIf (remoteId (x 2) != remoteId (x 0)) (trAccess (x 2))
      pure a
    else pure (x 2)
  let sc ← match i with
    | .cp _ _ _ _ _ _ _ (some _) | .cpm _ _ _ _ _ _ _ _ (some _) _ => do
      needCluster isM (x 4)
      let n := if selector (x 4) = 5 ∧ selector (x 1) = 0 then scaleCount s (x 1) sr else 1
      copyPath .store (x 4) { run := n }
    | _ => pure (x 4)
  if bar != .none then do
    trapIf (decide (selector (x 2) = 0) || decide (4 < selector (x 2))) (trAccess (x 2))
    trapIf ((x 2).toNat % 8 != 0) (trMisaligned (x 2))
  trapIf (isSig && (x 2).toNat % 8 != 0) (trMisaligned (x 2))
  let used5 := ([x 1, x 0, x 2, x 4].any fun a => selector a == 5)
  pure ([dst, src, sg, x 3, sc] ++ v, used5, selector (x 1) == 5)

/-- A copy command at issue. A `cpm` to no core completes at once (R182). -/
def copyIssue (i : Instr) (fd : FIdx) : Act Next := do
  let (args, used5, src5) ← copyChecks i
  if 2 ≤ (← get).core.ce.length then stopWait
  else do
    modify (enqueueOp .ce i fd fun o => { o with args := args, frame := used5, noSplit := src5 })
    match i with
    | .cpm .. =>
      if args.getD 3 0 = 0 then
        modify fun s => match s.core.ce.getLast? with
          | some o => s.endOp o .done false 0
          | none => s
      else pure ()
    | _ => pure ()
    pure .fall

def execCp (gd : Guard) (fd : FIdx) (dst src len : GReg) (bar : BarOp) (dim : Dim) (spl : Option GReg)
    (s : State) : Outcome :=
  let i := Instr.cp gd fd dst src len bar dim spl
  issue i (copyIssue i fd) s

def execCpm (gd : Guard) (fd : FIdx) (dst src len mask : GReg) (bar : BarOp) (dim : Dim)
    (spl : Option GReg) (bsh : Bool) (s : State) : Outcome :=
  let i := Instr.cpm gd fd dst src len mask bar dim spl bsh
  issue i (copyIssue i fd) s

def execCpg (gd : Guard) (fd : FIdx) (dst tab tok cnt bpt : GReg) (bar : BarOp) (spl : Bool)
    (s : State) : Outcome :=
  let i := Instr.cpg gd fd dst tab tok cnt bpt bar spl
  issue i (copyIssue i fd) s

def execCpr (gd : Guard) (fd : FIdx) (q : QIdx) (src cnt : GReg) (bar : BarOp) (str : Option GReg)
    (spl : Bool) (s : State) : Outcome :=
  let i := Instr.cpr gd fd q src cnt bar str spl
  issue i (copyIssue i fd) s

def execCps (gd : Guard) (fd : FIdx) (dst : GReg) (q : QIdx) (cnt : GReg) (bar : BarOp)
    (str : Option GReg) (s : State) : Outcome :=
  let i := Instr.cps gd fd dst q cnt bar str
  issue i (copyIssue i fd) s

def execCpsig (gd : Guard) (fd : FIdx) (dst src len sig : GReg) (dim : Dim) (s : State) : Outcome :=
  let i := Instr.cpsig gd fd dst src len sig dim
  issue i (copyIssue i fd) s

/-- Cancel the copies of a thread numbered n or above that have not started: how many (R185). -/
def cancelFrom (th n : Nat) (s : State) : State × Nat :=
  let l := (s.opsOf th .ce).filter fun o => !o.started && decide (n ≤ o.num)
  (l.foldl (fun s o => s.cancelOp o) s, l.length)

def execCpcan (gd : Guard) (d a : GReg) (s : State) : Outcome :=
  issue (.cpcan gd d a) (onState fun s =>
    let (s', n) := cancelFrom s.tk (s.g a).toNat s
    s'.setG d (BitVec.ofNat 64 n)) s

end Sys2Proof.Machine
end

