-- ==== Sys2Proof/Machine/CopyRun.lean ====
section
/-! DEFINITION. A copy as it runs: the pages that it holds, its plan, its bytes landing, its end, ring slots, gathers
and signals (spec/11 R167, R168, R179-R184, R189, spec/12 R209, spec/20 R325, R326). At a turn of its own before its
end it may read any of its bytes, and write any that it has read; the rest is read and then written at the end, or at
the end of one slot or destination (log entry 30). -/

namespace Sys2Proof.Machine

/-! ## Places of a copy in progress -/

/-- The agent of an engine operation (spec/10 R156). -/
def State.opAgent (s : State) (o : Op) : Agent :=
  let core := o.th / 4
  ⟨pkgOf core, some core, o.th, clusterOf core, (s.threadAt o.th).spn,
    match o.eng with | .ld => 2 | _ => 3, o.pc, o.num, .op o.th o.eng o.num⟩

/-- An operation in its queue. -/
def State.opAt (s : State) (th : Nat) (e : Eng) (n : Nat) : Option Op :=
  (match e with
    | .ld => (s.threadAt th).ldq
    | .ce => (s.coreAt (th / 4)).ce
    | .te => (s.coreAt (th / 4)).te
    | .me => (s.coreAt (th / 4)).me).find? fun o => o.th == th && o.eng == e && o.num == n

def State.modOp (s : State) (o : Op) (f : Op → Op) : State :=
  s.modOps o.th o.eng fun l => l.map fun x => if x.th = o.th ∧ x.num = o.num then f x else x

/-- The cluster in whose TLB an agent's access to a package is translated. -/
def Agent.tlbOf (ag : Agent) (pkg : Nat) : Nat :=
  if pkg = ag.pkg then ag.cluster else pkg * Config.clusters + clusterIn ag.cluster

/-- A permission that an entry grants joins those of a held translation of the same page. -/
def Pin.allow (p : Pin) (e : TlbEnt) : Pin := { p with ent := { p.ent with d := p.ent.d ||| (e.d &&& 7) } }

/-- Translate for a copy: the translation that it holds, or a new one, which it then holds (spec/10 R164). Of the pages
that it holds the one that it touched first stands for an address; where that lacks a permission, one that grants it is
found, and the frames stay those held. Without `post`, only what it holds. What is to leave for another package waits
until it can be sent. -/
def pinTranslate (ag : Agent) (o : Op) (post : Bool) (pkg va : Nat) (acc : Acc) (addr : Word) :
    Act (Nat × TlbEnt) := do
  let s ← get
  let cl := ag.tlbOf pkg
  let at_ (e : TlbEnt) : Nat := pkg * 2 ^ 48 + e.frame + va % e.size
  match ((s.opAt o.th o.eng o.num).getD o).held.find? fun p => p.cluster == cl && p.ent.hits ag.spn va with
  | some p =>
    if post && pkg != ag.pkg && !(s.canSend ag.pkg pkg va) then stopWait
    else if p.ent.permits acc then pure (at_ p.ent, p.ent)
    else if post then do
      let (_, e) ← translate ag pkg va acc addr (ask := false)
      let q := p.allow e
      modify fun s => s.modOp o fun x => { x with held := x.held.map fun y => if y = p then q else y, wait := none }
      pure (at_ q.ent, q.ent)
    else stopWait
  | none =>
    if post then do
      let (k, e) ← translate ag pkg va acc addr (ask := false)
      modify fun s => s.modOp o fun x => { x with held := x.held ++ [⟨cl, e⟩], wait := none }
      pure (k, e)
    else stopWait

/-- Where an address of a copy lies, with the entry of a translated one. A source on path 0x6 is read like one on path
0x0 (log entry 82). -/
def copyPlace (ag : Agent) (o : Op) (post : Bool) (acc : Acc) (ea : Word) : Act (Nat × Option TlbEnt) := do
  match pathCheck (← get) ag acc false ea with
  | .error t => stopTrap t
  | .ok (.sram k) => pure (k, none)
  | .ok (.virt p va) => do
    let (k, e) ← pinTranslate ag o post p va acc ea
    pure (k, some e)
  | .ok _ => stopTrap (trAccess ea)

/-! ## The plan of a copy -/

/-- How a byte arrives: whole, without its bits 7:6 (spec/07 R106), a nibble of INT4 widened, a byte of ternary codes
without 0b10 (R181), or a scale byte: as it was read, or the byte of a block without scales. -/
inductive How where
  | whole | six | nib (hi : Bool) | tern | scale (b : Byte) | fixed (b : Byte)
  deriving DecidableEq, Repr

/-- A ternary byte with its codes 0b10 written as 0b00. -/
def ternClean (b : Byte) : Byte :=
  BitVec.ofNat 8 ((List.range 4).foldl (fun a i =>
    let c := b.toNat / 4 ^ i % 4
    if c = 2 then a else a + 4 ^ i * c) 0)

def How.apply (h : How) (b : Byte) : Byte :=
  match h with
  | .whole => b
  | .six => b &&& 0x3F
  | .nib hi => BitVec.ofInt 8 (sval 4 (if hi then b.toNat / 16 else b.toNat % 16))
  | .tern => ternClean b
  | .scale x | .fixed x => x

/-- One byte that a copy writes, with its place in pattern order; a scale byte has that of the first byte of its
block. A fixed byte is read nowhere. -/
structure ByteMv where
  src : Nat
  dst : Nat
  how : How
  at_ : Nat
  deriving DecidableEq, Repr

/-- Why a plan is not complete. -/
inductive Halt where
  | wait
  | fault (fa : Word)
  | err (e : ErrRep)
  deriving DecidableEq, Repr

/-- Bytes that a copy asks another package for, or sends it: the space, the virtual address there, the key, how
many. -/
structure Ask where
  spn : Nat
  va : Nat
  key : Nat
  n : Nat
  write : Bool
  deriving DecidableEq, Repr

/-- Words of a table that a gather reads on the way to the bytes of some places in pattern order, with what they ask of
other packages. -/
structure Lookup where
  lo : Nat
  hi : Nat
  keys : List Nat
  asks : List Ask
  deriving DecidableEq, Repr

/-- What a copy is to do: its bytes, the ranges written, those in other packages, the table words read, the scale bytes
that go to a pool register with where they are read, the bytes delivered; within the present run the destination
offset, and the blocks whose scale byte has been delivered. -/
structure Plan where
  moves : List ByteMv := []
  dsts : List (Nat × Nat) := []
  asks : List Ask := []
  lookups : List Lookup := []
  scales : List Byte := []
  reads : List Nat := []
  payload : Nat := 0
  dpos : Nat := 0
  seen : List Nat := []
  halt : Option Halt := none
  deriving DecidableEq, Repr

/-- What a computation meets, as what halts a plan. -/
def caught {α : Type} (x : Act α) : Act (Except Halt α) := fun s =>
  match x s with
  | .ok a s' => .ok (.ok a) s'
  | .error .wait s' => .ok (.error .wait) s'
  | .error (.trap t) s' => .ok (.error (.fault t.tval)) s'
  | .error (.trapKeep t) s' => .ok (.error (.fault t.tval)) s'
  | .error (.err e) s' => .ok (.error (.err e)) s'
  | .error .refuse s' => .error .refuse s'

/-- A part of a plan: what it meets ends the plan there. -/
def Plan.step (p : Plan) (x : Act Plan) : Act Plan := do
  if p.halt.isSome then pure p
  else match ← caught x with
    | .ok p' => pure p'
    | .error h => pure { p with halt := some h }

/-- Where a run reads: an address, or a block of the key-value cache on its owner. -/
inductive Source where
  | addr (a : Word)
  | owner (pkg spn va : Nat)
  deriving DecidableEq, Repr

/-- The address of a virtual address of a package, as a package names it. -/
def addrOn (s : State) (own pkg va : Nat) : Word :=
  if pkg = own then BitVec.ofNat 64 va
  else BitVec.ofNat 64 (8 * 2 ^ 60 + (s.pkgAt pkg).pkgId % 2 ^ 14 * 2 ^ 46 + va % 2 ^ 46)

/-- The place of a source at an offset: its key, its low address, the entry, whether it may split: only a source named
on path 0x0 does, not one on path 0x8 that names the own package (log entry 82). -/
def Source.place (ag : Agent) (o : Op) (post : Bool) (off : Nat) :
    Source → Act (Nat × Nat × Option TlbEnt × Bool)
  | .addr a => do
    let ea := addrAdd a off
    let (k, e) ← copyPlace ag o post .load ea
    pure (k, low60 ea, e, selector ea == 0 && !o.noSplit)
  | .owner pkg spn va => do
    let (k, e) ← pinTranslate { ag with spn := spn } o post pkg (va + off) .load
      (addrOn (← get) ag.pkg pkg (va + off))
    pure (k, va + off, some e, true)

def Source.low : Source → Nat
  | .addr a => low60 a
  | .owner _ _ va => va

def Source.spn (ag : Agent) : Source → Nat
  | .addr _ => ag.spn
  | .owner _ spn _ => spn

/-- The bytes that n source bytes become (R181): the source byte's number, and how. -/
def splitBytes (e : TlbEnt) (n : Nat) : List (Nat × How) :=
  if e.geo = 0 then (List.range n).map fun i => (i, .whole)
  else if e.elem = 14 then (List.range n).flatMap fun i => [(i, .nib false), (i, .nib true)]
  else if e.elem = 13 then (List.range n).map fun i => (i, .tern)
  else if e.elem = 7 ∨ e.elem = 8 then (List.range n).map fun i => (i, .six)
  else (List.range n).map fun i => (i, .whole)

/-- What is asked of another package for n bytes at a key. -/
def asksOf (ag : Agent) (spn key n : Nat) (e : Option TlbEnt) (write : Bool) : List Ask :=
  match e with
  | some e => if key / 2 ^ 48 = ag.pkg then [] else [⟨spn, e.base + (key % 2 ^ 48 - e.frame), key, n, write⟩]
  | none => []

/-- The destination ranges of n bytes, with what they ask of another package, up to what halts; bytes past the end of an
untranslated path halt it (log entry 99). -/
def destRanges (ag : Agent) (o : Op) (post : Bool) (ea : Word) (n : Nat) :
    Act (List (Nat × Nat) × List Ask × Option Halt) :=
  (partsOf ea n).foldlM (fun acc (x : Nat × Nat) => do
    if acc.2.2.isSome then pure acc
    else match ← caught (copyPlace ag o post .store (addrAdd ea x.1)) with
      | .ok (k, e) => pure (acc.1 ++ [(k, x.2)], acc.2.1 ++ asksOf ag ag.spn k x.2 e true, none)
      | .error h => pure (acc.1, acc.2.1, some h)) ([], [], none)

def rangeKeys (l : List (Nat × Nat)) : List Nat := l.flatMap fun (k, n) => (List.range n).map (k + ·)

/-- Read n bytes as far as their code words go: how many come before one that cannot be corrected. -/
def scanBefore (ag : Agent) (key n : Nat) : Act (Nat × Option Halt) := do
  match ← caught (eccScan ag key n false) with
  | .error (.err e) =>
    pure (((List.range n).find? fun i => errAddr (codeWord (key + i)) == e.addr).getD 0, some (.err e))
  | .error h => pure (0, some h)
  | .ok _ => pure (n, none)

/-- A scale byte as it is read. -/
def scaleByte (ag : Agent) : Option Nat → Act Byte
  | none => pure 0xFF
  | some k => do
    eccScan ag k 1 false
    pure (memRead (← get).mem k)

/-- The scale bytes of some blocks, up to what halts. -/
def scalesOf (ag : Agent) (l : List (Option Nat)) : Act (List Byte × Option Halt) :=
  l.foldlM (fun acc k => do
    if acc.2.isSome then pure acc
    else match ← caught (scaleByte ag k) with
      | .ok b => pure (acc.1 ++ [b], none)
      | .error h => pure (acc.1, some h)) ([], none)

/-- One part of a run: bytes from an offset of the source, with their scales, as far as they can be read and written.
`geo2` is the address of a gather that may not meet a page of GEO 0b10 (spec/20 R326). -/
def planPart (ag : Agent) (o : Op) (post spl : Bool) (sdst : Option Word) (geo2 : Option Word)
    (src : Source) (dst : Word) (off n : Nat) (p : Plan) : Act Plan := do
  let (key, low, ent, may) ← src.place ag o post off
  let split := if spl && may then ent else none
  match split, geo2 with
  | some e, some fa => if e.geo = 2 then stopTrap (trDelivered fa) else pure ()
  | _, _ => pure ()
  let (k, h0) ← scanBefore ag key n
  let outs := match split with
    | some e => splitBytes e k
    | none => (List.range k).map fun i => (i, .whole)
  let (ds, da, h1) ← destRanges ag o post (addrAdd dst p.dpos) outs.length
  let outs := outs.take (rangeKeys ds).length
  let page := match split with
    | some e => key - low % e.size
    | none => 0
  let bl := match split with
    | some e => (e.blocks (key / 2 ^ 48) (low % e.size) k).filter fun b =>
        !(p.seen.contains (page * 2 ^ 32 + b.1)) && (outs.any fun x => decide (b.2.2 ≤ x.1))
    | none => []
  let (bs, h2) ← scalesOf ag (bl.map (·.2.1))
  let (ss, sa, h3) ← match sdst with
    | some a => destRanges ag o post (addrAdd a p.scales.length) bs.length
    | none => pure ([], [], none)
  let m := if sdst.isSome then (rangeKeys ss).length else bs.length
  let outs := match bl[m]? with
    | some b => outs.takeWhile fun x => decide (x.1 < b.2.2)
    | none => outs
  let data := List.zipWith (fun (x : Nat × How) d => (x, d)) outs (rangeKeys ds)
  let firstOf (b : Nat × Option Nat × Nat) : Nat := (outs.findIdx? fun x => decide (b.2.2 ≤ x.1)).getD outs.length
  let scale := List.zipWith (fun (x : Byte × Nat × Option Nat × Nat) d =>
    (⟨x.2.2.1.getD d, d, if x.2.2.1.isSome then .scale x.1 else .fixed x.1, p.payload + firstOf x.2⟩ : ByteMv))
    (bs.zip bl) (rangeKeys ss)
  pure { p with
    moves := p.moves ++ data.zipIdx.map (fun x => ⟨key + x.1.1.1, x.1.2, x.1.1.2, p.payload + x.2⟩) ++ scale
    dsts := p.dsts ++ ds ++ ss
    asks := p.asks ++ asksOf ag (src.spn ag) key k ent false ++ da ++ sa
    scales := p.scales ++ bs.take m
    reads := if sdst.isSome then p.reads else p.reads ++ (bl.take m).filterMap (·.2.1)
    payload := p.payload + outs.length + m, dpos := p.dpos + outs.length
    seen := p.seen ++ (bl.take m).map fun b => page * 2 ^ 32 + b.1
    halt := (h3.orElse fun _ => h2).orElse fun _ => h1.orElse fun _ => h0 }

/-- One run of n bytes; `keep` says that blocks reached by an earlier run do not count again. -/
def planRun (ag : Agent) (o : Op) (post spl : Bool) (sdst geo2 : Option Word) (keep : Bool) (src : Source)
    (dst : Word) (n : Nat) (p : Plan) : Act Plan :=
  (parts src.low (n / 32768 + 2) 0 n).foldlM
    (fun p (x : Nat × Nat) => p.step (planPart ag o post spl sdst geo2 src dst x.1 x.2 p))
    { p with dpos := 0, seen := if keep then p.seen else [] }

/-- A pattern. -/
def planPattern (ag : Agent) (o : Op) (post : Bool) (dst : Word) (sdst : Option Word) : Act Plan :=
  let a (k : Nat) : Word := o.args.getD k 0
  let pt := patternOf o.instr.copyDim (o.args.drop 5)
  pt.runs.foldlM (fun p (x : Int × Int) =>
    planRun ag o post o.instr.copySplit sdst none false (.addr (addrAdd (a 1) x.1)) (addrAdd dst x.2) pt.run p) {}

/-! ## Bytes landing (R179) -/

/-- Eight moves of a word that is 8-aligned on both sides. -/
def isWord (l : List ByteMv) : Bool :=
  match l with
  | [] => false
  | x :: _ => l.length == 8 && x.src % 8 == 0 && x.dst % 8 == 0 && (x.how == .whole || x.how == .tern || x.how == .six) &&
      (l.zipIdx.all fun y => y.1.src == x.src + y.2 && y.1.dst == x.dst + y.2 && y.1.how == x.how)

/-- What moves as one: an aligned word, else a byte. -/
def moveUnits : Nat → List ByteMv → List (List ByteMv)
  | 0, _ => []
  | _, [] => []
  | fuel + 1, x :: xs =>
    let w := (x :: xs).take 8
    if isWord w then w :: moveUnits fuel ((x :: xs).drop 8) else [x] :: moveUnits fuel xs

/-- The byte that a copy has read for a move. -/
def Op.gotFor (o : Op) (x : ByteMv) : Option Byte :=
  (o.got.find? fun y => y.1 == x.at_ && y.2.1 == x.dst).map (·.2.2)

/-- A unit is yet to be read; a byte of it is yet to be written: each byte is written once. -/
def Op.unread (o : Op) (u : List ByteMv) : Bool := u.any fun x => (o.gotFor x).isNone
def Op.unwritten (o : Op) (u : List ByteMv) : Bool := u.any fun x => !(o.landed.contains x.dst)

/-- A ternary code 0b10 is among what some moves read. -/
def ternMoves (m : List Host.Cell) (mv : List ByteMv) : Bool :=
  mv.any fun x => x.how == .tern && ternClean (memRead m x.src) != memRead m x.src

/-- The bytes of some keys that an ask names are asked for in one request. -/
def Ask.send (ag : Agent) (keys : List Nat) (s : State) (a : Ask) : State :=
  let ks := keys.filter fun k => decide (a.key ≤ k) && decide (k < a.key + a.n)
  let bs := ks.map (memRead s.mem)
  match ks with
  | [] => s
  | k :: _ => s.request { ag with spn := a.spn } (a.key / 2 ^ 48) ((a.va + (k - a.key)) % 2 ^ 46)
      (if a.write then .write bs else .read bs.length) (if a.write then [] else bs)

/-- Where a move reads. -/
def ByteMv.reads (x : ByteMv) : Option Nat := match x.how with | .fixed _ => none | _ => some x.src

/-- Units whose requests the byte budget of a cluster grants, each charged by its bytes: those in the cluster's own SRAMs,
and the others while the balance is above 0 (spec/22 R358). -/
def grantUnits (cl : Nat) (key : ByteMv → Option Nat) : List (List ByteMv) → State → State × List (List ByteMv)
  | [], s => (s, [])
  | u :: us, s =>
    let c := s.clusterAt cl
    let ks := u.filterMap key
    if c.budget ≠ 0 ∧ c.balance ≤ 0 ∧ (ks.any fun k => !(ownSram cl k)) then grantUnits cl key us s
    else
      let (s, l) := grantUnits cl key us (ks.foldl (fun s k => s.charge cl k 1) s)
      (s, u :: l)

/-- Table words behind bytes that are read for the first time: charged and asked for. -/
def Lookup.done (ag : Agent) (o : Op) (mv : List ByteMv) (s : State) (l : Lookup) : State :=
  let inside (n : Nat) : Bool := decide (l.lo ≤ n) && decide (n < l.hi)
  if (mv.any fun x => inside x.at_) && !(o.got.any fun y => inside y.1) then
    l.asks.foldl (Ask.send ag l.keys) (l.keys.foldl (fun s k => s.charge ag.cluster k 8) s)
  else s

/-- A copy reads units, as far as its cluster's byte budget goes: the bytes that are to land, requests, the sticky flag of
ternary codes. It answers whether it has read them all. -/
def takeUnits (ag : Agent) (o : Op) (p : Plan) (us : List (List ByteMv)) : Act Bool := fun s =>
  let (s, l) := grantUnits ag.cluster ByteMv.reads us s
  let mv := l.flatten
  let s := p.lookups.foldl (Lookup.done ag ((s.opAt o.th o.eng o.num).getD o) mv) s
  let s := (p.asks.filter fun a => !a.write).foldl (Ask.send ag (mv.filterMap ByteMv.reads)) s
  let got := mv.map fun x => (x.at_, x.dst, x.how.apply (memRead s.mem x.src))
  let s' := s.modOp o fun x => { x with got := x.got ++ got }
  .ok (l.length == us.length) (match ag.core with
    | some c => s'.modCoreAt c fun c => c.setTern (ternMoves s.mem mv)
    | none => s')

/-- What some moves leave in memory, those of a byte that is not written yet. -/
def landMoves (o : Op) (mv : List ByteMv) (m : List Host.Cell) : List Host.Cell :=
  mv.foldl (fun m x => if o.landed.contains x.dst then m else memWrite m x.dst ((o.gotFor x).getD 0)) m

/-- A copy writes units that it has read, as far as the byte budget goes; of two moves to one byte the later one of those
written together. It answers whether it has written them all. -/
def landUnits (ag : Agent) (o : Op) (p : Plan) (us : List (List ByteMv)) : Act Bool := fun s =>
  let (s, l) := grantUnits ag.cluster (fun x => some x.dst) us s
  let o := (s.opAt o.th o.eng o.num).getD o
  let mv := l.flatten
  let ks := (mv.map ByteMv.dst).filter fun k => !(o.landed.contains k)
  let s := s.wrote ks (landMoves o mv s.mem)
  let s := (p.asks.filter fun a => a.write).foldl (Ask.send ag ks) s
  .ok (l.length == us.length) (s.modOp o fun x => { x with landed := x.landed ++ ks })

/-- The code word under a unit's destination can be written: what it reads of it is in order. -/
def unitOk (ag : Agent) (u : List ByteMv) : Act Bool := fun s =>
  match u with
  | [] => .ok true s
  | x :: _ => match eccScan ag x.dst u.length true s with
    | .ok _ s' => .ok true s'
    | .error _ s' => .ok false s'

/-- The operation as its queue holds it. -/
def opNow (o : Op) : Act Op := do pure (((← get).opAt o.th o.eng o.num).getD o)

/-- Of the bytes before a place in pattern order, a free subset of those to be read is read, and a free subset of those
read is written. -/
def Plan.landPart (p : Plan) (ag : Agent) (o : Op) (cut : Nat := 2 ^ 64) : Act Unit := do
  let us := ((moveUnits p.moves.length p.moves).filter fun u => u.all fun x => decide (x.at_ < cut)).zipIdx
  let n := (← get).fresh
  modify fun s => { s with fresh := n + 2 * us.length }
  let o ← opNow o
  let _ ← takeUnits ag o p ((us.filter fun u => o.unread u.1 && Config.freeBit (n + 2 * u.2)).map (·.1))
  let o ← opNow o
  let ws ← ((us.filter fun u => !(o.unread u.1) && o.unwritten u.1 && Config.freeBit (n + 2 * u.2 + 1)).map (·.1)).filterM
    (unitOk ag)
  let _ ← landUnits ag o p ws

/-- The first of some ranges about to be written whose code words are not in order. -/
def scanDsts (ag : Agent) : List (Nat × Nat) → Act (Option (ErrRep × (Nat × Nat)))
  | [] => pure none
  | d :: ds => do
    match ← caught (eccScan ag d.1 d.2 true) with
    | .error (.err e) => pure (some (e, d))
    | _ => scanDsts ag ds

/-- All that is left of a plan is read and then written; where the byte budget does not go so far it waits, with what it
has done. A destination word that cannot be corrected ends it, with a free subset of the bytes before that word. -/
def Plan.land (p : Plan) (ag : Agent) (o : Op) : Act Unit := do
  let us := moveUnits p.moves.length p.moves
  let o ← opNow o
  if !(← takeUnits ag o p (us.filter o.unread)) then stopWait
  match ← scanDsts ag p.dsts with
  | some (e, d) => do
    let hit := p.moves.find? fun x => decide (d.1 ≤ x.dst) && decide (x.dst < d.1 + d.2) &&
      errAddr (codeWord x.dst) == e.addr
    p.landPart ag o ((hit.map ByteMv.at_).getD 0)
    throw (.err e)
  | none => do
    if !(← landUnits ag o p (us.filter o.unwritten)) then stopWait

/-- An operation ends faulted with an address (R167). -/
def opFault (o : Op) (fa : Word) (s : State) : State := s.endOp o .faulted false fa

/-- An operation that consumes an uncorrectable error: reported, and the operation ends (spec/22 R353). -/
def opError (o : Op) (e : ErrRep) (s : State) : State :=
  let s := (reportError s (pkgOf (o.th / 4)) (some (o.th / 4)) (some o.th) e).1
  opFault o e.addr s

/-- A part of an operation that may stop: it waits, or ends faulted. -/
def opDo (o : Op) (x : Act Unit) : Act Unit := fun s =>
  match x s with
  | .ok _ s' => .ok () s'
  | .error (.trap t) s' => .ok () (opFault o t.tval s')
  | .error (.trapKeep t) s' => .ok () (opFault o t.tval s')
  | .error (.err e) s' => .ok () (opError o e s')
  | .error st s' => .error st s'

/-- A plan carried out, then the rest of the command. -/
def Plan.finish (p : Plan) (o : Op) (ag : Agent) (rest : Act Unit) : Act Unit :=
  match p.halt with
  | none => opDo o (do p.land ag o; rest)
  | some .wait => stopWait
  | some (.fault fa) => do
    p.landPart ag o
    modify (opFault o fa)
  | some (.err e) => do
    p.landPart ag o
    modify (opError o e)

/-- The barrier update of n payload bytes (R180). -/
def barrierEnd (o : Op) (ag : Agent) (ea : Word) (n : Nat) : Act Unit :=
  match o.instr.copyBar with
  | .none => pure ()
  | .arrival _ => do let _ ← barrierUpdate ag ea (← barrierAt ag ea) 1 0
  | .bytes _ => do let _ ← barrierUpdate ag ea (← barrierAt ag ea) 0 (-(n : Int))

/-- The operation is done. -/
def opDone (o : Op) : Act Unit := modify fun s => s.endOp o .done false 0

/-! ## Gathers (spec/20 R325, R326) -/

/-- A word of a table, read for a gather: its value, its key, what it asks of another package. -/
def gatherWord (ag : Agent) (o : Op) (post : Bool) (a : Word) : Act (Word × Nat × List Ask) := do
  let (k, e) ← copyPlace ag o post .load a
  let bs ← cellGet ag k 8
  pure (BitVec.ofNat 64 (leVal bs), k, asksOf ag ag.spn k 8 e false)

/-- The same with its request granted and sent. -/
def gatherNow (ag : Agent) (o : Op) (a : Word) : Act Word := do
  let (w, k, l) ← gatherWord ag o true a
  grant ag k 8
  modify fun s => l.foldl (Ask.send ag ((List.range 8).map (k + ·))) s
  pure w

/-- The header read at the begin of a gather: its pin. -/
def gatherBegin (ag : Agent) (o : Op) : Act SeqPin := do
  let tab := o.args.getD 1 0
  let (k, _) ← copyPlace ag o true .load tab
  let w0 ← gatherNow ag o tab
  let w1 ← gatherNow ag o (addrAdd tab 8)
  let arr ← gatherNow ag o (addrAdd tab (if w0.getLsbD 0 then 24 else 16))
  let arr := match remoteId tab with
    | some id => BitVec.ofNat 64 (8 * 2 ^ 60 + id * 2 ^ 46 + arr.toNat % 2 ^ 46)
    | none => arr
  pure ⟨k, w0.toNat / 2 ^ 16 % 2 ^ 16, w0.toNat / 2 ^ 32, w1.toNat / 2 ^ 32, arr⟩

/-- A fault of a gather. -/
def gatherFault {α : Type} (fa : Word) : Act α := stopTrap (trDelivered fa)

/-- Token i of a gather. -/
def planToken (ag : Agent) (o : Op) (post : Bool) (h : SeqPin) (i : Nat) (p : Plan) : Act Plan := do
  let a (k : Nat) : Word := o.args.getD k 0
  let bpt := (a 4).toNat % 2 ^ 32
  let cnt := (a 3).toNat
  let t := (a 5).toNat + i
  if bpt ≠ h.bpt ∨ h.ntok ≤ t then gatherFault (a 1)
  else do
    let ea := addrAdd h.arr (16 * (t / 256))
    let (e0, k0, l0) ← gatherWord ag o post ea
    let (e1, k1, l1) ← gatherWord ag o post (addrAdd ea 8)
    let pos := t % 256
    if !e0.getLsbD 63 ∨ e1.toNat % 2 ^ 9 ≤ pos then gatherFault ea
    else do
      let s ← get
      let id := e0.toNat / 2 ^ 47 % 2 ^ 14
      let own := if id = (s.pkgAt ag.pkg).pkgId then ag.pkg else s.pkgOfId id
      let pk := s.pkgAt own
      let tier := e0.toNat / 2 ^ 61 % 4
      let base := ((if tier = 0 then pk.kvb2 else pk.kvb3).toNat % 2 ^ 57) / 16 * 16
      let nblk := (if tier = 0 then pk.kvn2 else pk.kvn3).toNat % 2 ^ 32
      let gbn := e0.toNat % 2 ^ 32
      let va := base + 16 * gbn
      let sa := addrOn s ag.pkg own va
      if nblk ≤ gbn then gatherFault sa
      else do
        let kv := { ag with spn := pk.kvspn }
        let (k, e) ← pinTranslate kv o post own va .load sa
        let sw := BitVec.ofNat 64 (leVal (← cellGet kv k 8))
        if !sw.getLsbD 63 then gatherFault sa
        else do
          let geo2 := if (a 5).toNat % 32 = 0 ∧ cnt % 32 = 0 then none else some (a 1)
          let sdst := if o.instr.copySplit then some (addrAdd (a 0) (cnt * bpt)) else none
          let q ← planRun ag o post o.instr.copySplit sdst geo2 true (.owner own pk.kvspn (sw.toNat % 2 ^ 57 + pos * bpt))
            (addrAdd (a 0) (i * bpt)) bpt p
          pure { q with lookups := q.lookups ++
            [⟨p.payload, q.payload, [k0, k1, k], l0 ++ l1 ++ asksOf kv pk.kvspn k 8 (some e) false⟩] }

/-- A gather. One that splits tokens that are no whole bands writes nothing until it is known to meet no page of GEO
0b10 (R326). -/
def planGather (ag : Agent) (o : Op) (post : Bool) : Act Plan := do
  match o.seq with
  | none => throw .refuse
  | some h =>
    let cnt := (o.args.getD 3 0).toNat
    let bands := (o.args.getD 5 0).toNat % 32 = 0 ∧ cnt % 32 = 0
    let p ← (List.range cnt).foldlM (fun p i => p.step (planToken ag o post h i p)) {}
    pure (if o.instr.copySplit ∧ ¬ bands ∧ p.halt.isSome then { halt := p.halt } else p)

/-! ## Multicasts and ring slots -/

/-- A path 0x2 address with its core index replaced (R182). -/
def withCore (a : Word) (i : Nat) : Word :=
  BitVec.ofNat 64 (selector a * 2 ^ 60 + i * 2 ^ 15 + a.toNat % 2 ^ 15)

def Op.scaleDst (o : Op) : Option Word := if o.instr.copySplit then some (o.args.getD 4 0) else none

/-- The plan for one destination of a multicast. -/
def planDest (ag : Agent) (o : Op) (post : Bool) (i : Nat) : Act Plan :=
  planPattern ag o post (withCore (o.args.getD 0 0) i) (o.scaleDst.map (withCore · i))

/-- Destinations of a multicast that have yet to be served. -/
def Op.destsLeft (o : Op) : List Nat :=
  (List.range 64).filter fun i => (o.args.getD 3 0).getLsbD i && !(Nat.testBit o.served i)

def Op.copyRing (o : Op) : QIdx := o.instr.copyRing.getD 0

/-- The plan of the next slot of a ring copy. A slot from INT4 pages takes twice its bytes, on past its end (log entry
97). -/
def planSlot (ag : Agent) (o : Op) (post : Bool) (r : Ring) : Act Plan :=
  match o.instr with
  | .cpr .. =>
    planRun ag o post o.instr.copySplit none none false (.addr (o.args.getD 1 0)) (r.slotAddr r.pp) r.slotBytes {}
  | _ => planRun ag o post false none none false (.addr (r.slotAddr r.cp)) (o.args.getD 0 0) r.slotBytes {}

/-- All that a copy in progress has yet to write, as far as it can be planned. -/
def planAll (ag : Agent) (o : Op) (post : Bool) : Act Plan := do
  let c := (← get).coreAt (o.th / 4)
  match o.instr with
  | .cpg .. => planGather ag o post
  | .cpm .. => o.destsLeft.foldlM (fun p i => do
      let q ← planDest ag o post i
      pure { p with moves := p.moves ++ q.moves, asks := p.asks ++ q.asks }) {}
  | .cpr _ _ q .. | .cps _ _ _ q .. =>
    if o.args.getD 5 0 = 0 ∨ ringWaits c o then pure {} else planSlot ag o post (c.ring q.toNat)
  | _ => if o.served = 0 then planPattern ag o post (o.args.getD 0 0) o.scaleDst else pure {}

/-- Entries 0 to n - 1 of a scale register from bytes. -/
def setEntries (old : BitVec 256) (bs : List Byte) : BitVec 256 :=
  BitVec.ofNat 256 (leVal ((bs ++ (leBytes 32 old.toNat).drop bs.length).take 32))

/-- The slot at PP is filled and published; a split write tags it (R186). -/
def fillSlot (q : QIdx) (split : Bool) (scales : List Byte) (c : Core) : Core :=
  let r := c.ring q.toNat
  if split then
    let k := r.kf + r.pp
    let g := c.kg k + 1
    let c := c.putK k 0 scales.length (setEntries (c.k k) scales)
    let c := { c with kgen := tput c.kgen k g }
    c.setRing q.toNat { r with tags := tput r.tags r.pp ⟨BitVec.ofNat 6 k, g, 0⟩ }.publish
  else c.setRing q.toNat { r with tags := tdel r.tags r.pp }.publish

/-- What is left of a ring copy after one slot (R168, R189). -/
def Op.slotDone (o : Op) (stride : Int) (n : Nat) : Op :=
  let at_ := match o.instr with | .cpr .. => 1 | _ => 0
  { o with
    args := (o.args.set at_ (addrAdd (o.args.getD at_ 0) stride)).set 5 (o.args.getD 5 0 - 1)
    mask := o.mask + BitVec.ofNat 64 n, wait := none, got := [], landed := [] }

/-! ## The events of a copy -/

/-- The queued copy that an event names, not blocked on a fault. -/
def copyAt (core thr n : Nat) : Act Op := do
  match (← get).opAt (4 * core + thr) .ce n with
  | some o => do
    need o.wait.isNone
    pure o
  | none => throw .refuse

/-- The addresses of a copy's operands that are its own source and destination. -/
def Op.ends (o : Op) : List Word :=
  match o.instr with
  | .cpr .. => [o.args.getD 1 0]
  | .cps .. => [o.args.getD 0 0]
  | _ => [o.args.getD 0 0, o.args.getD 1 0]

/-- A copy leaves its cluster: its source or destination is no SRAM of the cluster. -/
def Op.leavesCluster (s : State) (o : Op) : Bool :=
  let ag := s.opAgent o
  o.ends.any fun a =>
    match pathCheck s ag .load false a with
    | .ok (.sram k) => clusterOf (sramCore k) != ag.cluster
    | _ => true

/-- A copy has nothing to move. -/
def Op.empty (o : Op) : Bool :=
  match o.instr with
  | .cpg .. => false
  | .cpr .. | .cps .. => o.args.getD 5 0 == 0
  | _ => (patternOf o.instr.copyDim (o.args.drop 5)).bytes == 0

/-- COPY_START (R173): after any wait for a slot or for the byte budget, the first memory request. -/
def copyStartAct (core thr n : Nat) : Act Unit := do
  let o ← copyAt core thr n
  let s ← get
  let c := s.coreAt core
  let cl := s.clusterAt (clusterOf core)
  need (!o.started && !(ringWaits c o))
  need (o.empty || cl.budget == 0 || decide (0 < cl.balance) || !(o.leavesCluster s))
  let ag := s.opAgent o
  opDo o do
    let pin ← match o.instr with
      | .cpg .. => do pure (some (← gatherBegin ag o))
      | .cps .. => pure none
      | _ =>
        if o.empty then pure none
        else do
          let _ ← copyPlace ag o true .load (o.args.getD 1 0)
          pure none
    modify fun s => s.modOp o fun x => { x with started := true, seq := pin, wait := none }

def execCopyStart (core thr n : Nat) (s : State) : Outcome := eventDo (copyStartAct core thr n) s

/-- A copy in progress reads and writes some of its bytes (R179; log entry 30). -/
def progressAct (core thr n : Nat) : Act Unit := do
  let o ← copyAt core thr n
  need o.started
  let ag := (← get).opAgent o
  (← planAll ag o true).landPart ag o

/-- Add 1 to a signal word. -/
def addSignal (ag : Agent) (o : Op) (post : Bool) (a : Word) : Act Unit := do
  let (k, _) ← copyPlace ag o post .atomic a
  let w ← cellWord ag k
  cellWrite ag k (leBytes 8 (w + 1).toNat)

/-- The package that a destination on path 0x8 leaves for. -/
def remotePkg (s : State) (own : Nat) (a : Word) : Option Nat :=
  match pathCheck s (s.agentOf (4 * (own * Config.cores))) .store false a with
  | .ok (.virt p _) => if p = own then none else some p
  | _ => none

/-- A package has no route to another one: no port number up at both ends (spec/21 R342). -/
def State.noRoute (s : State) (src dst : Nat) : Bool :=
  !((s.pkgAt src).upPorts.any fun n => (s.pkgAt dst).upPorts.contains n)

/-- The signal of a copy to another package that has landed its payload is sent under the next number; while 256 of
the copy engine's signals wait there, it waits (spec/12 R209). -/
def sendSignal (o : Op) (src dst : Nat) (addr : Word) : Act Unit := do
  let p := (← get).pkgAt src
  let un := tgetD p.sigUnacked dst []
  if 256 ≤ (un.filter fun x => x.2.1 == o.th / 4).length then stopWait
  else do
    let num := tgetD p.sigNext dst 0
    modify fun s =>
      let s := s.sendFlit src dst 3 num (low60 addr) []
      let s := s.modPkgAt src fun p => { p with
        sigNext := tput p.sigNext dst ((num + 1) % 2 ^ 32)
        sigUnacked := tput p.sigUnacked dst (un ++ [(num, o.th / 4, addr)]) }
      s.modOp o fun x => { x with served := num + 2 }

/-- A copy whose destination cannot be reached by any route ends faulted, and its signal is never applied (spec/12
R209; for the address it names, log entry 88). -/
def unreachable (o : Op) (src dst : Nat) (addr : Word) (s : State) : State :=
  let s := s.modPkgAt src fun p =>
    let l := (tgetD p.sigUnacked dst []).filter fun x => x.1 != o.served - 2
    if o.served < 2 then p else { p with sigUnacked := tput p.sigUnacked dst l }
  opFault o addr s

/-- COPY_COMPLETE of a `cpsig` to another package: its payload lands, then its signal is sent; it is done when the
signal has been applied there. -/
def cpsigRemote (o : Op) (ag : Agent) (dst : Nat) : Act Unit := do
  let addr := o.args.getD 2 0
  if (← get).noRoute ag.pkg dst then modify (unreachable o ag.pkg dst addr)
  else if o.served = 0 then do
    let p ← planPattern ag o true (o.args.getD 0 0) none
    p.finish o ag (modify fun s => s.modOp o fun x => { x with served := 1 })
    if (((← get).opAt o.th o.eng o.num).map (·.served)) = some 1 then sendSignal o ag.pkg dst addr else pure ()
  else if o.served = 1 then sendSignal o ag.pkg dst addr
  else throw .refuse

/-- COPY_COMPLETE (R180). -/
def copyCompleteAct (core thr n : Nat) : Act Unit := do
  let o ← copyAt core thr n
  need o.started
  let s ← get
  let ag := s.opAgent o
  let a (k : Nat) : Word := o.args.getD k 0
  match o.instr with
  | .cpm .. => do
    need (o.served == (a 3).toNat)
    opDone o
  | .cpr .. | .cps .. => do
    need (a 5 == 0)
    opDo o (do barrierEnd o ag (a 2) o.mask.toNat; opDone o)
  | .cpg .. => do
    let p ← planGather ag o true
    p.finish o ag (do barrierEnd o ag (a 2) p.payload; opDone o)
  | .cpsig .. =>
    match remotePkg s ag.pkg (a 0) with
    | none => do
      let p ← planPattern ag o true (a 0) none
      let p ← p.step (do let _ ← copyPlace ag o true .atomic (a 2); pure p)
      p.finish o ag (do addSignal ag o true (a 2); opDone o)
    | some dst => cpsigRemote o ag dst
  | _ => do
    let p ← planPattern ag o true (a 0) o.scaleDst
    p.finish o ag (do barrierEnd o ag (a 2) p.payload; opDone o)

def execCopyComplete (core thr n : Nat) (s : State) : Outcome := eventDo (copyCompleteAct core thr n) s

/-- CPM_DELIVERY (R182): one destination's payload, then its barrier update. -/
def cpmDeliveryAct (core thr n dest : Nat) : Act Unit := do
  let o ← copyAt core thr n
  match o.instr with
  | .cpm _ _ _ _ _ _ _ _ _ bsh => do
    need (o.started && decide (dest < 64) && (o.args.getD 3 0).getLsbD dest && !(Nat.testBit o.served dest))
    let ag := (← get).opAgent o
    let p ← planDest ag o true dest
    let bar := o.args.getD 2 0
    p.finish o ag do
      barrierEnd o ag (if bsh then bar else withCore bar dest) p.payload
      modify fun s => s.modOp o fun x => { x with served := x.served + 2 ^ dest, wait := none }
  | _ => throw .refuse

def execCpmDelivery (core thr n dest : Nat) (s : State) : Outcome := eventDo (cpmDeliveryAct core thr n dest) s

/-- The code word of scale entries that a split slot writes in part is read first (spec/22 R350). -/
def fillScan (core th : Nat) (q : QIdx) (n : Nat) : Act Unit := do
  let c := (← get).coreAt core
  let r := c.ring q.toNat
  let (s, e) := coreScan core th ((wordsRead 8 0 n true).map (kErr (r.kf + r.pp) ·)) (← get)
  set s
  match e with
  | some e => throw (.err e)
  | none => pure ()

/-- A ring's state is read for a copy; an error that cannot be corrected ends the copy (spec/22 R350, R353). -/
def withRing (o : Op) (q : QIdx) (x : Act Unit) : Act Unit := do
  let (s, e) := coreScan (o.th / 4) o.th [qErr q.toNat] (← get)
  set s
  match e with
  | some e => modify (opError o e)
  | none => x

/-- CPR_SLOT (R189): a slot is filled, split and published. -/
def cprSlotAct (core thr n : Nat) : Act Unit := do
  let o ← copyAt core thr n
  match o.instr with
  | .cpr _ _ q .. => do
    let s ← get
    let r := (s.coreAt core).ring q.toNat
    need (o.started && o.args.getD 5 0 != 0 && decide (r.fc < r.ns))
    let ag := s.opAgent o
    let spl := o.instr.copySplit
    withRing o q do
    let p ← planSlot ag o true r
    let p := if spl && p.halt.isNone && decide (32 < p.scales.length) then
        { p with halt := some (.fault (o.args.getD 1 0)) } else p
    p.finish o ag do
      p.reads.forM fun k => grant ag k 1
      if spl then fillScan core o.th q p.scales.length else pure ()
      modify fun s =>
        let s := s.modCoreAt core (fillSlot q spl p.scales)
        s.modOp o fun x => x.slotDone (ringStride o.instr o.args r.slotBytes) p.payload
  | _ => throw .refuse

def execCprSlot (core thr n : Nat) (s : State) : Outcome := eventDo (cprSlotAct core thr n) s

/-- CPS_SLOT (R189): a slot is copied out and freed. -/
def cpsSlotAct (core thr n : Nat) : Act Unit := do
  let o ← copyAt core thr n
  match o.instr with
  | .cps _ _ _ q .. => do
    let s ← get
    let r := (s.coreAt core).ring q.toNat
    need (o.started && o.args.getD 5 0 != 0 && decide (0 < r.fc))
    let ag := s.opAgent o
    withRing o q do
    let p ← planSlot ag o true r
    p.finish o ag (modify fun s =>
      let s := s.modCoreAt core fun c => c.setRing q.toNat (c.ring q.toNat).release
      s.modOp o fun x => x.slotDone (ringStride o.instr o.args r.slotBytes) p.payload)
  | _ => throw .refuse

def execCpsSlot (core thr n : Nat) (s : State) : Outcome := eventDo (cpsSlotAct core thr n) s

/-! ## Signals between packages (spec/12 R209) -/

/-- The copy of a source package whose signal has a number. -/
def State.signalOp (s : State) (src dst num : Nat) : Option Op :=
  (s.cores.flatMap fun (c, x) => if pkgOf c = src then x.ce else []).find? fun o =>
    o.served == num + 2 && (match o.instr with | .cpsig .. => true | _ => false) &&
      remotePkg s src (o.args.getD 0 0) == some dst

/-- CPSIG_SIGNAL: signal `num` of package `src` arrives at package `pkg`. It is applied once, and its copy is done with
that (R184). -/
def cpsigSignalAct (pkg src num : Nat) : Act Unit := do
  let s ← get
  need ((tgetD (s.pkgAt src).sigUnacked pkg []).any fun x => x.1 == num)
  let w := tgetD (s.pkgAt pkg).sigSeen src {}
  if w.applied 256 num then pure ()
  else do
    let o ← needSome (s.signalOp src pkg num)
    need o.wait.isNone
    opDo o do
      addSignal (s.opAgent o) o true (o.args.getD 2 0)
      modify fun s => s.modPkgAt pkg fun p => { p with sigSeen := tput p.sigSeen src (w.record 256 num) }
      opDone o

def execCpsigSignal (pkg src num : Nat) (s : State) : Outcome := eventDo (cpsigSignalAct pkg src num) s

/-- SIGNAL_ACK: the acknowledgement of a signal to package `dst` reaches package `pkg`, whose copy engine may send
another. -/
def signalAckAct (pkg dst num : Nat) : Act Unit := do
  let s ← get
  need ((tgetD (s.pkgAt pkg).sigUnacked dst []).any fun x => x.1 == num)
  need ((tgetD (s.pkgAt dst).sigSeen pkg {}).applied 256 num)
  modify fun s => s.modPkgAt pkg fun p => { p with
    sigUnacked := tput p.sigUnacked dst ((tgetD p.sigUnacked dst []).filter fun x => x.1 != num) }

def execSignalAck (pkg dst num : Nat) (s : State) : Outcome := eventDo (signalAckAct pkg dst num) s

/-! ## A delivered fault (spec/10 R158) -/

/-- A copy ends faulted with FADDR: a free subset of the bytes that precede the faulting access in
pattern order has landed (R167). -/
def copyFault (o : Op) (fa : Word) (s : State) : State :=
  let ag := s.opAgent o
  let x : Act Unit := do
    let p ← if o.started then planAll ag o false else pure {}
    p.landPart ag o
  match x s with
  | .ok _ s' => opFault o fa s'
  | .error _ s' => opFault o fa s'

end Sys2Proof.Machine
end

