-- ==== Sys2Proof/Machine/Launch.lean ====
section
/-! DEFINITION. Launching a domain, the domain commands, the slot table and the dispatch of a cluster,
load sampling and migration, drain and watchdog expiry (spec/15 R247-R264). -/

namespace Sys2Proof.Machine

/-! ## Registers that a package serves (spec/23 R363, R364) -/

/-- A package serves its registers: from stage 5 on, and not in recovery. -/
def Pkg.serves (p : Pkg) : Bool := decide (5 ≤ p.stage) && p.err == 0

/-- A write of a register, ignored before its package serves it. -/
def served (pkg : Nat) (x : Act Unit) : Act Unit := do
  if ((← get).pkgAt pkg).serves then x else pure ()

/-! ## Launch (R247-R249) -/

/-- Step 1 of R249 on the sixteen words of a descriptor. -/
def descBad (w : List Word) : Bool :=
  let n (i : Nat) : Nat := (w.getD i 0).toNat
  let level := n 0 / 2 ^ 32 % 8
  let home := n 4 / 2 ^ 32
  let homes := match level with
    | 1 => Config.cores | 2 | 3 => Config.clusters | 4 => Config.dies | _ => 1
  n 0 / 2 ^ 48 != 0 || n 0 % 2 ^ 32 == 0 || level == 7 || n 4 % 2 ^ 32 == 0 || decide (homes ≤ home) ||
    n 5 % 64 != 0 || n 6 / 2 ^ 32 != 0 || n 6 % 64 != 0 || n 7 % 64 != 0 || n 11 % 64 != 0 ||
    n 12 / 2 ^ 16 != 0 || n 13 / 2 ^ 32 != 0 || n 14 != 0 || n 15 != 0

/-- The domain that a descriptor describes. -/
def descDomain (desc : Word) (w : List Word) (parent : Option Nat) : Domain :=
  let x (i : Nat) : Word := w.getD i 0
  let n (i : Nat) : Nat := (x i).toNat
  { level := n 0 / 2 ^ 32 % 8, arm := (x 0).getLsbD 35, spn := n 0 / 2 ^ 36 % 2 ^ 12, parent := parent, desc := desc, root := x 3,
    memb := n 4 % 2 ^ 32, home := n 4 / 2 ^ 32, slotBase := x 5, slotBytes := n 6 % 2 ^ 32,
    heapBase := x 7, heapBytes := n 8, fat := x 9,
    drain := (if n 10 % 2 ^ 32 = 0 then 200000 else n 10 % 2 ^ 32),
    wdog := (if n 10 / 2 ^ 32 = 0 then 10000000 else n 10 / 2 ^ 32),
    ctxBase := x 11, ctxn := n 13 % 2 ^ 32, rbcnt := n 12 % 2 ^ 16 }

/-- Feature bits that an image asks for and the package lacks (R249 step 4). -/
def missing (m0 m1 cap0 cap1 : Word) : Nat := (m0 &&& ~~~cap0).toNat + 2 ^ 64 * (m1 &&& ~~~cap1).toNat

/-- The lowest set bit of a non-zero number below 2^128. -/
def lowestBit (n : Nat) : Nat := ((List.range 128).find? fun i => n / 2 ^ i % 2 == 1).getD 0

/-- Words of the device's own reads for a launch. -/
def readWords (ag : Agent) (a : Word) : Nat → Nat → Act (List Word)
  | _, 0 => pure []
  | i, n + 1 => do
    let w ← loadWord ag (addrAdd a (8 * i))
    pure (w :: (← readWords ag a (i + 1) n))

/-- The checks of R249: RESULT and MISS. -/
def launchBody (pkg : Nat) : Act (Nat × Nat) := do
  let p := (← get).pkgAt pkg
  let cl := pkg * Config.clusters
  let w ← readWords (deviceAgent cl 0 (.launch pkg)) p.lDesc 0 16
  let id := (w.getD 0 0).toNat % 2 ^ 32
  modify fun s => s.modPkgAt pkg fun p => { p with lDom := id }
  let dk := domKey pkg id
  if descBad w then pure (2, 0)
  else if (((← get).domAt dk).map fun d => d.st.live).getD false then pure (3, 0)
  else do
    let par := w.getD 1 0
    let parent := (← get).doms.find? fun (k, d) =>
      k / 2 ^ 32 == pkg && d.desc == par && d.st == .running
    if par != 0 && parent.isNone then pure (4, 0)
    else do
      let d := descDomain p.lDesc w (if par = 0 then none else parent.map (·.1))
      let ag := deviceAgent cl d.spn (.launch pkg)
      let feat ← readWords ag (addrAdd (w.getD 2 0) 72) 0 2
      let lack := missing (feat.getD 0 0) (feat.getD 1 0) p.cap0 p.cap1
      if lack ≠ 0 then do
        modify fun s => schedWrite cl d.spn (d.root + 24) statusMask (BitVec.ofNat 64 (6 * 2 ^ 56)) s
        pure (1, lowestBit lack)
      else if d.root.toNat % 64 ≠ 0 ∨ selector d.root ≠ 0 then pure (5, 0)
      else do
        let r ← readWords ag d.root 0 4
        let s ← get
        let s1 := s.setDomAt dk d
        if spawnCode s1 pkg (r.getD 0 0) (r.getD 2 0) (r.getD 3 0) (fun k => k == dk) ≠ 0 then pure (5, 0)
        else do
          let cl := s1.clusterFor pkg (r.getD 2 0) (r.getD 3 0) none
          set (submitAt pkg d.spn d.root (r.getD 0 0) (r.getD 2 0) (r.getD 3 0) cl s1)
          pure (0, 0)

/-- The end of a launch. -/
def launchEnd (pkg res miss : Nat) (s : State) : State :=
  s.modPkgAt pkg fun p => { p with lBusy := false, lResult := res, lMiss := miss }

/-- Run or resume the launch of a package: a translation that it waits for leaves it busy. -/
def launchTry (pkg : Nat) (s : State) : State :=
  match launchBody pkg s with
  | .ok (r, m) s' => launchEnd pkg r m s'
  | .error .wait s' =>
    let cl := pkg * Config.clusters
    let c := s'.clusterAt cl
    if (c.fb.any fun (_, e) => e.waiters.contains (.launch pkg)) || c.late.contains (.launch pkg) then s'
    else s'.modClusterAt cl fun c => { c with late := c.late ++ [.launch pkg] }
  | .error (.err e) s' => launchEnd pkg 6 0 (reportError s' pkg none none e).1
  | .error _ s' => launchEnd pkg 6 0 s'

/-- A write of LNCH (R248, spec/23 R363): ignored while a launch is being checked, before READY, and with
a reserved bit set. -/
def lnchWrite (pkg : Nat) (w : Word) (s : State) : State :=
  let p := s.pkgAt pkg
  if !p.ready || p.lBusy || w.toNat / 2 ^ 57 ≠ 0 || w.toNat % 64 ≠ 0 then s
  else launchTry pkg (s.setPkgAt pkg { p with lBusy := true, lDesc := w })

def execLnch (pkg : Nat) (w : Word) (s : State) : Outcome := eventDo (modify (lnchWrite pkg w)) s

/-! ## The compaction engines of a package (spec/20 R328) -/

/-- A job ends with a RESULT. -/
def jobEnd (pkg e res : Nat) (s : State) : State :=
  s.modPkgAt pkg fun p => p.setCmp e { p.cmp e with busy := false, result := res, table := none, switched := false, release := [], relAt := [], wait := none }

/-- A job fails: word 4 of its descriptor holds 0 (spec/20 R330). -/
def jobFail (pkg e res : Nat) (s : State) : State :=
  let p := s.pkgAt pkg
  schedWrite (pkg * Config.clusters) p.kvspn ((p.cmp e).job + 32) (BitVec.allOnes 64) 0 (jobEnd pkg e res s)

/-! ## Domain commands (R263) -/

/-- A command of DCMD: the domain last named is what DSTAT reports. -/
def dcmdDo (pkg dom cmd : Nat) (s : State) : State :=
  domCommand (domKey pkg dom) cmd (s.modPkgAt pkg fun p => { p with dDom := dom })

/-- A write of DCMD: ignored with a reserved bit set or another command. -/
def dcmdWrite (pkg : Nat) (w : Word) (s : State) : State :=
  let cmd := w.toNat / 2 ^ 60
  if w.toNat / 2 ^ 32 % 2 ^ 28 ≠ 0 ∨ cmd = 0 ∨ 3 < cmd then s else dcmdDo pkg (w.toNat % 2 ^ 32) cmd s

def execDcmdPreempt (pkg dom : Nat) (s : State) : Outcome := eventDo (served pkg (modify (dcmdDo pkg (dom % 2 ^ 32) 1))) s
def execDcmdResume (pkg dom : Nat) (s : State) : Outcome := eventDo (served pkg (modify (dcmdDo pkg (dom % 2 ^ 32) 2))) s
def execDcmdKill (pkg dom : Nat) (s : State) : Outcome := eventDo (served pkg (modify (dcmdDo pkg (dom % 2 ^ 32) 3))) s

/-- DSTAT. -/
def State.dstat (s : State) (pkg : Nat) : Word :=
  let p := s.pkgAt pkg
  match s.domAt (domKey pkg p.dDom) with
  | none => 0
  | some d =>
    BitVec.ofNat 64 (d.forced % 2 ^ 32 + 2 ^ 40 * d.st.code +
      2 ^ 63 * (d.st == .draining || !d.heldCmd.isEmpty).toNat)

def Pkg.lstat (p : Pkg) : Word :=
  BitVec.ofNat 64 (p.lDom % 2 ^ 32 + 2 ^ 32 * (p.lResult % 16) + 2 ^ 48 * (p.lMiss % 256) + 2 ^ 63 * p.lBusy.toNat)

/-- DRAIN ticks have passed: every remaining member is to be saved by force (R264). -/
def execDrainExpiry (pkg dom : Nat) (s : State) : Outcome :=
  eventDo (do
    let s ← get
    let dk := domKey pkg dom
    let d ← needSome (s.domAt dk)
    need (d.st == .draining && d.drainLeft == 0)
    let ths := (s.domThreads dk).filter fun th => (s.threadAt th).saving.isNone && !(s.threadAt th).dying
    let s := ths.foldl (fun s th => s.beginForced th false) s
    set (s.modDomAt dk fun d => { d with forced := d.forced + ths.length })) s

/-! ## The watchdog (R262) -/

/-- An operation of the current thread made for another one. -/
def asThread (th : Nat) (f : State → State) (s : State) : State :=
  let s' := f { s with cc := th / 4, ct := th % 4 }
  { s' with cc := s.cc, ct := s.ct }

/-- The domain at whose `dsync` a key waits. -/
def State.dsyncDomain (s : State) (key : Nat) : Option (Nat × Domain) :=
  s.doms.find? fun (_, d) => d.arrived.contains key

/-- Where the counts table notes that a package's completion is on its way. -/
def completionMark : Nat := 2 ^ 32

/-- A member that has arrived takes a watchdog trap when it next runs. -/
def timeoutMember (v : Word) (s : State) (m : Nat) : State :=
  let on (s : State) (th : Nat) : State := s.modThreadAt th fun t => { t with wdTrap := some v, waiting := none, waited := 0 }
  match s.recAt m with
  | some r =>
    if r.status = 3 then (s.setRec m { r with wdTrap := some v, waited := 0, snap := none }).makeQueued m
    else match r.slot with
      | some th => if (s.threadAt th).waiting = some .dsync then on s th else s
      | none => s
  | none => if 2 ^ 90 ≤ m then on s (m - 2 ^ 90) else s

/-- The members of a domain that have arrived stop waiting. -/
def timeoutDomain (v : Word) (s : State) (k : Nat) : State :=
  match s.domAt k with
  | none => s
  | some d => d.arrived.foldl (timeoutMember v)
      (s.setDomAt k { d with arrived := [], counts := d.counts.filter fun x => x.1 == completionMark })

/-- A `dsync` times out: every waiting member takes the trap, on every package at level 6; the value counts the members
that neither waited nor had ended. -/
def dsyncTimeout (dk : Nat) (d : Domain) (s : State) : State :=
  let ks := s.sixDoms dk d
  let n := ks.foldl (fun n k => n + ((s.domAt k).map Domain.counted).getD 0) d.gone
  ks.foldl (timeoutDomain (BitVec.ofNat 64 (d.memb - n))) s

/-- WDOG ticks that a domain allows its members: its own at level 2 or above, else those of the nearest
domain of such a level above it (log entry 47). -/
def State.wdogOf (s : State) (pkg dom : Nat) : Option Nat :=
  (s.chain (domKey pkg dom)).findSome? fun k => (s.domAt k).bind fun d => if 2 ≤ d.level then some d.wdog else none

/-- WDOG ticks that a thread may wait; a gang is a domain of level 2, of no descriptor (log entry 48). -/
def State.wdogOfThread (s : State) (pkg : Nat) (t : Thread) : Option Nat :=
  (s.wdogOf pkg t.dom).orElse fun _ => t.gang.map fun _ => 10000000

def execWatchdogExpiry (core thr : Nat) (s : State) : Outcome :=
  eventDo (do
    let s ← get
    let th := 4 * core + thr
    let t := s.threadAt th
    let pkg := pkgOf core
    match t.waiting with
    | some w => do
      let lim ← needSome (s.wdogOfThread pkg t)
      need (lim ≤ t.waited && !t.dying && t.blocked.isNone)
      match w with
      | .bwait a => set (asThread th (takeTrap (trWatchdog a)) s)
      | .rejoin tok => set (asThread th (takeTrap (trWatchdog (tok.setWidth 64))) s)
      | .dsync =>
        let (dk, d) ← needSome (s.dsyncDomain (s.memberKey th))
        set (dsyncTimeout dk d s)
    | none => do
      let late (r : RecInfo) : Bool := ((s.wdogOf pkg r.dom).map fun n => decide (n ≤ r.waited)).getD false
      let (_, r) ← needSome (s.recs.find? fun (_, r) =>
        r.pkg == pkg && r.status == 3 && r.why == .dsync && r.lastSlot == th && late r)
      let (dk, d) ← needSome (s.dsyncDomain (recKey r.pkg r.spn r.addr))
      set (dsyncTimeout dk d s)) s

/-! ## The slot table (R255) -/

/-- A slot-table word 1 with STATE and WHY set. -/
def slotDone (w : Word) (st why : Nat) : Word :=
  BitVec.ofNat 64 (st * 2 ^ 62 + why * 2 ^ 59 + w.toNat % 2 ^ 11)

/-- The record of a package at an address; a queued one before others. -/
def State.recordAt (s : State) (pkg : Nat) (addr : Word) : Option Nat :=
  let l := s.recs.filter fun (_, r) => r.pkg == pkg && r.addr == addr
  ((l.find? fun (_, r) => r.status == 1).orElse fun _ => l.head?).map (·.1)

/-- Carry out the pending action of an entry. An entry that does not read in order has the error reported and its
action rejected (log entry 54). -/
def slotAct (cl e : Nat) : Act Unit := do
  let (s, bad) := controlScan cl none none [stErr e 0, stErr e 1] (← get)
  set s
  let c := s.clusterAt cl
  let w := tgetD c.slot1 e 0
  let n := w.toNat
  let th := 4 * coreOfCluster cl (e / 4) + e % 4
  let finish (st why : Nat) : Act Unit :=
    modify fun s => s.modClusterAt cl fun c => c.putSlot1 e (slotDone w st why)
  if let some er := bad then do
    modify fun s => (reportError s (pkgOfCluster cl) none none er).1
    finish 3 0
  else if n % 64 ≠ e / 4 ∨ n / 64 % 4 ≠ e % 4 then finish 3 2
  else match n / 2 ^ 8 % 8 with
    | 0 => finish 2 0
    | 1 =>
      match s.recordAt (pkgOfCluster cl) (tgetD c.slot0 e 0) with
      | none => finish 3 0
      | some k =>
        match bindRefusal s k th with
        | some why => finish 3 why
        | none => do
          bindOrKill k th
          if ((← get).threadAt th).bound then finish 2 0 else finish 3 0
    | 2 =>
      if (s.threadAt th).bound then do
        finish 2 0
        modify fun s => s.beginForced th true
      else finish 3 0
    | _ => finish 3 0

/-- A write of word 1: the fields that software may write, and the action when STATE is 1. -/
def slotWrite1 (cl e : Nat) (w : Word) : Act Unit := do
  modify fun s => s.modClusterAt cl fun c =>
    let why := (tgetD c.slot1 e 0).toNat / 2 ^ 59 % 8
    c.putSlot1 e (slotDone w (w.toNat / 2 ^ 62) why)
  if w.toNat / 2 ^ 62 = 1 then slotAct cl e else pure ()

/-- A bind or an evict written to the slot table by the bench core or the host. -/
def slotEvent (act cl e : Nat) (w : Word) : Act Unit := do
  need (decide (e < 256) && w.toNat / 2 ^ 62 == 1 && w.toNat / 2 ^ 8 % 8 == act)
  served (pkgOfCluster cl) (slotWrite1 cl e w)

def execSlotBind (cluster entry : Nat) (w1 : Word) (s : State) : Outcome :=
  eventDo (slotEvent 1 cluster entry w1) s

def execSlotEvict (cluster entry : Nat) (w1 : Word) (s : State) : Outcome :=
  eventDo (slotEvent 2 cluster entry w1) s

/-! ## Dispatch (R254) -/

/-- An entry whose action is pending and can go on. -/
def pendingEntry (s : State) (cl : Nat) : Option Nat :=
  let c := s.clusterAt cl
  (List.range 256).find? fun e =>
    (tgetD c.slot1 e 0).toNat / 2 ^ 62 == 1 &&
      (match s.recordAt (pkgOfCluster cl) (tgetD c.slot0 e 0) with
        | some k => ((s.recAt k).bind (·.bindWait)).isNone
        | none => true)

/-- A pending entry of the slot table, or the record that hardware mode takes, is bound. -/
def dispatchAct (cl : Nat) : Act Unit := do
  modify (scanQueue cl)
  let s ← get
  match pendingEntry s cl with
  | some e => slotAct cl e
  | none => do
    need ((s.clusterAt cl).mode == 0)
    let (k, th) ← needSome (pickRecord s cl)
    bindOrKill k th

def execDispatch (cluster : Nat) (s : State) : Outcome := eventDo (dispatchAct cluster) s

/-- A read of QPOP: the record that hardware mode would take next leaves its queue. -/
def qpopDo (cl : Nat) (s : State) : State × Word :=
  let s := scanQueue cl s
  match pickRecord s cl with
  | some (k, _) => (s.unqueue k, ((s.recAt k).map (·.addr)).getD 0)
  | none => (s, 0)

/-- A write of QPUSH: a queued record goes to the tail of its queue. -/
def qpushDo (cl : Nat) (w : Word) (s : State) : State :=
  match s.recordAt (pkgOfCluster cl) w with
  | some k => if ((s.recAt k).map (·.status)).getD 0 = 1 then s.enqueue k else s
  | none => s

/-- The value of a read that the bench core or the host makes (spec/21 R334). -/
def State.hostGets (s : State) (pkg : Nat) (bs : List Byte) : State :=
  s.modPkgAt pkg fun p => { p with hostRead := bs }

def execQpop (cluster : Nat) (s : State) : Outcome :=
  eventDo (modify fun s =>
    let (s, w) := if (s.pkgAt (pkgOfCluster cluster)).serves then qpopDo cluster s else (s, 0)
    s.hostGets (pkgOfCluster cluster) (leBytes 8 w.toNat)) s

def execQpush (cluster : Nat) (w : Word) (s : State) : Outcome := eventDo (served (pkgOfCluster cluster) (modify (qpushDo cluster w))) s

/-! ## Load sampling and migration (R256, R257) -/

/-- The fields are sampled; how many samples in a row a field has read 4. -/
def sampleLoads (cl : Nat) (s : State) : State :=
  let loads := (List.range 64).map fun i => (i, readyCount s (coreOfCluster cl i))
  s.modClusterAt cl fun c =>
    let runs := loads.map fun (i, n) => (i, if n = 4 then tgetD c.cloadRun i 0 + 1 else 0)
    { c with cload := loads.filter (·.2 != 0), cloadRun := runs.filter (·.2 != 0) }

def execCloadSample (cluster : Nat) (s : State) : Outcome := eventDo (modify (sampleLoads cluster)) s

/-- CLOADk. -/
def Cluster.cloadReg (c : Cluster) (k : Nat) : Word :=
  BitVec.ofNat 64 ((List.range 16).foldl (fun a i => a + 2 ^ (4 * i) * (tgetD c.cload (16 * k + i) 0 % 16)) 0)

/-- A thread may migrate (R257), and its record may be bound on the target core. -/
def migratable (s : State) (th target : Nat) : Bool :=
  let t := s.threadAt th
  s.threadReady th && t.flagM && t.res == 1 && t.depth == 0 && t.frames.length == 1 &&
    (s.claimsOf th).isEmpty && !t.vlive &&
    (t.f.all fun (_, f) => !(f.v && f.st == .pending)) && (s.allOps th).isEmpty && !t.inTrap &&
    (s.coreAt (th / 4)).owner != some (th % 4) && t.gang.isNone && !s.armed th && t.saving.isNone &&
    (s.keyOf th).isSome &&
    !(armedElsewhere s target (domKey (pkgOf target) t.dom)) &&
    (match t.ftrk with
      | some n => (s.trackAt target n).claim == .none
      | none => true) &&
    (match s.domOfThread th with
      | some (_, d) => affinityOk d t.w3 target
      | none => false)

/-- A slot that no thread holds and none is on its way to. -/
def slotFree (s : State) (th : Nat) : Bool :=
  !(s.threadAt th).bound && !((s.clusterAt (clusterOf (th / 4))).arriving.any fun a => a.slot == th)

/-- The target core: the lowest load field with a free slot, lowest index. -/
def migrationTarget (s : State) (cl : Nat) : Option Nat :=
  let c := s.clusterAt cl
  let cands := (List.range 64).filter fun i =>
    !(s.coreAt (coreOfCluster cl i)).fenced && !c.fenced &&
      (List.range 4).any fun t => slotFree s (4 * coreOfCluster cl i + t)
  (cands.foldl (fun (m : Option Nat) i => match m with
    | none => some i
    | some j => if tgetD c.cload i 0 < tgetD c.cload j 0 then some i else some j) none)

/-- Every register of a thread is read as its context leaves its slot; an error that cannot be corrected is the
thread's (spec/22 R350, R353). -/
def scanned (th : Nat) (x : Act Unit) : Act Unit := do
  let (s, r) := contextScan th (← get)
  match r with
  | some e => set (reportError s (pkgOf (th / 4)) (some (th / 4)) (some th) e).1
  | none => do
    set s
    x

/-- A thread's image is written and it is on its way to a slot. -/
def moveThread (th slot : Nat) : Act Unit := do
  let s ← get
  let t := s.threadAt th
  let cl := clusterOf (th / 4)
  let key ← needSome (s.keyOf th)
  let dk := domKey (pkgOf (th / 4)) t.dom
  match (s.domAt dk).bind fun d => (freeImage d).map fun im => (d, im) with
  | none => set (endThread th 5 none s)
  | some (d, im) => whole th do
    let wst := BitVec.ofNat 64 (t.res % 8 + 2 ^ 32 * (t.depth % 2 ^ 32))
    storeWords th (addrAdd d.ctxBase (16384 * im)) 0 (scalarWords t ⟨t.rec_, [], [], wst, []⟩)
    modify fun s =>
      let s := s.modDomAt dk fun d => { d with images := tput d.images im key }
      let s := (s.freeSlot th).sampleTime cl
      let t := { t with tbHold := max t.tbHold (s.clusterAt cl).tb }
      let s := s.modRec key fun r => { r with slot := none, lastSlot := th }
      s.modClusterAt cl fun c => { c with arriving := c.arriving ++ [⟨key, slot, t, im⟩] }

/-- A core whose field has read 4 for 1,024 cycles moves one thread; for another one it has to read so as long again. -/
def migrateAct (core : Nat) : Act Unit := do
  let s ← get
  let cl := clusterOf core
  let c := s.clusterAt cl
  need (c.migen && decide (16 ≤ tgetD c.cloadRun (coreIn core % 64) 0))
  let i ← needSome (migrationTarget s cl)
  need (decide (tgetD c.cload i 0 ≤ 2))
  let target := coreOfCluster cl i
  let slot ← needSome (((List.range 4).find? fun t => slotFree s (4 * target + t)).map (4 * target + ·))
  let cands := (List.range 4).filter fun t => migratable s (4 * core + t) target
  let thr ← needSome (cands.foldl (fun (m : Option Nat) t => match m with
    | none => some t
    | some u => if (s.threadAt (4 * core + u)).prio < (s.threadAt (4 * core + t)).prio then some u else some t) none)
  scanned (4 * core + thr) (moveThread (4 * core + thr) slot)
  modify fun s => s.modClusterAt cl fun c => { c with cloadRun := tdel c.cloadRun (coreIn core % 64) }

def execMigration (core : Nat) (s : State) : Outcome := eventDo (migrateAct core) s

/-- The target binds the record; its base frame lies in the new slot's area where it has one. -/
def arriveAct (cl : Nat) : Act Unit := do
  let s ← get
  let a ← needSome (s.clusterAt cl).arriving.head?
  let th := a.slot
  let dk := domKey (pkgOfCluster cl) a.thread.dom
  let t := a.thread
  let slotArea := t.ftrk.isNone && w3Ovx t.w3 == 0
  let ab := match s.domAt dk with
    | some d => if slotArea then
        addrAdd d.slotBase ((if d.slotBytes = 0 then 16384 else d.slotBytes) * (4 * coreIn (th / 4) + th % 4))
      else t.ab
    | none => t.ab
  whole th do
    modify fun s => s.setThreadAt th { t with ab := ab }
    match slotArea, t.frames.head? with
    | true, some f => frameWrite th f.at_ (f.header 0)
    | _, _ => pure ()
    modify fun s =>
      let s := s.modRec a.key fun r => { r with slot := some th }
      let s := s.modDomAt dk fun d => { d with images := tdel d.images a.image }
      let s := refillQueue th a.key s
      s.modClusterAt cl fun c =>
        let e := 4 * (coreIn (th / 4) % 64) + th % 4
        let c := { c with arriving := c.arriving.drop 1 }
        (c.putSlot0 e t.rec_).putSlot1 e (BitVec.ofNat 64 (2 * 2 ^ 62 + 2 ^ 8 + th % 4 * 2 ^ 6 + coreIn (th / 4) % 64))

def execMigrationArrive (cluster : Nat) (s : State) : Outcome := eventDo (arriveAct cluster) s

end Sys2Proof.Machine
end

