-- ==== Sys2Proof/Machine/Turn.lean ====
section
/-! DEFINITION. One turn of a thread up to its instruction: what is due before it, the fetch and the
decode (spec/02 R12, R13, R28, R30, spec/04 R57, spec/16 R272 orders 1 and 2). -/

namespace Sys2Proof.Machine

/-- The current thread takes a fetch block as it was, or as it is, by a free choice that stands until its next
suspension point (R30). -/
def State.chooseBlock (s : State) (block : Nat) : State :=
  { s with fresh := s.fresh + 1 }.modTh fun t => { t with fetchOld := tput t.fetchOld block (Config.freeBit s.fresh) }

/-- The bytes from the pc to the end of its fetch block, through path 0x0. -/
def fetchBytes : Act (List Byte) := do
  let s ← get
  let ag := { s.lsu with unit := 1 }
  let pc := s.th.pc
  let n := min 16 (32 - pc.toNat % 32)
  let (k, _) ← translate ag ag.pkg pc.toNat .fetch (pc.setWidth 64)
  grant ag k n
  eccScan ag k n false
  let s ← get
  match s.fetchView s.th k n with
  | some bs => pure bs
  | none => do
    let s := s.chooseBlock (k / 32)
    set s
    pure ((s.fetchView s.th k n).getD (memReads s.mem k n))

/-- What a thread's turn comes to before an instruction runs. -/
inductive Fetched where
  /-- The instruction to run. -/
  | run (i : Instr) (s : State)
  /-- The turn is over. -/
  | over (s : State)
  deriving Repr

/-- A delivered fault is taken as a trap at the instruction (spec/16 R274). -/
def deliveredTrap (d : Delivered) : Trap :=
  { trDelivered d.addr with kind := d.kind, moved := d.moved, vh := d.vh }

/-- The turn of the current thread: a slot that is free, blocked, waiting or ending issues nothing; a
delivered fault or a watchdog trap that is due comes before the instruction; a pc that is no legal start
traps (R13); then the fetch and the decode. -/
def fetchTurn (s : State) : Fetched :=
  let t := s.th
  if !t.bound || t.dying || t.blocked.isSome then .over s
  else match t.delivered with
    | some d => .over (takeTrap (deliveredTrap d) (s.setTh { t with delivered := none }))
    | none =>
      match t.wdTrap with
      | some v => .over (takeTrap (trWatchdog v) (s.setTh { t with wdTrap := none }))
      | none =>
        if t.waitN ≠ 0 then .over s
        else if !legalStart t.pc then .over (takeTrap (trMisaligned (t.pc.setWidth 64)) s)
        else match fetchBytes s with
          | .error .wait s' => .over s'
          | .error (.trap tr) _ => .over (takeTrap tr s)
          | .error (.trapKeep tr) s' => .over (takeTrap tr s')
          | .error (.err e) s' => .over (s'.reportHere e).1
          | .error .refuse s' => .over s'
          | .ok bs s' =>
            match decode bs with
            | .error r => .over (takeTrap (trIllegal r.tval) s')
            | .ok (i, _) => .run i s'

end Sys2Proof.Machine
end

