-- ==== Sys2Proof/Machine/Service.lean ====
section
/-! DEFINITION. The service operations and the fault buffer (spec/10 R157-R164), `idle` and `sevw`
(spec/15 R265), `rdtime` (spec/22 R361, R362). -/

namespace Sys2Proof.Machine

/-! ## Replies to fault messages (R157, R158) -/

/-- The scheduler's write of a record word cannot be made (spec/14 R380). -/
def recWriteLost (pkg : Nat) (addr : Word) (s : State) : State :=
  (reportError s pkg none none { cls := 1, src := 7, addr := addr }).1

/-- A waiter goes on as after a retry. A synchronous access and an operation translate again at their
next turn; a launch and a record write at once. -/
def retryWaiter (s : State) : Waiter → State
  | .launch pkg => launchTry pkg s
  | .recWrite fr th pc spn addr mask val => writeAs fr th pc spn addr mask val s
  | _ => s

/-- Messages that found the buffer full are posted again. -/
def replayLate (cl : Nat) (s : State) : State :=
  let ws := (s.clusterAt cl).late
  ws.foldl retryWaiter (s.modClusterAt cl fun c => { c with late := [] })

/-- A delivered fault written into a saved context: FLAGS.DLV and DADDR (spec/16 R276), which for a fetch is the pc
(spec/04 R57). -/
def deliverSaved (k : Nat) (r : RecInfo) (addr : Word) (s : State) : State :=
  match s.imageAddr r with
  | none => s
  | some a =>
    let s := schedWrite r.cluster r.spn (addrAdd a 8) 2 2 s
    let addr := if r.faultFetch then (w0Pc r.w0).setWidth 64 else addr
    let s := schedWrite r.cluster r.spn (addrAdd a 0x40) (BitVec.allOnes 64) addr s
    s.modRec k fun r => { r with faultWait := none }

/-- The fault that a reply delivers to a blocked thread; of a fetch, at its pc (spec/04 R57). -/
def Thread.deliver (m : BitVec 256) (t : Thread) : Thread :=
  match t.blocked with
  | some b =>
    let d : Delivered := if b.fetch then ⟨t.pc.setWidth 64, 3, 0, false⟩ else ⟨msgAddr m, msgKind m, b.moved, b.vh⟩
    { t with blocked := none, delivered := some d }
  | none => t

/-- A thread waits on an entry: cluster, entry, generation. -/
def Thread.waitsOn (t : Thread) (x : Nat × Nat × Nat) : Bool :=
  (t.blocked.map fun b => (b.cluster, b.entry, b.gen)) == some x

/-- A follower that is saved with its gang's record ends as killed. -/
def killSaved (k f : Nat) (s : State) : State :=
  let s := s.modRec k fun r => { r with followers := r.followers.filter fun x => x.1 != f }
  let free (x : Track) : Track := { x with claim := if x.claim = savedClaim k f then .none else x.claim }
  let s := s.modCoreAt (f / 4) fun c => { c with tracks := c.tracks.map fun (i, x) => (i, free x) }
  match (s.recAt k).bind (·.gang) with
  | some g => checkSuperstep (gangDom g.leader) (s.modDomAt (gangDom g.leader) fun d =>
      { d with ended := d.ended + 1, arrived := d.arrived.filter (· != 2 ^ 90 + f) })
  | none => s

/-- The reply to a record's bind, or to a suspended record whose access it met waiting. -/
def replyRecord (x : Nat × Nat × Nat) (m : BitVec 256) (code k : Nat) (r : RecInfo) (s : State) : State :=
  if r.bindWait = some x then
    match code with
    | 0 => s.modRec k fun r => { r with bindWait := none }
    | 1 => s.modRec k fun r => { r with bindWait := none, bindFault := true }
    | _ => endRecord k 5 none [] false (s.unqueue k)
  else if r.faultWait = some x then
    match code with
    | 0 => s.modRec k fun r => { r with faultWait := none }
    | 1 => deliverSaved k r (msgAddr m) s
    | _ => endRecord k 5 none [] false (s.unqueue k)
  else s

/-- The reply to a follower that is saved with its gang's record. -/
def replySaved (x : Nat × Nat × Nat) (m : BitVec 256) (code k f : Nat) (r : RecInfo) (s : State) : State :=
  if r.followers.any fun y => y.1 == f && y.2.1.waitsOn x then
    match code with
    | 0 | 1 => s.modRec k fun r => { r with followers := r.followers.map fun y => if y.1 = f then
        (y.1, if code = 1 then y.2.1.deliver m else { y.2.1 with blocked := none }, y.2.2) else y }
    | _ => killSaved k f s
  else replyRecord x m code k r s

/-- The reply to a thread whose access, or whose record's bind, waits on an entry; a thread that has been saved since is
found by its record (R158). -/
def replySync (cl i gen : Nat) (m : BitVec 256) (code th key : Nat) (s : State) : State :=
  let here := (cl, i, gen)
  if (s.threadAt th).bound && s.memberKey th == key && (s.threadAt th).waitsOn here then
    match code with
    | 0 => s.modThreadAt th fun t => { t with blocked := none }
    | 1 => s.modThreadAt th (Thread.deliver m)
    | _ => (s.modThreadAt th fun t => { t with blocked := none }).killThread th
  else match s.recAt key with
    | some r => replyRecord here m code key r s
    | none => match s.recs.find? fun (_, r) => r.followers.any fun y => y.1 == th && (y.2.1.waitsOn here || r.bindWait == some here) with
      | some (k, r) => replySaved here m code k th r s
      | none => s

/-- The reply to an engine operation. -/
def replyOp (cl i gen : Nat) (m : BitVec 256) (code th : Nat) (e : Eng) (n : Nat) (s : State) : State :=
  match s.opAt th e n with
  | none => s
  | some o =>
    if o.wait ≠ some (cl, i, gen) then s
    else
      let s := s.modOp o fun x => { x with wait := none }
      let o := { o with wait := none }
      let ends (s : State) : State := match e with
        | .ce => copyFault o (msgAddr m) s
        | _ => opFault o (msgAddr m) s
      match code with
      | 0 => s
      | 1 => ends s
      | _ => (ends s).killThread th

/-- The reply to a job that waits on an entry (spec/20 R330). -/
def replyJob (cl i gen code pkg e : Nat) (s : State) : State :=
  if ((s.pkgAt pkg).cmp e).wait ≠ some (cl, i, gen) then s
  else
    let s := s.modPkgAt pkg fun p => p.setCmp e { p.cmp e with wait := none }
    if code = 0 then s else jobFail pkg e 3 s

/-- A reply reaches one waiter. -/
def replyWaiter (cl i gen : Nat) (m : BitVec 256) (code : Nat) (s : State) : Waiter → State
  | .sync th rec_ => replySync cl i gen m code th rec_ s
  | .op th e n => replyOp cl i gen m code th e n s
  | .launch pkg => if code = 0 then launchTry pkg s else launchEnd pkg 6 0 s
  | .compact pkg e => replyJob cl i gen code pkg e s
  | .recWrite fr th pc spn addr mask val =>
    if code = 0 then writeAs fr th pc spn addr mask val s else recWriteLost (pkgOf (th / 4)) addr s

/-- A reply to an entry: every context waiting on it, then the entry is free (R158). -/
def faultReply (cl i code : Nat) (s : State) : State :=
  let c := s.clusterAt cl
  match tget c.fb i with
  | none => s
  | some e =>
    let s := s.setClusterAt cl { c with fb := tdel c.fb i }
    let s := e.waiters.foldl (replyWaiter cl i (msgGen e.msg) e.msg code) s
    replayLate cl s

/-- `frep`: the operand words, the status word (R163). -/
def frepDo (cl : Nat) (a b : Word) (s : State) : State × Word :=
  let i := a.toNat % 64
  match tget (s.clusterAt cl).fb i with
  | none => (s, 1)
  | some e =>
    if msgGen e.msg ≠ a.toNat / 2 ^ 8 % 256 then (s, 1)
    else if 2 < b.toNat then (s, 2)
    else (faultReply cl i b.toNat s, 0)

/-- FLUSH (R157): every entry is invalid, the generation advances, every waiter translates again. -/
def flushBuffer (cl : Nat) (s : State) : State :=
  let c := s.clusterAt cl
  let s := s.setClusterAt cl { c with fb := [], fbGen := (c.fbGen + 1) % 256 }
  let s := c.fb.foldl (fun s (x : Nat × FaultEnt) =>
    x.2.waiters.foldl (replyWaiter cl x.1 (msgGen x.2.msg) x.2.msg 0) s) s
  replayLate cl s

def execFbctlFlush (cluster : Nat) (s : State) : Outcome :=
  eventDo (served (pkgOfCluster cluster) (modify (flushBuffer cluster))) s

/-- FAULT_MESSAGE_POST: the fetch of a thread misses; the message is posted and the thread blocks, or
waits for room (R155, R157); nothing comes of it where the fetch does not miss. A data access posts its message in its
own step. -/
def execFaultMessagePost (core thr : Nat) (s : State) : Outcome :=
  let t := s.threadAt (4 * core + thr)
  if !t.bound || t.dying || t.blocked.isSome then .next s
  else match fetchBytes { s with cc := core, ct := thr } with
    | .error .wait s' => .next { s' with cc := s.cc, ct := s.ct }
    | _ => .next s

/-! ## Translations (R151, R162, R163) -/

/-- The rules that the words of an entry must keep (R151-R153, R162; for RL, log entry 95). -/
def TlbEnt.ok (e : TlbEnt) : Bool :=
  let (t, d, x) := (e.t.toNat, e.d.toNat, e.s.toNat)
  t / 2 ^ 57 == 0 && e.sizeCode != 3 && e.base % e.size == 0 &&
  d / 2 ^ 46 % 2 ^ 12 == 0 && d / 2 ^ 3 % 2 ^ 13 == 0 && e.frame % e.size == 0 &&
  e.elem != 15 && e.geo != 3 && (e.geo == 0 || [1, 5, 6, 7, 8, 9, 13, 14].contains e.elem) &&
  x / 2 ^ 52 == 0 && x / 2 ^ 46 % 4 == 0 && x % 2 ^ 12 == 0 &&
  (if e.geo = 0 then x == 0 else if e.geo = 1 then e.rl == 0 else decide (e.rl ≤ 10))

/-- Two entries could match one access (R162). -/
def TlbEnt.clashes (a b : TlbEnt) : Bool :=
  (a.global || b.global || a.spn == b.spn) && decide (a.base < b.base + b.size) && decide (b.base < a.base + a.size)

/-- The micro-TLBs of a cluster's cores change. -/
def State.modUtlbs (s : State) (cl : Nat) (f : List TlbEnt → List TlbEnt) : State :=
  { s with cores := s.cores.map fun (k, c) => if clusterOf k = cl then (k, { c with utlb := f c.utlb }) else (k, c) }

/-- `tlbw` (R162): the status word. -/
def tlbwDo (cl : Nat) (a b c : Word) (s : State) : State × Word :=
  let e : TlbEnt := ⟨a, b, c⟩
  if !e.ok then (s, 1)
  else if (e.hole (s.pkgAt (pkgOfCluster cl))).isSome then (s, 2)
  else
    let keep (l : List TlbEnt) : List TlbEnt := l.filter fun x => !(e.clashes x)
    let s := s.modUtlbs cl keep
    (s.modClusterAt cl fun k => { k with tlb := (e :: keep k.tlb).take 1024 }, 0)

/-- The virtual address by which an access to an address is matched in its own package (R147, R155). -/
def matchAddr (p : Pkg) (a : Word) : Option Nat :=
  match selector a with
  | 0 | 6 | 7 => some (low60 a)
  | 8 => if low60 a / 2 ^ 46 = p.pkgId then some (low60 a % 2 ^ 46) else none
  | _ => none

/-- The entries of a scope (R163), for a cluster of a package. -/
def inScope (p : Pkg) (scope : Nat) (a b : Word) (e : TlbEnt) : Bool :=
  match scope with
  | 0 => match matchAddr p a with
    | some va => e.hits (b.toNat % 2 ^ 12) va
    | none => false
  | 1 => !e.global && e.spn == b.toNat % 2 ^ 12
  | 2 => !e.global
  | _ => true

/-- A cluster is reached by a `tlbi` of cluster cl. -/
def reached (cl : Nat) (pkgw : Bool) (c : Nat) : Bool := if pkgw then pkgOfCluster c == pkgOfCluster cl else c == cl

/-- The copies, by thread and number, that hold in a reached cluster a translation of some kind. -/
def State.pinHolders (s : State) (cl : Nat) (pkgw : Bool) (p : TlbEnt → Bool) : List (Nat × Nat) :=
  s.cores.flatMap fun (_, c) => (c.ce.filter fun o => o.held.any fun x => reached cl pkgw x.cluster && p x.ent).map
    fun o => (o.th, o.num)

/-- Some of the copies have yet to end. -/
def State.copiesLeft (s : State) (l : List (Nat × Nat)) : Bool := l.any fun x => (s.opAt x.1 .ce x.2).isSome

/-- `tlbi` (R163): entries removed; the count from the issuing cluster's TLB, and the copies that hold a translation
of the scope. -/
def tlbiDo (cl : Nat) (a b : Word) (scope : Nat) (pkgw : Bool) (s : State) : State × Word × List (Nat × Nat) :=
  let p := inScope (s.pkgAt (pkgOfCluster cl)) scope a b
  let n := ((s.clusterAt cl).tlb.filter p).length
  let l := s.pinHolders cl pkgw p
  let drop (l : List TlbEnt) : List TlbEnt := l.filter fun e => !(p e)
  let s := { s with
    clusters := s.clusters.map fun (k, c) => if reached cl pkgw k then (k, { c with tlb := drop c.tlb }) else (k, c)
    cores := s.cores.map fun (k, c) =>
      if reached cl pkgw (clusterOf k) then (k, { c with utlb := drop c.utlb }) else (k, c) }
  (s, BitVec.ofNat 64 n, l)

/-! ## The instructions (R161) -/

/-- A service instruction runs only while SVCCTL lets threads execute it. -/
def serviceGate (i : Instr) : Act Nat := do
  let s ← get
  let cl := clusterOf s.cc
  trapIf (!(s.clusterAt cl).svcctl) (trIllegal i.low)
  pure cl

def execTlbw (gd : Guard) (d a b c : GReg) (s : State) : Outcome :=
  issue (.tlbw gd d a b c) (do
    let cl ← serviceGate (.tlbw gd d a b c)
    onState fun s =>
      let (s', r) := tlbwDo cl (s.g a) (s.g b) (s.g c) s
      s'.setG d r) s

def execTlbi (gd : Guard) (d a b : GReg) (scope : BitVec 2) (pkgw pins : Bool) (s : State) : Outcome :=
  issue (.tlbi gd d a b scope pkgw pins) (do
    let cl ← serviceGate (.tlbi gd d a b scope pkgw pins)
    let s ← get
    match s.th.tlbiWait with
    | some (l, n) =>
      if s.copiesLeft l then stopWait
      else onThread fun t => ({ t with tlbiWait := none } : Thread).setG d n
    | none => do
      let (s', n, l) := tlbiDo cl (s.g a) (s.g b) scope.toNat pkgw s
      set s'
      if pins && !l.isEmpty then do
        updTh fun t => { t with tlbiWait := some (l, n) }
        stopWait
      else onThread fun t => t.setG d n) s

/-- TLBI_COMPLETE: the copies that a waiting `tlbi` waits for have ended; nothing comes of it before. -/
def execTlbiComplete (core thr : Nat) (s : State) : Outcome :=
  let th := 4 * core + thr
  match (s.threadAt th).tlbiWait with
  | none => .next s
  | some (l, n) =>
    if s.copiesLeft l then .next s
    else .next (s.modThreadAt th fun t => { t with tlbiWait := some ([], n) })

def execFrep (gd : Guard) (d a b : GReg) (s : State) : Outcome :=
  issue (.frep gd d a b) (do
    let cl ← serviceGate (.frep gd d a b)
    let s ← get
    controlRead cl (some s.cc) (some s.tk) ((List.range 4).map (fbErr ((s.g a).toNat % 64) ·))
    onState fun s =>
      let (s', r) := frepDo cl (s.g a) (s.g b) s
      s'.setG d r) s

/-! ## The service window (R161) -/

/-- The window's operation is running: a `tlbi` that waits for the copies that held what it removed. -/
def State.svcRunning (s : State) (cl : Nat) : Bool := s.copiesLeft (s.clusterAt cl).svcBusy

/-- A read of the command word. -/
def State.svcRead (s : State) (cl : Nat) : Word :=
  (s.clusterAt cl).svcRes ||| BitVec.ofNat 64 (2 ^ 63 * (s.svcRunning cl).toNat)

/-- A command of the window; ignored while one runs, or in a package that does not serve its registers yet (spec/23
R363). Reserved bits of FX are ignored (log entry 82). -/
def svcCommand (cl cmd fx : Nat) (s : State) : State :=
  if s.svcRunning cl || !(s.pkgAt (pkgOfCluster cl)).serves then s
  else
    let c := s.clusterAt cl
    match cmd with
    | 0 =>
      let (s', r) := tlbwDo cl c.svcA c.svcB c.svcC s
      s'.modClusterAt cl fun c => { c with svcRes := r, svcBusy := [] }
    | 1 =>
      let pw := fx / 4 % 2 == 1
      let (s', r, l) := tlbiDo cl c.svcA c.svcB (fx % 4) pw s
      s'.modClusterAt cl fun c => { c with
        svcRes := r, svcBusy := if fx / 8 % 2 = 1 then l else [] }
    | 2 =>
      let (s', r) := frepDo cl c.svcA c.svcB s
      s'.modClusterAt cl fun c => { c with svcRes := r, svcBusy := [] }
    | _ => s

/-- A write of the command word: ignored with another command or a bit of 63:12 set. -/
def svcWrite (cl : Nat) (w : Word) (s : State) : State :=
  if w.toNat / 2 ^ 12 ≠ 0 then s else svcCommand cl (w.toNat % 64) (w.toNat / 2 ^ 6 % 64) s

def execSvcTlbw (cluster : Nat) (s : State) : Outcome := eventDo (modify (svcCommand cluster 0 0)) s
def execSvcTlbi (cluster : Nat) (fx : BitVec 6) (s : State) : Outcome :=
  eventDo (modify (svcCommand cluster 1 fx.toNat)) s
def execSvcFrep (cluster : Nat) (s : State) : Outcome := eventDo (modify (svcCommand cluster 2 0)) s

/-! ## Idling and time (spec/15 R265, spec/22 R362) -/

def execIdle (gd : Guard) (s : State) : Outcome :=
  issue (.idle gd) (do
    if (← get).th.evf then onThread fun t => { t with evf := false, idle := false }
    else do
      updTh fun t => { t with idle := true }
      stopWait) s

/-- The event flags that `sevw` sets: of one slot, or of the four of a core; a free slot has none. -/
def setEvents (core thr : Nat) (all : Bool) (s : State) : State :=
  (if all then List.range 4 else [thr]).foldl (fun s i =>
    if (s.threadAt (4 * core + i)).bound then s.modThreadAt (4 * core + i) fun t => { t with evf := true } else s) s

/-- `sevw` (R265): the slot in the layout of `self` (spec/03 R43). -/
def execSevw (gd : Guard) (a : GReg) (s : State) : Outcome :=
  issue (.sevw gd a) (do
    let s ← get
    let w := (s.g a).toNat
    let core := w / 2 ^ 2 % 2 ^ 17
    trapIf (w / 2 ^ 32 % 2 ^ 14 != (s.pkgAt (pkgOf s.cc)).pkgId || decide (Config.cores ≤ core)) (trAccess (s.g a))
    onState (setEvents (pkgOf s.cc * Config.cores + core) (w % 4) (w / 2 ^ 63 == 1))) s

/-- `rdtime` (R362): the time-base copy of the thread's cluster as it shows now, and never less than the thread has read
before (log entry 12). -/
def execRdtime (gd : Guard) (d : GReg) (s : State) : Outcome :=
  issue (.rdtime gd d) (onState fun s =>
    let s := s.sampleTime (clusterOf s.cc)
    let v := max s.th.lastTime (s.clusterAt (clusterOf s.cc)).tb
    s.modTh fun t => ({ t with lastTime := v } : Thread).setG d (BitVec.ofNat 64 v)) s

end Sys2Proof.Machine
end

