-- ==== Sys2Proof/Machine/Kv.lean ====
section
/-! DEFINITION. The compaction engines of the key-value cache (spec/20 R322-R324, R328-R332). Each event
takes its step of R330 whole; a translation that an event waits for leaves all else as it was. -/

namespace Sys2Proof.Machine

/-- A computation of a job: it may fail with a RESULT. -/
abbrev Job (α : Type) := ExceptT Nat (EStateM Stop State) α

def failIf (b : Bool) (res : Nat) : Job Unit := if b then throw res else pure ()

/-- Carry out a part of a job: a failure, a refused address or an uncorrectable error ends it (R328), a wait
keeps only the fault messages and what was found in the stores. After a failure word 4 of the descriptor holds 0 (R330). -/
def runJob (pkg e : Nat) (x : Job Unit) : Act Unit := fun s =>
  let ended (res : Nat) (s' : State) : State := jobFail pkg e res (State.keepStores s s')
  match x.run s with
  | .ok (.ok _) s' => .ok () s'
  | .ok (.error res) s' => .ok () (ended res s')
  | .error .wait s' => .error .wait { State.keepStores s s' with clusters := s'.clusters }
  | .error (.err er) s' => .ok () (ended 4 (reportError s' pkg none none { er with core := none }).1)
  | .error .refuse s' => .error .refuse s'
  | .error _ s' => .ok () (ended 3 s')

/-! ## Accesses of an engine: the owner translates under its KVSPN (R324), and no cluster's byte budget meters them -/

def cmpAgent (pkg e : Nat) : Agent :=
  { deviceAgent (pkg * Config.clusters) 0 (.compact pkg e) with unit := 3 }

/-- The place of a virtual address of a package. -/
def kvPlace (ag : Agent) (own va : Nat) (acc : Acc) : Act (Nat × TlbEnt) := do
  let s ← get
  translate { ag with spn := (s.pkgAt own).kvspn } own va acc (addrOn s ag.pkg own va)

/-- The ranges of n bytes from an address up, with their entries. -/
def kvRanges (ag : Agent) (own va n : Nat) (acc : Acc) : Act (List (Nat × Nat × TlbEnt)) :=
  (parts va (n / 32768 + 2) 0 n).mapM fun (off, k) => do
    let (key, ent) ← kvPlace ag own (va + off) acc
    pure (key, k, ent)

def kvRead (ag : Agent) (own va n : Nat) : Act (List Byte) := do
  let l ← (← kvRanges ag own va n .load).mapM fun (key, k, _) => cellGet ag key k
  pure l.flatten

def writeRanges (ag : Agent) : List (Nat × Nat × TlbEnt) → List Byte → Act Unit
  | [], _ => pure ()
  | (key, k, _) :: r, bs => do
    cellPut ag key (bs.take k)
    writeRanges ag r (bs.drop k)

def kvWrite (ag : Agent) (own va : Nat) (bs : List Byte) : Act Unit := do
  writeRanges ag (← kvRanges ag own va bs.length .store) bs

def kvWord (ag : Agent) (own va : Nat) : Act Word := do
  pure (BitVec.ofNat 64 (leVal (← kvRead ag own va 8)))

def kvWords (ag : Agent) (own va n : Nat) : Act (List Word) :=
  (List.range n).mapM fun i => kvWord ag own (va + 8 * i)

/-! ## The tables (R322-R324) -/

/-- A path 0x0 address that is a multiple of 64. -/
def plain64 (w : Word) : Bool := w.toNat / 2 ^ 57 == 0 && w.toNat % 64 == 0
/-- A path 0x0 address. -/
def plain (w : Word) : Bool := w.toNat / 2 ^ 57 == 0

def entV (e : Word × Word) : Bool := e.1.getLsbD 63
def entTier (e : Word × Word) : Nat := e.1.toNat / 2 ^ 61 % 4
def entPkg (e : Word × Word) : Nat := e.1.toNat / 2 ^ 47 % 2 ^ 14
def entGbn (e : Word × Word) : Nat := e.1.toNat % 2 ^ 32
def entGen (e : Word × Word) : Nat := e.2.toNat / 2 ^ 26 % 2 ^ 16
def entCount (e : Word × Word) : Nat := e.2.toNat % 2 ^ 9

def mkEntry (tier pkg gbn gen count : Nat) : Word × Word :=
  (BitVec.ofNat 64 (2 ^ 63 + 2 ^ 61 * tier + 2 ^ 47 * pkg + gbn), BitVec.ofNat 64 (2 ^ 26 * (gen % 2 ^ 16) + count))

/-- Entry i of a sequence of ntok tokens keeps R322 and R323. -/
def entOk (ntok i : Nat) (e : Word × Word) : Bool :=
  entV e && decide (entTier e < 2) && e.1.toNat / 2 ^ 32 % 2 ^ 15 == 0 && e.2.toNat / 2 ^ 42 == 0 &&
    e.2.toNat / 2 ^ 9 % 2 ^ 17 == 0 && decide (entCount e ≤ 256) &&
    (if 256 * (i + 1) < ntok then entCount e == 256 else decide (ntok - 256 * i ≤ entCount e))

/-- Step 1 of R330: the descriptor, the header and the entries, checked. -/
def jobRead (pkg e : Nat) : Job KvJob := do
  let ag := cmpAgent pkg e
  let job := (((← get).pkgAt pkg).cmp e).job.toNat
  let d ← kvWords ag pkg job 8
  let x (i : Nat) : Word := d.getD i 0
  failIf (!plain64 (x 0) || !plain (x 1) || !plain (x 3) || (x 2).toNat / 2 ^ 33 != 0 ||
    x 5 != 0 || x 6 != 0 || x 7 != 0) 1
  let hdr := (x 0).toNat
  let h ← kvWords ag pkg hdr 8
  let y (i : Nat) : Word := h.getD i 0
  let ntok := (y 0).toNat / 2 ^ 32
  let n := (ntok + 255) / 256
  let act := (y 0).toNat % 2
  failIf ((y 0).toNat / 2 % 2 ^ 11 != 0 || !plain64 (y 2) || !plain64 (y 3) || y 4 != 0 || y 5 != 0 || y 6 != 0 ||
    y 7 != 0 || decide ((y 1).toNat % 2 ^ 32 < n)) 1
  let arrs := [(y 2).toNat, (y 3).toNat]
  let bs ← kvRead ag pkg (arrs.getD act 0) (16 * n)
  let word (k : Nat) : Word := BitVec.ofNat 64 (leVal ((bs.drop (8 * k)).take 8))
  let ents := (List.range n).map fun i => (word (2 * i), word (2 * i + 1))
  failIf (!((List.range n).all fun i => entOk ntok i (ents.getD i (0, 0)))) 1
  let (key, _) ← kvPlace ag pkg hdr .store
  pure {
    hdr := hdr, hdrKey := key, free := (x 1).toNat, nfree := (x 2).toNat % 2 ^ 32, tier := (x 2).toNat / 2 ^ 32
    rel := (x 3).toNat, w0 := y 0, ntok := ntok, sgen := (y 0).toNat / 2 ^ 16 % 2 ^ 16
    hb := (y 0).toNat / 2 ^ 12 % 16 + 1, act := act, bpt := (y 1).toNat / 2 ^ 32, arrs := arrs, ents := ents }

/-- The table of a job as it reads it: once (R330). -/
def jobTable (pkg e : Nat) : Job KvJob := do
  match (((← get).pkgAt pkg).cmp e).table with
  | some j => pure j
  | none => do
    let j ← jobRead pkg e
    modify fun s => s.modPkgAt pkg fun p => p.setCmp e { p.cmp e with table := some j }
    pure j

/-- A block: its owner, the addresses of its data and of its retention area. -/
structure KvBlock where
  own : Nat
  data : Nat
  ret : Nat
  deriving DecidableEq, Repr

/-- The block of a number in a package's table of a tier (R324); one that is not there gives RESULT 3. -/
def kvBlock (ag : Agent) (own tier gbn : Nat) : Job KvBlock := do
  let p := (← get).pkgAt own
  let base := ((if tier = 0 then p.kvb2 else p.kvb3).toNat % 2 ^ 57) / 16 * 16
  failIf (decide ((if tier = 0 then p.kvn2 else p.kvn3).toNat % 2 ^ 32 ≤ gbn)) 3
  let w0 ← kvWord ag own (base + 16 * gbn)
  let w1 ← kvWord ag own (base + 16 * gbn + 8)
  failIf (!w0.getLsbD 63) 3
  pure ⟨own, w0.toNat % 2 ^ 57, w1.toNat % 2 ^ 57⟩

def entOwner (s : State) (pkg : Nat) (e : Word × Word) : Nat :=
  if entPkg e = (s.pkgAt pkg).pkgId then pkg else s.pkgOfId (entPkg e)

/-! ## Pins (R325, R330) -/

/-- A copy of some package holds a pin on a generation of a sequence. -/
def State.pinHeld (s : State) (hdr gen : Nat) : Bool :=
  s.cores.any fun (_, c) => c.ce.any fun o => match o.seq with
    | some p => p.hdr == hdr && p.sgen == gen
    | none => false

/-! ## Moving tokens -/

/-- Key of the scale byte of the element at index j of a page (spec/10 R153). -/
def TlbEnt.scaleAt (e : TlbEnt) (pkg j : Nat) : Nat :=
  let m := 8 * 2 ^ (e.rl + 6) / e.ebits
  pkg * 2 ^ 48 + e.sframe + (if e.geo = 2 then j / m / 32 * m + j % m else j / 32)

/-- An element of a token: the key of its byte, the bit where it begins, its page and its index there. -/
structure KvElem where
  key : Nat
  bit : Nat
  ent : TlbEnt
  j : Nat
  deriving DecidableEq, Repr

/-- The elements of one token's data on pages of a format. -/
def kvElems (l : List (Nat × Nat × TlbEnt)) : List KvElem :=
  l.flatMap fun (key, n, ent) =>
    let po := (key % 2 ^ 48) - ent.frame
    (List.range (n * 8 / ent.ebits)).map fun i =>
      let b := i * ent.ebits
      { key := key + b / 8, bit := b % 8, ent := ent, j := po * 8 / ent.ebits + i }

def KvElem.scaleKey (x : KvElem) : Nat := x.ent.scaleAt (x.key / 2 ^ 48) x.j

/-- The code of an element in memory. -/
def KvElem.code (x : KvElem) (m : List Host.Cell) : Nat := (memRead m x.key).toNat / 2 ^ x.bit % 2 ^ x.ent.ebits

/-- The value of an element of a page under its scale; INT4 reads as widened to INT8 (R181). -/
def pageVal (elem scale code : Nat) : Num :=
  if elem = 14 then match scaleExp scale with
    | none => .nan
    | some k => (intNum (sval 4 code)).scale (k - 6)
  else
    let f := (Fmt.ofCode elem).getD .e4m3
    scaledVal f scale (code % 2 ^ codeBits f)

/-- Quantise 32 values to a page's format with RNE (spec/07 R108). -/
def pageQuant (elem : Nat) (xs : List Num) : Nat × List Nat :=
  let ts := xs.map fun _ => 0
  if elem = 14 then
    quantWith (-4) (fun _ => 0) (fun _ e x => icode 4 (clampS 4 (roundI .rne 0 (x.scale (6 - e))))) ts xs
  else quantBlock ((Fmt.ofCode elem).getD .e4m3) .rne ts xs

/-- Write an element's code. -/
def KvElem.put (x : KvElem) (code : Nat) (m : List Host.Cell) : List Host.Cell :=
  let b := (memRead m x.key).toNat
  let w := 2 ^ x.ent.ebits
  memWrite m x.key (BitVec.ofNat 8 (b - b / 2 ^ x.bit % w * 2 ^ x.bit + code % w * 2 ^ x.bit))

/-- A token that survives: its block and its place there. -/
structure KvTok where
  blk : KvBlock
  pos : Nat
  deriving DecidableEq, Repr

/-- Bytes of one token move; on a page of scales along the token, the scales of its blocks with them. -/
def moveToken (ag : Agent) (j : KvJob) (t : KvTok) (dst : KvBlock) (pos : Nat) : Job Unit := do
  let rs ← kvRanges ag t.blk.own (t.blk.data + t.pos * j.bpt) j.bpt .load
  let ds ← kvRanges ag dst.own (dst.data + pos * j.bpt) j.bpt .store
  let bs ← rs.mapM fun (key, k, _) => cellGet ag key k
  writeRanges ag ds bs.flatten
  let keys (l : List (Nat × Nat × TlbEnt)) : List Nat := l.flatMap fun (key, k, ent) =>
    if ent.geo = 1 then (ent.blocks (key / 2 ^ 48) ((key % 2 ^ 48) - ent.frame) k).filterMap (·.2.1) else []
  (List.zip (keys rs) (keys ds)).forM fun (a, b) => do
    let x ← cellGet ag a 1
    cellPut ag b x
  let ret ← kvRead ag t.blk.own (t.blk.ret + t.pos * j.hb) j.hb
  kvWrite ag dst.own (dst.ret + pos * j.hb) ret

/-- Column c of a run of tokens on pages of GEO 0b10 is decoded and quantised again, from the exact values (log entry
92). -/
def requantColumn (ag : Agent) (srcs dsts : List (List KvElem)) (c : Nat) : Act Unit := do
  let xs ← srcs.mapM fun l => match l[c]? with
    | some x => do
      let sc ← cellGet ag x.scaleKey 1
      eccScan ag x.key 1 false
      pure (pageVal x.ent.elem (leVal sc) (x.code (← get).mem))
    | none => pure (intNum 0)
  match (dsts.filterMap fun l => l[c]?) with
  | [] => pure ()
  | d0 :: rest => do
    let (x, codes) := pageQuant d0.ent.elem xs
    storeScan ag (d0.scaleKey :: (d0 :: rest).map (·.key))
    modify fun s =>
      let m := (List.zip (d0 :: rest) codes).foldl (fun m (d, code) => d.put code m) s.mem
      let m := memWrite m d0.scaleKey (BitVec.ofNat 8 x)
      s.wrote (d0.scaleKey :: (d0 :: rest).map (·.key)) m

/-- A run of at most 32 tokens moves to positions from p up of a new block. -/
def moveRun (ag : Agent) (j : KvJob) (toks : List KvTok) (dst : KvBlock) (p : Nat) : Job Unit := do
  let srcs ← toks.mapM fun t => kvRanges ag t.blk.own (t.blk.data + t.pos * j.bpt) j.bpt .load
  let dsts ← (List.range toks.length).mapM fun i => kvRanges ag dst.own (dst.data + (p + i) * j.bpt) j.bpt .store
  if (srcs ++ dsts).all fun l => l.all fun x => x.2.2.geo == 2 then do
    let es := srcs.map kvElems
    let ds := dsts.map kvElems
    (List.range ((es.map List.length).headD 0)).forM fun c => requantColumn ag es ds c
    (toks.zipIdx).forM fun (t, i) => do
      let ret ← kvRead ag t.blk.own (t.blk.ret + t.pos * j.hb) j.hb
      kvWrite ag dst.own (dst.ret + (p + i) * j.hb) ret
  else (toks.zipIdx).forM fun (t, i) => moveToken ag j t dst (p + i)

/-- Lists of at most n elements. -/
def chunks {α : Type} (n : Nat) : Nat → List α → List (List α)
  | 0, _ => []
  | _, [] => []
  | fuel + 1, l => l.take n :: chunks n fuel (l.drop n)

/-- The tokens of entry i that survive a threshold (R328). -/
def survivors (ag : Agent) (j : KvJob) (thr i : Nat) (b : KvBlock) : Job (List KvTok) := do
  let n := min 256 (j.ntok - 256 * i)
  let ret ← kvRead ag b.own b.ret (n * j.hb)
  pure (((List.range n).filter fun p => ((ret.drop (p * j.hb)).take j.hb).any fun x => decide (thr ≤ x.toNat)).map
    fun p => ⟨b, p⟩)

/-- Steps 3 and 4 of R330. -/
def jobRewrite (pkg e : Nat) (j : KvJob) : Job Unit := do
  let ag := cmpAgent pkg e
  let s ← get
  let thr := ((s.pkgAt pkg).cmp e).jobThr
  let blocks ← j.ents.mapM fun x => kvBlock ag (entOwner s pkg x) (entTier x) (entGbn x)
  let kept ← (blocks.zipIdx).mapM fun (b, i) => survivors ag j thr i b
  let i0 := ((List.range blocks.length).find? fun i =>
    (kept.getD i []).length != min 256 (j.ntok - 256 * i)).getD blocks.length
  let toks := (kept.drop i0).flatten
  let groups := chunks 256 (toks.length + 1) toks
  failIf (decide (j.nfree < groups.length)) 2
  let gbns ← (List.range groups.length).mapM fun n => do
    pure (leVal (← kvRead ag pkg (j.free + 4 * n) 4))
  let new ← gbns.mapM fun g => kvBlock ag pkg j.tier g
  (groups.zipIdx).forM fun (g, n) =>
    ((chunks 32 (g.length + 1) g).zipIdx).forM fun (r, m) => moveRun ag j r (new.getD n ⟨pkg, 0, 0⟩) (32 * m)
  let id := (s.pkgAt pkg).pkgId
  let fresh := (groups.zipIdx).map fun (g, n) =>
    mkEntry j.tier id (gbns.getD n 0) (entGen (j.ents.getD (i0 + n) (0, 0)) + 1) g.length
  let arr := j.arrs.getD (1 - j.act) 0
  ((j.ents.take i0 ++ fresh).zipIdx).forM fun (x, n) => do
    kvWrite ag pkg (arr + 16 * n) (leBytes 8 x.1.toNat)
    kvWrite ag pkg (arr + 16 * n + 8) (leBytes 8 x.2.toNat)
  let old := (j.ents.drop i0).map entGbn
  -- what step 5 writes is reached before the switch, and its code words are in order (log entry 101)
  let rel ← kvRanges ag pkg j.rel (4 * old.length) .store
  let done ← kvRanges ag pkg (((s.pkgAt pkg).cmp e).job.toNat + 32) 8 .store
  (rel ++ done).forM fun (key, k, _) => eccScan ag key k true
  let left := (j.ents.take i0).length * 256
  let total := if i0 = blocks.length then j.ntok else left + toks.length
  let w0 := BitVec.ofNat 64 (2 ^ 32 * total + 2 ^ 16 * ((j.sgen + 1) % 2 ^ 16) + j.w0.toNat % 2 ^ 16 / 2 * 2 + (1 - j.act))
  kvWrite ag pkg j.hdr (leBytes 8 w0.toNat)
  modify fun s => s.modPkgAt pkg fun p => p.setCmp e { p.cmp e with
    switched := true, hdr := j.hdrKey, oldGen := j.sgen, removed := j.ntok - total, release := old
    relAt := rel.map fun x => (x.1, x.2.1), doneAt := ((done.head?).map (·.1)).getD 0 }

/-! ## The events -/

/-- A write of CMPCMD: ignored while a job runs and with a reserved bit set; else the job starts, and its
table is read and checked (R328, R330 step 1). -/
def cmpcmdWrite (pkg e : Nat) (w : Word) : Act Unit := do
  let p := (← get).pkgAt pkg
  let c := p.cmp e
  if c.busy || w.toNat / 2 ^ 57 != 0 || w.toNat % 64 != 0 then pure ()
  else do
    modify fun s => s.modPkgAt pkg fun p => p.setCmp e { c with
      busy := true, job := w, jobThr := c.thr.toNat, table := none, switched := false, release := [], removed := 0, wait := none }
    runJob pkg e (do let _ ← jobTable pkg e)

def execCmpcmd (pkg e : Nat) (w : Word) (s : State) : Outcome :=
  eventDo (do
    need (decide (e < 2))
    served pkg (cmpcmdWrite pkg e w)) s

/-- COMPACT_REWRITE: with no pin on the inactive generation, the survivors are packed and the arrays
switched. -/
def execCompactRewrite (pkg e : Nat) (s : State) : Outcome :=
  eventDo (do
    let c := ((← get).pkgAt pkg).cmp e
    need (decide (e < 2) && c.busy && !c.switched && c.wait.isNone)
    runJob pkg e (do
      let j ← jobTable pkg e
      if (← get).pinHeld j.hdrKey ((j.sgen + 2 ^ 16 - 1) % 2 ^ 16) then pure ()
      else jobRewrite pkg e j)) s

/-- Bytes are written where a code word can take them; an error is reported without a context (log entry 101). -/
def putOrReport (ag : Agent) (key : Nat) (bs : List Byte) (s : State) : State :=
  match cellPut ag key bs s with
  | .ok _ s' => s'
  | .error (.err er) s' => (reportError s' ag.pkg none none er).1
  | .error _ s' => s'

/-- Bytes go to some ranges, in their order. -/
def putRanges (ag : Agent) : List (Nat × Nat) → List Byte → State → State
  | [], _, s => s
  | (key, k) :: r, bs, s => putRanges ag r (bs.drop k) (putOrReport ag key (bs.take k) s)

/-- Step 5 of R330: the release list, word 4, RESULT 0. -/
def jobRelease (pkg e : Nat) (s : State) : State :=
  let ag := cmpAgent pkg e
  let c := (s.pkgAt pkg).cmp e
  let s := putRanges ag c.relAt (c.release.flatMap (leBytes 4)) s
  jobEnd pkg e 0 (putOrReport ag c.doneAt (leBytes 8 (c.removed % 2 ^ 32 + 2 ^ 32 * c.release.length)) s)

/-- COMPACT_RELEASE: with no pin on the old generation, the release list is written and the job ends. -/
def execCompactRelease (pkg e : Nat) (s : State) : Outcome :=
  eventDo (do
    let s ← get
    let c := (s.pkgAt pkg).cmp e
    need (decide (e < 2) && c.busy && c.switched && !(s.pinHeld c.hdr c.oldGen))
    modify (jobRelease pkg e)) s

end Sys2Proof.Machine
end

