-- ==== Sys2Proof/Machine/Fabric.lean ====
section
/-! DEFINITION. The fabric and the host: requests and responses between packages, flits, replay, lanes,
ports and injectors, the loss of a memory device, host reads and writes, IDE keys (spec/21 R333-R346). -/

namespace Sys2Proof.Machine

/-! ## Requests (R342) -/

/-- Change a port of a package. -/
def State.modPort (s : State) (pkg n : Nat) (f : Port → Port) : State :=
  s.modPkgAt pkg fun p => { p with ports := tput p.ports n (f (tgetD p.ports n {})) }

def State.portAt (s : State) (pkg n : Nat) : Port := tgetD (s.pkgAt pkg).ports n {}

/-- The unacknowledged request of a number. -/
def State.requestAt (s : State) (src dst num : Nat) : Option RemoteReq :=
  (tgetD (s.pkgAt src).reqUnacked dst []).find? fun r => r.num == num

/-- What a request does where it arrives. -/
def applyRequest (ag : Agent) (pkg : Nat) (r : RemoteReq) : Act (List Byte) := do
  let va := r.addr.toNat % 2 ^ 46
  match r.body with
  | .write bs => do
    let (k, _) ← translate ag pkg va .store r.addr
    cellWrite ag k bs
    pure []
  | .read n => do
    let (k, _) ← translate ag pkg va .load r.addr
    cellRead ag k n
  | .amoAdd size v => do
    let (k, _) ← translate ag pkg va .atomic r.addr
    let old ← cellRead ag k size
    cellWrite ag k (leBytes size ((leVal old + v.toNat) % 2 ^ (8 * size)))
    pure old

/-- REMOTE_REQUEST: a request of package `src` arrives at package `pkg`. A number that has been applied has
no effect again. Requests wait while the package is gated (spec/22 R360). -/
def execRemoteRequest (pkg src num : Nat) (addr : Word) (body : RemoteBody) (s : State) : Outcome :=
  eventDo (do
    let r ← needSome (s.requestAt src pkg num)
    need (r.addr == addr && r.body == body && !(s.pkgAt pkg).gated)
    let w := tgetD (s.pkgAt pkg).reqSeen src {}
    if w.applied 4096 num then pure ()
    else do
      let core := r.th / 4
      let cl := pkg * Config.clusters + clusterIn (clusterOf core)
      let ag : Agent := ⟨pkg, none, r.th, cl, r.spn, 4, 0, 0, .sync r.th (s.memberKey r.th)⟩
      let v ← applyRequest ag pkg r
      modify fun s => s.modPkgAt pkg fun p => { p with
        reqSeen := tput p.reqSeen src (w.record 4096 num), responses := p.responses ++ [(src, num, v)] }) s

/-- REMOTE_RESPONSE: the response of package `dst` to a request of package `pkg` returns with what was read; the request
is acknowledged. -/
def execRemoteResponse (pkg dst num : Nat) (s : State) : Outcome :=
  eventDo (do
    let _ ← needSome (s.requestAt pkg dst num)
    need ((tgetD (s.pkgAt dst).reqSeen pkg {}).applied 4096 num && ((s.pkgAt dst).plane (s.pkgAt pkg).pkgId 0).isSome)
    modify fun s =>
      let mine (x : Nat × Nat × List Byte) : Bool := x.1 == pkg && x.2.1 == num
      let v := (((s.pkgAt dst).responses.find? mine).map (·.2.2)).getD []
      let s := s.modPkgAt dst fun p => { p with responses := p.responses.filter fun x => !(mine x) }
      let s := s.sendFlit dst pkg 2 num 0 v
      s.modPkgAt pkg fun p => { p with
        reqUnacked := tput p.reqUnacked dst ((tgetD p.reqUnacked dst []).filter fun r => r.num != num) }) s

/-- The number of ports that are up has changed: every request and every signal that is not acknowledged is sent again,
in its order (R342, spec/12 R209). -/
def resendAll (pkg : Nat) (s : State) : State :=
  let p := s.pkgAt pkg
  let s := p.reqUnacked.foldl (fun s (dst, l) =>
    l.foldl (fun (s : State) r => s.sendFlit pkg dst 1 r.num r.addr.toNat (bodyData r.body)) s) s
  p.sigUnacked.foldl (fun s (dst, l) => l.foldl (fun (s : State) x => s.sendFlit pkg dst 3 x.1 x.2.2.toNat []) s) s

/-! ## Codewords (R338) -/

/-- The 10-bit symbols of some bits, lowest first. -/
def symbolsOf : Nat → Nat → List (BitVec 10)
  | 0, _ => []
  | n + 1, x => BitVec.ofNat 10 x :: symbolsOf n (x / 2 ^ 10)

/-- The RS(544,514) codeword of five flits, the n-th that a port sends: header, flits, check symbols. -/
def codeword (n : Nat) (flits : List (List Byte)) : List (BitVec 10) :=
  let data := symbolsOf 514 ((Config.codeHeader n).toNat + 2 ^ 20 * leVal flits.flatten)
  data ++ List.ofFn (Config.codeCheck data)

/-- The 68 symbols of a codeword that one of the eight active lanes carries. -/
def laneShare (word : List (BitVec 10)) (lane : Fin 8) : List (BitVec 10) :=
  (List.finRange 544).filterMap fun i => if (Config.codeStripe i).val / 68 = lane.val then word[i.val]? else none

/-- The five flits of a port's n-th codeword: idle flits stand for those that are yet to be sent. -/
def Port.wordFlits (p : Port) (n : Nat) : List (List Byte) :=
  (List.range 5).map fun i => p.toSend.getD (5 * n + i) p.idleFlit

/-- What the lanes of a port carry of its n-th codeword. -/
def Port.laneOut (p : Port) (n : Nat) (lane : Fin 8) : List (BitVec 10) := laneShare (codeword n (p.wordFlits n)) lane

/-- Symbols of a codeword that a strike spoils: a suppressed share is one lane's 68. -/
def Strike.symbols : Strike → Nat
  | .corrupt k => k
  | .drop => 68
  | .delay _ => 0

/-- The strikes on the flits of a port's n-th codeword. -/
def Port.strikesOn (x : Port) (n : Nat) : List (Nat × Strike) := x.struck.filter fun e => e.1 / 5 == n

/-- The codeword on which a strike is yet to be met, if it is the one whose flits these are: the package and port that
sent it, and its number. -/
def State.struckWord (s : State) (flits : List (List Byte)) : Option (Nat × Nat × Nat) :=
  s.pkgs.findSome? fun (p, x) => x.ports.findSome? fun (n, y) =>
    (y.struck.find? fun e => y.wordFlits (e.1 / 5) == flits.take 5).map fun e => (p, n, e.1 / 5)

/-- The strikes on a codeword are met once, named by the package and port that sent it and its number there, or known by
its flits: the symbols that they spoil (R345). -/
def strikeHits (sent : Option (Nat × Nat × Nat)) (flits : List (List Byte)) (s : State) : State × Nat :=
  match sent.orElse fun _ => s.struckWord flits with
  | none => (s, 0)
  | some (pkg, port, n) =>
    let l := (s.portAt pkg port).strikesOn n
    (if l.isEmpty then s else s.modPort pkg port fun x => { x with struck := x.struck.filter fun e => e.1 / 5 != n },
      (l.map (·.2.symbols)).sum)

/-! ## Flits (R338, R339) -/

def flitSeq (f : List Byte) : Nat := leVal (f.take 2) % 2 ^ 12
def flitType (f : List Byte) : Nat := leVal (f.take 2) / 2 ^ 12
def flitAck (f : List Byte) : Nat := leVal ((f.drop 2).take 2) % 2 ^ 12
def flitPayload (f : List Byte) : List Byte := (f.drop 4).take 120
def flitGood (f : List Byte) : Bool :=
  f.length == 128 && leVal (f.drop 124) == (flitCrc (f.take 124)).toNat

/-- How far b lies behind a, modulo 4,096. -/
def seqBehind (a b : Nat) : Nat := (a + 4096 - b % 4096) % 4096

/-- An acknowledgement (TYPE 4) or a replay request (TYPE 5) leaves: it is not numbered, and its payload begins with
the SEQ that a replay request names (log entry 24). -/
def Port.control (p : Port) (type seq : Nat) : Port :=
  p.emit (mkFlit p.txSeq type p.rxSeq (leBytes 2 seq ++ List.replicate 118 0))

/-- A flit or a codeword is discarded, and a replay request names the first SEQ that is lacking. -/
def Port.discard (p : Port) : Port :=
  let n := (p.rxSeq + 1) % 4096
  { p.control 5 n with replayFrom := some n, gapAt := none }

/-- A flit beyond a gap is discarded: one of those behind a request that has been made, or the first of a gap that has
yet to be told. -/
def Port.beyond (p : Port) (q : Nat) : Port :=
  let follows := p.replayFrom.isSome && ((p.gapAt.map fun g => q == (g + 1) % 4096).getD true)
  { (if follows then p else p.discard) with gapAt := some q }

/-- An acknowledgement: the flits up to a SEQ; those that waited for room follow. -/
def Port.acked (p : Port) (ack : Nat) : Port :=
  Port.pump 256 { p with unacked := p.unacked.filter fun x => !(decide (seqBehind ack x.1 < 2048)) }

/-- A decoded flit. Types 1-3 carry a body and are numbered: the next in order is accepted and acknowledged, one that
was accepted before is discarded and acknowledged again, another lies beyond a gap; a flit that is discarded
acknowledges nothing. The others have no place in the order. -/
def Port.take (p : Port) (f : List Byte) : Port :=
  if !flitGood f then p.discard
  else
    let ty := flitType f
    let q := flitSeq f
    if ty = 0 ∨ 3 < ty then
      let p := p.acked (flitAck f)
      if ty = 5 then { p with asked := some (leVal ((flitPayload f).take 2) % 4096) } else p
    else if q = (p.rxSeq + 1) % 4096 then
      ({ p.acked (flitAck f) with rxSeq := q, replayFrom := none, gapAt := none, received := p.received ++ [flitPayload f] } : Port).control 4 0
    else if seqBehind p.rxSeq q < 2048 then p.control 4 0
    else p.beyond q

/-- A codeword of five flits arrives with some bad symbols: up to 15 are corrected, more are not, and its flits are
discarded (R338, R339). -/
def Port.takeWord (p : Port) (flits : List (List Byte)) (bad : Nat) : Port :=
  if 15 < bad then { p with fecunc := min (p.fecunc + 1) (2 ^ 16 - 1) }.discard
  else (flits.take 5).foldl Port.take { p with feccor := min (p.feccor + (if bad = 0 then 0 else 1)) (2 ^ 32 - 1) }

/-- FLIT_RECEIVE: a codeword, with the symbols that went bad on the way beside those that injectors spoiled, and the
port and number that it was sent under (log entry 24). -/
def execFlitReceive (pkg port : Nat) (flits : List (List Byte)) (bad : Nat) (sent : Option (Nat × Nat × Nat))
    (s : State) : Outcome :=
  eventDo (do
    need (decide (port < 18) && (s.portAt pkg port).state == 2)
    modify fun s =>
      let (s, n) := strikeHits sent flits s
      s.modPort pkg port fun p => p.takeWord flits (bad + n)) s

/-- The flits from a SEQ on are sent again. -/
def Port.replay (p : Port) (l : List (Nat × List Byte)) : Port :=
  if l = [] then p else { p.carry (l.map (·.2)) with retry := min (p.retry + 1) (2 ^ 16 - 1) }

/-- REPLAY_REQUEST: the sender replays from the SEQ that the request named. -/
def execReplayRequest (pkg port seq : Nat) (s : State) : Outcome :=
  eventDo (do
    let p := s.portAt pkg port
    need (decide (port < 18) && p.state == 2 && p.asked == some seq)
    modify fun s => s.modPort pkg port fun p =>
      { p.replay (p.unacked.dropWhile fun x => x.1 != seq) with asked := none }) s

/-- ACK_TIMEOUT: the sender replays from its oldest unacknowledged flit. -/
def execAckTimeout (pkg port : Nat) (s : State) : Outcome :=
  eventDo (do
    let p := s.portAt pkg port
    need (decide (port < 18) && p.state == 2 && !p.unacked.isEmpty)
    modify fun s => s.modPort pkg port fun p => p.replay p.unacked) s

/-! ## Lanes and injectors (R340, R345) -/

/-- INJECTOR_FIRE: the link of an armed injector carries idle flits until the NTH that its lane carries has gone; an
injector fires as that flit leaves. -/
def execInjectorFire (pkg port lane : Nat) (s : State) : Outcome :=
  eventDo (do
    let p := s.portAt pkg port
    let w := tgetD p.winj lane 0
    need (decide (port < 18) && decide (lane < 9) && p.state == 2 && p.carries lane && w.getLsbD 63)
    modify fun s => s.modPort pkg port (Port.idle (winjNth w - tgetD p.carried lane 0))) s

/-- LANE_RETIRE: the spare lane takes the lane's place while the port retrains; without a spare the port
stays down, while it retrains too. The link error is reported. -/
def execLaneRetire (pkg port lane : Nat) (s : State) : Outcome :=
  eventDo (do
    let p := s.portAt pkg port
    need (decide (port < 18) && decide (lane < 9) && p.carries lane && (p.state == 2 || (p.state == 1 && p.spused)))
    modify fun s =>
      let s := s.modPort pkg port fun p =>
        if p.spused then { p with state := 3 } else { p with state := 1, spused := true, failed := lane }
      let s := (reportError s pkg none none { cls := 7, src := 5, addr := 0, synd := port }).1
      resendAll pkg s) s

/-- PORT_RETRAIN_DONE: the port is up. -/
def execPortRetrainDone (pkg port : Nat) (s : State) : Outcome :=
  eventDo (do
    need (decide (port < 18) && (s.portAt pkg port).state == 1)
    modify fun s => resendAll pkg (s.modPort pkg port fun p => { p with state := 2 })) s

/-! ## Memory expansion and the host (R333-R337) -/

/-- CXL_DEVICE_LOSS: the granules of a populated port become unreachable. -/
def execCxlDeviceLoss (pkg port : Nat) (s : State) : Outcome :=
  eventDo (do
    let p := s.pkgAt pkg
    need (decide (port < p.cxlPorts) && !(p.cxlLost.contains port))
    modify fun s => s.modPkgAt pkg fun p => { p with cxlLost := port :: p.cxlLost }) s

/-- The host as an agent: it has no core, no thread and no space. -/
def hostAgent (pkg : Nat) : Agent := deviceAgent (pkg * Config.clusters) 0 (.launch pkg)

/-- An access of the host: an uncorrectable error is reported and the host gets no data. -/
def hostDo (pkg : Nat) (x : Act Unit) : Act Unit := fun s =>
  match x s with
  | .error (.err e) s' => .ok () ((reportError s' pkg none none { e with core := none }).1.hostGets pkg [])
  | r => r

/-- A host range lies in the HBM4E tier, and the package serves the host. -/
def hostRange (s : State) (pkg pa n : Nat) : Bool := (s.pkgAt pkg).ready && decide (pa + n ≤ (s.pkgAt pkg).hbm)

/-- HOST_CXL_READ (R335). -/
def execHostCxlRead (pkg pa n : Nat) (s : State) : Outcome :=
  eventDo (do
    need (hostRange s pkg pa n)
    hostDo pkg do
      let key := pkg * 2 ^ 48 + pa
      eccScan (hostAgent pkg) key n false
      modify fun s => s.hostGets pkg (memReads s.mem key n)) s

/-- HOST_CXL_WRITE (R335). -/
def execHostCxlWrite (pkg pa : Nat) (bytes : List Byte) (s : State) : Outcome :=
  eventDo (do
    need (hostRange s pkg pa bytes.length)
    hostDo pkg do
      let key := pkg * 2 ^ 48 + pa
      eccScan (hostAgent pkg) key bytes.length true
      modify fun s => s.wrote ((List.range bytes.length).map (key + ·)) (memWrites s.mem key bytes)) s

/-- IDE_KEY_NEGOTIATION (spec/23 R367). -/
def execIdeKeyNegotiation (pkg : Nat) (exchange : List Byte) (s : State) : Outcome :=
  eventDo (do
    need (s.pkgAt pkg).ready
    modify fun s => s.modPkgAt pkg fun p => { p with ideKeys := p.ideKeys ++ [Config.ideKey p.aliasKey exchange] }) s

end Sys2Proof.Machine
end

