-- ==== Sys2Proof/Machine/Reliab.lean ====
section
/-! DEFINITION. Scrubbing, supply, byte budgets, clocks, heat, the time base (spec/22 R349-R361, spec/21
R347). -/

namespace Sys2Proof.Machine

/-! ## Scrubs (R349, R350) -/

/-- SRAM_SCRUB: a word is checked; a correctable error is corrected, an uncorrectable one stays and is reported
as latent. -/
def execSramScrub (core off : Nat) (s : State) : Outcome :=
  eventDo (do
    need (decide (off < 32768) && off % 8 == 0)
    let wn := sramKey core off / 8
    modify fun s =>
      let (s, ok) := sramWord wn (some core) none s
      if ok then s
      else (reportError s (pkgOf core) (some core) none
        { cls := 2, src := 0, addr := errAddr (8 * wn), synd := eccSyndrome (tgetD s.sramErr wn 0) }).1) s

/-- HBM_SCRUB: the same for a line. -/
def execHbmScrub (pkg line : Nat) (s : State) : Outcome :=
  eventDo (do
    need (decide (64 * line + 64 ≤ (s.pkgAt pkg).hbm))
    let ln := pkg * 2 ^ 42 + line
    modify fun s =>
      let (s, ok) := hbmLine ln none none s
      if ok then s
      else (reportError s pkg none none { cls := 2, src := 3, addr := errAddr (64 * ln) }).1) s

/-! ## Supply (R357) -/

/-- CERATE_INTERVAL: CERATE takes the count of the millisecond that ends. -/
def execCerateInterval (pkg die : Nat) (s : State) : Outcome :=
  eventDo (do
    need (decide (die < 18))
    let k := pkg * 18 + die
    modify fun s => s.setDieAt k { s.dieAt k with cecnt := (s.dieAt k).ceRun % 2 ^ 32, ceRun := 0 }) s

/-- SUPPLY_RESTORE_DONE: the nominal voltage is back. -/
def execSupplyRestoreDone (pkg die : Nat) (s : State) : Outcome :=
  eventDo (do
    let k := pkg * 18 + die
    need (decide (die < 18) && (s.dieAt k).restoring)
    modify fun s => s.setDieAt k { s.dieAt k with restoring := false }) s

/-! ## Byte budgets (R358) -/

/-- The interval of 100 tbase ticks that a package is in. -/
def State.interval (s : State) (pkg : Nat) : Nat := (s.pkgAt pkg).tbase / 100

/-- The balance k intervals later, without a request between them: an overdraw is a debt in the next. -/
def refill (budget : Nat) (balance : Int) (k : Nat) : Int :=
  if budget = 0 then 0 else budget + min 0 (min 0 balance + (k - 1 : Nat) * budget)

/-- BUDGET_INTERVAL: the cluster comes to a new interval of 100 ticks, and writes that wait are tried again. -/
def execBudgetInterval (cluster : Nat) (s : State) : Outcome :=
  eventDo (do
    let n := s.interval (pkgOfCluster cluster)
    need (n != (s.clusterAt cluster).ival)
    modify fun s => replayLate cluster (s.modClusterAt cluster fun c => { c with
      used := 0, balance := refill c.budget c.balance (n - c.ival), ival := n })) s

/-! ## Clocks and heat (R359, R360) -/

/-- A write of CLKCTL: a frequency outside 25-120 is ignored. -/
def clkctlSet (cl : Nat) (w : Word) (s : State) : State :=
  s.modClusterAt cl fun c =>
    let f := w.toNat % 2 ^ 8
    { c with freq := if 25 ≤ f ∧ f ≤ 120 then f else c.freq, bias := w.toNat / 2 ^ 16 % 2 ^ 8 }

def execClkctlWrite (cluster : Nat) (w : Word) (s : State) : Outcome :=
  eventDo (served (pkgOfCluster cluster) (modify (clkctlSet cluster w))) s

/-- CLOCK_CHANGE_DONE: the cluster runs at its new frequency. -/
def execClockChangeDone (cluster : Nat) (s : State) : Outcome :=
  eventDo (do
    need ((s.clusterAt cluster).cur != (s.clusterAt cluster).freq)
    modify fun s => s.modClusterAt cluster fun c => { c with cur := c.freq }) s

/-- THERMAL_TRIP: at TRIP every cluster clock and every die's request processing stops. -/
def execThermalTrip (pkg temp : Nat) (s : State) : Outcome :=
  eventDo (do
    let p := s.pkgAt pkg
    need (!p.gated && decide (p.trip ≤ temp) && decide (temp < 256))
    modify fun s => s.modPkgAt pkg fun p => { p with temp := temp, gated := true, gates := (p.gates + 1) % 2 ^ 32 }) s

/-- THERMAL_RESUME: at RESUME everything goes on. -/
def execThermalResume (pkg temp : Nat) (s : State) : Outcome :=
  eventDo (do
    let p := s.pkgAt pkg
    need (p.gated && decide (temp ≤ p.resume))
    modify fun s => s.modPkgAt pkg fun p => { p with temp := temp, gated := false }) s

/-! ## The time base (spec/21 R347) -/

/-- TBASE_DISCIPLINE: a package with a port up compares its count with that of another one of its domain which is ready,
and once in 1,024 ticks adds a tick when it is behind or omits the next when it is ahead. -/
def execTbaseDiscipline (pkg peer : Nat) (s : State) : Outcome :=
  eventDo (do
    let p := s.pkgAt pkg
    let q := s.pkgAt peer
    need (p.ready && q.ready && decide (q.pkgId ≤ p.npkgm1) && !p.upPorts.isEmpty && !q.upPorts.isEmpty &&
      decide (1024 ≤ p.tbGap))
    modify fun s => s.modPkgAt pkg fun p =>
      if p.tbase < q.tbase then { p with tbase := (p.tbase + 1) % 2 ^ 64, tbGap := 0 }
      else if q.tbase < p.tbase then { p with tbAdj := p.tbAdj - 1, tbGap := 0 }
      else p) s

end Sys2Proof.Machine
end

