-- ==== Sys2Proof/Machine/Bringup.lean ====
section
/-! DEFINITION. Package reset and the controller's boot stages, firmware images, reports, and the writes
of stage 5 (spec/23 R363-R369, spec/21 R341). -/

namespace Sys2Proof.Machine

/-! ## Firmware images (R365) -/

/-- n bytes of an image from an offset. -/
def imgBytes (i : Image) (lo n : Nat) : List Byte := (i.drop lo).take n
def imgNum (i : Image) (lo n : Nat) : Nat := leVal (imgBytes i lo n)
def imgSvn (i : Image) : Nat := imgNum i 4 4
def imgLen (i : Image) : Nat := imgNum i 8 8
def imgDigest (i : Image) : List Byte := imgBytes i 16 64
def imgPub (i : Image) : List Byte := imgBytes i 142 57
def imgBody (i : Image) : List Byte := imgBytes i 256 (imgLen i)
def imgSig (i : Image) : List Byte := imgBytes i (256 + imgLen i) 114

/-- Magic, zero fields and sizes of an image. -/
def imgForm (i : Image) : Bool :=
  imgNum i 0 4 == 0x57463944 && decide (1 ≤ imgLen i) && decide (imgLen i ≤ 2 ^ 26) &&
  decide (370 + imgLen i ≤ i.length) && imgNum i 81 61 == 0 && imgNum i 199 57 == 0 &&
  decide (imgNum i 80 1 < 4)

/-- The ROM accepts an image for a package whose fused minimum is `least`. -/
def imgAccepted (pkg least : Nat) (i : Image) : Bool :=
  let (revoked, hash) := Config.keySlot pkg (imgNum i 80 1)
  imgForm i && !revoked && hash == (Config.shake256 (imgPub i)).take 32 &&
  Config.ed448Verify (imgPub i) (imgBytes i 0 256) (imgSig i) &&
  imgDigest i == Config.shake256 (imgBody i) && decide (least ≤ imgSvn i)

/-- The image in a flash slot. -/
def Pkg.flash (p : Pkg) (pkg : Nat) (slotB : Bool) : Image :=
  (if slotB then p.flashB else p.flashA).getD (Config.flashImage pkg slotB)

/-- The fused minimum SVN. -/
def Pkg.leastSvn (p : Pkg) (pkg : Nat) : Nat := max (Config.minSvn pkg) p.minSvn

/-- The image that stage 1 boots: slot A, then slot B. -/
def Pkg.bootImage (p : Pkg) (pkg : Nat) : Option (Nat × Image) :=
  if imgAccepted pkg (p.leastSvn pkg) (p.flash pkg false) then some (0, p.flash pkg false)
  else if imgAccepted pkg (p.leastSvn pkg) (p.flash pkg true) then some (1, p.flash pkg true)
  else none

/-! ## The stages (R363) -/

/-- PKGCFG (spec/21 R341). -/
def Pkg.pkgcfg (p : Pkg) : Word := BitVec.ofNat 64 (p.pkgId % 2 ^ 14 + 2 ^ 16 * (p.npkgm1 % 2 ^ 14))

/-- What M1 measures: cap0, cap1, PKGCFG and the severity matrix, as bytes (R366). -/
def Pkg.measured (p : Pkg) : List Byte :=
  [p.cap0, p.cap1, p.pkgcfg].flatMap (fun w => leBytes 8 w.toNat) ++
  (List.range 16).flatMap fun i => leBytes 8 (p.sevReg (i / 2) (i % 2)).toNat

/-- A stage fails: the sequence stops there, and the controller enters recovery (R364). -/
def Pkg.bootFails (p : Pkg) (stage err : Nat) : Pkg := { p with stage := stage, err := err, slot := 2 }

/-- Stage 5 is under way. -/
def Pkg.configuring (p : Pkg) : Bool := p.stage == 5 && !p.ready && p.err == 0

/-- The feature bits of a package's silicon: BASE is 1 on a working part (R368). -/
def siliconBits (pkg : Nat) : Word := (Config.silicon pkg).setWidth 64 ||| 1

/-- A write of CAPW0 or CAPW1: ignored outside stage 5, with a bit that the silicon lacks and with a reserved
bit; cap1 has no assigned bit (R368). -/
def Pkg.writeCap (p : Pkg) (pkg : Nat) (hi : Bool) (w : Word) : Pkg :=
  let allowed : Word := if hi then 0 else siliconBits pkg
  if !p.configuring || w &&& ~~~allowed != 0 then p
  else if hi then { p with cap1 := w, wrote := p.wrote ||| 2 } else { p with cap0 := w, wrote := p.wrote ||| 1 }

/-- A write of PKGCFG, in stage 5 only; an id or a size out of range is ignored (spec/21 R341; log entry 62). -/
def Pkg.writeCfg (p : Pkg) (w : Word) : Pkg :=
  let id := w.toNat % 2 ^ 14
  let n := w.toNat / 2 ^ 16 % 2 ^ 14
  if !p.configuring || decide (9215 < n) || decide (n < id) then p
  else { p with pkgId := id, npkgm1 := n, wrote := p.wrote ||| 4 }

/-- A write of TBSET: tbase takes the value, in stage 5 only (R369). -/
def Pkg.writeTb (p : Pkg) (w : Word) : Pkg :=
  if p.configuring then { p with tbase := w.toNat, tbAdj := 0, tbGap := 0, wrote := p.wrote ||| 8 } else p

/-- The writes that firmware makes at the end of stage 5. -/
def Pkg.configWrites (p : Pkg) (pkg : Nat) (b : BootInput) : Pkg :=
  let p := (b.capw0.map (p.writeCap pkg false)).getD p
  let p := (b.capw1.map (p.writeCap pkg true)).getD p
  let p := (b.pkgcfg.map p.writeCfg).getD p
  (b.tbset.map p.writeTb).getD p

/-- Firmware may set READY: it has written CAPW0, CAPW1, PKGCFG and TBSET (R369), and the part has its base
instruction set (R368). -/
def Pkg.configured (p : Pkg) : Bool := p.wrote == 15 && p.cap0.getLsbD 0

/-- Stage 6: READY, and M1 as things stand. Firmware may have raised the fused minimum. -/
def Pkg.bootReady (p : Pkg) (raise : Nat) : Pkg :=
  { p with stage := 6, ready := true, m1 := Config.shake256 p.measured, minSvn := max p.minSvn raise }

/-- The end of stage 5; none leaves it open, as does a package that is not configured yet or whose time base is not
aligned with the others' of its domain. -/
def Pkg.bootConfig (p : Pkg) (pkg : Nat) (aligned : Nat → Bool) (b : BootInput) : Pkg :=
  let p := Pkg.configWrites { p with stage := 5 } pkg b
  match b.config with
  | none => p
  | some true => if p.configured && aligned p.tbase then p.bootReady b.raise else p
  | some false => p.bootFails 5 6

/-- The ports that training brings up (log entry 60). A retired lane that fails its test again stays replaced by the
spare (spec/22 R356). -/
def trainedPorts (old : Tbl Port) (bad : List Nat) : Tbl Port := (List.range 18).map fun n =>
  let x := tgetD old n {}
  (n, if bad.contains n && x.spused then { state := 2, spused := true, failed := x.failed } else { state := 2 })

/-- The CXL range of the populated ports: their number times the smallest capacity, at most 16 TB (spec/21
R336). -/
def cxlRange (caps : List Nat) : Nat :=
  match caps with
  | [] => 0
  | c :: cs => min 16000000000000 (caps.length * cs.foldl min c)

/-- The stages in order, from a package whose registers stand at their reset values. -/
def Pkg.boot (p : Pkg) (pkg : Nat) (aligned : Nat → Bool) (b : BootInput) : Pkg :=
  if !b.fusesOk then p.bootFails 0 1
  else match p.bootImage pkg with
    | none => p.bootFails 1 2
    | some (slot, img) =>
      let p := { p with
        slot := slot, svn := imgSvn img, m0 := imgDigest img
        aliasKey := Config.aliasKey (Config.secret pkg) (imgDigest img)
        aliasCert := Config.ed448Sign (Config.identityKey (Config.secret pkg))
          (Config.publicHalf (Config.aliasKey (Config.secret pkg) (imgDigest img))) }
      if !b.trained then p.bootFails 2 3
      else
        let p := { p with ports := trainedPorts p.ports b.badLanes, cxl := cxlRange (b.cxl.take 4), cxlPorts := (b.cxl.take 4).length }
        if !b.sparesOk then p.bootFails 3 4
        else if !b.zeroedOk then p.bootFails 4 5
        else p.bootConfig pkg aligned b

/-- The certificates of a package's keys: the maker's of the identity key, and the identity key's of the alias key
(R366). -/
def Pkg.certificates (p : Pkg) (pkg : Nat) : List (List Byte) := [Config.identityCert pkg, p.aliasCert]

/-- A memory key lies in an SRAM of a package. -/
def sramOfPkg (pkg key : Nat) : Bool := isSram key && key / 2 ^ 48 == pkg

/-- What stays of a core over a package reset until later stages: its tracks' contents, its accumulators and what its
spare pool holds. -/
def Core.kept (c : Core) : Core :=
  { tracks := c.tracks.map fun (k, x) => (k, { x with head := 0, claim := .none }), acc := c.acc, spare := c.spare, fail := c.fail }

/-- What stays of a port: which lane is retired. -/
def Port.kept (x : Port) : Port := { spused := x.spused, failed := x.failed }

/-- The registers of a package at their reset values, and no record or domain left. SRAM, tracks, accumulators and the
error log keep what they hold until stage 4; the memory behind HBM4E keeps its bytes (log entry 61), the flash and the
fuses stay. -/
def clearPackage (pkg : Nat) (s : State) : State :=
  let p := s.pkgAt pkg
  let out {α : Type} (of : Nat → Nat) (t : Tbl α) : Tbl α := t.filter fun e => of e.1 != pkg
  { s with
    threads := out (fun k => pkgOf (k / 4)) s.threads
    cores := s.cores.map fun (k, c) => if pkgOf k = pkg then (k, c.kept) else (k, c)
    clusters := out pkgOfCluster s.clusters
    dies := out (· / 18) s.dies
    recs := s.recs.filter fun e => e.2.pkg != pkg
    doms := out (fun k => if 2 ^ 64 ≤ k then pkgOf ((k - 2 ^ 64) / 4) else k / 2 ^ 32) s.doms
    pkgs := tput s.pkgs pkg {
      flashA := p.flashA, flashB := p.flashB, minSvn := p.minSvn, boots := p.boots + 1
      ports := p.ports.map fun (n, x) => (n, x.kept)
      log := p.log, logHead := p.logHead, logLost := p.logLost, logOvf := p.logOvf } }

/-- The spare pool of a core after stage 3: of its retired and failing tracks, n fail their test again (spec/22 R356). -/
def Core.retest (c : Core) (n : Nat) : Nat :=
  4 - min n (4 - c.spare + ((List.range 32).filter fun i => c.fail.getLsbD i).length)

/-- Stages 3 and 4 on the stores of a package: the spare pools are renewed, SRAM, tracks, accumulators and the error
log are zeroed. -/
def zeroStores (pkg : Nat) (bad : List (Nat × Nat)) (s : State) : State :=
  let s := { s with
    mem := s.mem.filter fun e => !(sramOfPkg pkg e.1)
    sramErr := s.sramErr.filter fun e => !(sramOfPkg pkg (8 * e.1))
    cores := s.cores.map fun (k, c) =>
      if pkgOf k = pkg then (k, { spare := Core.retest c (tgetD bad (coreIn k) 0) }) else (k, c) }
  s.modPkgAt pkg fun p => { p with log := [], logHead := 0, logLost := 0, logOvf := false }

/-- A time-base count lies within 62 ticks of those of the packages that are ready, so that with its clusters' copies,
a tick off at most (spec/22 R361), none differ by more than 64 (R369, spec/21 R347). -/
def State.aligned (s : State) (pkg tb : Nat) : Bool :=
  s.pkgs.all fun (k, q) => k == pkg || !q.ready || (decide (tb ≤ q.tbase + 62) && decide (q.tbase ≤ tb + 62))

/-- The time-base copies of a package's clusters follow a count that has been set. -/
def State.clearCopies (s : State) (pkg : Nat) : State :=
  { s with clusters := s.clusters.map fun (k, c) => if pkgOfCluster k = pkg then (k, { c with tb := 0 }) else (k, c) }

/-- PACKAGE_RESET: the stages from 0; or, with `resume`, the end of a stage 5 that was left open. -/
def execPackageReset (pkg : Nat) (boot : BootInput) (s : State) : Outcome :=
  eventDo (do
    need (decide (pkg < 9216) && (!boot.resume || (s.pkgAt pkg).configuring))
    if boot.resume then
      modify fun s => (s.clearCopies pkg).modPkgAt pkg fun p => p.bootConfig pkg (s.aligned pkg) boot
    else modify fun s =>
      let s := (clearPackage pkg s).modPkgAt pkg fun p => p.boot pkg (s.aligned pkg) boot
      if 5 ≤ (s.pkgAt pkg).stage then zeroStores pkg boot.badTracks s else s) s

/-! ## Recovery and reports -/

/-- RECOVERY_FLASH_WRITE: an image is stored for the next package reset, in recovery or while firmware runs, which it
leaves as it is (R364). -/
def execRecoveryFlashWrite (pkg : Nat) (slotB : Bool) (image : List Byte) (s : State) : Outcome :=
  eventDo (modify fun s => s.modPkgAt pkg fun p =>
    if slotB then { p with flashB := some image } else { p with flashA := some image }) s

/-- Bytes 0-189 of a report (R367). -/
def Pkg.reportBody (p : Pkg) (nonce : List Byte) : List Byte :=
  nonce ++ leBytes 4 p.svn ++ leBytes 2 p.pkgId ++ p.m0 ++ p.m1 ++ leBytes 8 p.cap0.toNat ++
  leBytes 8 p.cap1.toNat ++ leBytes 8 p.tbase

/-- SPDM_REPORT: a report signed by the alias key, after those that were asked for before. -/
def execSpdmReport (pkg : Nat) (nonce : List Byte) (s : State) : Outcome :=
  eventDo (do
    need ((s.pkgAt pkg).ready && nonce.length == 32)
    modify fun s => s.modPkgAt pkg fun p =>
      let b := p.reportBody nonce
      { p with reports := p.reports ++ [b ++ Config.ed448Sign p.aliasKey b] }) s

/-! ## Writes of stage 5 (R341, R368, R369) -/

def capwSet (pkg : Nat) (hi : Bool) (w : Word) (s : State) : State := s.modPkgAt pkg fun p => p.writeCap pkg hi w

def execCapwWrite (pkg : Nat) (hi : Bool) (w : Word) (s : State) : Outcome := eventDo (modify (capwSet pkg hi w)) s

/-- TBSET: the clusters' copies follow. -/
def tbsetSet (pkg : Nat) (w : Word) (s : State) : State :=
  if (s.pkgAt pkg).configuring then (s.clearCopies pkg).modPkgAt pkg fun p => p.writeTb w else s

def execTbsetWrite (pkg : Nat) (w : Word) (s : State) : Outcome := eventDo (modify (tbsetSet pkg w)) s

def pkgcfgSet (pkg : Nat) (w : Word) (s : State) : State := s.modPkgAt pkg fun p => p.writeCfg w

def execPkgcfgWrite (pkg : Nat) (w : Word) (s : State) : Outcome := eventDo (modify (pkgcfgSet pkg w)) s

end Sys2Proof.Machine
end

