-- ==== Sys2Proof/Machine/Regs.lean ====
section
/-! DEFINITION. The device registers of path 0x9: blocks and offsets (spec/22 R348), what a read returns and
what a write does. A write to a read-only register or to reserved bits changes nothing; a read of a write-only
register returns a free value (log entry 25). -/

namespace Sys2Proof.Machine

/-- The block of an offset, the unit within the package, and the offset within the block (R348). -/
inductive RegAt where
  | pkg (o : Nat)
  | die (d o : Nat)
  | cluster (c o : Nat)
  | core (n o : Nat)
  deriving DecidableEq, Repr

def regAt (off : Nat) : Option RegAt :=
  if off < 0x10000 then some (.pkg off)
  else if 0x01000000 ≤ off ∧ off < 0x01000000 + 0x4000 * Config.clusters then
    some (.cluster ((off - 0x01000000) / 0x4000) ((off - 0x01000000) % 0x4000))
  else if 0x04000000 ≤ off ∧ off < 0x04000000 + 0x10000 * 18 then
    some (.die ((off - 0x04000000) / 0x10000) (off % 0x10000))
  else if 0x10000000 ≤ off ∧ off < 0x10000000 + 0x1000 * Config.cores then
    some (.core ((off - 0x10000000) / 0x1000) (off % 0x1000))
  else none

/-- A field of a register. -/
def fieldOf (w : Word) (hi lo : Nat) : Nat := w.toNat / 2 ^ lo % 2 ^ (hi + 1 - lo)

/-- A word built of a list of values and the places of their lowest bits. -/
def regWord (l : List (Nat × Nat)) : Word := BitVec.ofNat 64 (l.foldl (fun a x => a + 2 ^ x.1 * x.2) 0)

/-- 64-bit word i of some bytes. -/
def byteWord (bs : List Byte) (i : Nat) : Word := BitVec.ofNat 64 (leVal ((bs.drop (8 * i)).take 8))

/-- A read with a register's plain value. -/
abbrev RegRead := Option (State × Word)

/-- A read of a write-only register. -/
def writeOnlyRead (s : State) : RegRead := some ({ s with fresh := s.fresh + 1 }, Config.writeOnly s.fresh)

/-! ## The package block -/

/-- BOOTSTAT (spec/23 R363). -/
def Pkg.bootstat (p : Pkg) : Word :=
  regWord [(63, p.ready.toNat), (48, p.stage % 2 ^ 8), (40, p.err % 2 ^ 8), (32, p.slot % 2 ^ 8), (0, p.svn % 2 ^ 32)]

/-- THERM (spec/22 R360). -/
def Pkg.therm (p : Pkg) : Word :=
  regWord [(0, p.temp % 2 ^ 8), (8, p.trip % 2 ^ 8), (16, p.resume % 2 ^ 8), (32, p.gates % 2 ^ 32)]

/-- ERRSTAT (spec/22 R355). -/
def Pkg.errstat (p : Pkg) : Word := regWord [(0, p.logHead % 2 ^ 8), (16, p.logLost % 2 ^ 32)]

def Port.wpstat (p : Port) : Word :=
  regWord [(0, p.state % 4), (4, p.spused.toNat), (5, p.failed % 16)]
def Port.wperr (p : Port) : Word :=
  regWord [(0, p.feccor % 2 ^ 32), (32, p.retry % 2 ^ 16), (48, p.fecunc % 2 ^ 16)]

/-- CMPSTAT (spec/20 R328). -/
def Compactor.stat (c : Compactor) : Word := regWord [(63, c.busy.toNat), (0, c.result % 16)]

/-- The registers that the controller serves before stage 5: BOOTSTAT, the capability writes, the measurements;
in recovery only the first (spec/23 R363, R364). -/
def Pkg.served (p : Pkg) (o : Nat) : Bool :=
  if p.err ≠ 0 then o == 0 else o == 0 || o == 8 || o == 0x10 || (decide (0x40 ≤ o) && decide (o < 0xC0))

/-- A read of a port's registers (spec/21 R344, R345). -/
def wenicRead (s : State) (x : Port) (o : Nat) : RegRead :=
  if o = 0 then some (s, x.wpstat)
  else if o = 8 then some (s, x.wperr)
  else if 0x20 ≤ o ∧ o < 0x68 then some (s, tgetD x.winj ((o - 0x20) / 8) 0)
  else none

/-- A read of a register of the package block. -/
def pkgRead (pkg o : Nat) (s : State) : RegRead :=
  let p := s.pkgAt pkg
  if o < 0x40 then
    match o with
    | 0 => some (s, p.bootstat)
    | 8 | 0x10 => writeOnlyRead s
    | _ => none
  else if o < 0x80 then some (s, byteWord p.m0 ((o - 0x40) / 8))
  else if o < 0xC0 then some (s, byteWord p.m1 ((o - 0x80) / 8))
  else if o < 0x400 then
    match o with
    | 0x100 => some (s, p.pkgcfg)
    | 0x180 => some (s, BitVec.ofNat 64 p.tbase)
    | 0x188 => writeOnlyRead s
    | 0x190 => some (s, p.therm)
    | 0x200 => writeOnlyRead s
    | 0x208 => some (s, p.lstat)
    | 0x210 => writeOnlyRead s
    | 0x218 => some (s, s.dstat pkg)
    | 0x300 => some (s, p.kvb2)
    | 0x308 => some (s, p.kvn2)
    | 0x310 => some (s, p.kvb3)
    | 0x318 => some (s, p.kvn3)
    | 0x320 => some (s, BitVec.ofNat 64 p.kvspn)
    | _ => none
  else if o < 0x480 then
    let c := p.cmp ((o - 0x400) / 0x40)
    match o % 0x40 with
    | 0 => some (s, c.thr.setWidth 64)
    | 8 => writeOnlyRead s
    | 0x10 => some (s, c.stat)
    | _ => none
  else if 0x800 ≤ o ∧ o < 0x800 + 0x80 * 18 then wenicRead s (tgetD p.ports ((o - 0x800) / 0x80) {}) (o % 0x80)
  else if 0x1800 ≤ o ∧ o < 0x1880 then some (s, p.sevReg ((o - 0x1800) / 16) (o / 8 % 2))
  else if o = 0x1900 then some (s, BitVec.ofNat 64 p.errHost.toNat)
  else if o = 0x1908 then some (s, p.errstat)
  else if 0x2000 ≤ o ∧ o < 0x4000 then
    some (s, (tgetD p.log ((o - 0x2000) / 32) 0).extractLsb' (64 * (o / 8 % 4)) 64)
  else none

/-- A field of SEVc,h as written (spec/22 R352). -/
def sevClean (f : Nat) : Nat := f / 2 ^ 4 % 2 ^ 6 * 2 ^ 4 + (if 5 ≤ f % 8 then 1 else f % 8)
def sevStored (w : Word) : Word := regWord ((List.range 4).map fun i => (16 * i, sevClean (fieldOf w (16 * i + 15) (16 * i))))

/-- A write of WINJi: MODE 3 changes nothing; FIRED is cleared by a 1; setting ARM starts the count. -/
def Port.winjWrite (x : Port) (i : Nat) (w : Word) : Port :=
  if fieldOf w 61 60 = 3 then x
  else
    let old := tgetD x.winj i 0
    let fired := old.getLsbD 62 && !w.getLsbD 62
    let arm := w.getLsbD 63
    { x with
      winj := tput x.winj i (regWord [(63, arm.toNat), (62, fired.toNat), (60, fieldOf w 61 60), (48, fieldOf w 59 48),
        (0, fieldOf w 31 0)])
      carried := if arm then tput x.carried i 0 else x.carried }

/-- A write of a port's registers. -/
def Port.regWrite (x : Port) (o : Nat) (w : Word) : Port :=
  if o = 8 then { x with feccor := fieldOf w 31 0, retry := fieldOf w 47 32, fecunc := fieldOf w 63 48 }
  else if 0x20 ≤ o ∧ o < 0x68 then x.winjWrite ((o - 0x20) / 8) w
  else x

/-- A write that starts an action of the device: what the action waits for does not hold up the write. -/
def submitOnly (x : Act Unit) : Act Unit := fun s =>
  match x s with
  | .error .wait s' => .ok () s'
  | r => r

/-- A base register of the tables: bits 56:4 (spec/20 R324). -/
def kvBase (w : Word) : Word := w &&& BitVec.ofNat 64 (2 ^ 57 - 16)
def low32 (w : Word) : Word := w &&& 0xFFFFFFFF

/-- A write of a register of the package block. -/
def pkgWrite (pkg o : Nat) (w : Word) : Act Unit :=
  let setP (f : Pkg → Pkg) : Act Unit := modify fun s => s.modPkgAt pkg f
  if o < 0x400 then
    match o with
    | 8 => modify (capwSet pkg false w)
    | 0x10 => modify (capwSet pkg true w)
    | 0x100 => modify (pkgcfgSet pkg w)
    | 0x188 => modify (tbsetSet pkg w)
    | 0x190 => setP fun p => { p with trip := fieldOf w 15 8, resume := fieldOf w 23 16 }
    | 0x200 => modify (lnchWrite pkg w)
    | 0x210 => modify (dcmdWrite pkg w)
    | 0x300 => setP fun p => { p with kvb2 := kvBase w }
    | 0x308 => setP fun p => { p with kvn2 := low32 w }
    | 0x310 => setP fun p => { p with kvb3 := kvBase w }
    | 0x318 => setP fun p => { p with kvn3 := low32 w }
    | 0x320 => setP fun p => { p with kvspn := fieldOf w 11 0 }
    | _ => pure ()
  else if o < 0x480 then
    let e := (o - 0x400) / 0x40
    match o % 0x40 with
    | 0 => setP fun p => p.setCmp e { p.cmp e with thr := w.setWidth 8 }
    | 8 => submitOnly (cmpcmdWrite pkg e w)
    | _ => pure ()
  else if 0x800 ≤ o ∧ o < 0x800 + 0x80 * 18 then
    modify fun s => s.modPort pkg ((o - 0x800) / 0x80) fun x => x.regWrite (o % 0x80) w
  else if 0x1800 ≤ o ∧ o < 0x1880 then setP fun p => { p with sev := tput p.sev ((o - 0x1800) / 8) (sevStored w) }
  else if o = 0x1900 then setP fun p => { p with errHost := w.getLsbD 0 }
  else if 0x2000 ≤ o ∧ o < 0x4000 ∧ o % 32 = 0 ∧ w.getLsbD 0 then
    setP fun p => { p with log := tput p.log ((o - 0x2000) / 32) (tgetD p.log ((o - 0x2000) / 32) 0 &&& ~~~(1 : BitVec 256)) }
  else pure ()

/-! ## A die's block (spec/22 R357) -/

/-- VCTL of a die. -/
def vctl (s : State) (k : Nat) : Word :=
  let d := s.dieAt k
  regWord [(32, d.uv.toNat), (16, d.voff % 2 ^ 16), (0, (Config.vnom k).toNat)]

def dieRead (k o : Nat) (s : State) : RegRead :=
  match o with
  | 0 => some (s, vctl s k)
  | 8 => some (s, BitVec.ofNat 64 (s.dieAt k).cecnt)
  | _ => none

/-- A write of VOFF while a restore runs is ignored. -/
def dieWrite (k o : Nat) (w : Word) (s : State) : State :=
  if o = 0 ∧ !(s.dieAt k).restoring then s.setDieAt k { s.dieAt k with voff := fieldOf w 31 16 } else s

/-! ## A cluster's block -/

/-- FBCTL, FBVAL (spec/10 R157). -/
def Cluster.fbctl (c : Cluster) : Word := regWord [(16, c.fbHost.toNat), (8, c.fbGen % 256), (0, c.fb.length % 128)]
def Cluster.fbval (c : Cluster) : Word :=
  BitVec.ofNat 64 ((List.range 64).foldl (fun a i => a + 2 ^ i * (tget c.fb i).isSome.toNat) 0)
def Cluster.fbWord (c : Cluster) (i j : Nat) : Word :=
  match tget c.fb i with
  | some e => e.msg.extractLsb' (64 * j) 64
  | none => 0

/-- CLKCTL, BUDGET, DISPCTL (spec/22 R358, R359, spec/15 R254). -/
def Cluster.clkctl (c : Cluster) : Word := regWord [(0, c.freq % 256), (8, c.cur % 256), (16, c.bias % 256)]
def Cluster.budgetReg (c : Cluster) : Word := regWord [(0, c.budget % 2 ^ 32), (32, c.used % 2 ^ 32)]
def Cluster.dispctl (c : Cluster) : Word := regWord [(0, c.mode % 4), (2, c.migen.toNat)]

def clusterRead (cl o : Nat) (s : State) : RegRead :=
  let c := s.clusterAt cl
  if o < 0x1100 then
    match o with
    | 0x100 => some (s, c.budgetReg)
    | 0x108 => some (s, c.clkctl)
    | 0x1000 => some (s, c.fbctl)
    | 0x1008 => some (s, c.fbval)
    | 0x1010 => some (s, BitVec.ofNat 64 c.svcctl.toNat)
    | 0x1040 => some (s, c.svcA)
    | 0x1048 => some (s, c.svcB)
    | 0x1050 => some (s, c.svcC)
    | 0x1058 => some (s, s.svcRead cl)
    | _ => none
  else if o < 0x1900 then some (s, c.fbWord ((o - 0x1100) / 32) (o / 8 % 4))
  else if o < 0x3000 then
    match o with
    | 0x2000 => some (s, c.dispctl)
    | 0x2010 => some (s, c.cloadReg 0)
    | 0x2018 => some (s, c.cloadReg 1)
    | 0x2020 => some (s, c.cloadReg 2)
    | 0x2028 => some (s, c.cloadReg 3)
    | 0x2030 => some (qpopDo cl s)
    | 0x2038 => writeOnlyRead s
    | _ => none
  else
    let e := (o - 0x3000) / 16
    some (s, if o / 8 % 2 = 0 then tgetD c.slot0 e 0 else tgetD c.slot1 e 0)

/-- An operand word of the service window; ignored while the window's operation runs (spec/10 R161). -/
def svcOperand (cl : Nat) (f : Cluster → Cluster) (s : State) : State :=
  if s.svcRunning cl then s else s.modClusterAt cl f

/-- FBCTL: HOST, then FLUSH. -/
def fbctlWrite (cl : Nat) (w : Word) (s : State) : State :=
  let s := s.modClusterAt cl fun c => { c with fbHost := w.getLsbD 16 }
  if w.getLsbD 63 then flushBuffer cl s else s

/-- DISPCTL: a MODE of 3 is ignored. -/
def dispctlWrite (cl : Nat) (w : Word) (s : State) : State :=
  s.modClusterAt cl fun c =>
    { c with migen := w.getLsbD 2, mode := if fieldOf w 1 0 = 3 then c.mode else fieldOf w 1 0 }

def clusterWrite (cl o : Nat) (w : Word) : Act Unit :=
  if o < 0x3000 then
    match o with
    | 0x100 => modify fun s => s.modClusterAt cl fun c => { c with budget := fieldOf w 31 0 }
    | 0x108 => modify (clkctlSet cl w)
    | 0x1000 => modify (fbctlWrite cl w)
    | 0x1010 => modify fun s => s.modClusterAt cl fun c => { c with svcctl := w.getLsbD 0 }
    | 0x1040 => modify (svcOperand cl fun c => { c with svcA := w })
    | 0x1048 => modify (svcOperand cl fun c => { c with svcB := w })
    | 0x1050 => modify (svcOperand cl fun c => { c with svcC := w })
    | 0x1058 => modify (svcWrite cl w)
    | 0x2000 => modify (dispctlWrite cl w)
    | 0x2038 => modify (qpushDo cl w)
    | _ => pure ()
  else
    let e := (o - 0x3000) / 16
    if o / 8 % 2 = 0 then
      modify fun s => s.modClusterAt cl fun c => c.putSlot0 e (w &&& BitVec.ofNat 64 (2 ^ 57 - 64))
    else submitOnly (slotWrite1 cl e w)

/-! ## A core's block (spec/05 R95, spec/22 R356) -/

/-- TRKERR. -/
def Core.trkerr (c : Core) : Word :=
  regWord [(32, c.rcnt % 2 ^ 32), (24, c.fcnt % 256), (21, c.spare % 8), (8, c.last % 32)]

/-- The seats of a core's cluster on its die and of the core in its cluster (spec/00 R2): its own index unless a remap
has given it a spare's. -/
def State.clusterSeat (s : State) (core : Nat) : Fin 100 :=
  Fin.ofNat 100 ((s.clusterAt (clusterOf core)).seat.getD (coreIn core / 64 % Config.clustersPerDie))
def State.coreSeat (s : State) (core : Nat) : Fin 72 := Fin.ofNat 72 ((s.coreAt core).seat.getD (core % 64))

/-- The physical cluster, on its die, and the physical core, in it, that stand for a core (spec/22 R356). -/
def State.physical (s : State) (core : Nat) : Nat × Nat :=
  let boots := (s.pkgAt (pkgOf core)).boots
  let die := pkgOf core * 16 + coreIn core / 64 / Config.clustersPerDie
  let pc := Config.clusterPerm boots die (s.clusterSeat core)
  (pc.val, (Config.corePerm boots (100 * die + pc.val) (s.coreSeat core)).val)

/-- PHYS. -/
def physWord (s : State) (core : Nat) : Word :=
  regWord [(16, coreIn core / 64 / Config.clustersPerDie), (8, (s.physical core).1), (0, (s.physical core).2)]

/-- Track and slot of TDSEL; whether the track may be examined. -/
def Core.tdTrack (c : Core) : Nat := fieldOf c.tdsel 15 11
def Core.tdSlot (c : Core) : Nat := fieldOf c.tdsel 10 0
def Core.tdBarred (c : Core) : Bool := (c.track c.tdTrack).claim != .none || c.failing c.tdTrack

/-- The stored data and check bits of the selected slot. -/
def Core.tdBits (c : Core) : Word × BitVec 8 :=
  let x := c.track c.tdTrack
  let w := tgetD x.slots c.tdSlot 0
  let e := tgetD x.synd c.tdSlot 0
  (w ^^^ e.setWidth 64, BitVec.ofNat 8 (eccCheck w) ^^^ e.extractLsb' 64 8)

/-- A read of TDDATA moves the track to the slot and back. -/
def tddataRead (core : Nat) (s : State) : State × Word :=
  let c := s.coreAt core
  if c.tdBarred then (s, 0)
  else
    let h := (c.track c.tdTrack).head
    ((s.moveHead core c.tdTrack c.tdSlot).moveHead core c.tdTrack h, c.tdBits.1)

def Core.tdecc (c : Core) : Word :=
  if c.tdBarred then regWord [(11, 1)]
  else regWord [(8, ((c.track c.tdTrack).code c.tdSlot).toNat), (0, c.tdBits.2.toNat)]

def coreRead (core o : Nat) (s : State) : RegRead :=
  let c := s.coreAt core
  match o with
  | 0 => some (s, physWord s core)
  | 0x400 => some (s, c.trkerr)
  | 0x408 => some (s, c.fail.setWidth 64)
  | 0x410 => some (s, c.tdsel)
  | 0x418 => some (tddataRead core s)
  | 0x420 => some (s, c.tdecc)
  | 0x428 => some (s, c.tsteps)
  | _ => none

def coreWrite (core o : Nat) (w : Word) (s : State) : State :=
  match o with
  | 0x400 => s.modCoreAt core fun c => { c with rcnt := fieldOf w 63 32, fcnt := fieldOf w 31 24 }
  | 0x410 => s.modCoreAt core fun c => { c with tdsel := w &&& 0xFFFF }
  | 0x428 => s.modCoreAt core fun c => { c with tsteps := w }
  | _ => s

/-! ## Every block -/

/-- A read of the register at an offset, once the package serves it. -/
def blockRead (pkg : Nat) (r : RegAt) (s : State) : RegRead :=
  match r with
  | .pkg o => pkgRead pkg o s
  | .die d o => dieRead (pkg * 18 + d) o s
  | .cluster c o => clusterRead (pkg * Config.clusters + c) o s
  | .core n o => coreRead (pkg * Config.cores + n) o s

def blockWrite (pkg : Nat) (r : RegAt) (w : Word) : Act Unit :=
  match r with
  | .pkg o => pkgWrite pkg o w
  | .die d o => modify (dieWrite (pkg * 18 + d) o w)
  | .cluster c o => clusterWrite (pkg * Config.clusters + c) o w
  | .core n o => modify (coreWrite (pkg * Config.cores + n) o w)

/-- The register's package serves it now (spec/23 R363, R364). -/
def RegAt.servedBy (r : RegAt) (p : Pkg) : Bool :=
  p.serves || (match r with | .pkg o => p.served o | _ => false)

/-- A read of path 0x9 at an offset; none where no register lies. -/
def regRead (pkg off : Nat) (s : State) : RegRead :=
  match regAt off with
  | none => none
  | some r => match blockRead pkg r s with
    | none => none
    | some x => if r.servedBy (s.pkgAt pkg) then some x else some (s, 0)

/-- Control words of a cluster that a read of a register reads (spec/22 R349). -/
def RegAt.words : RegAt → List Nat
  | .cluster _ o =>
    if 0x1100 ≤ o ∧ o < 0x1900 then [fbErr ((o - 0x1100) / 32) (o / 8 % 4)]
    else if 0x3000 ≤ o then [stErr ((o - 0x3000) / 16) (o / 8 % 2)] else []
  | _ => []

def RegAt.home (r : RegAt) (pkg : Nat) : Nat := match r with | .cluster c _ => pkg * Config.clusters + c | _ => 0

/-- They are read, for a core and a context. -/
def clusterScan (pkg : Nat) (core ctx : Option Nat) : Option RegAt → Act Unit
  | none => pure ()
  | some r => controlRead (r.home pkg) core ctx r.words

/-- A register lies at an offset. -/
def regOccupied (pkg off : Nat) (s : State) : Bool := (regRead pkg off s).isSome

/-- A write of path 0x9 at an offset where a register lies. -/
def regWrite (pkg off : Nat) (w : Word) : Act Unit := do
  let s ← get
  match regAt off with
  | none => pure ()
  | some r => if r.servedBy (s.pkgAt pkg) then blockWrite pkg r w else pure ()

/-- REGISTER_WRITE: a write that the bench core or the host makes (spec/21 R334). -/
def execRegisterWrite (pkg off : Nat) (w : Word) (s : State) : Outcome :=
  eventDo (do
    need (off % 8 == 0 && regOccupied pkg off s)
    regWrite pkg off w) s

end Sys2Proof.Machine
end

