-- ==== Sys2Proof/Machine/Track.lean ====
section
/-! DEFINITION. Shift tracks: claims, synchronous accesses at a head, the commands of the sequencer,
streams between tracks and rings, spares (spec/05 R77-R97). -/

namespace Sys2Proof.Machine

/-! ## Claims (R77-R79, R87) -/

/-- The ownership trap of a track (R79). -/
def trTrack (thr reason : Nat) (t : TIdx) : Trap :=
  trOwnership (BitVec.ofNat 64 (thr * 2 ^ 12 + 2 ^ 11 + reason * 2 ^ 8 + t.toNat))

/-- A resident thread's frame track (R78). -/
def State.isFrameTrack (s : State) (core : Nat) (t : TIdx) : Bool :=
  (List.range 4).any fun i => (s.threadAt (4 * core + i)).bound && (s.threadAt (4 * core + i)).ftrk == some t.toNat

/-- A head bound to a stream register (R78, R92). -/
def State.isBoundTrack (s : State) (core : Nat) (t : TIdx) : Bool :=
  (List.range 4).any fun i => (s.threadAt (4 * core + i)).binds.any fun (_, b) => b.kind == 2 && b.track == t.toNat

/-- The core is a member of a rollback-armed domain, which keeps t30 and t31 (R78). -/
def State.snapshotCore (s : State) (core : Nat) : Bool :=
  s.doms.any fun (k, d) => d.arm && d.st.live && ((s.memberCores k d).contains core || d.snapCores.contains core)

/-- Why a claim is not this thread's: its holder; REASON 2 where there is none (log entry 80). -/
def holderTrap (c : Claim) (t : TIdx) : Trap :=
  match c with
  | .thread x => trTrack x 0 t
  | .record _ => trTrack 0 1 t
  | .none => trTrack 0 2 t

/-- The refusal of a track instruction of the current thread on ownership grounds (R79, R92). -/
def State.trackRefusal (s : State) (t : TIdx) : Option Trap :=
  let c := (s.trackAt s.cc t.toNat).claim
  if s.isFrameTrack s.cc t then some (trTrack 0 3 t)
  else if s.isBoundTrack s.cc t then some (trTrack 0 4 t)
  else if c = .thread s.ct then none
  else some (holderTrap c t)

def ownTrack (t : TIdx) : Act Unit := do
  match (← get).trackRefusal t with
  | some tr => stopTrap tr
  | none => pure ()

/-- A failing track refuses every access, command and claim (R96), after the instruction's own checks (spec/16 R272). -/
def liveTrack (t : TIdx) : Act Unit := do
  let s ← get
  trapIf (s.core.failing t.toNat) (trShift (shiftVal t.toNat (s.trackAt s.cc t.toNat).head))

/-- The current thread's commands on a track, or on any. -/
def State.trackCmds (s : State) (t : Option TIdx) : List Op := s.trackOps s.tk t

/-- R85: wait until the thread's earlier commands on the track have ended. -/
def waitTrack (t : Option TIdx) : Act Unit := do
  if ((← get).trackCmds t).isEmpty then pure () else stopWait

/-- Change a track of the current core. -/
def updTrack (t : TIdx) (f : Track → Track) : Act Unit := modify fun s => s.modTrack s.cc t.toNat f

/-- `tclaim` and, with `try_`, `tclaim.try` (R87): whether the thread then holds the track. -/
def claimAct (t : TIdx) (try_ : Bool) : Act Bool := do
  let s ← get
  let c := (s.trackAt s.cc t.toNat).claim
  trapIf (s.isFrameTrack s.cc t) (trTrack 0 3 t)
  trapIf (s.isBoundTrack s.cc t) (trTrack 0 4 t)
  trapIf (decide (30 ≤ t.toNat) && s.snapshotCore s.cc) (trTrack 0 5 t)
  let free := c == .none
  let mine := c == .thread s.ct
  if free || mine || try_ then do
    liveTrack t
    if free then updTrack t fun x => { x with claim := .thread s.ct }
    pure (free || mine)
  else stopTrap (holderTrap c t)

def execTclaim (gd : Guard) (t : TIdx) (s : State) : Outcome :=
  issue (.tclaim gd t) (do
    let _ ← claimAct t false
    pure .fall) s

def execTclaimTry (gd : Guard) (p : PIdx) (t : TIdx) (s : State) : Outcome :=
  issue (.tclaimTry gd p t) (do
    let ok ← claimAct t true
    onThread fun th => th.setP p (allBits ok)) s

def execTrel (gd : Guard) (t : TIdx) (s : State) : Outcome :=
  issue (.trel gd t) (do
    ownTrack t
    waitTrack (some t)
    updTrack t fun x => { x with claim := .none }
    pure .fall) s

def execTsync (gd : Guard) (t : Option TIdx) (s : State) : Outcome :=
  issue (.tsync gd t) (do
    match t with
    | some t => ownTrack t
    | none => pure ()
    waitTrack t
    pure .fall) s

def execHpos (gd : Guard) (d : GReg) (t : TIdx) (s : State) : Outcome :=
  issue (.hpos gd d t) (do
    ownTrack t
    waitTrack (some t)
    onState fun s => s.setG d (BitVec.ofNat 64 (s.trackAt s.cc t.toNat).head)) s

/-! ## Synchronous accesses (R89, R90) -/

/-- The checks of an access that carries the head by d slots, `more` being those of its other operands: the head, and
where it would stand. -/
def accessCheck (t : TIdx) (d : Int) (more : Act Unit := pure ()) : Act (Nat × Nat) := do
  ownTrack t
  waitTrack (some t)
  let s ← get
  let h := (s.trackAt s.cc t.toNat).head
  let nh := (h : Int) + d
  trapIf (decide (nh < 0) || decide (2047 < nh)) (trBounds nh)
  more
  liveTrack t
  pure (h, nh.toNat)

/-- Read the slot at a position; a track that turns failing is a precise trap that keeps what the port
has recorded. -/
def portRead (t : TIdx) (slot : Nat) (moved : Nat := 0) : Act Word := do
  let s ← get
  let (s, r) := slotRead s.cc t.toNat slot (some s.tk) s
  set s
  match r with
  | .ok w => pure w
  | .error (.ue n) => throw (.err (slotErr n))
  | .error _ => stopKeep { trShift (shiftVal t.toNat slot) with moved := moved }

/-- Write the slot at a position. -/
def portWrite (t : TIdx) (slot : Nat) (w : Word) (moved : Nat := 0) : Act Unit := do
  let s ← get
  let (s, ok) := portCheck s.cc t.toNat slot (some s.tk) s
  if ok then set (s.slotWrite s.cc t.toNat slot w)
  else do
    set s
    stopKeep { trShift (shiftVal t.toNat slot) with moved := moved }

/-- The head moves to a slot. -/
def headTo (t : TIdx) (nh : Nat) : Act Unit := modify fun s => s.moveHead s.cc t.toNat nh

/-- `trd`, `trds`. -/
def trackRead (d : GReg) (t : TIdx) (st : Int) : Act Next := do
  let (h, nh) ← accessCheck t st
  let w ← portRead t h
  headTo t nh
  onThread fun th => th.setG d w

/-- `twr`, `twrs`. -/
def trackWrite (t : TIdx) (d : GReg) (st : Int) : Act Next := do
  let (h, nh) ← accessCheck t st
  portWrite t h ((← get).g d)
  headTo t nh
  pure .fall

def execTrd (gd : Guard) (d : GReg) (t : TIdx) (s : State) : Outcome := issue (.trd gd d t) (trackRead d t 0) s
def execTwr (gd : Guard) (t : TIdx) (d : GReg) (s : State) : Outcome := issue (.twr gd t d) (trackWrite t d 0) s
def execTrds (gd : Guard) (d : GReg) (t : TIdx) (st : BitVec 20) (s : State) : Outcome :=
  issue (.trds gd d t st) (trackRead d t st.toInt) s
def execTwrs (gd : Guard) (t : TIdx) (d : GReg) (st : BitVec 20) (s : State) : Outcome :=
  issue (.twrs gd t d st) (trackWrite t d st.toInt) s

/-- A slot number from a head at a stride. -/
def slotAt (h i : Nat) (st : Int) : Nat := ((h : Int) + i * st).toNat

/-- Slots of elements i to i + n - 1. -/
def readLanes (t : TIdx) (h : Nat) (st : Int) : Nat → Nat → Act (List Word)
  | _, 0 => pure []
  | i, n + 1 => do
    let w ← portRead t (slotAt h i st)
    pure (w :: (← readLanes t h st (i + 1) n))

def writeLanes (t : TIdx) (h : Nat) (st : Int) : Nat → List Word → Act Unit
  | _, [] => pure ()
  | i, w :: ws => do
    portWrite t (slotAt h i st) w i
    writeLanes t h st (i + 1) ws

/-- A vector value from eight 64-bit lanes, and its lanes. -/
def ofLanes64 (ws : List Word) : BitVec 512 :=
  BitVec.ofNat 512 (ws.foldr (fun (w : Word) (a : Nat) => w.toNat + 2 ^ 64 * a) 0)
def lanes64 (v : BitVec 512) : List Word := (List.range 8).map fun i => (v >>> (64 * i)).setWidth 64

/-- The slots that `vtrds` reads from a head at h. -/
def headLoad (t : TIdx) (h : Nat) (st : Int) : Act (BitVec 512) := do
  pure (ofLanes64 (← readLanes t h st 0 8))

/-- The slots that `vtwrs` writes. -/
def headStore (t : TIdx) (h : Nat) (st : Int) (v : BitVec 512) : Act Unit := writeLanes t h st 0 (lanes64 v)

/-! ## Commands at issue (R84, R88, R91) -/

/-- The projected head of a track for the current thread. -/
def State.proj (s : State) (t : TIdx) : Nat :=
  match (s.trackCmds (some t)).getLast? with
  | some o => (o.args.getD 1 0).toNat
  | none => (s.trackAt s.cc t.toNat).head

/-- A command from the projected head to a slot, with further arguments. -/
def trackIssue (i : Instr) (fd : FIdx) (t : TIdx) (en : Int) (args : List Word) : Act Next := do
  let s ← get
  trapIf (decide (en < 0) || decide (2047 < en)) (trBounds en)
  liveTrack t
  if s.core.trackQueueFull then stopWait
  else
    let a := [BitVec.ofNat 64 (s.proj t), BitVec.ofInt 64 en] ++ args
    onState (enqueueOp .te i fd fun o => { o with args := a })

/-- `seek`, `seekr`, `rew`: the target from the projected head. -/
def seekAct (i : Instr) (fd : FIdx) (t : TIdx) (tgt : State → Int → Int) : Act Next := do
  ownTrack t
  let s ← get
  trackIssue i fd t (tgt s (s.proj t)) []

def execSeek (gd : Guard) (fd : FIdx) (t : TIdx) (slot : BitVec 20) (s : State) : Outcome :=
  issue (.seek gd fd t slot) (seekAct (.seek gd fd t slot) fd t fun _ _ => slot.toNat) s
def execSeekr (gd : Guard) (fd : FIdx) (t : TIdx) (dist : BitVec 20) (s : State) : Outcome :=
  issue (.seekr gd fd t dist) (seekAct (.seekr gd fd t dist) fd t fun _ st => st + dist.toInt) s
def execRew (gd : Guard) (fd : FIdx) (t : TIdx) (s : State) : Outcome :=
  issue (.rew gd fd t) (seekAct (.rew gd fd t) fd t fun _ _ => 0) s
def execSeekReg (gd : Guard) (fd : FIdx) (t : TIdx) (b : GReg) (s : State) : Outcome :=
  issue (.seekReg gd fd t b) (seekAct (.seekReg gd fd t b) fd t fun s _ => (s.g b).toNat) s
def execSeekrReg (gd : Guard) (fd : FIdx) (t : TIdx) (b : GReg) (s : State) : Outcome :=
  issue (.seekrReg gd fd t b) (seekAct (.seekrReg gd fd t b) fd t fun s st => st + (s.g b).toInt) s

/-- `tstream`, `tfill` (R91). -/
def streamIssue (i : Instr) (fd : FIdx) (t : TIdx) (q : QIdx) (c : GReg) (st : Int) : Act Next := do
  ownTrack t
  let s ← get
  let r := s.core.ring q.toNat
  let n := s.g c
  trapIf (r.ns == 0 || decide (65535 < n.toNat)) (trRing (q.setWidth 64))
  trackIssue i fd t ((s.proj t : Int) + n.toNat * (8 * r.sb) * st) [n]

def execTstream (gd : Guard) (fd : FIdx) (q : QIdx) (t : TIdx) (c : GReg) (st : BitVec 5) (s : State) : Outcome :=
  issue (.tstream gd fd q t c st) (streamIssue (.tstream gd fd q t c st) fd t q c st.toInt) s
def execTfill (gd : Guard) (fd : FIdx) (t : TIdx) (q : QIdx) (c : GReg) (st : BitVec 5) (s : State) : Outcome :=
  issue (.tfill gd fd t q c st) (streamIssue (.tfill gd fd t q c st) fd t q c st.toInt) s

/-! ## The sequencer (R82, R84, R88, R91, R93) -/

/-- FADDR of a command that met a failing track (R93). -/
def shiftFaddr (t slot : Nat) : Word := BitVec.ofNat 64 (0xE * 2 ^ 60) + shiftVal t slot

/-- A command ends at a failing track; the head stays on the slot that failed. -/
def trackFault (o : Op) (t slot : Nat) (s : State) : State := s.endOp o .faulted false (shiftFaddr t slot)

/-- A command that consumes an uncorrectable slot. -/
def trackError (o : Op) (synd : Nat) (s : State) : State :=
  let s := (reportError s (pkgOf (o.th / 4)) (some (o.th / 4)) (some o.th) (slotErr synd)).1
  s.endOp o .faulted false 0

/-- The command in progress. -/
def Core.trackRunning (c : Core) : Option Op := c.te.find? fun o => o.started

def State.modTe (s : State) (core : Nat) (o : Op) (f : Op → Op) : State :=
  s.modCoreAt core fun c => { c with te := c.te.map fun x => if x.th = o.th ∧ x.num = o.num then f x else x }

/-- TRACK_CMD_BEGIN: the first queued command begins, with the head moved to its start slot. -/
def trackBegin (core : Nat) (s : State) : Option State :=
  let c := s.coreAt core
  match c.te, c.trackRunning with
  | o :: _, none =>
    match o.instr.cmdTrack with
    | none => none
    | some t =>
      let s := s.modTe core o fun x => { x with started := true }
      let h := (s.trackAt core t.toNat).head
      if c.failing t.toNat then some (trackFault o t.toNat h s)
      else some (s.moveHead core t.toNat (o.args.getD 0 0).toNat)
  | _, _ => none

/-- An event that is a whole change of the state; where its condition does not hold nothing comes about. -/
def eventOpt (f : State → Option State) (s : State) : Outcome := .next ((f s).getD s)

def execTrackCmdBegin (core : Nat) (s : State) : Outcome := eventOpt (trackBegin core) s

/-- A stream of track slots and ring slots: whether the track is read, the ring, the stride. -/
def Instr.streamOf : Instr → Option (Bool × QIdx × Int)
  | .tstream _ _ q _ _ st => some (true, q, st.toInt)
  | .tfill _ _ _ q _ st => some (false, q, st.toInt)
  | _ => none

/-- TRACK_CMD_COMPLETE: a seek moves the head to its end and verifies; a stream has no slot left. -/
def trackComplete (core : Nat) (s : State) : Option State := do
  let o ← (s.coreAt core).trackRunning
  let t ← o.instr.cmdTrack
  match Instr.streamOf o.instr with
  | some _ => if o.args.getD 2 0 = 0 then some (s.endOp o .done false 0) else none
  | none =>
    let en := (o.args.getD 1 0).toNat
    let s := s.moveHead core t.toNat en
    let (s, ok) := portCheck core t.toNat en (some o.th) s
    some (if ok then s.endOp o .done false 0 else trackFault o t.toNat en s)

def execTrackCmdComplete (core : Nat) (s : State) : Outcome := eventOpt (trackComplete core) s

/-- Read n track slots by read-and-step; the state and the words, or the end of the command. -/
def streamRead (o : Op) (core t : Nat) (st : Int) : Nat → List Word → State → Except State (State × List Word)
  | 0, acc, s => .ok (s, acc.reverse)
  | n + 1, acc, s =>
    let h := (s.trackAt core t).head
    match slotRead core t h (some o.th) s with
    | (s, .ok w) => streamRead o core t st n (w :: acc) (s.moveHead core t ((h : Int) + st).toNat)
    | (s, .error (.ue n)) => .error (trackError o n s)
    | (s, .error _) => .error (trackFault o t h s)

/-- Write words by write-and-step. -/
def streamWrite (o : Op) (core t : Nat) (st : Int) : List Word → State → Except State State
  | [], s => .ok s
  | w :: ws, s =>
    let h := (s.trackAt core t).head
    match portCheck core t h (some o.th) s with
    | (s, true) => streamWrite o core t st ws ((s.slotWrite core t h w).moveHead core t ((h : Int) + st).toNat)
    | (s, false) => .error (trackFault o t h s)

/-- One slot of a stream is done: the count falls, and the rest would start at the head (R168). -/
def streamNext (core t : Nat) (o : Op) (s : State) : State :=
  let h := (s.trackAt core t).head
  s.modTe core o fun x => { x with
    args := (x.args.set 0 (BitVec.ofNat 64 h)).set 2 (x.args.getD 2 0 - 1) }

/-- Words of bytes, and the reverse. -/
def wordsOf : Nat → List Byte → List Word
  | 0, _ => []
  | n + 1, bs => BitVec.ofNat 64 (leVal (bs.take 8)) :: wordsOf n (bs.drop 8)

/-- Bytes of the current engine's own SRAM on behalf of an operation. -/
def opSram (o : Op) (key n : Nat) (write : Bool) (s : State) : Except State State :=
  let core := o.th / 4
  let ag := { s.agentOf o.th with core := some core }
  match eccScan ag key n write s with
  | .ok _ s => .ok s
  | .error (.err e) s => .error ((reportError s (pkgOf core) (some core) (some o.th) e).1.endOp o .faulted false e.addr)
  | .error _ s => .ok s

/-- A ring's state is read for a stream; an error that cannot be corrected ends the command (spec/22 R350, R353). -/
def ringRead (o : Op) (q : QIdx) (s : State) : Except State State :=
  match coreScan (o.th / 4) o.th [qErr q.toNat] s with
  | (s, none) => .ok s
  | (s, some e) => .error ((reportError s (pkgOf (o.th / 4)) (some (o.th / 4)) (some o.th) e).1.endOp o .faulted false e.addr)

/-- TSTREAM_SLOT: one ring slot is filled from the track and published, untagged. -/
def tstreamSlot (core : Nat) (s : State) : Option State := do
  let o ← (s.coreAt core).trackRunning
  let t ← o.instr.cmdTrack
  let (rd, q, st) ← Instr.streamOf o.instr
  let r := (s.coreAt core).ring q.toNat
  if !rd ∨ o.args.getD 2 0 = 0 ∨ r.ns ≤ r.fc then none
  else match (ringRead o q s).bind (streamRead o core t.toNat st (8 * r.sb) []) with
    | .error s => some s
    | .ok (s, ws) =>
      let key := sramKey core (r.slotOff r.pp)
      match opSram o key r.slotBytes true s with
      | .error s => some s
      | .ok s =>
        let s := { s with mem := memWrites s.mem key (ws.flatMap fun (w : Word) => leBytes 8 w.toNat) }
        let s := s.modCoreAt core fun c =>
          let r := c.ring q.toNat
          c.setRing q.toNat { r with tags := tdel r.tags r.pp }.publish
        some (streamNext core t.toNat o s)

def execTstreamSlot (core : Nat) (s : State) : Outcome := eventOpt (tstreamSlot core) s

/-- TFILL_SLOT: the ring slot at the consumer pointer is written to the track and freed. -/
def tfillSlot (core : Nat) (s : State) : Option State := do
  let o ← (s.coreAt core).trackRunning
  let t ← o.instr.cmdTrack
  let (rd, q, st) ← Instr.streamOf o.instr
  let r := (s.coreAt core).ring q.toNat
  if rd ∨ o.args.getD 2 0 = 0 ∨ r.fc = 0 then none
  else
    let key := sramKey core (r.slotOff r.cp)
    match (ringRead o q s).bind (opSram o key r.slotBytes false) with
    | .error s => some s
    | .ok s =>
      match streamWrite o core t.toNat st (wordsOf (8 * r.sb) (memReads s.mem key r.slotBytes)) s with
      | .error s => some s
      | .ok s =>
        let s := s.modCoreAt core fun c => c.setRing q.toNat (c.ring q.toNat).release
        some (streamNext core t.toNat o s)

def execTfillSlot (core : Nat) (s : State) : Outcome := eventOpt (tfillSlot core) s

/-! ## Spares (R96) -/

/-- What a slot holds on the replacement: a correctable error is corrected, a slot that cannot be copied
reads zero. -/
def copiedSlot (x : Track) (lost : List Nat) (slot : Nat) : Word :=
  let w := tgetD x.slots slot 0
  if lost.contains slot then 0
  else match tget x.synd slot with
    | none => w
    | some e => match eccRead e with
      | .clean => w ^^^ e.setWidth 64
      | .correct k => w ^^^ (e ^^^ BitVec.ofNat 72 (2 ^ k)).setWidth 64
      | .uncorrectable => 0

/-- TRACK_SPARE_REPLACE: an unclaimed failing track is copied to a spare; `lost` are the slots that
firmware could not copy. -/
def spareReplace (core t : Nat) (lost : List Nat) (s : State) : Option State :=
  let c := s.coreAt core
  let x := c.track t
  if 32 ≤ t ∨ !c.failing t ∨ x.claim ≠ .none ∨ c.spare = 0 then none
  else
    let keys := (x.slots.map (·.1) ++ x.synd.map (·.1)).eraseDups
    let slots := keys.foldl (fun m k => tput m k (copiedSlot x lost k)) []
    some (s.setCoreAt core { (c.setTrack t { slots := slots, head := x.head }) with
      spare := c.spare - 1, fail := c.fail &&& ~~~(BitVec.ofNat 32 (2 ^ t) : BitVec 32) })

def execTrackSpareReplace (core track : Nat) (lost : List Nat) (s : State) : Outcome :=
  eventOpt (spareReplace core track lost) s

end Sys2Proof.Machine
end

