-- ==== Sys2Proof/Machine/Stream.lean ====
section
/-! DEFINITION. Vector registers as an instruction reads and writes them: plain, or bound to a stream,
popped by a read and pushed to by a write; binding and unbinding (spec/08 R121, R140-R142), and the
moves of eight slots between a track and a register (spec/05 R90, R92). -/

namespace Sys2Proof.Machine

/-- The binding of a register; only v24-v31 can have one. -/
def Thread.bind (t : Thread) (v : VIdx) : Option Bind := if 24 ≤ v.toNat then tget t.binds (v.toNat - 24) else none

def Thread.setBind (t : Thread) (v : VIdx) (b : Bind) : Thread := { t with binds := tput t.binds (v.toNat - 24) b }
def Thread.dropBind (t : Thread) (v : VIdx) : Thread := { t with binds := tdel t.binds (v.toNat - 24) }

def updBind (v : VIdx) (b : Bind) : Act Unit := updTh fun t => t.setBind v b

/-- A register takes a tag; its data stay. -/
def Thread.setTag (t : Thread) (v : VIdx) (tag : Option Tag) : Thread :=
  { t with v := tput t.v v.toNat { t.vr v with tag := tag } }

/-- Ring-misuse of a bound ring. -/
def bindMisuse {α : Type} (b : Bind) : Act α := stopTrap (trRing (BitVec.ofNat 64 b.ring))

/-- The part index after one more part of a slot (R141): whether the slot is full. -/
def Bind.nextPart (b : Bind) (r : Ring) : Bind × Bool :=
  if r.slotBytes ≤ 64 * (b.j + 1) then ({ b with j := 0 }, true) else ({ b with j := b.j + 1 }, false)

/-- The head of a bound track once `n` accesses of eight slots have been made, and before the last of them. -/
def boundHead (b : Bind) (n : Nat) : Act (Int × Int) := do
  let t : TIdx := BitVec.ofNat 5 b.track
  waitTrack (some t)
  let s ← get
  let nh : Int := (s.trackAt s.cc b.track).head + n * (8 * b.stride)
  trapIf (decide (nh < 0) || decide (2047 < nh)) (trBounds nh)
  pure (nh - 8 * b.stride, nh)

/-- What a pop or a push of a bound register checks itself: the direction of a ring, the bounds of a track, the path of a
cursor. `n` accesses of the stream are made with it. -/
def boundCheck (b : Bind) (push : Bool) (n : Nat) : Act Unit :=
  match b.kind with
  | 0 => if push then bindMisuse b else pure ()
  | 1 => if push then pure () else bindMisuse b
  | 2 => do let _ ← boundHead b n
  | _ => do
    let s ← get
    match pathCheck s s.lsu (if push then .store else .load) false
        (if n = 1 then b.cursor else addrAdd b.cursor b.cstride.toInt) with
    | .error t => stopTrap t
    | .ok _ => pure ()

/-- The checks of the streams that an instruction pops and pushes; they are its own, and come before whatever may fail as
it executes (spec/16 R272 orders 7 and 8). -/
def streamCheck (rs ws : List VIdx) : Act Unit := do
  let th := (← get).th
  let check (push : Bool) (v : VIdx) : Act Unit := match th.bind v with
    | some b => boundCheck b push (if push && rs.contains v then 2 else 1)
    | none => pure ()
  rs.forM (check false)
  ws.forM (check true)

/-- The value that a pop of a bound register gives, and the move of the stream when the instruction
completes (R141). -/
def popBound (v : VIdx) (b : Bind) : Act (VReg × Commit) := do
  let s ← get
  match b.kind with
  | 0 => do
    let r := s.core.ring b.ring
    if r.fc = 0 then stopWait
    let bs ← cellRead s.lsu (sramKey s.cc (r.slotOff r.cp + 64 * b.j)) 64
    let (b', full) := b.nextPart r
    let tag := tget r.tags r.cp
    pure (⟨BitVec.ofNat 512 (leVal bs), tag⟩, do
      updTh fun t => (t.setTag v tag).setBind v b'
      if full then updCore fun c => c.setRing b.ring (c.ring b.ring).release)
  | 1 => bindMisuse b
  | 2 => do
    let t : TIdx := BitVec.ofNat 5 b.track
    let (h, nh) ← boundHead b 1
    liveTrack t
    let x ← headLoad t h.toNat b.stride
    pure (⟨x, none⟩, headTo t nh.toNat)
  | _ => do
    let bs ← loadBytes s.lsu b.cursor 64
    pure (⟨BitVec.ofNat 512 (leVal bs), none⟩, updBind v { b with cursor := addrAdd b.cursor b.cstride.toInt })

/-- The push of a value to a bound register, checked now and made when the instruction completes;
`popped` says that the instruction pops the register as well. -/
def pushBound (v : VIdx) (b : Bind) (x : VReg) (popped : Bool) : Act Commit := do
  let s ← get
  match b.kind with
  | 0 => bindMisuse b
  | 1 => do
    let r := s.core.ring b.ring
    if b.j = 0 ∧ r.ns ≤ r.fc then stopWait
    let (b', full) := b.nextPart r
    pure do
      cellWrite s.lsu (sramKey s.cc (r.slotOff r.pp + 64 * b.j)) (leBytes 64 x.data.toNat)
      updBind v b'
      updCore fun c =>
        let r := c.ring b.ring
        let tags := if b.j ≠ 0 then r.tags else match x.tag with
          | some t => tput r.tags r.pp t
          | none => tdel r.tags r.pp
        let r := { r with tags := tags }
        c.setRing b.ring (if full then r.publish else r)
  | 2 => do
    let t : TIdx := BitVec.ofNat 5 b.track
    let (h, nh) ← boundHead b (if popped then 2 else 1)
    liveTrack t
    pure do
      headStore t h.toNat b.stride x.data
      headTo t nh.toNat
  | _ => do
    let c := if popped then addrAdd b.cursor b.cstride.toInt else b.cursor
    let p ← resolve s.lsu .store false c 64
    pure do
      placeWrite s.lsu p (leBytes 64 x.data.toNat)
      updBind v { b with cursor := addrAdd c b.cstride.toInt }

/-- Vector registers as one instruction reads them: one pop of each bound register, however often it
is named. -/
structure Reads where
  vals : List (VIdx × VReg) := []
  move : Commit := pure ()

def Reads.get (r : Reads) (v : VIdx) : VReg := ((r.vals.find? fun x => x.1 == v).map (·.2)).getD {}

def popRegs : List VIdx → Act Reads
  | [] => pure {}
  | v :: vs => do
    let r ← popRegs vs
    if r.vals.any fun x => x.1 == v then pure r
    else match (← get).th.bind v with
      | none => pure { r with vals := (v, (← get).th.vr v) :: r.vals }
      | some b => do
        let (x, mv) ← popBound v b
        pure { vals := (v, x) :: r.vals, move := do mv; r.move }

/-- The same, with the checks of what the instruction reads and of what it then writes before them. -/
def readRegs (rs ws : List VIdx) : Act Reads := do
  streamCheck rs ws
  popRegs rs

/-- What an unselected lane of a destination keeps: the register's contents; nothing when it is bound. -/
def State.oldVec (s : State) (v : VIdx) : BitVec 512 := if (s.th.bind v).isSome then 0 else (s.th.vr v).data

/-- A write of a register, checked now and made at completion. `rs` are the registers that it read. -/
def writeReg (v : VIdx) (x : VReg) (rs : List VIdx) : Act Commit := do
  match (← get).th.bind v with
  | none => pure (updTh fun t => t.setV v x)
  | some b => pushBound v b x (rs.contains v)

/-! ## `vtrds`, `vtwrs` (spec/05 R90) -/

def execVtrds (gd : Guard) (d : VIdx) (t : TIdx) (st : BitVec 20) (s : State) : Outcome :=
  issue (.vtrds gd d t st) (do
    let (h, nh) ← accessCheck t (8 * st.toInt) (streamCheck [] [d])
    let v ← headLoad t h st.toInt
    let c ← writeReg d { data := v } []
    c
    headTo t nh
    pure .fall) s

def execVtwrs (gd : Guard) (t : TIdx) (d : VIdx) (st : BitVec 20) (s : State) : Outcome :=
  issue (.vtwrs gd t d st) (do
    let (h, nh) ← accessCheck t (8 * st.toInt) (streamCheck [d] [])
    let r ← popRegs [d]
    headStore t h st.toInt (r.get d).data
    headTo t nh
    r.move
    pure .fall) s

/-! ## Binding (R140, R142) -/

/-- Another register of the thread holds a role on a ring. -/
def Thread.roleHeld (t : Thread) (v : VIdx) (kind ring : Nat) : Bool :=
  t.binds.any fun (m, b) => m + 24 != v.toNat && b.kind == kind && b.ring == ring

/-- Steps 1-3 of R140: the binding to make. -/
def sbindCheck (v : VIdx) (op : BindOp) : Act Bind := do
  let s ← get
  let ring (kind : Nat) (q : QIdx) : Act Bind := do
    trapIf ((s.core.ring q.toNat).ns == 0 || s.th.roleHeld v kind q.toNat) (trRing (q.setWidth 64))
    pure { kind := kind, ring := q.toNat }
  match op with
  | .rc q => ring 0 q
  | .rp q => ring 1 q
  | .th t st => do
    ownTrack t
    pure { kind := 2, track := t.toNat, stride := st.toInt }
  | .sg a b => do
    let base := s.g a
    let stride := s.g b
    trapIf (selector base != 1 && selector base != 2) (trAccess base)
    trapIf (base.toNat % 64 != 0) (trMisaligned base)
    trapIf (stride.toNat % 64 != 0) (trMisaligned stride)
    pure { kind := 3, cursor := base, cstride := stride }

def execSbind (gd : Guard) (v : VIdx) (op : BindOp) (s : State) : Outcome :=
  issue (.sbind gd v op) (do
    let b ← sbindCheck v op
    onThread fun t => (t.setV v {}).setBind v b) s

/-- `sunbind` (R142): whatever the kind, the stream stays where it stands. -/
def unbind (v : VIdx) (t : Thread) : Thread := if (t.bind v).isSome then (t.dropBind v).setV v {} else t

def execSunbind (gd : Guard) (v : VIdx) (s : State) : Outcome := issue (.sunbind gd v) (onThread (unbind v)) s

/-- `vclear` (R133): it waits for every pending `vlda`; no vector register is listed after it. -/
def execVclear (gd : Guard) (s : State) : Outcome :=
  issue (.vclear gd) (do
    if (← get).th.ldq.any fun o => o.ldVec.isSome then stopWait
    else onThread Thread.clearV) s

end Sys2Proof.Machine
end

