-- ==== Sys2Proof/Machine/Vector.lean ====
section
/-! DEFINITION. The vector unit: lane-wise arithmetic, logic, compares, conversions and functions,
reductions, single lanes, permutes, quantising and dequantising (spec/08 R119-R135). Each operation
is a half that takes the effective guard. -/

namespace Sys2Proof.Machine

/-! ## Lanes (spec/07 R106, spec/08 R119) -/

/-- The bits of lane i as they stand. -/
def rawLane (f : Fmt) (v : BitVec 512) (i : Nat) : Nat := v.toNat / 2 ^ (f.width * i) % 2 ^ f.width

/-- The code of element i: the ignored bits of a 6-bit format are not read. -/
def lane (f : Fmt) (v : BitVec 512) (i : Nat) : Nat := v.toNat / 2 ^ (f.width * i) % 2 ^ codeBits f

/-- A register from its lanes; what the format ignores is 0. -/
def ofLanes (f : Fmt) (n : Nat) (g : Nat → Nat) : BitVec 512 :=
  BitVec.ofNat 512 ((List.range n).foldl (fun a i => a + 2 ^ (f.width * i) * g i) 0)

/-- The guard bit that governs element i. -/
def laneBit (f : Fmt) (m : Word) (i : Nat) : Bool :=
  match f with
  | .e2m1 | .ternary => m.getLsbD (i / 2)
  | _ => m.getLsbD i

/-- Every lane of a format is guarded true (R121). -/
def fullMask (f : Fmt) (m : Word) : Bool := lowBits m (guardBits f) == lowBits (BitVec.allOnes 64) (guardBits f)

/-- A register with the selected lanes new and the others as they were. -/
def mergeLanes (f : Fmt) (sel : Nat → Bool) (old : BitVec 512) (new : Nat → Nat) : BitVec 512 :=
  ofLanes f f.lanes fun i => if sel i then new i else rawLane f old i

/-- The generator's numbers for n elements, and its state after them (spec/07 R110). -/
def rngSeq : Nat → BitVec 32 → List Nat × BitVec 32
  | 0, s => ([], s)
  | n + 1, s =>
    let s := rngStep s
    let (l, e) := rngSeq n s
    (rngT s :: l, e)

/-- For each of n elements the number that decides it under SR, and the state after the elements that
are written; no step in another mode. -/
def rngFor (rm : Rm) (n : Nat) (sel : Nat → Bool) (s : BitVec 32) : (Nat → Nat) × BitVec 32 :=
  match rm with
  | .sr =>
    let k := ((List.range n).filter sel).length
    let (l, e) := rngSeq k s
    (fun i => l.getD ((List.range i).filter sel).length 0, e)
  | _ => (fun _ => 0, s)

/-- Set rngs. -/
def setRngs (e : BitVec 32) : Act Unit := updTh fun t => { t with rngs := e }

/-- Record that a ternary 0b10 was read (spec/07 R105). -/
def noteTern (b : Bool) : Act Unit := updCore fun c => c.setTern b

/-- A lane-wise operation: the sources of a lane, and the generator's number, give its new code. -/
def laneHalf (m : Word) (ef : Ef) (d : VIdx) (srcs : List VIdx) (rm : Rm)
    (op : Fmt → Nat → Nat → List Nat → Nat) : Half := do
  let s ← get
  let f := ef.getD s.core.format
  let r ← readRegs srcs [d]
  let sel (i : Nat) : Bool := laneBit f m i
  let (ts, e) := rngFor rm f.lanes sel s.th.rngs
  let new (i : Nat) : Nat := op f (ts i) i (srcs.map fun v => lane f (r.get v).data i)
  let c ← writeReg d { data := mergeLanes f sel (s.oldVec d) new } srcs
  pure do
    setRngs e
    r.move
    c

/-! ## Arithmetic (R125, R126) -/

/-- An exact integer as a lane: wrapped, or clamped with `.sat`. -/
def intLane (f : Fmt) (sat : Bool) (x : Int) : Nat := icode f.width (if sat then clampS f.width x else x)

/-- A lane from the exact integer and the exact real result. -/
def arith (f : Fmt) (rm : Rm) (sat : Bool) (t : Nat) (i : Int → Int → Int) (r : Num → Num → Num)
    (x y : Nat) : Nat :=
  if f.isI then intLane f sat (i (sval f.width x) (sval f.width y))
  else roundF f rm sat t (r (floatVal f x) (floatVal f y))

/-- A sum's zero is -0 under RDN (R125). -/
def isRdn (rm : Rm) : Bool := match rm with | .rdn => true | _ => false

/-- A lane-wise operation of two sources. -/
def laneHalf2 (m : Word) (ef : Ef) (d a b : VIdx) (rm : Rm) (op : Fmt → Nat → Nat → Nat → Nat) : Half :=
  laneHalf m ef d [a, b] rm fun f t _ xs => op f t (xs.getD 0 0) (xs.getD 1 0)
def laneHalf1 (m : Word) (ef : Ef) (d a : VIdx) (rm : Rm) (op : Fmt → Nat → Nat → Nat) : Half :=
  laneHalf m ef d [a] rm fun f t _ xs => op f t (xs.getD 0 0)

def vaddHalf (m : Word) (ef : Ef) (d a b : VIdx) (rm : Rm) (sat : Bool) : Half :=
  laneHalf2 m ef d a b rm fun f t => arith f rm sat t (· + ·) fun x y => sumNums (isRdn rm) [x, y]
def vsubHalf (m : Word) (ef : Ef) (d a b : VIdx) (rm : Rm) (sat : Bool) : Half :=
  laneHalf2 m ef d a b rm fun f t => arith f rm sat t (· - ·) fun x y => sumNums (isRdn rm) [x, y.neg]
def vmulHalf (m : Word) (ef : Ef) (d a b : VIdx) (rm : Rm) (sat : Bool) : Half :=
  laneHalf2 m ef d a b rm fun f t => arith f rm sat t (· * ·) Num.mul
def vfmaHalf (m : Word) (ef : Ef) (d a b c : VIdx) (rm : Rm) (sat : Bool) : Half :=
  laneHalf m ef d [a, b, c] rm fun f t _ xs =>
    let x (k : Nat) : Num := floatVal f (xs.getD k 0)
    roundF f rm sat t (sumNums (isRdn rm) [(x 0).mul (x 1), x 2])

/-- The smaller or the larger (R126). -/
def pickNum (lt : Bool) (f : Fmt) (x y : Nat) : Nat :=
  if f.isI then
    (if (sval f.width x < sval f.width y) = lt then x else y)
  else
    let p := floatVal f x
    let q := floatVal f y
    if p.isNan || q.isNan then nanCode f else if p.below q == lt then x else y

def vminHalf (m : Word) (ef : Ef) (d a b : VIdx) : Half := laneHalf2 m ef d a b .rne fun f _ => pickNum true f
def vmaxHalf (m : Word) (ef : Ef) (d a b : VIdx) : Half := laneHalf2 m ef d a b .rne fun f _ => pickNum false f

/-- `vabs`, `vneg`: exact in class F (R126). -/
def signLane (i : Int → Int) (r : Num → Num) (f : Fmt) (sat : Bool) (x : Nat) : Nat :=
  if f.isI then intLane f sat (i (sval f.width x)) else roundF f .rne false 0 (r (floatVal f x))
def vabsHalf (m : Word) (ef : Ef) (d a : VIdx) (sat : Bool) : Half :=
  laneHalf1 m ef d a .rne fun f _ => signLane (fun x => (x.natAbs : Int)) Num.abs f sat
def vnegHalf (m : Word) (ef : Ef) (d a : VIdx) (sat : Bool) : Half :=
  laneHalf1 m ef d a .rne fun f _ => signLane (fun x => -x) Num.neg f sat

/-! ## Bits, shifts, selects, moves (R127) -/

def vandHalf (m : Word) (ef : Ef) (d a b : VIdx) : Half := laneHalf2 m ef d a b .rne fun _ _ => Nat.land
def vorHalf (m : Word) (ef : Ef) (d a b : VIdx) : Half := laneHalf2 m ef d a b .rne fun _ _ => Nat.lor
def vxorHalf (m : Word) (ef : Ef) (d a b : VIdx) : Half := laneHalf2 m ef d a b .rne fun _ _ => Nat.xor
def vshlHalf (m : Word) (ef : Ef) (d a b : VIdx) : Half :=
  laneHalf2 m ef d a b .rne fun f _ x y => x * 2 ^ (y % f.width) % 2 ^ f.width
def vshrHalf (m : Word) (ef : Ef) (d a b : VIdx) : Half :=
  laneHalf2 m ef d a b .rne fun f _ x y => x / 2 ^ (y % f.width)
def vsraHalf (m : Word) (ef : Ef) (d a b : VIdx) : Half :=
  laneHalf2 m ef d a b .rne fun f _ x y => icode f.width (sval f.width x / 2 ^ (y % f.width))
def vselHalf (m : Word) (ef : Ef) (d : VIdx) (pc : PIdx) (a b : VIdx) : Half := do
  let p := (← get).p pc
  laneHalf m ef d [a, b] .rne fun f _ i xs => xs.getD (if laneBit f p i then 0 else 1) 0

/-- `vmov`: the tag goes with the data when every lane is guarded true (R121). -/
def vmovHalf (m : Word) (ef : Ef) (d a : VIdx) : Half := do
  let s ← get
  let f := ef.getD s.core.format
  let r ← readRegs [a] [d]
  let x := r.get a
  let v : VReg := ⟨mergeLanes f (laneBit f m) (s.oldVec d) (lane f x.data), if fullMask f m then x.tag else none⟩
  let c ← writeReg d v [a]
  pure do
    r.move
    c

/-! ## Compares (R128) -/

def vcondVal (c : VCond) (f : Fmt) (x y : Nat) : Bool :=
  let p := if f.isI then intNum (sval f.width x) else floatVal f x
  let q := if f.isI then intNum (sval f.width y) else floatVal f y
  match c with
  | .eq => p.eq q
  | .ne => !(p.eq q)
  | .lt => p.lt q
  | .le => p.lt q || p.eq q
  | .ltu => decide (x < y)
  | .leu => decide (x ≤ y)
  | .uo => p.isNan || q.isNan

/-- A mask word from its bits. -/
def bitsOf (n : Nat) (g : Nat → Bool) : Word :=
  BitVec.ofNat 64 ((List.range n).foldl (fun a i => a + 2 ^ i * (g i).toNat) 0)

def vcmpHalf (m : Word) (c : VCond) (ef : Ef) (pt pf : PIdx) (a b : VIdx) : Half := do
  let s ← get
  let f := ef.getD s.core.format
  let r ← readRegs [a, b] []
  let o := bitsOf f.lanes fun i => vcondVal c f (lane f (r.get a).data i) (lane f (r.get b).data i)
  pure do
    updTh (setLanes pt pf o (lowBits m f.lanes))
    r.move

/-! ## Conversions and functions (R129, R130) -/

def vcvtHalf (m : Word) (dst src : Ef) (d a : VIdx) (part : BitVec 4) (rm : Rm) (sat : Bool) : Half := do
  let s ← get
  let fd := dst.getD s.core.format
  let fs := src.getD s.core.format
  let r ← readRegs [a] [d]
  let up := decide (fs.lanes ≤ fd.lanes)
  let off := part.toNat * (if up then fs.lanes else fd.lanes)
  let sel (i : Nat) : Bool := laneBit fd m i && (!up || (decide (off ≤ i) && decide (i < off + fs.lanes)))
  let from_ (i : Nat) : Nat := lane fs (r.get a).data (if up then i - off else off + i)
  let (ts, e) := rngFor rm fd.lanes sel s.th.rngs
  let tern := (fs == .ternary) && (List.range fd.lanes).any fun i => sel i && from_ i == 2
  let c ← writeReg d { data := mergeLanes fd sel (s.oldVec d) fun i => convert fd fs rm sat (ts i) (from_ i) } [a]
  pure do
    noteTern tern
    setRngs e
    r.move
    c

/-- A function of one value, rounded once. -/
def funHalf (m : Word) (ef : Ef) (d a : VIdx) (rm : Rm) (sat : Bool) (g : Num → Num) : Half :=
  laneHalf1 m ef d a rm fun f t x => roundF f rm sat t (g (floatVal f x))
def vrcpHalf (m : Word) (ef : Ef) (d a : VIdx) (rm : Rm) (sat : Bool) : Half := funHalf m ef d a rm sat rcpNum
def vrsqrtHalf (m : Word) (ef : Ef) (d a : VIdx) (rm : Rm) (sat : Bool) : Half := funHalf m ef d a rm sat rsqrtNum
def vlog2Half (m : Word) (ef : Ef) (d a : VIdx) (rm : Rm) (sat : Bool) : Half := funHalf m ef d a rm sat log2Num
def vexp2Half (m : Word) (ef : Ef) (d a : VIdx) : Half :=
  laneHalf1 m ef d a .rne fun f _ x => roundF f .rne false 0 (f32 (exp2F (floatVal f x)))

/-! ## Reductions and single lanes (R131) -/

/-- A reduction of the selected lanes into lane 0, the others 0; the generator steps for each lane written (R125). -/
def redHalf (m : Word) (ef : Ef) (d a : VIdx) (rm : Rm) (g : Fmt → Nat → List Nat → Nat) : Half := do
  let s ← get
  let f := ef.getD s.core.format
  let r ← readRegs [a] [d]
  let xs := ((List.range f.lanes).filter (laneBit f m)).map (lane f (r.get a).data)
  let (ts, e) := rngFor rm f.lanes (fun _ => true) s.th.rngs
  let c ← writeReg d { data := BitVec.ofNat 512 (g f (ts 0) xs) } [a]
  pure do
    setRngs e
    r.move
    c

/-- `vredsum`: an exact zero is that of R115 (spec/07). -/
def vredsumHalf (m : Word) (ef : Ef) (d a : VIdx) (rm : Rm) (sat : Bool) : Half :=
  redHalf m ef d a rm fun f t xs =>
    if f.isI then intLane f sat (xs.foldl (fun s x => s + sval f.width x) 0)
    else roundF f rm sat t (sumNums false (xs.map (floatVal f)))
def vredmaxHalf (m : Word) (ef : Ef) (d a : VIdx) : Half :=
  redHalf m ef d a .rne fun f _ xs =>
    match xs with
    | [] => 0
    | x :: xs => xs.foldl (pickNum false f) (pickNum false f x x)

def vbcastHalf (m : Word) (ef : Ef) (d : VIdx) (a : GReg) : Half := do
  let g := (← get).g a
  laneHalf m ef d [] .rne fun f _ _ _ => g.toNat % 2 ^ codeBits f

def vextHalf (ef : Ef) (d : GReg) (a : VIdx) (idx : BitVec 6) : Half := do
  let s ← get
  let f := ef.getD s.core.format
  let r ← readRegs [a] []
  let x := lane f (r.get a).data idx.toNat
  let w : Word := if f.isI then BitVec.ofInt 64 (sval f.width x) else BitVec.ofNat 64 x
  pure do
    updTh fun t => t.setG d w
    r.move

def vinsHalf (ef : Ef) (d : VIdx) (a : GReg) (idx : BitVec 6) : Half := do
  let s ← get
  let f := ef.getD s.core.format
  writeReg d { data := mergeLanes f (· == idx.toNat) (s.oldVec d) fun _ => (s.g a).toNat % 2 ^ codeBits f } []

/-! ## Permutes and packs (R132) -/

/-- A lane-wise write from whole registers. -/
def wholeHalf (m : Word) (ef : Ef) (d : VIdx) (srcs : List VIdx)
    (op : Fmt → (VIdx → BitVec 512) → Nat → Nat) : Half := do
  let s ← get
  let f := ef.getD s.core.format
  let r ← readRegs srcs [d]
  let c ← writeReg d { data := mergeLanes f (laneBit f m) (s.oldVec d) (op f fun v => (r.get v).data) } srcs
  pure do
    r.move
    c

def vpermHalf (m : Word) (ef : Ef) (d a b : VIdx) : Half :=
  wholeHalf m ef d [a, b] fun f v i => lane f (v a) (rawLane f (v b) i % f.lanes)
def vshufHalf (m : Word) (ef : Ef) (d a b c : VIdx) : Half :=
  wholeHalf m ef d [a, b, c] fun f v i =>
    let j := rawLane f (v c) i % (2 * f.lanes)
    if j < f.lanes then lane f (v a) j else lane f (v b) (j - f.lanes)

/-- The integer format twice as wide, and half as wide. -/
def Fmt.wider : Fmt → Fmt
  | .int8 => .int16 | .int16 => .int32 | _ => .int64
def Fmt.narrower : Fmt → Fmt
  | .int64 => .int32 | .int32 => .int16 | _ => .int8

def vpackHalf (m : Word) (ef : Ef) (d a b : VIdx) (sat : Bool) : Half :=
  wholeHalf m ef d [a, b] fun f v i =>
    let h := f.lanes / 2
    let w := Fmt.wider f
    let x := if i < h then lane w (v a) i else lane w (v b) (i - h)
    intLane f sat (sval w.width x)
def vunpackHalf (m : Word) (ef : Ef) (d a : VIdx) (h u : Bool) : Half :=
  wholeHalf m ef d [a] fun f v i =>
    let n := Fmt.narrower f
    let x := lane n (v a) (h.toNat * f.lanes + i)
    if u then x else icode f.width (sval n.width x)

/-! ## Quantise and dequantise (R134, R135) -/

/-- The 32 source values: lanes 0-31, or lanes 0-15 of two FP32 registers. -/
def blockSources (f : Fmt) (a : VIdx) : List VIdx := match f with | .fp32 => [a, a + 1] | _ => [a]

def Core.setK (c : Core) (k : KIdx) (v : BitVec 256) : Core := c.putK k.toNat 0 32 v
/-- Entry e of k register n (spec/18 R284). -/
def Core.kEntry (c : Core) (k : KIdx) (e : Nat) : Nat := (c.k k.toNat).toNat / 2 ^ (8 * e) % 256
def setEntry (v : BitVec 256) (e : Nat) (x : Nat) : BitVec 256 :=
  BitVec.ofNat 256 (v.toNat - v.toNat / 2 ^ (8 * e) % 256 * 2 ^ (8 * e) + x % 256 * 2 ^ (8 * e))
/-- Advance a generation (R285). -/
def Core.bumpK (c : Core) (k : KIdx) : Core := { c with kgen := tput c.kgen k.toNat (c.kg k.toNat + 1) }

def vquantHalf (dst src : Ef) (d a : VIdx) (k : KIdx) (o : BitVec 3) (part : BitVec 2) (rm : Rm) : Half := do
  let s ← get
  let fd := dst.getD s.core.format
  let fs := src.getD s.core.format
  let srcs := blockSources fs a
  let r ← readRegs srcs [d]
  let xs := (List.range 32).map fun j => floatVal fs (lane fs (r.get (srcs.getD (j / fs.lanes) a)).data (j % fs.lanes))
  let (ts, e) := rngFor rm 32 (fun _ => true) s.th.rngs
  let (x, cs) := quantBlock fd rm ((List.range 32).map ts) xs
  let lo := 32 * part.toNat
  let inBlock (i : Nat) : Bool := decide (lo ≤ i) && decide (i < lo + 32)
  let data := mergeLanes fd inBlock (s.oldVec d) fun i => cs.getD (i - lo) 0
  let c1 := (s.core.setK k (setEntry (s.core.k k.toNat) (4 * o.toNat + part.toNat) x)).bumpK k
  let c ← writeReg d ⟨data, some ⟨k, c1.kg k.toNat, o⟩⟩ srcs
  pure do
    updCore fun c => { c with kents := c1.kents, kgen := c1.kgen }
    setRngs e
    r.move
    c

/-- The stale-binding trap of a register (spec/18 R288). -/
def staleTrap (c : Core) (t : Option Tag) : Option Trap :=
  let bits := (t.map Tag.bits).getD 0
  let k := (t.map fun t => t.k.toNat).getD 0
  if t.isSome ∧ (t.map fun t => t.gen) = some (c.kg k) then none
  else some (trStale (BitVec.ofNat 64 (bits + 2 ^ 16 * (c.kg k).toNat)))

/-- `vdeq` (spec/08 R135): an E5M2 infinity stays infinite under every scale, also with `.sat` (log entry 94). -/
def vdeqHalf (dst src : Ef) (d a : VIdx) (part : BitVec 2) (rm : Rm) (sat : Bool) : Half := do
  let s ← get
  let fd := dst.getD s.core.format
  let fs := src.getD s.core.format
  let n := min 32 fd.lanes
  let r ← readRegs [a] (if n = 32 then [d] else [d, d + 1])
  let v := r.get a
  match staleTrap s.core v.tag, v.tag with
  | none, some t => do
    let x := s.core.kEntry t.k (4 * t.o.toNat + part.toNat)
    let cs := (List.range 32).map fun j => lane fs v.data (32 * part.toNat + j)
    let tern := (fs == .ternary) && cs.contains 2
    let (ts, e) := rngFor rm 32 (fun _ => true) s.th.rngs
    let out (j : Nat) : Nat := roundF fd rm sat (ts j) (scaledVal fs x (cs.getD j 0))
    let c0 ← writeReg d { data := ofLanes fd n out } [a]
    let c1 ← if n = 32 then pure (pure ()) else writeReg (d + 1) { data := ofLanes fd n fun i => out (n + i) } [a]
    pure do
      noteTern tern
      setRngs e
      r.move
      c0
      c1
  | some tr, _ => stopTrap tr
  | none, none => stopTrap (trStale 0)

/-! ## The instructions -/

/-- An instruction that is a vector half by itself, with its effective guard. -/
def vecAlone (i : Instr) (h : Word → Half) (s : State) : Outcome := issue i (alone (h (s.mask i))) s

def execVadd (gd : Guard) (ef : Ef) (d a b : VIdx) (rm : Rm) (sat : Bool) (s : State) : Outcome :=
  vecAlone (.vadd gd ef d a b rm sat) (fun m => vaddHalf m ef d a b rm sat) s
def execVsub (gd : Guard) (ef : Ef) (d a b : VIdx) (rm : Rm) (sat : Bool) (s : State) : Outcome :=
  vecAlone (.vsub gd ef d a b rm sat) (fun m => vsubHalf m ef d a b rm sat) s
def execVmul (gd : Guard) (ef : Ef) (d a b : VIdx) (rm : Rm) (sat : Bool) (s : State) : Outcome :=
  vecAlone (.vmul gd ef d a b rm sat) (fun m => vmulHalf m ef d a b rm sat) s
def execVfma (gd : Guard) (ef : Ef) (d a b c : VIdx) (rm : Rm) (sat : Bool) (s : State) : Outcome :=
  vecAlone (.vfma gd ef d a b c rm sat) (fun m => vfmaHalf m ef d a b c rm sat) s
def execVmin (gd : Guard) (ef : Ef) (d a b : VIdx) (s : State) : Outcome :=
  vecAlone (.vmin gd ef d a b) (fun m => vminHalf m ef d a b) s
def execVmax (gd : Guard) (ef : Ef) (d a b : VIdx) (s : State) : Outcome :=
  vecAlone (.vmax gd ef d a b) (fun m => vmaxHalf m ef d a b) s
def execVabs (gd : Guard) (ef : Ef) (d a : VIdx) (sat : Bool) (s : State) : Outcome :=
  vecAlone (.vabs gd ef d a sat) (fun m => vabsHalf m ef d a sat) s
def execVneg (gd : Guard) (ef : Ef) (d a : VIdx) (sat : Bool) (s : State) : Outcome :=
  vecAlone (.vneg gd ef d a sat) (fun m => vnegHalf m ef d a sat) s
def execVand (gd : Guard) (ef : Ef) (d a b : VIdx) (s : State) : Outcome :=
  vecAlone (.vand gd ef d a b) (fun m => vandHalf m ef d a b) s
def execVor (gd : Guard) (ef : Ef) (d a b : VIdx) (s : State) : Outcome :=
  vecAlone (.vor gd ef d a b) (fun m => vorHalf m ef d a b) s
def execVxor (gd : Guard) (ef : Ef) (d a b : VIdx) (s : State) : Outcome :=
  vecAlone (.vxor gd ef d a b) (fun m => vxorHalf m ef d a b) s
def execVshl (gd : Guard) (ef : Ef) (d a b : VIdx) (s : State) : Outcome :=
  vecAlone (.vshl gd ef d a b) (fun m => vshlHalf m ef d a b) s
def execVshr (gd : Guard) (ef : Ef) (d a b : VIdx) (s : State) : Outcome :=
  vecAlone (.vshr gd ef d a b) (fun m => vshrHalf m ef d a b) s
def execVsra (gd : Guard) (ef : Ef) (d a b : VIdx) (s : State) : Outcome :=
  vecAlone (.vsra gd ef d a b) (fun m => vsraHalf m ef d a b) s
def execVsel (gd : Guard) (ef : Ef) (d : VIdx) (pc : PIdx) (a b : VIdx) (s : State) : Outcome :=
  vecAlone (.vsel gd ef d pc a b) (fun m => vselHalf m ef d pc a b) s
def execVmov (gd : Guard) (ef : Ef) (d a : VIdx) (s : State) : Outcome :=
  vecAlone (.vmov gd ef d a) (fun m => vmovHalf m ef d a) s
def execVcmp (gd : Guard) (c : VCond) (ef : Ef) (pt pf : PIdx) (a b : VIdx) (s : State) : Outcome :=
  vecAlone (.vcmp gd c ef pt pf a b) (fun m => vcmpHalf m c ef pt pf a b) s
def execVcvt (gd : Guard) (dst src : Ef) (d a : VIdx) (part : BitVec 4) (rm : Rm) (sat : Bool) (s : State) :
    Outcome :=
  vecAlone (.vcvt gd dst src d a part rm sat) (fun m => vcvtHalf m dst src d a part rm sat) s
def execVrcp (gd : Guard) (ef : Ef) (d a : VIdx) (rm : Rm) (sat : Bool) (s : State) : Outcome :=
  vecAlone (.vrcp gd ef d a rm sat) (fun m => vrcpHalf m ef d a rm sat) s
def execVrsqrt (gd : Guard) (ef : Ef) (d a : VIdx) (rm : Rm) (sat : Bool) (s : State) : Outcome :=
  vecAlone (.vrsqrt gd ef d a rm sat) (fun m => vrsqrtHalf m ef d a rm sat) s
def execVexp2 (gd : Guard) (ef : Ef) (d a : VIdx) (s : State) : Outcome :=
  vecAlone (.vexp2 gd ef d a) (fun m => vexp2Half m ef d a) s
def execVlog2 (gd : Guard) (ef : Ef) (d a : VIdx) (rm : Rm) (sat : Bool) (s : State) : Outcome :=
  vecAlone (.vlog2 gd ef d a rm sat) (fun m => vlog2Half m ef d a rm sat) s
def execVredsum (gd : Guard) (ef : Ef) (d a : VIdx) (rm : Rm) (sat : Bool) (s : State) : Outcome :=
  vecAlone (.vredsum gd ef d a rm sat) (fun m => vredsumHalf m ef d a rm sat) s
def execVredmax (gd : Guard) (ef : Ef) (d a : VIdx) (s : State) : Outcome :=
  vecAlone (.vredmax gd ef d a) (fun m => vredmaxHalf m ef d a) s
def execVbcast (gd : Guard) (ef : Ef) (d : VIdx) (a : GReg) (s : State) : Outcome :=
  vecAlone (.vbcast gd ef d a) (fun m => vbcastHalf m ef d a) s
def execVext (gd : Guard) (ef : Ef) (d : GReg) (a : VIdx) (idx : BitVec 6) (s : State) : Outcome :=
  vecAlone (.vext gd ef d a idx) (fun _ => vextHalf ef d a idx) s
def execVins (gd : Guard) (ef : Ef) (d : VIdx) (a : GReg) (idx : BitVec 6) (s : State) : Outcome :=
  vecAlone (.vins gd ef d a idx) (fun _ => vinsHalf ef d a idx) s
def execVperm (gd : Guard) (ef : Ef) (d a b : VIdx) (s : State) : Outcome :=
  vecAlone (.vperm gd ef d a b) (fun m => vpermHalf m ef d a b) s
def execVshuf (gd : Guard) (ef : Ef) (d a b c : VIdx) (s : State) : Outcome :=
  vecAlone (.vshuf gd ef d a b c) (fun m => vshufHalf m ef d a b c) s
def execVpack (gd : Guard) (ef : Ef) (d a b : VIdx) (sat : Bool) (s : State) : Outcome :=
  vecAlone (.vpack gd ef d a b sat) (fun m => vpackHalf m ef d a b sat) s
def execVunpack (gd : Guard) (ef : Ef) (d a : VIdx) (h u : Bool) (s : State) : Outcome :=
  vecAlone (.vunpack gd ef d a h u) (fun m => vunpackHalf m ef d a h u) s
def execVquant (gd : Guard) (dst src : Ef) (d a : VIdx) (k : KIdx) (o : BitVec 3) (part : BitVec 2) (rm : Rm)
    (s : State) : Outcome :=
  vecAlone (.vquant gd dst src d a k o part rm) (fun _ => vquantHalf dst src d a k o part rm) s
def execVdeq (gd : Guard) (dst src : Ef) (d a : VIdx) (part : BitVec 2) (rm : Rm) (sat : Bool) (s : State) :
    Outcome :=
  vecAlone (.vdeq gd dst src d a part rm sat) (fun _ => vdeqHalf dst src d a part rm sat) s

end Sys2Proof.Machine
end

