-- ==== Sys2Proof/Machine/VecMem.lean ====
section
/-! DEFINITION. Vector memory: `vld`, `vst`, the issue and the arrival of `vlda`, the split load
`vld.mx`, gathers and scatters (spec/08 R136-R139). -/

namespace Sys2Proof.Machine

/-! ## Lanes in memory (R136) -/

/-- Bytes of a lane in memory; the 8-bit, 6-bit, E2M1 and ternary formats count as one. -/
def Fmt.laneBytes (f : Fmt) : Nat := max 1 (f.width / 8)

/-- Bytes that the elements of a register occupy; 32 in ternary also where a launch left that format (log entry 85). -/
def Fmt.vecBytes (f : Fmt) : Nat := match f with | .ternary => 32 | _ => 64

/-- Memory units of a register, and whether a guard mask selects one. -/
def Fmt.memUnits (f : Fmt) : Nat := Fmt.vecBytes f / Fmt.laneBytes f
def unitLive (f : Fmt) (m : Word) (u : Nat) : Bool :=
  match f with
  | .ternary => m.getLsbD (2 * u) || m.getLsbD (2 * u + 1)
  | _ => m.getLsbD u

/-- The selected units of an access. -/
def liveUnits (f : Fmt) (m : Word) : List Nat := (List.range (Fmt.memUnits f)).filter (unitLive f m)

/-- The paths of some accesses of n bytes, without a translation. -/
def checkPaths (ag : Agent) (acc : Acc) (n : Nat) (eas : List Word) : Act Unit := do
  let s ← get
  eas.forM fun ea =>
    match pathCheck s ag acc false ea with
    | .error t => stopTrap t
    | .ok (.frame o) => trapIf (frameRefused (s.threadAt ag.th) o n (acc != .load)) (trAccess ea)
    | .ok _ => pure ()

/-- A place is reached and its code words are verified, before a store that changes nothing when it
cannot be made whole. -/
def touch (ag : Agent) (n : Nat) (p : Place) : Act Unit :=
  match p with
  | .slot .. => do
    let _ ← placeRead ag p n
    pure ()
  | _ => pure ()

/-- The places of some accesses: every path, then every translation, before anything is moved. -/
def resolveAll (ag : Agent) (acc : Acc) (n : Nat) (eas : List Word) : Act (List Place) := do
  checkPaths ag acc n eas
  let ps ← eas.mapM fun ea => resolve ag acc false ea n
  ps.forM (touch ag n)
  pure ps

/-- The value of a register whose given lanes hold given bytes, the other lanes 0. -/
def packUnits (n : Nat) (l : List (Nat × List Byte)) : BitVec 512 :=
  BitVec.ofNat 512 (l.foldl (fun a (u, bs) => a + 2 ^ (8 * n * u) * leVal bs) 0)

/-- The bytes of a unit of a register. -/
def unitBytes (n : Nat) (v : BitVec 512) (u : Nat) : List Byte := leBytes n (v.toNat / 2 ^ (8 * n * u))

/-- The effective address of an M-format access (spec/10 R150). -/
def State.ea (s : State) (a : GReg) (off : Int) : Word := addrAdd (s.g a) off

/-- The addresses of the selected units of an access at an address. -/
def laneEas (f : Fmt) (m : Word) (ea : Word) : List Word :=
  (liveUnits f m).map fun (u : Nat) => addrAdd ea ((u : Int) * Fmt.laneBytes f)

/-- The places of the selected units of an access at an address. -/
def lanePlaces (ag : Agent) (f : Fmt) (m : Word) (ea : Word) : Act (List Place) :=
  resolveAll ag .load (Fmt.laneBytes f) (laneEas f m ea)

/-- The selected units of a register read from their places: the register's new data. The bits that a format ignores
are written 0 (spec/07 R106), also of a format that only a launch can leave in fmt (log entry 85). -/
def readLanesAt (ag : Agent) (f : Fmt) (m : Word) (ps : List Place) (old : BitVec 512) : Act (BitVec 512) := do
  let n := Fmt.laneBytes f
  let bs ← ps.mapM fun p => placeRead ag p n
  let x := packUnits n (List.zip (liveUnits f m) bs)
  pure (mergeLanes f (laneBit f m) old (lane f x))

/-- The same from an address. -/
def loadLanes (ag : Agent) (f : Fmt) (m : Word) (ea : Word) (old : BitVec 512) : Act (BitVec 512) := do
  readLanesAt ag f m (← lanePlaces ag f m ea) old

def vldHalf (m : Word) (d : VIdx) (a : GReg) (off : BitVec 20) : Half := do
  let s ← get
  let f := s.core.format
  let ea := s.ea a off.toInt
  trapIf (ea.toNat % Fmt.laneBytes f != 0) (trMisaligned ea)
  checkPaths s.lsu .load (Fmt.laneBytes f) (laneEas f m ea)
  streamCheck [] [d]
  let x ← loadLanes s.lsu f m ea (s.oldVec d)
  writeReg d { data := x } []

/-- The bytes of one unit of a store: of a lane, with what its format ignores 0 (spec/07 R106; log entry 85), or of a byte
of ternary codes, half of which may be kept. -/
def storeUnit (ag : Agent) (f : Fmt) (m : Word) (v : BitVec 512) (u : Nat) (p : Place) : Act (List Byte) := do
  match f with
  | .ternary =>
    if m.getLsbD (2 * u) && m.getLsbD (2 * u + 1) then pure (unitBytes 1 v u)
    else do
      let old := leVal (← placeRead ag p 1)
      let new := leVal (unitBytes 1 v u)
      pure (leBytes 1 (if m.getLsbD (2 * u) then new % 16 + old / 16 * 16 else old % 16 + new / 16 * 16))
  | .e2m3 | .e3m2 => pure (leBytes 1 (lane f v u))
  | _ => pure (unitBytes (Fmt.laneBytes f) v u)

def vstHalf (m : Word) (d : VIdx) (a : GReg) (off : BitVec 20) : Half := do
  let s ← get
  let f := s.core.format
  let ea := s.ea a off.toInt
  let n := Fmt.laneBytes f
  trapIf (ea.toNat % n != 0) (trMisaligned ea)
  let us := liveUnits f m
  let eas := laneEas f m ea
  checkPaths s.lsu .store n eas
  let r ← readRegs [d] []
  let ps ← resolveAll s.lsu .store n eas
  pure do
    let bs ← (List.zip us ps).mapM fun (u, p) => storeUnit s.lsu f m (r.get d).data u p
    placesWrite s.lsu (List.zip ps bs)
    r.move

def execVld (gd : Guard) (d : VIdx) (a : GReg) (off : BitVec 20) (acq : Bool) (s : State) : Outcome :=
  vecAlone (.vld gd d a off acq) (fun m => vldHalf m d a off) s
def execVst (gd : Guard) (d : VIdx) (a : GReg) (off : BitVec 20) (rel : Bool) (s : State) : Outcome :=
  vecAlone (.vst gd d a off rel) (fun m => vstHalf m d a off) s

/-! ## The asynchronous load (R137) -/

/-- The issue of an asynchronous vector load: its guard, its format and, on path 0x5, its resolved address
are fixed here (spec/14 R228). -/
def execVlda (gd : Guard) (fd : FIdx) (d : VIdx) (a : GReg) (off : BitVec 20) (s : State) : Outcome :=
  let i := Instr.vlda gd fd d a off
  issue i (do
    let s ← get
    let f := s.core.format
    let ea := s.ea a off.toInt
    let n := Fmt.laneBytes f
    let us := liveUnits f (s.mask i)
    trapIf (s.th.bind d).isSome (trRing (d.setWidth 64))
    trapIf (ea.toNat % n != 0) (trMisaligned ea)
    checkPaths s.lsu .load n (laneEas f (s.mask i) ea)
    let at_ ← (laneEas f (s.mask i) ea).mapM fun a => copyPath .load a { run := n }
    let ad := addrAdd (at_.headD ea) (-((us.headD 0 : Nat) : Int) * n)
    if 8 ≤ s.th.ldq.length then stopWait
    else onState (enqueueOp .ld i fd fun o => { o with
      args := [ad], mask := s.mask i, served := f.code, frame := selector ea == 5 })) s

/-- The arrival of an asynchronous vector load, from the places found when it started (spec/10 R164). -/
def vldaArrive (ag : Agent) (o : Op) (d : VIdx) : Act Unit := do
  let f := (Fmt.ofCode o.served).getD .fp32
  let old := (((← get).threadAt o.th).vr d).data
  let x ← readLanesAt ag f o.mask (o.places.map (·.1)) old
  modify fun s => s.modThreadAt o.th fun t => t.setV d { data := x }

/-! ## The split load (R138) -/

/-- Bytes that a split load reads of a page format. -/
def mxBytes (e : TlbEnt) : Nat := if e.elem = 14 then 32 else 64

/-- Those of them that a register holds: of ternary codes the first 128 (spec/07 R106; log entry 44). -/
def mxHeld (e : TlbEnt) : Nat := if e.elem = 14 ∨ e.elem = 13 then 32 else 64

/-- The register data that the bytes of a page become: INT4 widened, the ignored bits of the 6-bit formats
cleared, no ternary 0b10 (spec/07 R104-R106). -/
def mxData (e : TlbEnt) (bs : List Byte) : BitVec 512 :=
  let out : List Byte :=
    if e.elem = 14 then bs.flatMap fun b => [(How.nib false).apply b, (How.nib true).apply b]
    else if e.elem = 13 then (bs.take 32).map ternClean
    else if e.elem = 7 ∨ e.elem = 8 then bs.map fun b => b &&& 0x3F
    else bs
  BitVec.ofNat 512 (leVal out)

/-- A scale byte that a load reads is charged like its data. -/
def scaleLoad (ag : Agent) (k : Option Nat) : Act Byte := do
  match k with
  | some k => grant ag k 1
  | none => pure ()
  scaleByte ag k

/-- Scale bytes into entries from e up. -/
def setEntriesFrom (v : BitVec 256) : Nat → List Byte → BitVec 256
  | _, [] => v
  | e, b :: bs => setEntriesFrom (setEntry v e b.toNat) (e + 1) bs

def execVldMx (gd : Guard) (d : VIdx) (k : KIdx) (o : BitVec 3) (a : GReg) (off : BitVec 32) (acq : Bool)
    (s : State) : Outcome :=
  issue (.vldMx gd d k o a off acq) (do
    let s ← get
    let ag := s.lsu
    let ea := s.ea a off.toInt
    trapIf (selector ea != 0 || decide (2 ^ 57 ≤ low60 ea)) (trAccess ea)
    streamCheck [] [d]
    let (key, e) ← translate ag ag.pkg (low60 ea) .load ea
    trapIf (e.geo != 1) (trAccess ea)
    let n := mxBytes e
    trapIf (ea.toNat % n != 0) (trMisaligned ea)
    let bs ← cellRead ag key n
    let ss ← (e.blocks ag.pkg (low60 ea % e.size) (mxHeld e)).mapM fun b => scaleLoad ag b.2.1
    let s ← get
    let c1 := (s.core.setK k (setEntriesFrom (s.core.k k.toNat) (4 * o.toNat) ss)).bumpK k
    let c ← writeReg d ⟨mxData e bs, some ⟨k, c1.kg k.toNat, o⟩⟩ []
    updCore fun c => { c with kents := c1.kents, kgen := c1.kgen }
    noteTern (e.elem == 13 && (bs.take 32).any fun b => ternClean b != b)
    c
    pure .fall) s

/-! ## Gather and scatter (R139) -/

/-- The addresses of the selected lanes, each with its alignment checked. -/
def laneAddrs (f : Fmt) (m : Word) (base : Word) (idx : BitVec 512) (x : Bool) : Act (List (Nat × Word)) := do
  let n := f.width / 8
  let l := ((List.range f.lanes).filter (laneBit f m)).map fun i =>
    (i, addrAdd base (sval f.width (lane f idx i) * (if x then n else 1)))
  l.forM fun e => trapIf (e.2.toNat % n != 0) (trMisaligned e.2)
  pure l

def vldgHalf (m : Word) (ef : Ef) (d : VIdx) (a : GReg) (b : VIdx) (x : Bool) : Half := do
  let s ← get
  let f := ef.getD s.core.format
  let n := f.width / 8
  let r ← readRegs [b] [d]
  let l ← laneAddrs f m (s.g a) (r.get b).data x
  let ps ← resolveAll s.lsu .load n (l.map (·.2))
  let bs ← ps.mapM fun p => placeRead s.lsu p n
  let v := packUnits n (List.zip (l.map (·.1)) bs)
  let c ← writeReg d { data := mergeLanes f (laneBit f m) (s.oldVec d) (rawLane f v) } [b]
  pure do
    r.move
    c

def vstsHalf (m : Word) (ef : Ef) (d : VIdx) (a : GReg) (b : VIdx) (x : Bool) : Half := do
  let s ← get
  let f := ef.getD s.core.format
  let n := f.width / 8
  let r ← readRegs [d, b] []
  let l ← laneAddrs f m (s.g a) (r.get b).data x
  let ps ← resolveAll s.lsu .store n (l.map (·.2))
  pure do
    placesWrite s.lsu ((List.zip (l.map (·.1)) ps).map fun (j, p) => (p, unitBytes n (r.get d).data j))
    r.move

def execVldg (gd : Guard) (ef : Ef) (d : VIdx) (a : GReg) (b : VIdx) (x : Bool) (s : State) : Outcome :=
  vecAlone (.vldg gd ef d a b x) (fun m => vldgHalf m ef d a b x) s
def execVsts (gd : Guard) (ef : Ef) (d : VIdx) (a : GReg) (b : VIdx) (x : Bool) (s : State) : Outcome :=
  vecAlone (.vsts gd ef d a b x) (fun m => vstsHalf m ef d a b x) s

end Sys2Proof.Machine
end

