-- ==== Sys2Proof/Machine/LoadStore.lean ====
section
/-! DEFINITION. Scalar loads and stores, the registers of path 0x9 among them, and the asynchronous loads
(spec/10 R147, R148, R150, spec/11 R165, R173, R175, spec/08 R137). -/

namespace Sys2Proof.Machine

def sizeBytes : Size → Nat
  | .b => 1 | .h => 2 | .w => 4 | .d => 8
def uSizeBytes : USize3 → Nat
  | .b => 1 | .h => 2 | .w => 4

/-- The value that n loaded bytes give a register. -/
def loadValue (n : Nat) (signed : Bool) (bs : List Byte) : Word :=
  if signed then sextN (BitVec.ofNat 64 (leVal bs)) (8 * n) else BitVec.ofNat 64 (leVal bs)

/-- A read of the register at an offset of path 0x9; an access trap where none lies (spec/22 R348). -/
def deviceRead (ag : Agent) (ea : Word) (off : Nat) : Act Word := do
  match regRead ag.pkg off (← get) with
  | none => stopTrap (trAccess ea)
  | some _ => do
    clusterScan ag.pkg ag.core (some ag.th) (regAt off)
    match regRead ag.pkg off (← get) with
    | none => pure 0
    | some (s, w) => do
      set s
      pure w

/-! ## Loads -/

/-- Aligned, on a path that permits it, translated: where an access of n bytes goes (R150). -/
def scalarPlace (acc : Acc) (n : Nat) (ea : Word) : Act Place := do
  let s ← get
  trapIf (ea.toNat % n != 0) (trMisaligned ea)
  resolve s.lsu acc (n == 8) ea n

/-- A load of n bytes (R150): every check and the access, then G(D). -/
def loadHalf (n : Nat) (signed : Bool) (d a : GReg) (off : Int) : Half := do
  let s ← get
  let ea := addrAdd (s.g a) off
  let v ← match ← scalarPlace .load n ea with
    | .reg o => deviceRead s.lsu ea o
    | p => do pure (loadValue n signed (← placeRead s.lsu p n))
  pure (updTh fun t => t.setG d v)

def ldHalf (sz : Size) (d a : GReg) (off : BitVec 20) : Half := loadHalf (sizeBytes sz) true d a off.toInt
def lduHalf (sz : USize3) (d a : GReg) (off : BitVec 20) : Half := loadHalf (uSizeBytes sz) false d a off.toInt

/-! ## Stores -/

/-- The port of a frame track reaches the slot that a store writes, before anything is written. -/
def storeReach (ag : Agent) (p : Place) : Act Unit :=
  match p with
  | .slot core t slot _ => do
    modify fun s => s.moveHead core t slot
    let (s, ok) := portCheck core t slot (some ag.th) (← get)
    set s
    if ok then pure () else stopKeep (trShift (shiftVal t slot))
  | _ => pure ()

/-- A store of n bytes (R150): every check, then the write. -/
def storeHalf (n : Nat) (d a : GReg) (off : Int) : Half := do
  let s ← get
  let ea := addrAdd (s.g a) off
  let v := s.g d
  match ← scalarPlace .store n ea with
  | .reg o => do
    trapIf (!regOccupied s.lsu.pkg o s) (trAccess ea)
    pure (regWrite s.lsu.pkg o v)
  | p => do
    storeReach s.lsu p
    pure (placeWrite s.lsu p (leBytes n v.toNat))

def stHalf (sz : Size) (d a : GReg) (off : BitVec 20) : Half := storeHalf (sizeBytes sz) d a off.toInt

def execLd (gd : Guard) (sz : Size) (d a : GReg) (off : BitVec 20) (acq : Bool) (s : State) : Outcome :=
  issue (.ld gd sz d a off acq) (alone (ldHalf sz d a off)) s
def execLdu (gd : Guard) (sz : USize3) (d a : GReg) (off : BitVec 20) (acq : Bool) (s : State) : Outcome :=
  issue (.ldu gd sz d a off acq) (alone (lduHalf sz d a off)) s
def execSt (gd : Guard) (sz : Size) (d a : GReg) (off : BitVec 20) (rel : Bool) (s : State) : Outcome :=
  issue (.st gd sz d a off rel) (alone (stHalf sz d a off)) s
def execLdM32 (gd : Guard) (sz : Size) (d a : GReg) (off : BitVec 32) (acq : Bool) (s : State) : Outcome :=
  issue (.ldM32 gd sz d a off acq) (alone (loadHalf (sizeBytes sz) true d a off.toInt)) s
def execLduM32 (gd : Guard) (sz : USize3) (d a : GReg) (off : BitVec 32) (acq : Bool) (s : State) : Outcome :=
  issue (.lduM32 gd sz d a off acq) (alone (loadHalf (uSizeBytes sz) false d a off.toInt)) s
def execStM32 (gd : Guard) (sz : Size) (d a : GReg) (off : BitVec 32) (rel : Bool) (s : State) : Outcome :=
  issue (.stM32 gd sz d a off rel) (alone (storeHalf (sizeBytes sz) d a off.toInt)) s

/-! ## Asynchronous loads (spec/11 R175) -/

/-- The issue of an asynchronous load of n bytes: its address, on path 0x5 resolved, and the register that its
name stands for are fixed here. -/
def ldaIssue (i : Instr) (fd : FIdx) (n : Nat) (d a : GReg) (off : Int) : Act Next := do
  let s ← get
  let ea := addrAdd (s.g a) off
  trapIf (ea.toNat % n != 0) (trMisaligned ea)
  let ad ← copyPath .load ea { run := n }
  if 8 ≤ s.th.ldq.length then stopWait
  else onState (enqueueOp .ld i fd fun o => { o with
    args := [ad, BitVec.ofNat 64 (gphys s.th d)], frame := selector ea == 5 })

def execLda (gd : Guard) (sz : Size) (fd : FIdx) (d a : GReg) (off : BitVec 20) (s : State) : Outcome :=
  issue (.lda gd sz fd d a off) (ldaIssue (.lda gd sz fd d a off) fd (sizeBytes sz) d a off.toInt) s
def execLdau (gd : Guard) (sz : USize3) (fd : FIdx) (d a : GReg) (off : BitVec 20) (s : State) : Outcome :=
  issue (.ldau gd sz fd d a off) (ldaIssue (.ldau gd sz fd d a off) fd (uSizeBytes sz) d a off.toInt) s

/-- The load-store unit on behalf of a queued load. -/
def loadAgent (s : State) (o : Op) : Agent :=
  { s.agentOf o.th with unit := 2, pc := o.pc, tln := o.num, waiter := .op o.th .ld o.num }

/-- The places of the bytes of a queued load, each lane translated once (spec/10 R164). -/
def loadPlaces (ag : Agent) (o : Op) : Act (List (Place × Nat)) := do
  let a := o.args.getD 0 0
  let one (n : Nat) : Act (List (Place × Nat)) := do pure [(← resolve ag .load false a n, n)]
  match o.instr with
  | .vlda .. =>
    let f := (Fmt.ofCode o.served).getD .fp32
    pure ((← lanePlaces ag f o.mask a).map fun p => (p, Fmt.laneBytes f))
  | .lda _ sz .. => one (sizeBytes sz)
  | .ldau _ sz .. => one (uSizeBytes sz)
  | _ => pure []

/-- ASYNC_LOAD_START: the requests of a queued load leave the unit, once its addresses are translated (R173). -/
def execAsyncLoadStart (core thr n : Nat) (s : State) : Outcome :=
  eventDo (do
    let o ← needSome (s.opAt (4 * core + thr) .ld n)
    need (!o.started && o.wait.isNone)
    opDo o (do
      let l ← loadPlaces (loadAgent s o) o
      modify fun s => s.modOp o fun x => { x with started := true, places := l })) s

/-- The addresses of the lanes of a queued load. -/
def Op.loadEas (o : Op) : List Word :=
  let a := o.args.getD 0 0
  match o.instr with
  | .vlda .. => laneEas ((Fmt.ofCode o.served).getD .fp32) o.mask a
  | _ => [a]

/-- The requests of a queued load to another package, which are sent with its data's arrival (spec/21 R342; log entry
24); one that cannot be sent waits. -/
def loadAsks (ag : Agent) (o : Op) : Act Unit :=
  (List.zip o.loadEas o.places).forM fun x =>
    match x.2.1 with
    | .cell k => do
      let s ← get
      let va := low60 x.1 % 2 ^ 46
      if k / 2 ^ 48 = ag.pkg then pure ()
      else if s.canSend ag.pkg (k / 2 ^ 48) va then
        set ({ s with asking := s.asking ++ [(ag.pkg, k / 2 ^ 48, ⟨0, ag.th, ag.spn, BitVec.ofNat 64 va, .read 0⟩)] } : State)
      else stopWait
    | _ => pure ()

/-- The arrival of a scalar load: the register, unless it is g0. -/
def ldaArrive (ag : Agent) (o : Op) (n : Nat) (signed : Bool) : Act Unit := do
  let bs ← o.places.mapM fun x => placeRead ag x.1 x.2
  match o.ldReg with
  | some r => modify fun s => s.modThreadAt o.th fun t => { t with
      regs := tput t.regs r (loadValue n signed bs.flatten), errs := tdel t.errs (gErr r) }
  | none => pure ()

/-- What a queued load does when its data arrives. -/
def loadArrive (ag : Agent) (o : Op) : Act Unit := do
  loadAsks ag o
  match o.instr with
  | .lda _ sz .. => ldaArrive ag o (sizeBytes sz) true
  | .ldau _ sz .. => ldaArrive ag o (uSizeBytes sz) false
  | .vlda _ _ d .. => vldaArrive ag o d
  | _ => pure ()

/-- ASYNC_LOAD_COMPLETE: the data arrives, and the future is done (R175, spec/08 R137). -/
def execAsyncLoadComplete (core thr n : Nat) (s : State) : Outcome :=
  eventDo (do
    let o ← needSome (s.opAt (4 * core + thr) .ld n)
    need (o.started && o.wait.isNone)
    opDo o (whole o.th (do
      loadArrive (loadAgent s o) o
      opDone o))) s

end Sys2Proof.Machine
end

