-- ==== Sys2Proof/Machine/Atomic.lean ====
section
/-! DEFINITION. The atomics and the fixed-point cells (spec/11 R193, R194, spec/07 R116-R118). -/

namespace Sys2Proof.Machine

/-- One indivisible step at an aligned location of n bytes, one request: the old value is read and the new one
written. -/
def atomicAt (n : Nat) (ea : Word) (f : Nat → Nat) : Act Nat := do
  let s ← get
  trapIf (ea.toNat % n != 0) (trMisaligned ea)
  match ← resolve s.lsu .atomic false ea n with
  | .cell k => do
    grant s.lsu k n
    let old := leVal (← cellGet s.lsu k n)
    cellPut s.lsu k (leBytes n (f old))
    pure old
  | p => do
    let old := leVal (← placeRead s.lsu p n)
    placeWrite s.lsu p (leBytes n (f old))
    pure old

/-- Size of an atomic. -/
def amoBytes (dw : Bool) : Nat := if dw then 8 else 4

/-- The operand of an atomic: the low n bytes of a register. -/
def lowBytes (n : Nat) (w : Word) : Nat := w.toNat % 2 ^ (8 * n)

/-- An atomic with its new value as a function of size, old value and operand; G(D) takes the old value. -/
def amoBody (dw : Bool) (d a b : GReg) (f : Nat → Nat → Nat → Nat) : Act Next := do
  let s ← get
  let n := amoBytes dw
  let old ← atomicAt n (s.g a) fun o => f n o (lowBytes n (s.g b))
  onThread fun t => t.setG d (sextN (BitVec.ofNat 64 old) (8 * n))

/-- A value of n bytes as a signed number, or as an unsigned one. -/
def amoNum (u : Bool) (n x : Nat) : Int := if u then x else sval (8 * n) x

def amoMin (u : Bool) (n o b : Nat) : Nat := if amoNum u n o ≤ amoNum u n b then o else b
def amoMax (u : Bool) (n o b : Nat) : Nat := if amoNum u n b ≤ amoNum u n o then o else b

def execAmoadd (gd : Guard) (d a b : GReg) (dw : Bool) (ord : AmoOrd) (s : State) : Outcome :=
  issue (.amoadd gd d a b dw ord) (amoBody dw d a b fun n o x => (o + x) % 2 ^ (8 * n)) s
def execAmoswp (gd : Guard) (d a b : GReg) (dw : Bool) (ord : AmoOrd) (s : State) : Outcome :=
  issue (.amoswp gd d a b dw ord) (amoBody dw d a b fun _ _ x => x) s
def execAmocas (gd : Guard) (d a b c : GReg) (dw : Bool) (ord : AmoOrd) (s : State) : Outcome :=
  issue (.amocas gd d a b c dw ord) (do
    let s ← get
    amoBody dw d a b fun n o x => if o = x then lowBytes n (s.g c) else o) s
def execAmomin (gd : Guard) (d a b : GReg) (dw : Bool) (ord : AmoOrd) (u : Bool) (s : State) : Outcome :=
  issue (.amomin gd d a b dw ord u) (amoBody dw d a b (amoMin u)) s
def execAmomax (gd : Guard) (d a b : GReg) (dw : Bool) (ord : AmoOrd) (u : Bool) (s : State) : Outcome :=
  issue (.amomax gd d a b dw ord u) (amoBody dw d a b (amoMax u)) s
def execAmoand (gd : Guard) (d a b : GReg) (dw : Bool) (ord : AmoOrd) (s : State) : Outcome :=
  issue (.amoand gd d a b dw ord) (amoBody dw d a b fun _ o x => o &&& x) s
def execAmoor (gd : Guard) (d a b : GReg) (dw : Bool) (ord : AmoOrd) (s : State) : Outcome :=
  issue (.amoor gd d a b dw ord) (amoBody dw d a b fun _ o x => o ||| x) s

/-! ## Fixed-point cells (R194) -/

/-- A contribution to the cell at G(A) (R117). -/
def execFamoFx (gd : Guard) (a b : GReg) (ord : AmoOrd) (s : State) : Outcome :=
  issue (.famoFx gd a b ord) (do
    let s ← get
    let _ ← atomicAt 32 (s.g a) fun c => cellAdd c ((s.g b).setWidth 32)
    pure .fall) s

/-- What `fxrd` reads of a cell: the value as FP32, OV and NV. -/
def fxCellWord (c : Nat) : Word := BitVec.ofNat 64 ((cellF32 c).toNat + 2 ^ 32 * (c / 2 ^ 192 % 4))

/-- A read of the cell at G(A) (R118); `.clr` leaves only the reserved bits. -/
def execFxrd (gd : Guard) (d a : GReg) (clr : Bool) (ord : AmoOrd) (s : State) : Outcome :=
  issue (.fxrd gd d a clr ord) (do
    let s ← get
    let c ← atomicAt 32 (s.g a) fun c => if clr then c / 2 ^ 194 * 2 ^ 194 else c
    onThread fun t => t.setG d (fxCellWord c)) s

end Sys2Proof.Machine
end

