-- ==== Sys2Proof/Machine/Control.lean ====
section
/-! DEFINITION. Branches, calls, loops, clauses, waits, the end of a thread, software traps and the
return from a trap (spec/04 R56-R74, spec/14 R226). -/

namespace Sys2Proof.Machine

/-! ## Targets -/

/-- A target held in a register: bits 63:48 zero, a legal start (R60 orders 4 and 5). -/
def checkTarget (v : Word) : Act Unit := do
  trapIf (v.toNat / 2 ^ 48 != 0) (trAccess v)
  trapIf (!legalStart (v.setWidth 48)) (trMisaligned v)

/-- The target of a B-format branch (R59). -/
def branchTarget (pc : Pc) (off : BitVec 26) : Pc := pc + BitVec.ofInt 48 (4 * off.toInt)

/-! ## Calls and returns -/

/-- The call of R59 at a target already checked: the callee's frame, the window, the return address. -/
def callAct (tgt ret : Pc) : Act Next := do
  let s ← get
  let t := s.th
  trapIf (t.res == 4) trWinOverflow
  pushFrame s.tk { at_ := t.fsp, kind := .window, size := 41 }
  modify fun s => s.modTh fun t =>
    { t with res := t.res + 1 }.winFwd.setG 23 (ret.setWidth 64)
  pure (.jump tgt)

/-- A thread ends with an exit value once its operations have ended (R71, spec/14 R246). -/
def exitAct (val : Word) : Act Next := do
  let s ← get
  if !(s.allOps s.tk).isEmpty then stopWait
  else do
    set (endThread s.tk 4 (some val) s)
    pure .left

/-- The frames above and with the current window frame, and those below it. -/
def splitCurrent (fs : List Frame) : List Frame × List Frame :=
  match fs.dropWhile fun f => f.kind != .window with
  | [] => (fs, [])
  | f :: below => ((fs.takeWhile fun f => f.kind != .window) ++ [f], below)

/-- `ret` (R60, spec/14 R226). The header of the frame below says what it is; a delimiter's RESUME is read once the
operations on the frame store have ended (R222, R229; log entry 83), and is a target like any other (R56). -/
def retAct : Act Next := do
  let s ← get
  let t := s.th
  let below := (splitCurrent t.frames).2
  match below with
  | D :: rest =>
    if hdrKind (← frameRead s.tk D.at_) = .window then retTo t below
    else do
      trapIf (t.res == 1) trWinFill
      waitFrameOps s.tk
      let resume ← frameRead s.tk (D.at_ + 1)
      checkStart (resume.setWidth 48)
      modify fun s => s.modTh fun t =>
        { t with res := t.res - 1, frames := rest, fsp := D.at_ }.winBack
      pure (.jump (resume.setWidth 48))
  | [] => retTo t below
where
  retTo (t : Thread) (below : List Frame) : Act Next := do
    if t.res = 1 ∧ t.depth = 0 then exitAct (t.g 16)
    else do
      trapIf (t.res == 1) trWinFill
      checkTarget (t.g 23)
      waitFrameOps (← get).tk
      let top := (splitCurrent t.frames).1.getLast?
      modify fun s => s.modTh fun t =>
        { t with res := t.res - 1, frames := below, fsp := (top.map Frame.at_).getD t.fsp }.winBack
      pure (.jump ((t.g 23).setWidth 48))

/-! ## Loops -/

/-- `loop` and `loopi` (R62). -/
def loopAct (n : Nat) (count : Word) (off : BitVec 20) (bytes : Nat) : Act Next := do
  let t := (← get).th
  let start := successor t.pc bytes
  let fin := loopEnd t.pc off
  let skip := count == 0 || fin == start
  if skip then checkStart fin else pure ()
  updTh fun t =>
    ((t.setLs n (start.setWidth 64)).setLe n (fin.setWidth 64)).setLc n (if skip then 0 else count)
  pure (if skip ∧ fin ≠ start then .jump fin else .fall)

/-- `lbrk` (R63): levels n to 3 end. -/
def lbrkAct (n : Nat) : Act Next := do
  let t := (← get).th
  let tgt : Pc := (t.len n).setWidth 48
  checkStart tgt
  updTh fun t => (List.range 4).foldl (fun t m => if n ≤ m then t.setLc m 0 else t) t
  pure (.jump tgt)

/-! ## The instructions -/

def execBr (gd : Guard) (off : BitVec 26) (s : State) : Outcome :=
  issue (.br gd off) (do
    let tgt := branchTarget (← get).th.pc off
    checkStart tgt
    pure (.jump tgt)) s

def execCall (gd : Guard) (off : BitVec 26) (s : State) : Outcome :=
  issue (.call gd off) (do
    let pc := (← get).th.pc
    checkStart (branchTarget pc off)
    callAct (branchTarget pc off) (successor pc 8)) s

def execJr (gd : Guard) (a : GReg) (s : State) : Outcome :=
  issue (.jr gd a) (do
    let v := (← get).g a
    checkTarget v
    pure (.jump (v.setWidth 48))) s

def execCallr (gd : Guard) (a : GReg) (s : State) : Outcome :=
  issue (.callr gd a) (do
    let s ← get
    let v := s.g a
    checkTarget v
    callAct (v.setWidth 48) (successor s.th.pc 8)) s

def execRet (gd : Guard) (s : State) : Outcome := issue (.ret gd) retAct s

def execLoop (gd : Guard) (n : LIdx) (a : GReg) (off : BitVec 20) (s : State) : Outcome :=
  issue (.loop gd n a off) (do loopAct n.toNat ((← get).g a) off 8) s

def execLoopi (gd : Guard) (n : LIdx) (count : BitVec 32) (off : BitVec 20) (s : State) : Outcome :=
  issue (.loopi gd n count off) (loopAct n.toNat (count.setWidth 64) off 12) s

def execLbrk (gd : Guard) (n : LIdx) (s : State) : Outcome :=
  issue (.lbrk gd n) (lbrkAct n.toNat) s

/-- The clause header writes COUNT, GP and GN whatever its guard holds, and keeps the saved copy (R65,
R66). -/
def execClause (gd : Guard) (n : BitVec 20) (s : State) : Outcome :=
  issue (.clause gd n) (onThread fun t =>
    { t with cls := BitVec.ofNat 64 (t.cls.toNat / 2 ^ 8 % 2 ^ 8 * 2 ^ 8) ||| mkCls (n.toNat % 16) gd.gp gd.gn }) s

/-- The thread stops issuing for n cycles (R70); `waitExpiry` is the end of them. -/
def execWait (gd : Guard) (n : BitVec 20) (s : State) : Outcome :=
  issue (.wait gd n) (onThread fun t => { t with waitN := n.toNat }) s

def execWaitExpiry (core thr : Nat) (s : State) : Outcome :=
  eventDo (do
    let s ← get
    need (thr < 4 && (s.threadAt (4 * core + thr)).waitN != 0)
    set (s.modThreadAt (4 * core + thr) fun t => { t with waitN := 0 })) s

def execExit (gd : Guard) (s : State) : Outcome :=
  issue (.exit gd) (do exitAct ((← get).g 16)) s

def execNop (gd : Guard) (len : BitVec 2) (s : State) : Outcome := issue (.nop gd len) (pure .fall) s

def execTrap (gd : Guard) (n : BitVec 20) (s : State) : Outcome :=
  issue (.trap gd n) (pure (.soft (n.setWidth 64))) s

def execTret (gd : Guard) (s : State) : Outcome :=
  issue (.tret gd) (do
    let t := (← get).th
    trapIf (!t.inTrap) (trIllegal (Instr.low (.tret gd)))
    checkStart (t.tpc.setWidth 48)
    modify returnFromTrap
    pure (.jump (t.tpc.setWidth 48))) s

end Sys2Proof.Machine
end

