-- ==== Sys2Proof/Machine/Scale.lean ====
section
/-! DEFINITION. The scale registers: loads and stores, arithmetic, tags and generations, and the paired
save (spec/18 R284-R296). -/

namespace Sys2Proof.Machine

/-! ## Entries (R284, R286) -/

/-- The 32 entries of a register. -/
def entriesOf (v : BitVec 256) : List Nat := (List.range 32).map fun j => v.toNat / 2 ^ (8 * j) % 256

/-- A register from its 32 entries. -/
def ofEntries (l : List Nat) : BitVec 256 := BitVec.ofNat 256 (leVal (l.map fun x => BitVec.ofNat 8 x))

/-- Write every entry of a register; the plain forms advance the generation (R285). -/
def Core.writeK (c : Core) (k : KIdx) (v : BitVec 256) (keep : Bool) : Core :=
  let c := c.setK k v
  if keep then c else c.bumpK k

/-- A register-only effect on the current core. -/
def onCore (f : Core → Core) : Act Next := onState fun s => s.modCore f

/-! ## `kld`, `kst` (R291) -/

/-- The place of the 32 bytes of a register. -/
def scalePlace (acc : Acc) (a : GReg) (off : Int) : Act Place := do
  let s ← get
  let ea := s.ea a off
  trapIf (ea.toNat % 32 != 0) (trMisaligned ea)
  let p ← resolve s.lsu acc false ea 32
  touch s.lsu 32 p
  pure p

def execKld (gd : Guard) (k : KIdx) (a : GReg) (off : BitVec 20) (keep acq : Bool) (s : State) : Outcome :=
  issue (.kld gd k a off keep acq) (do
    let p ← scalePlace .load a off.toInt
    let bs ← placeRead (← get).lsu p 32
    onCore fun c => c.writeK k (BitVec.ofNat 256 (leVal bs)) keep) s

def execKst (gd : Guard) (k : KIdx) (a : GReg) (off : BitVec 20) (rel : Bool) (s : State) : Outcome :=
  issue (.kst gd k a off rel) (do
    let p ← scalePlace .store a off.toInt
    let s ← get
    placeWrite s.lsu p (leBytes 32 (s.core.k k.toNat).toNat)
    pure .fall) s

/-! ## Scale arithmetic (R292) -/

/-- The second source's entries: a register, or one byte for all. -/
def KSrc.entries (src : KSrc) (s : State) : List Nat :=
  match src with
  | .k r => entriesOf (s.core.k r.toNat)
  | .g r => List.replicate 32 ((s.g r).toNat % 256)

/-- An arithmetic result: NaN when a source is NaN. -/
def scaleOp (f : Nat → Nat → Nat) (x y : Nat) : Nat := if x = 255 ∨ y = 255 then 255 else f x y

/-- Clamp to the finite scales. -/
def clampScale (x : Int) : Nat := (max 0 (min x 254)).toNat

def scaleMul (x y : Nat) : Nat := clampScale ((x : Int) + y - 127)
def scaleDiv (x y : Nat) : Nat := clampScale ((x : Int) - y + 127)

/-- A register from two sources, entry by entry. -/
def scaleArith (d a : KIdx) (src : KSrc) (keep : Bool) (f : Nat → Nat → Nat) : Act Next :=
  onState fun s => s.modCore fun c =>
    c.writeK d (ofEntries (List.zipWith (scaleOp f) (entriesOf (c.k a.toNat)) (KSrc.entries src s))) keep

def execKmov (gd : Guard) (d : KIdx) (src : KSrc) (keep : Bool) (s : State) : Outcome :=
  issue (.kmov gd d src keep) (onState fun s => s.modCore fun c => c.writeK d (ofEntries (KSrc.entries src s)) keep) s

def execKadd (gd : Guard) (d a : KIdx) (src : KSrc) (keep : Bool) (s : State) : Outcome :=
  issue (.kadd gd d a src keep) (scaleArith d a src keep scaleMul) s
def execKsub (gd : Guard) (d a : KIdx) (src : KSrc) (keep : Bool) (s : State) : Outcome :=
  issue (.ksub gd d a src keep) (scaleArith d a src keep scaleDiv) s
def execKmax (gd : Guard) (d a : KIdx) (src : KSrc) (keep : Bool) (s : State) : Outcome :=
  issue (.kmax gd d a src keep) (scaleArith d a src keep max) s
def execKmin (gd : Guard) (d a : KIdx) (src : KSrc) (keep : Bool) (s : State) : Outcome :=
  issue (.kmin gd d a src keep) (scaleArith d a src keep min) s

/-- The largest finite entry; 127 where there is none. -/
def largestScale (l : List Nat) : Nat :=
  match l.filter (· != 255) with
  | [] => 127
  | x :: xs => xs.foldl max x

def normScale (m x : Nat) : Nat := if x = 255 then 255 else (max 0 ((x : Int) - m + 127)).toNat

def execKnorm (gd : Guard) (d a : KIdx) (c : GReg) (keep : Bool) (s : State) : Outcome :=
  issue (.knorm gd d a c keep) (onState fun s =>
    let l := entriesOf (s.core.k a.toNat)
    let m := largestScale l
    (s.modCore fun k => k.writeK d (ofEntries (l.map (normScale m))) keep).setG c
      (BitVec.ofInt 64 ((m : Int) - 127))) s

/-! ## Tags and generations (R293, R294) -/

/-- The tag that `kbind` writes. -/
def Core.bindTag (c : Core) (k : KIdx) (o : BitVec 3) (u : Bool) : Option Tag :=
  if u then none else some ⟨k, c.kg k.toNat, o⟩

def execKbind (gd : Guard) (v : VIdx) (k : KIdx) (o : BitVec 3) (u : Bool) (s : State) : Outcome :=
  issue (.kbind gd v k o u) (do
    trapIf ((← get).th.bind v).isSome (trRing (v.setWidth 64))
    onState fun s => s.modTh fun t => t.setV v { t.vr v with tag := s.core.bindTag k o u }) s

/-- A ring with the tag of one slot set or cleared. -/
def Ring.setTag (r : Ring) (i : Nat) (t : Option Tag) : Ring :=
  { r with tags := match t with | some t => tput r.tags i t | none => tdel r.tags i }

def execKbindQ (gd : Guard) (q : QIdx) (c : GReg) (k : KIdx) (o : BitVec 3) (u : Bool) (s : State) : Outcome :=
  issue (.kbindQ gd q c k o u) (do
    let r ← ringOperand q
    let i := (← get).g c
    trapIf (decide (r.ns ≤ i.toNat)) (trRing i)
    onCore fun x => x.setRing q.toNat (r.setTag ((r.cp + i.toNat) % r.ns) (x.bindTag k o u))) s

def execKgen (gd : Guard) (d : GReg) (k : KIdx) (s : State) : Outcome :=
  issue (.kgen gd d k) (onState fun s => s.setG d ((s.core.kg k.toNat).setWidth 64)) s

def execKgenBump (gd : Guard) (k : KIdx) (s : State) : Outcome :=
  issue (.kgenBump gd k) (onCore fun c => c.bumpK k) s

/-! ## The paired save (R295, R296) -/

/-- A trap within an access of units keeps what was done and counts it (spec/16 R278). -/
def countUnits {α : Type} (n : Nat) (x : Act α) : Act α := fun s =>
  match x s with
  | .error (.trap t) s' => .error (.trapKeep { t with moved := n }) s'
  | .error (.trapKeep t) s' => .error (.trapKeep { t with moved := n }) s'
  | .error .wait s' => .error .wait (s'.modTh fun t => { t with blocked := t.blocked.map fun b => { b with moved := n } })
  | r => r

/-- What each part waits for before the first unit: the thread's `vlda`s; its matrix commands, and every
command that names a ring of the core. -/
def pairWait (parts : BitVec 2) : Act Unit := do
  let s ← get
  let v := parts.getLsbD 0 && s.th.ldq.any fun o => o.ldVec.isSome
  let e := parts.getLsbD 1 &&
    (!(s.opsOf s.tk .me).isEmpty || (s.core.ce ++ s.core.te).any fun o => !o.ringsOf.isEmpty)
  if v || e then stopWait else pure ()

/-- The address of an image, checked; then the wait. -/
def pairStart (acc : Acc) (a : GReg) (off : Int) (parts : BitVec 2) : Act Word := do
  let s ← get
  let ea := s.ea a off
  trapIf (ea.toNat % 64 != 0) (trMisaligned ea)
  match pathTrap s s.lsu acc ea with
  | some t => stopTrap t
  | none => pure ()
  pairWait parts
  pure ea

/-- The units of an image written in ascending order. -/
def writeUnits (ag : Agent) (ea : Word) : Nat → List Word → Nat → Act Unit
  | _, _, 0 => pure ()
  | k, ws, n + 1 => do
    countUnits k do
      let p ← resolve ag .store false (addrAdd ea (64 * k)) 64
      placeWrite ag p ((ws.take 8).flatMap fun w => leBytes 8 w.toNat)
    writeUnits ag ea (k + 1) (ws.drop 8) n

/-- The units of an image read in ascending order. -/
def readUnits (ag : Agent) (ea : Word) : Nat → Nat → Act (List Word)
  | _, 0 => pure []
  | k, n + 1 => do
    let bs ← countUnits k do placeRead ag (← resolve ag .load false (addrAdd ea (64 * k)) 64) 64
    let ws := (List.range 8).map fun i => BitVec.ofNat 64 (leVal ((bs.drop (8 * i)).take 8))
    pure (ws ++ (← readUnits ag ea (k + 1) n))

def execVsave (gd : Guard) (a : GReg) (off : BitVec 20) (parts : BitVec 2) (s : State) : Outcome :=
  issue (.vsave gd a off parts) (do
    let ea ← pairStart .store a off.toInt parts
    let s ← get
    let ws := (List.range pairWords).map fun i => pairWord s.th s.core (parts.getLsbD 0) (parts.getLsbD 1) (8 * i)
    writeUnits s.lsu ea 0 ws 192
    pure .fall) s

/-- The checks of R140 on a binding of an image. -/
def rebindCheck (v : VIdx) (b : Bind) : Act Unit := do
  let s ← get
  match b.kind with
  | 2 => ownTrack (BitVec.ofNat 5 b.track)
  | 3 => do
    trapIf (selector b.cursor != 1 && selector b.cursor != 2) (trAccess b.cursor)
    trapIf (b.cursor.toNat % 64 != 0) (trMisaligned b.cursor)
    trapIf (b.cstride.toNat % 64 != 0) (trMisaligned b.cstride)
  | k => trapIf ((s.core.ring b.ring).ns == 0 || s.th.roleHeld v k b.ring) (trRing (BitVec.ofNat 64 b.ring))

/-- Units of an image read by the time that a word of one of them has been (spec/16 R278; log entry 89). -/
def unitsTo (off : Nat) : Nat := off / 64 + 1

/-- Bindings of some kinds made again, with the units that the image's own order has read by then; those of rings
wait for the engine part where it is restored as well. -/
def rebind (ring : Bool) (late : Bool) (bs : Tbl Bind) : Act Unit :=
  (bs.filter fun e => decide (e.2.kind ≤ 1) == ring).forM fun (m, b) => do
    let v : VIdx := BitVec.ofNat 5 (24 + m)
    countUnits (if ring && late then 191 else unitsTo (0x8C0 + 32 * m)) (rebindCheck v b)
    updBind v b

/-- A ring word of an image breaks a limit of R186; the word of a ring never declared breaks none. -/
def Ring.bad (r : Ring) : Bool :=
  r.word0 != 0 && (r.sb == 0 || decide (128 < r.sb) || decide (64 < r.ns) ||
    (r.pool && decide (64 < r.kf + r.ns)) || (!r.pool && r.kf != 0) || r.base % 64 != 0 ||
    decide (32768 < r.base + r.ns * r.slotBytes))

def execVrest (gd : Guard) (a : GReg) (off : BitVec 20) (parts : BitVec 2) (s : State) : Outcome :=
  issue (.vrest gd a off parts) (do
    let ea ← pairStart .load a off.toInt parts
    let ag := (← get).lsu
    let pres ← loadWord ag (addrAdd ea 0x9E0)
    trapIf (parts.toNat / 2 % 2 == 1 && !pres.getLsbD 1 || parts.toNat % 2 == 1 && !pres.getLsbD 0) (trRing pres)
    let ws ← readUnits ag ea 0 192
    let binds := imageBinds ws
    if parts.getLsbD 0 then do
      updTh fun t => loadVectorPart ws { t with binds := [] }
      rebind false false binds
    if parts.getLsbD 1 then do
      let c := loadEnginePart ws (← get).core
      match (List.range 8).find? fun q => (c.ring q).bad with
      | some q => countUnits (unitsTo (0x2200 + 16 * q)) (stopTrap (trRing (BitVec.ofNat 64 q)))
      | none => updCore fun x => { c with utlb := x.utlb }
    if parts.getLsbD 0 then rebind true (parts.getLsbD 1) binds
    pure .fall) s

end Sys2Proof.Machine
end

