-- ==== Sys2Proof/Machine/Matrix.lean ====
section
/-! DEFINITION. The matrix engine: commands at issue, their begin with slots, bindings and drains, their
arithmetic and end; `mova`, `msta`, `mchk` (spec/19 R298-R321). -/

namespace Sys2Proof.Machine

/-! ## Accumulators that a command reads -/

/-- The accumulators that `attn.f` reads. -/
def Instr.srcRange (i : Instr) (lxc : Word) : Nat × Nat :=
  match i with
  | .attnF _ _ _ ae none m => (ae.toNat, if m = 0 then lxcLw lxc / 8 else m.toNat)
  | .attnF _ _ _ ae (some _) _ => (ae.toNat, lxcLw lxc / 8)
  | _ => (0, 0)

/-- The accumulators that a command reads as it ends, to add to them or to rescale them. -/
def Instr.accAdds (i : Instr) (lxc : Word) : List Nat :=
  match i with
  | .mma .. | .attnP .. | .attnV .. => accList (Instr.accRange i lxc)
  | _ => []

/-- The code words of some accumulators, and of some scale registers. -/
def accWords (l : List Nat) : List Nat := l.flatMap fun a => (List.range 32).map (aErr a ·)
def kWords (l : List Nat) : List Nat := l.flatMap fun k => (List.range 4).map (kErr k ·)

/-- Accumulators written whole take new codes (spec/22 R350). -/
def Core.freshAcc (l : List Nat) (c : Core) : Core :=
  { c with errs := c.errs.filter fun e => !(l.any fun a => decide (aErr a 0 ≤ e.1) && decide (e.1 < aErr (a + 1) 0)) }

/-! ## Issue (R304, R305, R314, R316) -/

/-- The scale registers of the two operands, when their scale bits are set. -/
def Instr.scaleRegs : Instr → Option KIdx × Option KIdx
  | .mma _ _ _ _ _ ka kb _ _ _ _ sca scb => (if sca then some ka else none, if scb then some kb else none)
  | .attnS _ _ _ _ _ _ _ kb _ _ scb => (none, if scb then some kb else none)
  | .attnV _ _ _ _ _ _ kb _ scb => (none, if scb then some kb else none)
  | _ => (none, none)

def Instr.attnMode : Instr → Option AttnMode
  | .attnS _ _ mode .. => some mode
  | .attnV _ _ mode .. => some mode
  | _ => none

/-- The check of a configuration word (R314, R316). -/
def configBad (i : Instr) (v : Word) : Bool :=
  match i with
  | .lxcfg .. => v.toNat / 2 ^ 32 != 0 || v.toNat / 2 ^ 8 % 2 ^ 5 != 0 || !([32, 64, 96, 128].contains (lxcLw v)) ||
      (lxcWef v != 0 && (match Fmt.ofCode (lxcWef v) with | some f => !f.isF2 | none => true))
  | .smxcfg .. => v.toNat / 2 ^ 33 != 0
  | _ => false

/-- The configuration register of a command. -/
def Instr.configReg : Instr → Option GReg
  | .lxcfg _ _ a | .smxcfg _ _ a => some a
  | _ => none

/-- Steps 1 to 3 of R304 on the slots that a command needs. -/
def needChecks (ns : List SlotNeed) (c : Core) : Option Trap :=
  let tr (n : Nat) : Trap := trRing (BitVec.ofNat 64 n)
  ((ns.find? fun x => (c.ring x.ring).ns == 0).map fun x => tr x.ring).orElse fun _ =>
  ((ns.find? fun x => decide ((c.ring x.ring).slotBytes < x.bytes)).map fun x => tr x.bytes).orElse fun _ =>
  (ns.find? fun x => decide ((c.ring x.ring).ns < x.off + x.n)).map fun x => tr (x.off + x.n)

/-- The checks of a command at issue, in order. -/
def matrixChecks (i : Instr) : Act Unit := do
  let s ← get
  match (Instr.configReg i) with
  | some a => trapIf (configBad i (s.g a)) (trRing (s.g a))
  | none => do
    let lxc := s.core.lxcIssued
    let (na, nb, nw) := Op.slotNeeds i lxc
    trapIf (!nw.isEmpty && lxcWef lxc == 0) (trRing 0)
    match needChecks (na ++ nb ++ nw) s.core with
    | some t => stopTrap t
    | none => pure ()
    let (ad, n) := Instr.accRange i lxc
    let (ae, m) := Instr.srcRange i lxc
    trapIf (decide (16 < ad + n) || decide (16 < ae + m)) (trRing (BitVec.ofNat 64 ad))
    match (Instr.scaleRegs i).2, nb with
    | some k, x :: _ => trapIf (decide (64 < k.toNat + x.n)) (trRing (k.setWidth 64))
    | _, _ => pure ()

/-- The bindings that the untagged slots of an operand take: {K + s, its generation now, 0}, for as many slots as the
operand may have when the command runs, whatever LXC holds then. -/
def Core.issueBinds (c : Core) (k : Option KIdx) (slots : List SlotNeed) : List (Option Tag) :=
  match k, slots with
  | some k, x :: _ => (List.range x.n).map fun s => some ⟨k + BitVec.ofNat 6 s, c.kg (k.toNat + s), 0⟩
  | _, _ => []

/-- A matrix command at issue. -/
def matrixIssue (i : Instr) (fd : FIdx) : Act Next := do
  matrixChecks i
  let s ← get
  if 2 ≤ s.core.mePending then stopWait
  else do
    let c := s.core
    let args := match (Instr.configReg i) with | some a => [s.g a] | none => []
    let most := Op.slotNeeds i 128
    modify (enqueueOp .me i fd fun o => { o with
      args := args, lxc := c.lxcIssued
      bindA := c.issueBinds (Instr.scaleRegs i).1 most.1, bindB := c.issueBinds (Instr.scaleRegs i).2 most.2.1 })
    match i with
    | .lxcfg _ _ a => updCore fun c => { c with lxcIssued := s.g a }
    | _ => pure ()
    pure .fall

/-! ## Check shadows and drains (R309, R310) -/

def Shadow.row (x : Shadow) (i : Nat) : BitVec 32 := tgetD x.rs i 0
def Shadow.col (x : Shadow) (j : Nat) : BitVec 32 := tgetD x.cs j 0
def Shadow.rowMag (x : Shadow) (i : Nat) : BitVec 32 := tgetD x.mr i 0
def Shadow.colMag (x : Shadow) (j : Nat) : BitVec 32 := tgetD x.mc j 0

def r8 : List Nat := List.range 8

/-- A table of eight values. -/
def tbl8 (f : Nat → BitVec 32) : Tbl (BitVec 32) := r8.map fun i => (i, f i)

/-- A shadow value at or above 2^24. -/
def magFull (c : BitVec 32) : Bool := !((f32 c).abs.lt (intNum (2 ^ 24)))

/-- One K-step, with its exact sums and sums of magnitudes. -/
def Shadow.step (x : Shadow) (s m : Nat → Nat → Num) (exact : Bool) : Shadow :=
  let y : Shadow :=
    { rs := tbl8 fun i => toF32 (sumNums false (f32 (x.row i) :: r8.map fun j => s i j))
      cs := tbl8 fun j => toF32 (sumNums false (f32 (x.col j) :: r8.map fun i => s i j))
      mr := tbl8 fun i => toF32Up (sumNums false (f32 (x.rowMag i) :: r8.map fun j => m i j))
      mc := tbl8 fun j => toF32Up (sumNums false (f32 (x.colMag j) :: r8.map fun i => m i j))
      xf := x.xf }
  { y with xf := x.xf && exact && !((y.rs ++ y.cs ++ y.mr ++ y.mc).any fun e => magFull e.2) }

/-- An element, a row and a column of values, and whether one is infinite or NaN. -/
def finite32 (c : BitVec 32) : Bool := !(f32 c).isNan && !(f32 c).isInf

/-- A line of values differs from its shadow. -/
def lineOff (xf : Bool) (tol : BitVec 32) (vs : List (BitVec 32)) (sum mag : BitVec 32) : Bool :=
  if !(vs.all finite32 && finite32 sum && finite32 mag) then false
  else
    let d := (sumNums false ((f32 sum).neg :: vs.map f32)).abs
    if xf then !d.isZero else ((f32 tol).mul (f32 mag)).lt d

/-- What a drain of an 8 by 8 tile finds. -/
inductive Drained where
  | ok
  | fixed (i j : Nat) (v : BitVec 32)
  | bad (rows cols : Nat)
  deriving DecidableEq, Repr

def drainTile (tol : BitVec 32) (x : Shadow) (v : Nat → Nat → BitVec 32) : Drained :=
  let rows := r8.filter fun i => lineOff x.xf tol (r8.map fun j => v i j) (x.row i) (x.rowMag i)
  let cols := r8.filter fun j => lineOff x.xf tol (r8.map fun i => v i j) (x.col j) (x.colMag j)
  match rows, cols with
  | [], [] => .ok
  | [i], [j] => .fixed i j (toF32 (sumNums false (f32 (x.row i) ::
      (r8.filter (· != j)).map fun k => (f32 (v i k)).neg)))
  | _, _ => .bad (rows.foldl (fun a i => a + 2 ^ i) 0) (cols.foldl (fun a j => a + 2 ^ j) 0)

/-- tval of a checksum trap (spec/16 R273). -/
def checkVal (acc rows cols : Nat) : Word := BitVec.ofNat 64 (acc + 2 ^ 8 * rows + 2 ^ 16 * cols)

def Core.modStage (c : Core) (f : Stage → Stage) : Core := { c with stage := f c.stage }

/-- An uncorrectable drain is counted and reported: the action that the matrix takes. -/
def drainBad (core th : Nat) (v : Word) (s : State) : State × Nat :=
  let s := s.modCoreAt core fun c => c.modStage fun g => { g with unc := min (g.unc + 1) 65535 }
  reportError s (pkgOf core) (some core) (some th) { cls := 5, src := 6, addr := 0, synd := v.toNat }

/-- A drain that corrects an element is counted and reported as a corrected error of the matrix arrays (spec/22
R351). -/
def drainFixed (core th a i j : Nat) (f : Core → Core) (s : State) : State :=
  let s := s.modCoreAt core fun c => (f c).modStage fun g => { g with cor := min (g.cor + 1) 65535 }
  (reportError s (pkgOf core) (some core) (some th)
    { cls := 0, src := 6, addr := 0, synd := (checkVal a (2 ^ i) (2 ^ j)).toNat }).1

/-- Drain an accumulator of a core for a thread: the tval of a mismatch and the action. -/
def drainAcc (core th a : Nat) (s : State) : State × Option (Word × Nat) :=
  let c := s.coreAt core
  match drainTile c.stage.ctol (tgetD c.shadow a {}) (c.accAt a) with
  | .ok => (s, none)
  | .fixed i j v => (drainFixed core th a i j (fun c => { c with acc := tput c.acc (64 * a + 8 * i + j) v }) s, none)
  | .bad rows cols =>
    let v := checkVal a rows cols
    let (s, act) := drainBad core th v s
    (s, some (v, act))

/-- Drain one of the four tiles of scores. -/
def drainBuf (core th g : Nat) (s : State) : State × Option (Word × Nat) :=
  let st := (s.coreAt core).stage
  match drainTile st.ctol (tgetD st.bufShadow g {}) fun h j => tgetD st.buf (32 * h + 8 * g + j) 0 with
  | .ok => (s, none)
  | .fixed i j v => (drainFixed core th 0 i j
      (fun c => c.modStage fun x => { x with buf := tput x.buf (32 * i + 8 * g + j) v }) s, none)
  | .bad rows cols =>
    let v := checkVal 0 rows cols
    let (s, act) := drainBad core th v s
    (s, some (v, act))

/-- Drains one after another, up to one that the matrix does not ignore. -/
def drainAll (l : List (State → State × Option (Word × Nat))) (s : State) : State × Option (Word × Nat) :=
  l.foldl (fun (x : State × Option (Word × Nat)) d =>
    match x.2 with
    | some _ => x
    | none =>
      match d x.1 with
      | (s, some (_, 0)) => (s, none)
      | r => r) (s, none)

/-! ## `mova`, `msta`, `mchk` (R302, R311-R313) -/

/-- Wait for every matrix command that writes an accumulator. -/
def waitAcc (a : Nat) : Act Unit := do
  if (← get).core.accBusy a then stopWait

/-- A drain at the draining instruction (spec/16 R273): an action that ends the thread, or rolls its domain
back, leaves the instruction not executed. -/
def drainHere (a : Nat) : Act Unit := do
  let s ← get
  let (s', r) := drainAcc s.cc s.tk a s
  set s'
  match r with
  | none => pure ()
  | some (v, act) =>
    if act = 0 then pure () else if act ≤ 2 then stopKeep (trChecksum v) else stopWait

def execMova (gd : Guard) (ef : Ef) (d : VIdx) (a : AIdx) (rm : Rm) (sat : Bool) (s : State) : Outcome :=
  issue (.mova gd ef d a rm sat) (do
    let f := ef.getD (← get).core.format
    let per := f.lanes / 8
    let nr := 8 / per
    let regs := (List.range nr).map fun r => d + BitVec.ofNat 5 r
    trapIf (regs.any fun v => (s.th.bind v).isSome) (trRing (d.setWidth 64))
    waitAcc a.toNat
    drainHere a.toNat
    let s ← get
    let (ts, e) := rngFor rm 64 (fun _ => true) s.th.rngs
    let code (x : Nat) : Nat := convert f .fp32 rm sat (ts x) (s.core.accAt a.toNat (x / 8) (x % 8)).toNat
    setRngs e
    regs.zipIdx.forM fun (v, r) =>
      updTh fun t => t.setV v { data := ofLanes f f.lanes fun l => code (8 * per * r + l) }
    pure .fall) s

def execMsta (gd : Guard) (a : AIdx) (base : GReg) (off : BitVec 20) (rel : Bool) (s : State) : Outcome :=
  issue (.msta gd a base off rel) (do
    let s ← get
    let ea := s.ea base off.toInt
    let eas := (List.range 64).map fun (x : Nat) => addrAdd ea (4 * (x : Int))
    trapIf (ea.toNat % 32 != 0) (trMisaligned ea)
    checkPaths s.lsu .store 4 eas
    waitAcc a.toNat
    drainHere a.toNat
    let ps ← resolveAll s.lsu .store 4 eas
    let c := (← get).core
    placesWrite s.lsu (ps.zipIdx.map fun (p, x) => (p, leBytes 4 (c.accAt a.toNat (x / 8) (x % 8)).toNat))
    pure .fall) s

def execMchk (gd : Guard) (d : GReg) (set : Option GReg) (clr : Bool) (s : State) : Outcome :=
  issue (.mchk gd d set clr) (do
    let s ← get
    let v := (set.map s.g).getD 0
    let tol : BitVec 32 := v.setWidth 32
    trapIf (set.isSome && (!finite32 tol || tol.getLsbD 31)) (trRing v)
    onState fun s => (s.setG d s.core.stage.status).modCore fun c => c.modStage fun g =>
      let g := if set.isSome then { g with ctol := tol } else g
      if clr then { g with cor := 0, unc := 0 } else g) s

/-! ## The commands -/

def execMma (gd : Guard) (fd : FIdx) (ad : AIdx) (qa qb : QIdx) (ka kb : KIdx) (efa efb : Ef)
    (qoff kstep : BitVec 8) (sca scb : Bool) (s : State) : Outcome :=
  let i := Instr.mma gd fd ad qa qb ka kb efa efb qoff kstep sca scb
  issue i (matrixIssue i fd) s
def execMmz (gd : Guard) (fd : FIdx) (ad : AIdx) (m1 : BitVec 4) (s : State) : Outcome :=
  issue (.mmz gd fd ad m1) (matrixIssue (.mmz gd fd ad m1) fd) s
def execAttnS (gd : Guard) (fd : FIdx) (mode : AttnMode) (fq fk : Ef) (qa qb : QIdx) (kb : KIdx)
    (qoff : BitVec 8) (ntok : BitVec 6) (scb : Bool) (s : State) : Outcome :=
  let i := Instr.attnS gd fd mode fq fk qa qb kb qoff ntok scb
  issue i (matrixIssue i fd) s
def execAttnP (gd : Guard) (fd : FIdx) (ad : AIdx) (m : BitVec 4) (s : State) : Outcome :=
  issue (.attnP gd fd ad m) (matrixIssue (.attnP gd fd ad m) fd) s
def execAttnV (gd : Guard) (fd : FIdx) (mode : AttnMode) (fv : Ef) (ad : AIdx) (qb : QIdx) (kb : KIdx)
    (qoff : BitVec 8) (scb : Bool) (s : State) : Outcome :=
  let i := Instr.attnV gd fd mode fv ad qb kb qoff scb
  issue i (matrixIssue i fd) s
def execAttnF (gd : Guard) (fd : FIdx) (ad ae : AIdx) (proj : Option (Ef × QIdx × BitVec 8 × BitVec 2))
    (m : BitVec 4) (s : State) : Outcome :=
  issue (.attnF gd fd ad ae proj m) (matrixIssue (.attnF gd fd ad ae proj m) fd) s
def execQabs (gd : Guard) (fd : FIdx) (fq fw : Ef) (qa qb : QIdx) (qoff kstep : BitVec 8) (s : State) : Outcome :=
  issue (.qabs gd fd fq fw qa qb qoff kstep) (matrixIssue (.qabs gd fd fq fw qa qb qoff kstep) fd) s
def execLxcfg (gd : Guard) (fd : FIdx) (a : GReg) (s : State) : Outcome :=
  issue (.lxcfg gd fd a) (matrixIssue (.lxcfg gd fd a) fd) s
def execSmxcfg (gd : Guard) (fd : FIdx) (a : GReg) (s : State) : Outcome :=
  issue (.smxcfg gd fd a) (matrixIssue (.smxcfg gd fd a) fd) s

/-! ## Begin (R300, R301, R305, R288) -/

/-- The slots that an operand reads, resolved now, with their bytes. -/
def Core.resolveSlots (c : Core) (s : State) (core : Nat) (ns : List SlotNeed) : List (Nat × Nat × SlotRead) :=
  ns.flatMap fun x =>
    let r := c.ring x.ring
    (List.range x.n).map fun k =>
      let sl := (r.cp + x.off + k) % r.ns
      let key := sramKey core (r.slotOff sl)
      (x.ring, sl, { key := key, bytes := memReads s.mem key x.bytes })

/-- FADDR of a stale slot (R288): the slot, its ring, the register's generation, the tile's tag. -/
def staleFaddr (ring slot : Nat) (cgen : BitVec 4) (tag : Option Tag) : Word :=
  BitVec.ofNat 64 (15 * 2 ^ 60 + 2 ^ 32 * slot + 2 ^ 25 * ring + 2 ^ 24 + 2 ^ 16 * cgen.toNat + (tag.map Tag.bits).getD 0)

/-- Each slot of a scaled operand with its scales, or the FADDR of the first stale one. -/
def bindSlots (c : Core) (binds : List (Option Tag)) : Nat → List (Nat × Nat × SlotRead) → Except Word (List SlotRead)
  | _, [] => .ok []
  | k, (q, sl, x) :: l =>
    let tag := tget (c.ring q).tags sl
    match tag.orElse fun _ => binds.getD k none with
    | none => .error (staleFaddr q sl 0 tag)
    | some b =>
      if b.gen ≠ c.kg b.k.toNat then .error (staleFaddr q sl (c.kg b.k.toNat) tag)
      else match bindSlots c binds (k + 1) l with
        | .error e => .error e
        | .ok r => .ok ({ x with scale := some (c.k b.k.toNat, b.o.toNat) } :: r)

/-- An operand as a beginning command holds it. -/
def bindOperand (c : Core) (scaled : Bool) (binds : List (Option Tag)) (l : List (Nat × Nat × SlotRead)) :
    Except Word (List SlotRead) :=
  if scaled then bindSlots c binds 0 l else .ok (l.map fun x => x.2.2)

/-- The command that begins next: the oldest that has not begun, when the commands in progress let it. -/
def Core.meNext (c : Core) : Option Op :=
  match c.me.find? fun o => !o.started with
  | none => none
  | some o =>
    match c.me.filter Op.started with
    | [] => some o
    | [p] =>
      match o.instr, p.instr with
      | .mma _ _ a .., .mma _ _ b .. => if a = b then none else some o
      | _, _ => none
    | _ => none

/-- The drains that a beginning command makes. -/
def Op.drains (o : Op) (c : Core) : List (State → State × Option (Word × Nat)) :=
  let core := o.th / 4
  match o.instr with
  | .attnP .. => if c.stage.bufState = .scores then (List.range 4).map (drainBuf core o.th ·) else []
  | .attnF .. => (accList (Instr.srcRange o.instr c.stage.lxc)).map (drainAcc core o.th ·)
  | _ => []

/-- Scale registers that a scaled operand reads. -/
def boundRegs (c : Core) (scaled : Bool) (binds : List (Option Tag)) (l : List (Nat × Nat × SlotRead)) : List Nat :=
  if scaled then l.zipIdx.filterMap fun x =>
    ((tget (c.ring x.1.1).tags x.1.2.1).orElse fun _ => binds.getD x.2 none).map fun t => t.k.toNat
  else []

/-- Reads of engine state on behalf of an operation: an error that cannot be corrected ends it. -/
def opScan (o : Op) (words : List Nat) : Act Unit := do
  let (s, e) := coreScan (o.th / 4) o.th words (← get)
  set s
  match e with
  | some e => throw (.err e)
  | none => pure ()

/-- The slots of a command that may begin are resolved, its bindings checked and its drains made; or it ends faulted. -/
def beginReads (o : Op) : Act Unit := do
  let core := o.th / 4
  let s ← get
  let c := s.coreAt core
  let (na, nb, nw) := Op.slotNeeds o.instr c.stage.lxc
  let rd (l : List SlotNeed) : List (Nat × Nat × SlotRead) := c.resolveSlots s core l
  let (ka, kb) := Instr.scaleRegs o.instr
  opScan o (kWords (boundRegs c ka.isSome o.bindA (rd na) ++ boundRegs c kb.isSome o.bindB (rd nb)) ++
    accWords (accList (Instr.srcRange o.instr c.stage.lxc)) ++ (na ++ nb ++ nw).map fun x => qErr x.ring)
  let s ← get
  let c := s.coreAt core
  match bindOperand c ka.isSome o.bindA (rd na), bindOperand c kb.isSome o.bindB (rd nb) with
  | .ok a, .ok b => do
    let (s', r) := drainAll (o.drains c) s
    set s'
    match r with
    | some (v, _) => modify (opFault o (BitVec.ofNat 64 (13 * 2 ^ 60) ||| v))
    | none => modify fun s => s.modOp o fun x => { x with
        started := true, readA := a, readB := b, readW := (rd nw).map fun x => x.2.2 }
  | .error e, _ => modify (opFault o e)
  | _, .error e => modify (opFault o e)

/-- MATRIX_CMD_BEGIN: its slots are present. -/
def matrixBegin (core : Nat) : Act Unit := do
  let c := (← get).coreAt core
  let o ← needSome c.meNext
  need (!(c.lacks o.instr))
  opDo o (beginReads o)

def execMatrixCmdBegin (core : Nat) (s : State) : Outcome := eventDo (matrixBegin core) s

/-! ## Operand values (R303, R305) -/

/-- An operand slot's value: its bytes as one number, and its scales. -/
structure SlotVal where
  n : Nat
  scale : Option (BitVec 256 × Nat)
  deriving DecidableEq, Repr

/-- The code of element x of a slot. -/
def SlotVal.code (v : SlotVal) (f : Fmt) (x : Nat) : Nat := v.n / 2 ^ (f.width * x) % 2 ^ codeBits f

/-- The value of element x, which lies in block b. -/
def SlotVal.elem (v : SlotVal) (f : Fmt) (x b : Nat) : Num :=
  match v.scale with
  | none => elemVal f (v.code f x)
  | some (k, o) => scaledVal f (k.toNat / 2 ^ (8 * ((4 * o + b) % 32)) % 256) (v.code f x)

/-- The bytes of a slot as the engine reads them: a byte written since the command began may be read old
or new. -/
def slotBytesNow (old new : List Byte) (fr : Nat) : List Byte :=
  ((old.zip new).zipIdx).map fun (x, i) => if x.1 = x.2 then x.1 else if Config.freeBit (fr + i) then x.1 else x.2

/-- Read the slots of an operand. -/
def readSlots (ag : Agent) : List SlotRead → Act (List SlotVal)
  | [] => pure []
  | x :: l => do
    eccScan ag x.key x.bytes.length false
    let s ← get
    let bs := slotBytesNow x.bytes (memReads s.mem x.key x.bytes.length) s.fresh
    set { s with fresh := s.fresh + x.bytes.length }
    pure (⟨leVal bs, x.scale⟩ :: (← readSlots ag l))

def operandAt (l : List SlotVal) (k : Nat) : SlotVal := l.getD k ⟨0, none⟩

/-! ## Arithmetic (R307, R315-R320) -/

/-- Exact products of two lists of values. -/
def products (n : Nat) (a b : Nat → Num) : List Num := (List.range n).map fun k => (a k).mul (b k)
def dot (n : Nat) (a b : Nat → Num) : Num := sumNums false (products n a b)
def dotMag (n : Nat) (a b : Nat → Num) : Num := sumNums false ((products n a b).map Num.abs)

/-- One K-step into an accumulator and its shadow (spec/07 R114, R309). -/
def Core.kstep (c : Core) (n : Nat) (exact : Bool) (a : Nat → Nat → Num) (b : Nat → Nat → Num) : Core :=
  let upd (acc : Tbl (BitVec 32)) (x : Nat) : Tbl (BitVec 32) :=
    tput acc (64 * n + x) (toF32 (sumNums false
      (f32 (tgetD acc (64 * n + x) 0) :: products 32 (a (x / 8)) (b (x % 8)))))
  { c with
    acc := (List.range 64).foldl upd c.acc
    shadow := tput c.shadow n ((tgetD c.shadow n {}).step (fun i j => dot 32 (a i) (b j))
      (fun i j => dotMag 32 (a i) (b j)) exact) }

def mmaRun (ad n : Nat) (fa fb : Fmt) (sa sb : Bool) (a b : SlotVal) (c : Core) : Core :=
  let exact := !(isFloat fa || isFloat fb || sa || sb)
  let c := (List.range n).foldl (fun (c : Core) s => c.kstep ad exact
    (fun i k => a.elem fa (32 * n * i + 32 * s + k) (n * i + s))
    (fun j k => b.elem fb (32 * n * j + 32 * s + k) (n * j + s))) c
  let tern (f : Fmt) (v : SlotVal) : Bool := f == .ternary && (List.range (256 * n)).any fun x => v.code f x == 2
  c.setTern (tern fa a || tern fb b)

/-- Accumulators of a range cleared, their shadows with them. -/
def mmzRun (l : List Nat) (c : Core) : Core :=
  { c with
    acc := c.acc.filter fun e => !(l.contains (e.1 / 64))
    shadow := c.shadow.filter fun e => !(l.contains e.1) }

/-- An element of a latent tile: token t, channel r. -/
def latent (f : Fmt) (l : List SlotVal) (t r : Nat) : Num := (operandAt l (r / 32)).elem f (32 * t + r % 32) t

/-- A run of 32 exact values quantised to E4M3 and decoded; none is rounded to FP32 first (log entry 92). -/
def requant (xs : List Num) : List Num :=
  let (x, cs) := quantBlock .e4m3 .rne (xs.map fun _ => 0) xs
  cs.map (scaledVal .e4m3 x)

/-- An element of the query in absorb mode. -/
def Stage.qabsElem (g : Stage) (h x : Nat) : Num :=
  scaledVal .e4m3 (tgetD g.qs (4 * h + x / 32) 0).toNat (tgetD g.q (128 * h + x) 0).toNat

/-- `qabs` (R315): the exact values of its runs are quantised as they stand (log entry 92). -/
def qabsRun (n : Nat) (fq fw : Fmt) (q w : SlotVal) (c : Core) : Core :=
  let lw := lxcLw c.stage.lxc
  let k := 32 * n
  let runs := r8.flatMap fun h => (List.range (lw / 32)).map fun g =>
    (h, g, quantBlock .e4m3 .rne (List.replicate 32 0) ((List.range 32).map fun j =>
      dot k (fun x => q.elem fq (k * h + x) 0) (fun x => w.elem fw (k * (32 * g + j) + x) 0)))
  c.modStage fun st => { st with
    qs := (runs.map fun (h, g, x, _) => (4 * h + g, BitVec.ofNat 8 x)).filter (·.2 != 0)
    q := (runs.flatMap fun (h, g, _, cs) => cs.zipIdx.map fun (y, j) => (128 * h + 32 * g + j, BitVec.ofNat 8 y)).filter
      (·.2 != 0) }

/-- Scores from a query and keys, both as values by row and channel (R317). -/
def scoresRun (nt n : Nat) (q k : Nat → Nat → Num) (c : Core) : Core :=
  let sc (h t : Nat) : BitVec 32 :=
    if nt ≤ t then 0xFF800000
    else (List.range n).foldl (fun (a : BitVec 32) s => toF32 (sumNums false
      (f32 a :: products 32 (fun x => q h (32 * s + x)) (fun x => k t (32 * s + x))))) 0
  let part (f : Nat → (Nat → Num) → (Nat → Num) → Num) (s g h j : Nat) : Num :=
    let t := 8 * g + j
    if nt ≤ t then .fin false 0 0 else f 32 (fun x => q h (32 * s + x)) (fun x => k t (32 * s + x))
  let shadow (g : Nat) : Shadow :=
    (List.range n).foldl (fun (x : Shadow) s => x.step (part dot s g) (part dotMag s g) false) {}
  c.modStage fun st => { st with
    bufState := .scores
    buf := (List.range 256).map fun x => (x, sc (x / 32) (x % 32))
    bufShadow := (List.range 4).map fun g => (g, shadow g) }

/-- The keys that MODE 1 expands: token t, query dimension j, in runs of 32. -/
def expandKeys (fl fw : Fmt) (lw w : Nat) (l : List SlotVal) (wt : SlotVal) : Nat → Nat → Num :=
  let rows := (List.range 32).map fun t => (List.range (w / 32)).flatMap fun s =>
    requant ((List.range 32).map fun c => dot lw (latent fl l t) fun r => wt.elem fw (w * r + 32 * s + c) 0)
  fun t x => (rows.getD t []).getD x (.fin false 0 0)

/-- The values that MODE 1 expands: token t, channel c, in runs of 32 tokens. -/
def expandValues (fl fw : Fmt) (lw w : Nat) (l : List SlotVal) (wt : SlotVal) : Nat → Nat → Num :=
  let cols := (List.range w).map fun c =>
    requant ((List.range 32).map fun t => dot lw (latent fl l t) fun r => wt.elem fw (w * r + c) 0)
  fun t c => (cols.getD c []).getD t (.fin false 0 0)

/-- One row's rescale by `attn.p`: a factor, zeros, or NaN. -/
inductive Rescale where
  | none | by_ (r : BitVec 32) | zero | nan
  deriving DecidableEq, Repr

def Rescale.on (x : Rescale) (up : Bool) (v : BitVec 32) : BitVec 32 :=
  match x with
  | .none => v
  | .by_ r => if up then toF32Up ((f32 v).mul (f32 r)) else f32Mul v r
  | .zero => 0
  | .nan => f32Nan

def f32Sub (a b : BitVec 32) : BitVec 32 := toF32 (sumNums false [f32 a, (f32 b).neg])

/-- Rows of an accumulator rescaled, and its shadow (R309). -/
def Core.rescale (c : Core) (rs : Nat → Rescale) (a : Nat) : Core :=
  let acc := (List.range 64).foldl (fun t x => tput t (64 * a + x) ((rs (x / 8)).on false (tgetD t (64 * a + x) 0))) c.acc
  let c := { c with acc := acc }
  let old := tgetD c.shadow a {}
  let new := shadowFrom (c.accAt a)
  { c with shadow := tput c.shadow a { new with
      rs := tbl8 fun i => (rs i).on false (old.row i)
      mr := tbl8 fun i => (rs i).on true (old.rowMag i) } }

/-- What one row of `attn.p` comes to. -/
structure SoftRow where
  max : BitVec 32
  hi : BitVec 32
  lo : BitVec 32
  probs : List Nat
  zeros : Nat
  scale : Rescale
  deriving DecidableEq, Repr

/-- TwoSum of the denominator pair with a probability (R318). -/
def twoSum (hi lo p : BitVec 32) : BitVec 32 × BitVec 32 :=
  let sg := f32Add hi p
  let z := f32Sub sg hi
  let e := f32Add (f32Sub hi (f32Sub sg z)) (f32Sub p z)
  (sg, f32Add lo e)

def ninf : BitVec 32 := 0xFF800000

/-- A row of scores (R318). -/
def softRow (mult mo hi lo : BitVec 32) (sc : List (BitVec 32)) : SoftRow :=
  let xs := sc.map fun v => if v = ninf then ninf else f32Mul mult v
  let mn := xs.foldl (fun m x => BitVec.ofNat 32 (pickNum false .fp32 m.toNat x.toNat)) mo
  if (f32 mn).isNan ∨ mn = 0x7F800000 then
    ⟨f32Nan, f32Nan, f32Nan, xs.map fun _ => 0x7F, 0, .nan⟩
  else
    let rescale : Rescale :=
      if mo = ninf then (if mn = ninf then .none else .zero)
      else if (f32 mo).lt (f32 mn) then .by_ (exp2F (f32 (f32Sub mo mn)))
      else .none
    let start := (rescale.on false hi, rescale.on false lo)
    let prob (x : BitVec 32) : Nat :=
      if x = ninf then 0 else roundF .e4m3 .rne false 0 (f32 (exp2F (f32 (f32Sub x mn))))
    let ps := xs.map prob
    let pair := ps.foldl (fun (a : BitVec 32 × BitVec 32) p => twoSum a.1 a.2 (toF32 (floatVal .e4m3 p))) start
    let zs := ((xs.zip ps).filter fun (x, p) => x != ninf && p == 0).length
    ⟨mn, pair.1, pair.2, ps, zs, rescale⟩

def attnPRun (accs : List Nat) (c : Core) : Core :=
  if c.stage.bufState ≠ .scores then c
  else
    let g := c.stage
    let rows := r8.map fun h => softRow g.mult (tgetD g.max h ninf) (tgetD g.hi h 0) (tgetD g.lo h 0)
      ((List.range 32).map fun t => tgetD g.buf (32 * h + t) 0)
    let row (h : Nat) : SoftRow := rows.getD h ⟨0, 0, 0, [], 0, .none⟩
    let rs (h : Nat) : Rescale := (row h).scale
    let c := if rows.any fun r => r.scale != .none then accs.foldl (fun (c : Core) a => c.rescale rs a) c else c
    c.modStage fun g => { g with
      max := tbl8 fun h => (row h).max
      hi := tbl8 fun h => (row h).hi
      lo := tbl8 fun h => (row h).lo
      zcnt := min (rows.foldl (fun a r => a + r.zeros) g.zcnt) (2 ^ 32 - 1)
      bufState := .probs
      buf := (rows.flatMap SoftRow.probs).zipIdx.map fun (p, x) => (x, BitVec.ofNat 32 p)
      bufShadow := [] }

/-- Probability-weighted values into accumulators (R319). -/
def attnVRun (ad n : Nat) (v : Nat → Nat → Num) (c : Core) : Core :=
  let p (h t : Nat) : Num :=
    if c.stage.bufState = .probs then floatVal .e4m3 (tgetD c.stage.buf (32 * h + t) 0).toNat else .fin false 0 0
  (accList (ad, 4 * n)).foldl (fun (c : Core) a =>
    let lo := 8 * (a - ad)
    c.kstep a false (fun h t => p h t) (fun j t => v t (lo + j))) c

/-- An exact quotient, with an odd last bit for an inexact rest; special values as R125. -/
def divNum (x y : Num) : Num :=
  match x, y with
  | .nan, _ => .nan
  | _, .nan => .nan
  | .inf n, y => if y.isInf then .nan else .inf (n != y.sign)
  | x, .inf n => .fin (x.sign != n) 0 0
  | .fin n m e, .fin n' m' e' =>
    if m' = 0 then (if m = 0 then .nan else .inf (n != n'))
    else
      let k := bitLen m' + 80
      let q := m * 2 ^ k / m'
      let st := if m * 2 ^ k % m' = 0 then 0 else 1
      .fin (n != n') (2 * q + st) (e - e' - k - 1)

/-- Results of `attn.f`: each source read before any is written, the shadows set from them (R320). -/
def attnFRun (dst : List Nat) (val : Nat → Nat → Nat → Num) (c : Core) : Core :=
  let new := dst.zipIdx.flatMap fun (a, g) => (List.range 64).map fun x => (64 * a + x, toF32 (val g (x / 8) (x % 8)))
  let c := { c with acc := new.foldl (fun t (e : Nat × BitVec 32) => tput t e.1 e.2) c.acc }
  { c with shadow := dst.foldl (fun (t : Tbl Shadow) a => tput t a (shadowFrom (c.accAt a))) c.shadow }

/-- D(h). -/
def Stage.denom (g : Stage) (h : Nat) : Num := sumNums false [f32 (tgetD g.hi h 0), f32 (tgetD g.lo h 0)]

def fmtOf (f : Ef) : Fmt := f.getD .fp32

/-- What a command writes (R307, R308, R314-R320), from the operands that it has read. -/
def matrixRun (o : Op) (a b w : List SlotVal) (c : Core) : Core :=
  let lxc := c.stage.lxc
  let lw := lxcLw lxc
  let fw := (Fmt.ofCode (lxcWef lxc)).getD .fp32
  match o.instr with
  | .mma _ _ ad _ _ _ _ fa fb _ n sca scb =>
    mmaRun ad.toNat n.toNat (fmtOf fa) (fmtOf fb) sca scb (operandAt a 0) (operandAt b 0) c
  | .mmz .. => mmzRun (accList (Instr.accRange o.instr lxc)) c
  | .lxcfg .. => c.modStage fun g => { g with lxc := o.args.getD 0 0 }
  | .smxcfg .. =>
    let v := o.args.getD 0 0
    c.modStage fun g =>
      let g := { g with mult := v.setWidth 32 }
      if v.getLsbD 32 then g
      else { g with max := [], hi := [], lo := [], zcnt := 0, bufState := .empty, buf := [], bufShadow := [] }
  | .qabs _ _ fq fw _ _ _ n => qabsRun n.toNat (fmtOf fq) (fmtOf fw) (operandAt a 0) (operandAt b 0) c
  | .attnS _ _ mode fq fk _ _ _ _ ntok _ =>
    let n := modeRuns mode lxc
    let fk := fmtOf fk
    let q (h x : Nat) : Num := match mode with
      | .absorb => c.stage.qabsElem h x
      | _ => (operandAt a 0).elem (fmtOf fq) (32 * n * h + x) 0
    let k : Nat → Nat → Num := match mode with
      | .expand _ => expandKeys fk fw lw (32 * n) b (operandAt w 0)
      | _ => latent fk b
    scoresRun (if ntok = 0 then 32 else ntok.toNat) n q k c
  | .attnP .. => attnPRun (accList (Instr.accRange o.instr lxc)) c
  | .attnV _ _ mode fv ad .. =>
    let n := modeRuns mode lxc
    let fv := fmtOf fv
    let v : Nat → Nat → Num := match mode with
      | .plain _ => fun t ch => (operandAt b (ch / 32)).elem fv (32 * (ch % 32) + t) (ch % 32)
      | .expand _ => expandValues fv fw lw (32 * n) b (operandAt w 0)
      | .absorb => latent fv b
    attnVRun ad.toNat n v c
  | .attnF _ _ _ ae proj _ =>
    let src (ch h : Nat) : Num := f32 (c.accAt (ae.toNat + ch / 8) h (ch % 8))
    let dst := accList (Instr.accRange o.instr lxc)
    match proj with
    | none => attnFRun dst (fun g h j => divNum (src (8 * g + j) h) (c.stage.denom h)) c
    | some (f, _, _, ndv) =>
      let width := 32 * (ndv.toNat + 1)
      attnFRun dst (fun g h j => divNum (dot lw (fun ch => src ch h)
        (fun ch => (operandAt b 0).elem (fmtOf f) (width * ch + 8 * g + j) 0)) (c.stage.denom h)) c
  | _ => c

/-- MATRIX_CMD_END: a begun command reads its operands, finishes its writes, and its number ends. -/
def matrixEnd (core n : Nat) : Act Unit := do
  let o ← needSome ((← get).coreAt core |>.me.find? fun o => o.started && o.num == n)
  opDo o do
    let ag := (← get).opAgent o
    let a ← readSlots ag o.readA
    let b ← readSlots ag o.readB
    let w ← readSlots ag o.readW
    let lxc := ((← get).coreAt core).stage.lxc
    opScan o (accWords (Instr.accAdds o.instr lxc))
    modify fun s => s.modCoreAt core fun c => (matrixRun o a b w c).freshAcc (accList (Instr.accRange o.instr lxc))
    opDone o

def execMatrixCmdEnd (core n : Nat) (s : State) : Outcome := eventDo (matrixEnd core n) s

end Sys2Proof.Machine
end

