-- ==== Sys2Proof/Machine/PairWord.lean ====
section
/-! DEFINITION. Pair words (spec/02 R23-R25): both halves read and check, then both write. -/

namespace Sys2Proof.Machine

/-- The scalar halves of R24. -/
def scalarHalfOf (i : Instr) : Half :=
  match i with
  | .add _ d a b sat => addHalf d a b sat
  | .sub _ d a b sat => subHalf d a b sat
  | .and _ d a b => andHalf d a b
  | .or _ d a b => orHalf d a b
  | .xor _ d a b => xorHalf d a b
  | .sll _ d a b => sllHalf d a b
  | .srl _ d a b => srlHalf d a b
  | .sra _ d a b => sraHalf d a b
  | .mul _ d a b => mulHalf d a b
  | .mulh _ d a b => mulhHalf d a b
  | .mulhu _ d a b => mulhuHalf d a b
  | .div _ d a b => divHalf d a b
  | .divu _ d a b => divuHalf d a b
  | .rem _ d a b => remHalf d a b
  | .remu _ d a b => remuHalf d a b
  | .min _ d a b => minHalf d a b
  | .max _ d a b => maxHalf d a b
  | .minu _ d a b => minuHalf d a b
  | .maxu _ d a b => maxuHalf d a b
  | .clz _ d a => clzHalf d a
  | .ctz _ d a => ctzHalf d a
  | .popc _ d a => popcHalf d a
  | .sext _ d a n => sextHalf d a n
  | .zext _ d a n => zextHalf d a n
  | .mov _ d a => movHalf d a
  | .addi _ d a imm sat => addiHalf d a imm sat
  | .andi _ d a imm => andiHalf d a imm
  | .ori _ d a imm => oriHalf d a imm
  | .xori _ d a imm => xoriHalf d a imm
  | .slli _ d a n => slliHalf d a n
  | .srli _ d a n => srliHalf d a n
  | .srai _ d a n => sraiHalf d a n
  | .li _ d imm => liHalf d imm
  | .lea _ d a off => leaHalf d a off
  | .leaPc _ d off => leaPcHalf d off
  | .bfx _ d a pos len sg => bfxHalf d a pos len sg
  | .bfi _ d a pos len => bfiHalf d a pos len
  | .cmp _ c pt pf a b => cmpHalf c pt pf a b
  | .cmpi _ c pt pf a imm => cmpiHalf c pt pf a imm
  | .pand _ d a b na nb => pandHalf d a b na nb
  | .por _ d a b na nb => porHalf d a b na nb
  | .pxor _ d a b na nb => pxorHalf d a b na nb
  | .pmov _ d a na => pmovHalf d a na
  | .sel _ d p b c => selHalf d p b c
  | .ld _ sz d a off _ => ldHalf sz d a off
  | .ldu _ sz d a off _ => lduHalf sz d a off
  | .st _ sz d a off _ => stHalf sz d a off
  | i => stopTrap (trIllegal i.low)

/-- `vclear` as a half. -/
def vclearHalf : Half := do
  if (← get).th.ldq.any fun o => o.ldVec.isSome then stopWait
  else pure (updTh Thread.clearV)

/-- The vector halves of R24, under an effective guard. -/
def vectorHalfOf (m : Word) (i : Instr) : Half :=
  match i with
  | .vadd _ ef d a b rm sat => vaddHalf m ef d a b rm sat
  | .vsub _ ef d a b rm sat => vsubHalf m ef d a b rm sat
  | .vmul _ ef d a b rm sat => vmulHalf m ef d a b rm sat
  | .vfma _ ef d a b c rm sat => vfmaHalf m ef d a b c rm sat
  | .vmin _ ef d a b => vminHalf m ef d a b
  | .vmax _ ef d a b => vmaxHalf m ef d a b
  | .vabs _ ef d a sat => vabsHalf m ef d a sat
  | .vneg _ ef d a sat => vnegHalf m ef d a sat
  | .vand _ ef d a b => vandHalf m ef d a b
  | .vor _ ef d a b => vorHalf m ef d a b
  | .vxor _ ef d a b => vxorHalf m ef d a b
  | .vshl _ ef d a b => vshlHalf m ef d a b
  | .vshr _ ef d a b => vshrHalf m ef d a b
  | .vsra _ ef d a b => vsraHalf m ef d a b
  | .vsel _ ef d pc a b => vselHalf m ef d pc a b
  | .vmov _ ef d a => vmovHalf m ef d a
  | .vcmp _ c ef pt pf a b => vcmpHalf m c ef pt pf a b
  | .vcvt _ dst src d a part rm sat => vcvtHalf m dst src d a part rm sat
  | .vrcp _ ef d a rm sat => vrcpHalf m ef d a rm sat
  | .vrsqrt _ ef d a rm sat => vrsqrtHalf m ef d a rm sat
  | .vexp2 _ ef d a => vexp2Half m ef d a
  | .vlog2 _ ef d a rm sat => vlog2Half m ef d a rm sat
  | .vredsum _ ef d a rm sat => vredsumHalf m ef d a rm sat
  | .vredmax _ ef d a => vredmaxHalf m ef d a
  | .vbcast _ ef d a => vbcastHalf m ef d a
  | .vext _ ef d a idx => vextHalf ef d a idx
  | .vins _ ef d a idx => vinsHalf ef d a idx
  | .vperm _ ef d a b => vpermHalf m ef d a b
  | .vshuf _ ef d a b c => vshufHalf m ef d a b c
  | .vpack _ ef d a b sat => vpackHalf m ef d a b sat
  | .vunpack _ ef d a h u => vunpackHalf m ef d a h u
  | .vclear _ => vclearHalf
  | .vquant _ dst src d a k o part rm => vquantHalf dst src d a k o part rm
  | .vdeq _ dst src d a part rm sat => vdeqHalf dst src d a part rm sat
  | .vld _ d a off _ => vldHalf m d a off
  | .vst _ d a off _ => vstHalf m d a off
  | .vldg _ ef d a b x => vldgHalf m ef d a b x
  | .vsts _ ef d a b x => vstsHalf m ef d a b x
  | i => stopTrap (trIllegal i.low)

/-- A half acts when the pair's guard, as the half applies it, lets it (R122). -/
def halfLive (s : State) (gd : Guard) (i : Instr) : Bool :=
  (Instr.guardKind i s.core.format).live (s.th.effGuard gd)

/-- The stop of a vector half: its traps say that they are the vector half's, and so does a blocked access
(spec/16 R268, R274). -/
def vectorStop (st : Stop) (s : State) : Stop × State :=
  match st with
  | .trap t => (.trap { t with vh := true }, s)
  | .trapKeep t => (.trapKeep { t with vh := true }, s)
  | .wait => (.wait, s.modTh fun t => { t with blocked := t.blocked.map fun b => { b with vh := true } })
  | st => (st, s)

/-- The reads and checks of the vector half: its format, then the engine owner first (spec/16 R272). -/
def vectorPhase (gd : Guard) (a v : Instr) : Half := fun s =>
  match s.vecFmtTrap (.pair gd a v) with
  | some tr => .error (.trap tr) s
  | none =>
    if !halfLive s gd v then .ok (pure ()) s
    else match (if v.needsOwner then s.ownerTrap true else none) with
    | some tr => .error (.trap tr) s
    | none => match vectorHalfOf (s.th.effGuard gd) v s with
      | .ok c s' => .ok c s'
      | .error st s' =>
        let (st, s') := vectorStop st s'
        .error st s'

def scalarPhase (gd : Guard) (a : Instr) : Half := fun s =>
  if halfLive s gd a then scalarHalfOf a s else .ok (pure ()) s

/-- A half that meets a failing track: neither half writes anything (R25, spec/05 R96, spec/16 R278). -/
def pairKeep (s0 : State) (st : Stop) (s : State) : Stop × State :=
  match st with
  | .trapKeep t => (.trapKeep { t with moved := 0 }, State.keepFound s0 s)
  | st => (st, s)

/-- The writes: the vector half's, which may still trap, then the scalar half's. `s0` is the state before the
pair. -/
def pairCommit (s0 : State) (cs cv : Commit) : Act Next := fun s =>
  match cv s with
  | .error st s' =>
    let (st, s') := vectorStop st s'
    let (st, s') := pairKeep s0 st s'
    .error st s'
  | .ok _ s' => (do cs; pure Next.fall : Act Next) s'

/-- A half that acts is not ready (spec/03 R33, spec/08 R141). -/
def halfWaits (s : State) (gd : Guard) (i : Instr) : Bool := halfLive s gd i && s.waitsFor i

/-- A pair word (R25): it issues when both halves are ready; then the scalar half's trap comes first. -/
def pairBody (gd : Guard) (a v : Instr) : Act Next := fun s =>
  if halfWaits s gd a || ((s.vecFmtTrap (.pair gd a v)).isNone && halfWaits s gd v) then .error .wait s
  else match scalarPhase gd a s with
  | .error st s' =>
    let (st, s') := pairKeep s st s'
    .error st s'
  | .ok cs s1 =>
    match vectorPhase gd a v s with
    | .error .wait s' => .error .wait s'
    | _ => match vectorPhase gd a v s1 with
      | .error st s' =>
        let (st, s') := pairKeep s st s'
        .error st s'
      | .ok cv s2 => pairCommit s cs cv s2

def execPair (gd : Guard) (a v : Instr) (s : State) : Outcome := issue (.pair gd a v) (pairBody gd a v) s

end Sys2Proof.Machine
end

