-- ==== Sys2Proof/Machine/SchedInstr.lean ====
section
/-! DEFINITION. Continuations, supersteps and gangs as instructions: `spawn`, `yield`, `send`, `recv`,
`dsync`, `dmem`, `snaparm`, `gang`, `detach`, `rejoin`, the messages of a level-6 superstep, and the end
of a rollback's restore (spec/14 R241-R245, spec/15 R258-R261). -/

namespace Sys2Proof.Machine

/-- The spawner's own domain is the target domain or an ancestor of it (R249); a level-6 domain is one
domain on every package (R247). -/
def State.mayStart (s : State) (dk : Nat) : Bool :=
  let own := domKey (pkgOf s.cc) s.th.dom
  let six (k : Nat) : Bool := ((s.domAt k).map fun d => d.level == 6).getD false
  (s.chain dk).any fun k => k == own || (k % 2 ^ 32 == s.th.dom && six k && six own)

/-- An effect is put off until the next `dsync` when the thread's domain is armed (spec/15 R259). -/
def State.defer (s : State) (d : Deferred) : State :=
  s.modDomAt (domKey (pkgOf s.cc) s.th.dom) fun x => { x with deferred := x.deferred ++ [d] }

/-- `spawn` (R242). -/
def spawnAct (d a : GReg) : Act Next := do
  let r ← namedRecord ((← get).g a)
  let s ← get
  let code := if s.recLive (r.key s) then 1 else spawnCode s r.pkg r.w0 r.w2 r.w3 s.mayStart
  let cl := s.clusterFor r.pkg r.w2 r.w3 (some (s.clusterOn r.pkg))
  if code ≠ 0 then onThread fun t => t.setG d (BitVec.ofNat 64 code)
  else if s.armed s.tk then do
    modify fun s => s.defer (.spawn r.pkg (r.spn s) r.addr r.w0 r.w2 r.w3 cl)
    onThread fun t => t.setG d 0
  else do
    modify fun s => submitAt r.pkg (r.spn s) r.addr r.w0 r.w2 r.w3 cl s
    onThread fun t => t.setG d 0

/-- `send` (R244); a full drawer makes it wait. A token to a record that has ended bounces to the sender's
own queue. -/
def sendAct (d a b : GReg) : Act Next := do
  let v := (← get).g b
  let r ← namedRecord ((← get).g a)
  let s ← get
  let tok := s.tokenOf v
  let k := r.key s
  let st := s.targetStatus k (w3Status r.w3)
  let cl := r.drawer s
  if s.armed s.tk then do
    modify fun s => s.defer (.send k st cl r.dom r.addr tok)
    onThread fun t => t.setG d 0
  else match placeToken k st cl r.dom tok s with
    | none => stopWait
    | some s' => do
      set s'
      onThread fun t => t.setG d 0

/-- Tokens parked for the current thread's record follow into its receive queue (R245). -/
def refillHere (s : State) : State :=
  match s.keyOf s.tk with
  | none => s
  | some k => refillQueue s.tk k s

/-- The oldest token leaves the receive queue, and a parked one follows into it (R245). -/
def takeToken (s : State) : State := refillHere (s.modTh fun t => { t with rq := t.rq.drop 1 })

/-- The status word of a token (R245). -/
def Token.status (t : Token) : Word :=
  if t.bounce then 1 ||| (t.src &&& BitVec.ofNat 64 (2 ^ 57 - 64)) else 0

/-- `recv` and `recv.try` (R245). A thread that has no record of its own waits in its slot. One that finds a token does
not suspend, and passes no suspension point for its fetch (spec/02 R30; log entry 21). -/
def recvAct (d c : GReg) (try_ : Bool) : Act Next := do
  modify refillHere
  let s ← get
  match s.th.rq with
  | tok :: _ => do
    modify takeToken
    onThread fun t => (t.setG d tok.tok).setG c tok.status
  | [] =>
    if try_ then onThread fun t => (t.setG d 0).setG c 2
    else if (s.keyOf s.tk).isNone then stopWait
    else do
      suspendThread s.tk .recv s.th.pc false
      pure .left

def execSpawn (gd : Guard) (d a : GReg) (s : State) : Outcome := issue (.spawn gd d a) (spawnAct d a) s

/-- `yield` (R243). A gang's follower, which has no record, stays in its slot. -/
def execYield (gd : Guard) (s : State) : Outcome :=
  issue (.yield gd) (do
    if ((← get).keyOf (← get).tk).isNone then pure .fall else suspendAfter (.yield gd) .yield) s

def execSend (gd : Guard) (d a b : GReg) (s : State) : Outcome := issue (.send gd d a b) (sendAct d a b) s
def execRecv (gd : Guard) (d c : GReg) (s : State) : Outcome := issue (.recv gd d c) (recvAct d c false) s
def execRecvTry (gd : Guard) (d c : GReg) (s : State) : Outcome := issue (.recvTry gd d c) (recvAct d c true) s

/-! ## Supersteps (spec/15 R258) -/

/-- The thread is an attached follower of a gang. -/
def Thread.follows (t : Thread) (th : Nat) : Bool :=
  match t.gang with
  | some g => g.attached && g.leader != th
  | none => false

/-- What `dsync` at a level orders for the constant path: package scope and wider (spec/12 R207). -/
def dsyncFence (level : Nat) (s : State) : State := constFence (decide (5 ≤ level)) s

/-- The number of packages' members counted at a domain: at level 6 with the counts that other packages
have reported to this one, and the members that had ended where it was killed. -/
def Domain.countedAll (pkg : Nat) (d : Domain) : Nat :=
  d.counted + d.gone + (d.counts.filter fun (p, _) => p != pkg && decide (p < 2 ^ 32)).foldl (fun n x => n + x.2) 0

/-- A member arrives without leaving its slot. -/
def arriveHere (dk key : Nat) (s : State) : State :=
  s.modDomAt dk fun d => { d with arrived := d.arrived ++ [key] }

/-- A `dsync` that stands: the arrival, the completion by the last arriver, the suspension or the wait. A last arriver
that goes on at once passes no suspension point for its fetch (spec/02 R30; log entry 21). -/
def dsyncArrive (d : GReg) (dk : Nat) (x : Domain) : Act Next := do
  let s ← get
  let key := s.memberKey s.tk
  let last := x.level != 6 && x.memb ≤ x.counted + 1
  let snap := x.arm || x.armReq == some true
  let stays := (s.keyOf s.tk).isNone || dk == gangDom s.tk
  if last && (stays || !snap) then do
    modify fun s => completeSuperstep dk (arriveHere dk key s)
    let failed := (((← get).domAt dk).map (·.armFailed)).getD false
    onThread fun t => { t with waiting := none, waited := 0 }.setG d (if failed then 1 else 0)
  else if stays then do
    modify (arriveHere dk key)
    updTh fun t => { t with waiting := some .dsync }
    stopWait
  else do
    suspendThread s.tk .dsync s.th.pc false
    let ok := (((← get).recAt key).map fun r => r.status == 3).getD false
    if ok then modify (arriveHere dk key) else pure ()
    if last && ok then modify (completeSuperstep dk) else pure ()
    pure .left

/-- `dsync` (R258). -/
def dsyncAct (i : Instr) (d : GReg) (level : Nat) : Act Next := do
  let s ← get
  let t := s.th
  match t.dsyncRes with
  | some r => onThread fun t => { t with dsyncRes := none, waiting := none, waited := 0 }.setG d r
  | none =>
    match s.nearest (s.chainOf s.tk) level with
    | none => stopTrap (trIllegal i.low)
    | some dk =>
      if t.waiting = some .dsync ∨ !(s.allOps s.tk).isEmpty then stopWait
      else do
        modify (dsyncFence level)
        if level = 0 ∨ t.inTrap ∨ t.follows s.tk then onThread fun t => t.setG d 0
        else match s.domAt dk with
          | none => stopTrap (trIllegal i.low)
          | some x =>
            if x.memb ≤ x.countedAll (pkgOf s.cc) then do
              modify fun s => (s.reportHere { cls := 4, src := 7, addr := 0, synd := dk % 2 ^ 32 }).1
              onThread fun t => t.setG d 2
            else dsyncArrive d dk x

def execDsync (gd : Guard) (d : GReg) (level : BitVec 3) (s : State) : Outcome :=
  issue (.dsync gd d level) (dsyncAct (.dsync gd d level) d level.toNat) s

def execDmem (gd : Guard) (d c : GReg) (s : State) : Outcome :=
  issue (.dmem gd d c) (onState fun s =>
    let t := s.th
    let x := (s.domOfThread s.tk).map (·.2)
    let id := BitVec.ofNat 64 (t.dom % 2 ^ 32 + 2 ^ 32 * (t.level % 8))
    let m := BitVec.ofNat 64 (((x.map (·.memb)).getD 0) % 2 ^ 32 + 2 ^ 32 * (((x.map (·.rbcnt)).getD 0) % 2 ^ 16))
    s.modTh fun t => (t.setG d id).setG c m) s

/-- `snaparm` (R259): the request waits for the next completed `dsync`, at level 6 on every package of the domain. -/
def execSnaparm (gd : Guard) (d a : GReg) (s : State) : Outcome :=
  issue (.snaparm gd d a) (onState fun s =>
    let arm := (s.g a).getLsbD 0
    let cur := s.armed s.tk
    let s := match s.domOfThread s.tk with
      | some (k, d) => (s.sixDoms k d).foldl (fun (s : State) k => s.modDomAt k fun x => { x with armReq := some arm }) s
      | none => s
    s.modTh fun t => t.setG d (BitVec.ofNat 64 cur.toNat)) s

/-! ## Level 6 (R258): counts go to the lowest package of the domain, the completion comes back -/

/-- An arrival beyond MEMB is discarded: its record goes on with the result 2. -/
def discardArrival (dk key : Nat) (s : State) : State :=
  let s := s.modDomAt dk fun d => { d with arrived := d.arrived.filter (· != key) }
  match s.recAt key with
  | some r => if r.status = 3 then (s.setRec key { r with dsyncRes := some 2, snap := none, waited := 0 }).makeQueued key else s
  | none => s.modThreadAt (key - 2 ^ 90) fun t => { t with dsyncRes := some 2, waiting := none, waited := 0 }

/-- An arming of a domain fails on one of its packages, and so on all (R259). -/
def State.sixFails (s : State) (pkgs : List Nat) (dom : Nat) : Bool :=
  pkgs.any fun p => ((s.domAt (domKey p dom)).map (armFails s (domKey p dom))).getD false

/-- The superstep is complete: the reported counts are used up, and the completion goes to every package; its number is
2 where an arming fails. -/
def startCompletion (pkgs : List Nat) (low dom : Nat) (s : State) : State :=
  let mark := if s.sixFails pkgs dom then 2 else 1
  let s := s.modDomAt (domKey low dom) fun x => { x with counts := [] }
  pkgs.foldl (fun s p => s.modDomAt (domKey p dom) fun x =>
    { x with counts := tput x.counts completionMark mark }) s

/-- A package's count reaches the lowest package: an excess is reported and discarded, a full count starts
the completion. -/
def countMessage (src dom count : Nat) : Act Unit := do
  let s ← get
  let pkgs := s.sixPkgs dom
  let low ← needSome pkgs.min?
  let sk := domKey src dom
  let lk := domKey low dom
  let d ← needSome (s.domAt sk)
  need (pkgs.contains src && count == d.counted)
  modify fun s => s.modDomAt lk fun x => { x with counts := tput x.counts src count }
  let x ← needSome ((← get).domAt lk)
  let sum := (x.counts.filter fun (p, _) => p != completionMark).foldl (fun n y => n + y.2) x.gone
  if x.memb < sum then do
    let extra := (d.arrived.reverse.take (sum - x.memb)).reverse
    extra.forM fun k => modify fun s =>
      discardArrival sk k (reportError s low none none { cls := 4, src := 7, addr := 0, synd := dom % 2 ^ 32 }).1
    modify fun s => s.modDomAt lk fun x => { x with counts := tput x.counts src (count - extra.length) }
  else pure ()
  if x.memb ≤ sum then modify (startCompletion pkgs low dom) else pure ()

def execDsyncCountMessage (src dom count : Nat) (s : State) : Outcome := eventDo (countMessage src dom count) s

/-- The completion reaches a package. -/
def execDsyncCompletionMessage (pkg dom : Nat) (s : State) : Outcome :=
  eventDo (do
    let dk := domKey pkg dom
    let d ← needSome ((← get).domAt dk)
    let mark ← needSome (tget d.counts completionMark)
    modify fun s => completeWith (mark == 2) dk (s.setDomAt dk { d with counts := tdel d.counts completionMark })) s

/-- RESTORE_COMPLETE (R251, R260). -/
def execRestoreComplete (pkg dom : Nat) (s : State) : Outcome :=
  eventDo (do
    let d ← needSome ((← get).domAt (domKey pkg dom))
    need (d.st == .rollingBack)
    modify (restoreDone (domKey pkg dom))) s

/-! ## Gangs (spec/15 R261) -/

/-- A slot can receive a copy of a thread: free, of a core in use, not beside an armed domain of others,
and with the frame track unclaimed. -/
def copySlotFree (s : State) (t : Thread) (th : Nat) : Bool :=
  slotFree s th && !(s.coreAt (th / 4)).fenced && !(s.clusterAt (clusterOf (th / 4))).fenced &&
    !((List.range 4).any fun i =>
      let u := s.threadAt (4 * (th / 4) + i)
      u.bound && u.dom != t.dom && s.armed (4 * (th / 4) + i)) &&
    (match t.ftrk with
      | some n => (s.trackAt (th / 4) n).claim == .none
      | none => true)

/-- The area that a copy's frame store has (R223): a slot area of its own slot, else the leader's. -/
def copyArea (s : State) (t : Thread) (th : Nat) : Word :=
  if t.ftrk.isSome || w3Ovx t.w3 != 0 then t.ab
  else match s.domOfThread s.tk with
    | some (_, d) => addrAdd d.slotBase (t.al * (4 * coreIn (th / 4) + th % 4))
    | none => t.ab

/-- Place a copy of the leader's state in a slot, with the words of its frame store. -/
def placeCopy (t : Thread) (lead n : Nat) (ws : List Word) (th : Nat) : Act Unit := do
  modify fun s =>
    let s := s.setThreadAt th { t with
      rec_ := 0, ab := copyArea s t th, rq := [], evf := false
      gang := some { leader := lead, n := n, attached := true } }
    match t.ftrk with
    | some k => s.modTrack (th / 4) k fun x => { x with claim := .thread (th % 4) }
    | none => s
  frameWrites th 0 none ws

/-- `gang` (R261). A thread that is in a gang already forms none; the leader's operations end first. -/
def gangAct (i : Instr) (d : GReg) (n : Nat) : Act Next := do
  let s ← get
  let th := s.tk
  let t := s.th
  let c := coreIn s.cc % 64
  trapIf (decide (8 < c % 8 + n)) (trAccess (BitVec.ofNat 64 n))
  let slots := (List.range (n - 1)).map fun m => 4 * (s.cc + m + 1) + s.ct
  if t.gang.isSome || !(slots.all (copySlotFree s t)) then onThread fun t => t.setG d 0
  else if !(s.allOps th).isEmpty then stopWait
  else whole th do
    saveScan th
    let t := (← get).th
    let ws ← frameReads th 0 none t.fsp
    let lead := advanceThread i t (t.setG d (BitVec.ofNat 64 n)) none
    let shared := t.ftrk.isNone && w3Ovx t.w3 != 0
    modify fun s =>
      let s := s.setTh { lead with gang := some { leader := th, n := n, attached := true } }
      let dk := domKey (pkgOf s.cc) t.dom
      s.setDomAt (gangDom th) { level := 2, spn := t.spn, parent := some dk, memb := n, home := clusterIn (clusterOf s.cc) }
    slots.forM (placeCopy lead th n (if shared then [] else ws))
    pure .left

def execGang (gd : Guard) (d : GReg) (n : BitVec 20) (s : State) : Outcome :=
  issue (.gang gd d n) (untouched (gangAct (.gang gd d n) d n.toNat)) s

def execDetach (gd : Guard) (s : State) : Outcome :=
  issue (.detach gd) (do
    let s ← get
    match s.th.gang with
    | none => pure .fall
    | some g =>
      trapIf (g.leader == s.tk) (trIllegal (Instr.low (.detach gd)))
      onThread fun t => { t with gang := some { g with attached := false } }) s

/-- A follower that waits at `rejoin` completes it, its own loops examined (spec/04 R61), and attaches again at the
leader's successor. -/
def reattach (i : Instr) (nx : Pc) (count : Nat) (t : Thread) : Thread :=
  let u := advanceThread i t t none
  { u.goTo nx with
    waiting := none, waited := 0
    gang := t.gang.map fun g => { g with attached := true, token := none, trail := [], count := count } }

/-- `rejoin` (R261). -/
def rejoinAct (i : Instr) (tok : BitVec 16) : Act Next := do
  let s ← get
  let t := s.th
  match t.gang with
  | none => pure .fall
  | some g =>
    if g.leader = s.tk then
      let fs := s.detached s.tk
      if s.rejoined s.tk tok then do
        let nx := (advanceThread i t t none).pc
        modify fun s => fs.foldl (fun s f => s.modThreadAt f (reattach i nx (g.count + 1))) s
        onThread fun t => { t with waiting := none, waited := 0 }
      else do
        updTh fun t => { t with waiting := some (.rejoin tok) }
        stopWait
    else if g.attached then pure .fall
    else do
      updTh fun t => { t with waiting := some (.rejoin tok), gang := some { g with token := some tok } }
      stopWait

def execRejoin (gd : Guard) (tok : BitVec 16) (s : State) : Outcome :=
  issue (.rejoin gd tok) (rejoinAct (.rejoin gd tok) tok) s

end Sys2Proof.Machine
end

