-- ==== Sys2Proof/Machine/Dispatch.lean ====
section
/-! DEFINITION. The one dispatch of the machine: an arm per constructor of Instr, each a call of the
instruction's meaning. -/

namespace Sys2Proof.Machine

def exec (i : Instr) (s : State) : Host.Outcome State Fault Refusal :=
  match i with
  | .add gd d a b sat => Sys2Proof.Machine.execAdd gd d a b sat s
  | .sub gd d a b sat => Sys2Proof.Machine.execSub gd d a b sat s
  | .and gd d a b => Sys2Proof.Machine.execAnd gd d a b s
  | .or gd d a b => Sys2Proof.Machine.execOr gd d a b s
  | .xor gd d a b => Sys2Proof.Machine.execXor gd d a b s
  | .sll gd d a b => Sys2Proof.Machine.execSll gd d a b s
  | .srl gd d a b => Sys2Proof.Machine.execSrl gd d a b s
  | .sra gd d a b => Sys2Proof.Machine.execSra gd d a b s
  | .mul gd d a b => Sys2Proof.Machine.execMul gd d a b s
  | .mulh gd d a b => Sys2Proof.Machine.execMulh gd d a b s
  | .mulhu gd d a b => Sys2Proof.Machine.execMulhu gd d a b s
  | .div gd d a b => Sys2Proof.Machine.execDiv gd d a b s
  | .divu gd d a b => Sys2Proof.Machine.execDivu gd d a b s
  | .rem gd d a b => Sys2Proof.Machine.execRem gd d a b s
  | .remu gd d a b => Sys2Proof.Machine.execRemu gd d a b s
  | .min gd d a b => Sys2Proof.Machine.execMin gd d a b s
  | .max gd d a b => Sys2Proof.Machine.execMax gd d a b s
  | .minu gd d a b => Sys2Proof.Machine.execMinu gd d a b s
  | .maxu gd d a b => Sys2Proof.Machine.execMaxu gd d a b s
  | .clz gd d a => Sys2Proof.Machine.execClz gd d a s
  | .ctz gd d a => Sys2Proof.Machine.execCtz gd d a s
  | .popc gd d a => Sys2Proof.Machine.execPopc gd d a s
  | .sext gd d a n1 => Sys2Proof.Machine.execSext gd d a n1 s
  | .zext gd d a n1 => Sys2Proof.Machine.execZext gd d a n1 s
  | .mov gd d a => Sys2Proof.Machine.execMov gd d a s
  | .rdsr gd d sreg => Sys2Proof.Machine.execRdsr gd d sreg s
  | .wrsr gd sreg a => Sys2Proof.Machine.execWrsr gd sreg a s
  | .addi gd d a imm sat => Sys2Proof.Machine.execAddi gd d a imm sat s
  | .andi gd d a imm => Sys2Proof.Machine.execAndi gd d a imm s
  | .ori gd d a imm => Sys2Proof.Machine.execOri gd d a imm s
  | .xori gd d a imm => Sys2Proof.Machine.execXori gd d a imm s
  | .slli gd d a imm => Sys2Proof.Machine.execSlli gd d a imm s
  | .srli gd d a imm => Sys2Proof.Machine.execSrli gd d a imm s
  | .srai gd d a imm => Sys2Proof.Machine.execSrai gd d a imm s
  | .li gd d imm => Sys2Proof.Machine.execLi gd d imm s
  | .liI32 gd d imm => Sys2Proof.Machine.execLiI32 gd d imm s
  | .liI64 gd d imm => Sys2Proof.Machine.execLiI64 gd d imm s
  | .lea gd d a off => Sys2Proof.Machine.execLea gd d a off s
  | .leaI32 gd d a off => Sys2Proof.Machine.execLeaI32 gd d a off s
  | .leaPc gd d off => Sys2Proof.Machine.execLeaPc gd d off s
  | .leaPcI32 gd d off => Sys2Proof.Machine.execLeaPcI32 gd d off s
  | .bfx gd d a pos len1 sg => Sys2Proof.Machine.execBfx gd d a pos len1 sg s
  | .bfi gd d a pos len1 => Sys2Proof.Machine.execBfi gd d a pos len1 s
  | .cmp gd c pt pf a b => Sys2Proof.Machine.execCmp gd c pt pf a b s
  | .cmpi gd c pt pf a imm => Sys2Proof.Machine.execCmpi gd c pt pf a imm s
  | .pand gd d a b na nb => Sys2Proof.Machine.execPand gd d a b na nb s
  | .por gd d a b na nb => Sys2Proof.Machine.execPor gd d a b na nb s
  | .pxor gd d a b na nb => Sys2Proof.Machine.execPxor gd d a b na nb s
  | .pmov gd d a na => Sys2Proof.Machine.execPmov gd d a na s
  | .sel gd d p b c => Sys2Proof.Machine.execSel gd d p b c s
  | .br gd off => Sys2Proof.Machine.execBr gd off s
  | .call gd off => Sys2Proof.Machine.execCall gd off s
  | .jr gd a => Sys2Proof.Machine.execJr gd a s
  | .callr gd a => Sys2Proof.Machine.execCallr gd a s
  | .ret gd => Sys2Proof.Machine.execRet gd s
  | .loop gd n a off => Sys2Proof.Machine.execLoop gd n a off s
  | .loopi gd n count off => Sys2Proof.Machine.execLoopi gd n count off s
  | .lbrk gd n => Sys2Proof.Machine.execLbrk gd n s
  | .clause gd n => Sys2Proof.Machine.execClause gd n s
  | .wait gd n => Sys2Proof.Machine.execWait gd n s
  | .waitExpiry core thr => Sys2Proof.Machine.execWaitExpiry core thr s
  | .exit gd => Sys2Proof.Machine.execExit gd s
  | .nop gd len => Sys2Proof.Machine.execNop gd len s
  | .trap gd n => Sys2Proof.Machine.execTrap gd n s
  | .tret gd => Sys2Proof.Machine.execTret gd s
  | .ld gd sz d a off acq => Sys2Proof.Machine.execLd gd sz d a off acq s
  | .ldu gd sz d a off acq => Sys2Proof.Machine.execLdu gd sz d a off acq s
  | .st gd sz d a off rel => Sys2Proof.Machine.execSt gd sz d a off rel s
  | .ldM32 gd sz d a off acq => Sys2Proof.Machine.execLdM32 gd sz d a off acq s
  | .lduM32 gd sz d a off acq => Sys2Proof.Machine.execLduM32 gd sz d a off acq s
  | .stM32 gd sz d a off rel => Sys2Proof.Machine.execStM32 gd sz d a off rel s
  | .lda gd sz fd d a off => Sys2Proof.Machine.execLda gd sz fd d a off s
  | .ldau gd sz fd d a off => Sys2Proof.Machine.execLdau gd sz fd d a off s
  | .asyncLoadStart core thr n => Sys2Proof.Machine.execAsyncLoadStart core thr n s
  | .asyncLoadComplete core thr n => Sys2Proof.Machine.execAsyncLoadComplete core thr n s
  | .amoadd gd d a b dw ord => Sys2Proof.Machine.execAmoadd gd d a b dw ord s
  | .amoswp gd d a b dw ord => Sys2Proof.Machine.execAmoswp gd d a b dw ord s
  | .amocas gd d a b c dw ord => Sys2Proof.Machine.execAmocas gd d a b c dw ord s
  | .amomin gd d a b dw ord u => Sys2Proof.Machine.execAmomin gd d a b dw ord u s
  | .amomax gd d a b dw ord u => Sys2Proof.Machine.execAmomax gd d a b dw ord u s
  | .amoand gd d a b dw ord => Sys2Proof.Machine.execAmoand gd d a b dw ord s
  | .amoor gd d a b dw ord => Sys2Proof.Machine.execAmoor gd d a b dw ord s
  | .famoFx gd a b ord => Sys2Proof.Machine.execFamoFx gd a b ord s
  | .fxrd gd d a clr ord => Sys2Proof.Machine.execFxrd gd d a clr ord s
  | .fence gd sc kinds => Sys2Proof.Machine.execFence gd sc kinds s
  | .tclaim gd t => Sys2Proof.Machine.execTclaim gd t s
  | .tclaimTry gd p t => Sys2Proof.Machine.execTclaimTry gd p t s
  | .trel gd t => Sys2Proof.Machine.execTrel gd t s
  | .tsync gd t => Sys2Proof.Machine.execTsync gd t s
  | .hpos gd d t => Sys2Proof.Machine.execHpos gd d t s
  | .seek gd fd t slot => Sys2Proof.Machine.execSeek gd fd t slot s
  | .seekr gd fd t dist => Sys2Proof.Machine.execSeekr gd fd t dist s
  | .rew gd fd t => Sys2Proof.Machine.execRew gd fd t s
  | .seekReg gd fd t b => Sys2Proof.Machine.execSeekReg gd fd t b s
  | .seekrReg gd fd t b => Sys2Proof.Machine.execSeekrReg gd fd t b s
  | .trd gd d t => Sys2Proof.Machine.execTrd gd d t s
  | .twr gd t d => Sys2Proof.Machine.execTwr gd t d s
  | .trds gd d t s1 => Sys2Proof.Machine.execTrds gd d t s1 s
  | .twrs gd t d s1 => Sys2Proof.Machine.execTwrs gd t d s1 s
  | .vtrds gd d t s1 => Sys2Proof.Machine.execVtrds gd d t s1 s
  | .vtwrs gd t d s1 => Sys2Proof.Machine.execVtwrs gd t d s1 s
  | .tstream gd fd q t c s1 => Sys2Proof.Machine.execTstream gd fd q t c s1 s
  | .tfill gd fd t q c s1 => Sys2Proof.Machine.execTfill gd fd t q c s1 s
  | .trackCmdBegin core => Sys2Proof.Machine.execTrackCmdBegin core s
  | .trackCmdComplete core => Sys2Proof.Machine.execTrackCmdComplete core s
  | .tstreamSlot core => Sys2Proof.Machine.execTstreamSlot core s
  | .tfillSlot core => Sys2Proof.Machine.execTfillSlot core s
  | .trackSpareReplace core track lost => Sys2Proof.Machine.execTrackSpareReplace core track lost s
  | .vadd gd ef d a b rm sat => Sys2Proof.Machine.execVadd gd ef d a b rm sat s
  | .vsub gd ef d a b rm sat => Sys2Proof.Machine.execVsub gd ef d a b rm sat s
  | .vmul gd ef d a b rm sat => Sys2Proof.Machine.execVmul gd ef d a b rm sat s
  | .vfma gd ef d a b c rm sat => Sys2Proof.Machine.execVfma gd ef d a b c rm sat s
  | .vmin gd ef d a b => Sys2Proof.Machine.execVmin gd ef d a b s
  | .vmax gd ef d a b => Sys2Proof.Machine.execVmax gd ef d a b s
  | .vabs gd ef d a sat => Sys2Proof.Machine.execVabs gd ef d a sat s
  | .vneg gd ef d a sat => Sys2Proof.Machine.execVneg gd ef d a sat s
  | .vand gd ef d a b => Sys2Proof.Machine.execVand gd ef d a b s
  | .vor gd ef d a b => Sys2Proof.Machine.execVor gd ef d a b s
  | .vxor gd ef d a b => Sys2Proof.Machine.execVxor gd ef d a b s
  | .vshl gd ef d a b => Sys2Proof.Machine.execVshl gd ef d a b s
  | .vshr gd ef d a b => Sys2Proof.Machine.execVshr gd ef d a b s
  | .vsra gd ef d a b => Sys2Proof.Machine.execVsra gd ef d a b s
  | .vsel gd ef d pc a b => Sys2Proof.Machine.execVsel gd ef d pc a b s
  | .vmov gd ef d a => Sys2Proof.Machine.execVmov gd ef d a s
  | .vcmp gd c ef pt pf a b => Sys2Proof.Machine.execVcmp gd c ef pt pf a b s
  | .vcvt gd dst src d a part rm sat => Sys2Proof.Machine.execVcvt gd dst src d a part rm sat s
  | .vrcp gd ef d a rm sat => Sys2Proof.Machine.execVrcp gd ef d a rm sat s
  | .vrsqrt gd ef d a rm sat => Sys2Proof.Machine.execVrsqrt gd ef d a rm sat s
  | .vexp2 gd ef d a => Sys2Proof.Machine.execVexp2 gd ef d a s
  | .vlog2 gd ef d a rm sat => Sys2Proof.Machine.execVlog2 gd ef d a rm sat s
  | .vredsum gd ef d a rm sat => Sys2Proof.Machine.execVredsum gd ef d a rm sat s
  | .vredmax gd ef d a => Sys2Proof.Machine.execVredmax gd ef d a s
  | .vbcast gd ef d a => Sys2Proof.Machine.execVbcast gd ef d a s
  | .vext gd ef d a idx => Sys2Proof.Machine.execVext gd ef d a idx s
  | .vins gd ef d a idx => Sys2Proof.Machine.execVins gd ef d a idx s
  | .vperm gd ef d a b => Sys2Proof.Machine.execVperm gd ef d a b s
  | .vshuf gd ef d a b c => Sys2Proof.Machine.execVshuf gd ef d a b c s
  | .vpack gd ef d a b sat => Sys2Proof.Machine.execVpack gd ef d a b sat s
  | .vunpack gd ef d a h u => Sys2Proof.Machine.execVunpack gd ef d a h u s
  | .vclear gd => Sys2Proof.Machine.execVclear gd s
  | .vquant gd dst src d a k o part rm => Sys2Proof.Machine.execVquant gd dst src d a k o part rm s
  | .vdeq gd dst src d a part rm sat => Sys2Proof.Machine.execVdeq gd dst src d a part rm sat s
  | .vld gd d a off acq => Sys2Proof.Machine.execVld gd d a off acq s
  | .vst gd d a off rel => Sys2Proof.Machine.execVst gd d a off rel s
  | .vlda gd fd d a off => Sys2Proof.Machine.execVlda gd fd d a off s
  | .vldMx gd d k o a off acq => Sys2Proof.Machine.execVldMx gd d k o a off acq s
  | .vldg gd ef d a b x => Sys2Proof.Machine.execVldg gd ef d a b x s
  | .vsts gd ef d a b x => Sys2Proof.Machine.execVsts gd ef d a b x s
  | .sbind gd v op => Sys2Proof.Machine.execSbind gd v op s
  | .sunbind gd v => Sys2Proof.Machine.execSunbind gd v s
  | .cp gd fd dst src len bar dim spl => Sys2Proof.Machine.execCp gd fd dst src len bar dim spl s
  | .cpm gd fd dst src len mask bar dim spl bsh => Sys2Proof.Machine.execCpm gd fd dst src len mask bar dim spl bsh s
  | .cpg gd fd dst tab tok cnt bpt bar spl => Sys2Proof.Machine.execCpg gd fd dst tab tok cnt bpt bar spl s
  | .cpr gd fd q src cnt bar str spl => Sys2Proof.Machine.execCpr gd fd q src cnt bar str spl s
  | .cps gd fd dst q cnt bar str => Sys2Proof.Machine.execCps gd fd dst q cnt bar str s
  | .cpsig gd fd dst src len sig dim => Sys2Proof.Machine.execCpsig gd fd dst src len sig dim s
  | .cpcan gd d a => Sys2Proof.Machine.execCpcan gd d a s
  | .copyStart core thr n => Sys2Proof.Machine.execCopyStart core thr n s
  | .copyComplete core thr n => Sys2Proof.Machine.execCopyComplete core thr n s
  | .cpmDelivery core thr n dest => Sys2Proof.Machine.execCpmDelivery core thr n dest s
  | .cprSlot core thr n => Sys2Proof.Machine.execCprSlot core thr n s
  | .cpsSlot core thr n => Sys2Proof.Machine.execCpsSlot core thr n s
  | .cpsigSignal pkg src num => Sys2Proof.Machine.execCpsigSignal pkg src num s
  | .signalAck pkg dst num => Sys2Proof.Machine.execSignalAck pkg dst num s
  | .ring gd q a sb ns pool kf => Sys2Proof.Machine.execRing gd q a sb ns pool kf s
  | .rpub gd q b => Sys2Proof.Machine.execRpub gd q b s
  | .radv gd q b => Sys2Proof.Machine.execRadv gd q b s
  | .rwait gd q b => Sys2Proof.Machine.execRwait gd q b s
  | .rfree gd q b => Sys2Proof.Machine.execRfree gd q b s
  | .rstat gd d q sel => Sys2Proof.Machine.execRstat gd d q sel s
  | .binit gd a b => Sys2Proof.Machine.execBinit gd a b s
  | .arrive gd d a => Sys2Proof.Machine.execArrive gd d a s
  | .arrivetx gd d a b => Sys2Proof.Machine.execArrivetx gd d a b s
  | .bwait gd a b => Sys2Proof.Machine.execBwait gd a b s
  | .btest gd pt pf a b => Sys2Proof.Machine.execBtest gd pt pf a b s
  | .fwait gd f => Sys2Proof.Machine.execFwait gd f s
  | .ftst gd pt pf f => Sys2Proof.Machine.execFtst gd pt pf f s
  | .fcan gd f => Sys2Proof.Machine.execFcan gd f s
  | .fmov gd fd fa => Sys2Proof.Machine.execFmov gd fd fa s
  | .fmovClr gd fd => Sys2Proof.Machine.execFmovClr gd fd s
  | .tlwait gd eng a => Sys2Proof.Machine.execTlwait gd eng a s
  | .tlrd gd eng d last => Sys2Proof.Machine.execTlrd gd eng d last s
  | .mark gd tag off => Sys2Proof.Machine.execMark gd tag off s
  | .cut gd tag d => Sys2Proof.Machine.execCut gd tag d s
  | .graft gd a => Sys2Proof.Machine.execGraft gd a s
  | .sdrop gd a => Sys2Proof.Machine.execSdrop gd a s
  | .frl gd d a => Sys2Proof.Machine.execFrl gd d a s
  | .spillw gd => Sys2Proof.Machine.execSpillw gd s
  | .fillw gd => Sys2Proof.Machine.execFillw gd s
  | .spawn gd d a => Sys2Proof.Machine.execSpawn gd d a s
  | .yield gd => Sys2Proof.Machine.execYield gd s
  | .send gd d a b => Sys2Proof.Machine.execSend gd d a b s
  | .recv gd d c => Sys2Proof.Machine.execRecv gd d c s
  | .recvTry gd d c => Sys2Proof.Machine.execRecvTry gd d c s
  | .dsync gd d level => Sys2Proof.Machine.execDsync gd d level s
  | .dmem gd d c => Sys2Proof.Machine.execDmem gd d c s
  | .snaparm gd d a => Sys2Proof.Machine.execSnaparm gd d a s
  | .dsyncCountMessage src dom count => Sys2Proof.Machine.execDsyncCountMessage src dom count s
  | .dsyncCompletionMessage pkg dom => Sys2Proof.Machine.execDsyncCompletionMessage pkg dom s
  | .gang gd d n => Sys2Proof.Machine.execGang gd d n s
  | .detach gd => Sys2Proof.Machine.execDetach gd s
  | .rejoin gd tok => Sys2Proof.Machine.execRejoin gd tok s
  | .kld gd k a off keep acq => Sys2Proof.Machine.execKld gd k a off keep acq s
  | .kst gd k a off rel => Sys2Proof.Machine.execKst gd k a off rel s
  | .kmov gd d src keep => Sys2Proof.Machine.execKmov gd d src keep s
  | .kadd gd d a src keep => Sys2Proof.Machine.execKadd gd d a src keep s
  | .ksub gd d a src keep => Sys2Proof.Machine.execKsub gd d a src keep s
  | .kmax gd d a src keep => Sys2Proof.Machine.execKmax gd d a src keep s
  | .kmin gd d a src keep => Sys2Proof.Machine.execKmin gd d a src keep s
  | .knorm gd d a c keep => Sys2Proof.Machine.execKnorm gd d a c keep s
  | .kbind gd v k o u => Sys2Proof.Machine.execKbind gd v k o u s
  | .kbindQ gd q c k o u => Sys2Proof.Machine.execKbindQ gd q c k o u s
  | .kgen gd d k => Sys2Proof.Machine.execKgen gd d k s
  | .kgenBump gd k => Sys2Proof.Machine.execKgenBump gd k s
  | .vsave gd a off parts => Sys2Proof.Machine.execVsave gd a off parts s
  | .vrest gd a off parts => Sys2Proof.Machine.execVrest gd a off parts s
  | .mma gd fd ad qa qb ka kb efa efb qoff kstep sca scb => Sys2Proof.Machine.execMma gd fd ad qa qb ka kb efa efb qoff kstep sca scb s
  | .mmz gd fd ad m1 => Sys2Proof.Machine.execMmz gd fd ad m1 s
  | .mova gd ef d a rm sat => Sys2Proof.Machine.execMova gd ef d a rm sat s
  | .mchk gd d set clr => Sys2Proof.Machine.execMchk gd d set clr s
  | .msta gd a base off rel => Sys2Proof.Machine.execMsta gd a base off rel s
  | .attnS gd fd mode fq fk qa qb kb qoff ntok scb => Sys2Proof.Machine.execAttnS gd fd mode fq fk qa qb kb qoff ntok scb s
  | .attnP gd fd ad m => Sys2Proof.Machine.execAttnP gd fd ad m s
  | .attnV gd fd mode fv ad qb kb qoff scb => Sys2Proof.Machine.execAttnV gd fd mode fv ad qb kb qoff scb s
  | .attnF gd fd ad ae proj m => Sys2Proof.Machine.execAttnF gd fd ad ae proj m s
  | .qabs gd fd fq fw qa qb qoff kstep => Sys2Proof.Machine.execQabs gd fd fq fw qa qb qoff kstep s
  | .lxcfg gd fd a => Sys2Proof.Machine.execLxcfg gd fd a s
  | .smxcfg gd fd a => Sys2Proof.Machine.execSmxcfg gd fd a s
  | .matrixCmdBegin core => Sys2Proof.Machine.execMatrixCmdBegin core s
  | .matrixCmdEnd core n => Sys2Proof.Machine.execMatrixCmdEnd core n s
  | .tlbw gd d a b c => Sys2Proof.Machine.execTlbw gd d a b c s
  | .tlbi gd d a b scope pkgw pins => Sys2Proof.Machine.execTlbi gd d a b scope pkgw pins s
  | .tlbiComplete core thr => Sys2Proof.Machine.execTlbiComplete core thr s
  | .frep gd d a b => Sys2Proof.Machine.execFrep gd d a b s
  | .idle gd => Sys2Proof.Machine.execIdle gd s
  | .rdtime gd d => Sys2Proof.Machine.execRdtime gd d s
  | .sevw gd a => Sys2Proof.Machine.execSevw gd a s
  | .pair gd s1 v => Sys2Proof.Machine.execPair gd s1 v s
  | .faultMessagePost core thr => Sys2Proof.Machine.execFaultMessagePost core thr s
  | .fbctlFlush cluster => Sys2Proof.Machine.execFbctlFlush cluster s
  | .svcTlbw cluster => Sys2Proof.Machine.execSvcTlbw cluster s
  | .svcTlbi cluster fx => Sys2Proof.Machine.execSvcTlbi cluster fx s
  | .svcFrep cluster => Sys2Proof.Machine.execSvcFrep cluster s
  | .lnch pkg w => Sys2Proof.Machine.execLnch pkg w s
  | .dispatch cluster => Sys2Proof.Machine.execDispatch cluster s
  | .qpop cluster => Sys2Proof.Machine.execQpop cluster s
  | .qpush cluster w => Sys2Proof.Machine.execQpush cluster w s
  | .slotBind cluster entry w1 => Sys2Proof.Machine.execSlotBind cluster entry w1 s
  | .slotEvict cluster entry w1 => Sys2Proof.Machine.execSlotEvict cluster entry w1 s
  | .migration core => Sys2Proof.Machine.execMigration core s
  | .migrationArrive cluster => Sys2Proof.Machine.execMigrationArrive cluster s
  | .dcmdPreempt pkg dom => Sys2Proof.Machine.execDcmdPreempt pkg dom s
  | .dcmdResume pkg dom => Sys2Proof.Machine.execDcmdResume pkg dom s
  | .dcmdKill pkg dom => Sys2Proof.Machine.execDcmdKill pkg dom s
  | .drainExpiry pkg dom => Sys2Proof.Machine.execDrainExpiry pkg dom s
  | .watchdogExpiry core thr => Sys2Proof.Machine.execWatchdogExpiry core thr s
  | .sramScrub core off => Sys2Proof.Machine.execSramScrub core off s
  | .hbmScrub pkg line => Sys2Proof.Machine.execHbmScrub pkg line s
  | .cerateInterval pkg die => Sys2Proof.Machine.execCerateInterval pkg die s
  | .supplyRestoreDone pkg die => Sys2Proof.Machine.execSupplyRestoreDone pkg die s
  | .budgetInterval cluster => Sys2Proof.Machine.execBudgetInterval cluster s
  | .clkctlWrite cluster w => Sys2Proof.Machine.execClkctlWrite cluster w s
  | .clockChangeDone cluster => Sys2Proof.Machine.execClockChangeDone cluster s
  | .thermalTrip pkg temp => Sys2Proof.Machine.execThermalTrip pkg temp s
  | .thermalResume pkg temp => Sys2Proof.Machine.execThermalResume pkg temp s
  | .tbaseDiscipline pkg peer => Sys2Proof.Machine.execTbaseDiscipline pkg peer s
  | .packageReset pkg boot => Sys2Proof.Machine.execPackageReset pkg boot s
  | .recoveryFlashWrite pkg slotB image => Sys2Proof.Machine.execRecoveryFlashWrite pkg slotB image s
  | .spdmReport pkg nonce => Sys2Proof.Machine.execSpdmReport pkg nonce s
  | .capwWrite pkg hi w => Sys2Proof.Machine.execCapwWrite pkg hi w s
  | .tbsetWrite pkg w => Sys2Proof.Machine.execTbsetWrite pkg w s
  | .pkgcfgWrite pkg w => Sys2Proof.Machine.execPkgcfgWrite pkg w s
  | .registerWrite pkg off w => Sys2Proof.Machine.execRegisterWrite pkg off w s
  | .cmpcmd pkg e w => Sys2Proof.Machine.execCmpcmd pkg e w s
  | .compactRewrite pkg e => Sys2Proof.Machine.execCompactRewrite pkg e s
  | .compactRelease pkg e => Sys2Proof.Machine.execCompactRelease pkg e s
  | .hostCxlRead pkg pa n => Sys2Proof.Machine.execHostCxlRead pkg pa n s
  | .hostCxlWrite pkg pa bytes => Sys2Proof.Machine.execHostCxlWrite pkg pa bytes s
  | .cxlDeviceLoss pkg port => Sys2Proof.Machine.execCxlDeviceLoss pkg port s
  | .remoteRequest pkg src num addr body => Sys2Proof.Machine.execRemoteRequest pkg src num addr body s
  | .remoteResponse pkg dst num => Sys2Proof.Machine.execRemoteResponse pkg dst num s
  | .flitReceive pkg port flits bad sent => Sys2Proof.Machine.execFlitReceive pkg port flits bad sent s
  | .replayRequest pkg port seq => Sys2Proof.Machine.execReplayRequest pkg port seq s
  | .ackTimeout pkg port => Sys2Proof.Machine.execAckTimeout pkg port s
  | .injectorFire pkg port lane => Sys2Proof.Machine.execInjectorFire pkg port lane s
  | .laneRetire pkg port lane => Sys2Proof.Machine.execLaneRetire pkg port lane s
  | .portRetrainDone pkg port => Sys2Proof.Machine.execPortRetrainDone pkg port s
  | .cloadSample cluster => Sys2Proof.Machine.execCloadSample cluster s
  | .restoreComplete pkg dom => Sys2Proof.Machine.execRestoreComplete pkg dom s
  | .ideKeyNegotiation pkg exchange => Sys2Proof.Machine.execIdeKeyNegotiation pkg exchange s

end Sys2Proof.Machine
end

