-- ==== Sys2Proof/Machine/Settle.lean ====
section
/-! DEFINITION. What surrounds a turn: the thermal gate, forced saves, gangs, the ends of threads, rollbacks and
resets that a turn leaves, and the passing of time (spec/14 R246, spec/15 R260-R264, spec/16 R270, R279,
spec/22 R353, R360, R361). -/

namespace Sys2Proof.Machine

/-! ## The thermal gate (spec/22 R360) -/

/-- A register of a package that a die, a cluster or a core holds: its accesses are requests that those process. -/
def regGated (pkg off : Nat) : Option Nat := if off < 0x10000 then none else some pkg

/-- The package whose cluster clocks and request processing an event needs; none for the events of links,
supply, time and the package controller. -/
def eventPkg (i : Instr) : Option Nat :=
  match i with
  | .waitExpiry core _ | .asyncLoadStart core .. | .asyncLoadComplete core .. | .trackCmdBegin core
  | .trackCmdComplete core | .tstreamSlot core | .tfillSlot core | .trackSpareReplace core .. | .copyStart core ..
  | .copyComplete core .. | .cpmDelivery core .. | .cprSlot core .. | .cpsSlot core .. | .matrixCmdBegin core
  | .matrixCmdEnd core _ | .tlbiComplete core _ | .faultMessagePost core _ | .migration core
  | .watchdogExpiry core _ | .sramScrub core _ => some (pkgOf core)
  | .fbctlFlush cl | .svcTlbw cl | .svcTlbi cl _ | .svcFrep cl | .dispatch cl | .qpop cl | .qpush cl _
  | .slotBind cl .. | .slotEvict cl .. | .migrationArrive cl | .cloadSample cl | .clkctlWrite cl _ =>
    some (pkgOfCluster cl)
  | .cpsigSignal pkg .. | .dsyncCountMessage pkg .. | .dsyncCompletionMessage pkg _ | .lnch pkg _
  | .dcmdPreempt pkg _ | .dcmdResume pkg _ | .dcmdKill pkg _ | .drainExpiry pkg _ | .hbmScrub pkg _
  | .cmpcmd pkg .. | .compactRewrite pkg _ | .compactRelease pkg _ | .hostCxlRead pkg .. | .hostCxlWrite pkg ..
  | .remoteRequest pkg .. | .restoreComplete pkg _ => some pkg
  | .registerWrite pkg off _ => regGated pkg off
  | _ => none

/-- An event waits while the package that it needs is gated. -/
def eventGated (s : State) (i : Instr) : Bool := ((eventPkg i).map fun p => (s.pkgAt p).gated).getD false

/-! ## Gangs (spec/15 R261) -/

/-- The leader's choice that a follower's last one, its `count`-th, is compared with. -/
def leaderChoice (l : GangRole) (count : Nat) : Option Pc := l.trail[l.trail.length + count - l.count - 1]?

/-- The choices that some attached follower has yet to make stay. -/
def trimTrail (s : State) (lead : Nat) (l : GangRole) : GangRole :=
  let low := ((s.attachedCounts lead).min?).getD l.count
  { l with trail := l.trail.drop (l.trail.length - (l.count - low)) }

/-- Keep a leader's list of choices short. -/
def trimLeader (lead : Nat) (s : State) : State :=
  match (s.threadAt lead).gang with
  | some l => s.modThreadAt lead fun t => { t with gang := some (trimTrail s lead l) }
  | none => s

/-- What a follower's turn means for its place: a trap, or a next pc other than the leader's, detaches it. -/
def followTurn (trapped : Bool) (lead : Option GangRole) (g : GangRole) : GangRole :=
  let off : GangRole := { g with attached := false, ending := false, rest := [], trail := [] }
  if !g.attached then { g with trail := [] }
  else if trapped then off
  else match g.trail.getLast? with
    | none => g
    | some nx =>
      if g.ending then (if g.rest.head? == some nx then { g with rest := g.rest.drop 1, trail := [] } else off)
      else match lead with
        | none => off
        | some l => if leaderChoice l g.count == some nx then { g with trail := [] } else off

/-- The gang after a turn of its member `th`, which began in `s0`. -/
def gangTurn (s0 : State) (th : Nat) (s : State) : State :=
  let t := s.threadAt th
  match t.gang with
  | none => s
  | some g =>
    if g.leader = th then trimLeader th s
    else
      let trapped := !(s0.threadAt th).inTrap && t.inTrap
      trimLeader g.leader (s.modThreadAt th fun t =>
        { t with gang := some (followTurn trapped (s.threadAt g.leader).gang g) })

/-! ## Killed threads (spec/14 R246, spec/16 R270) -/

/-- The context image of a double trap is written, when the domain has room for it. -/
def doubleImage (th : Nat) : Act (Option Nat) := whole th do
  let s ← get
  let t := s.threadAt th
  let core := th / 4
  match (s.domAt (domKey (pkgOf core) t.dom)).bind fun d => (freeImage d).map fun im => (d, im) with
  | none => pure none
  | some (d, im) => do
    saveScan th
    let s ← get
    let t := s.threadAt th
    let claims := s.claimsOf th
    let wst := BitVec.ofNat 64 (t.res % 8 + 2 ^ 32 * (t.depth % 2 ^ 32))
    let info : SaveInfo := ⟨t.rec_, claims, claims.map fun n => (n, (s.trackAt core n).head), wst, []⟩
    let owner := (s.coreAt core).owner == some (th % 4)
    storeWords th (addrAdd d.ctxBase (16384 * im)) 0 (imageWords { t with rq := [] } (s.coreAt core) owner info)
    pure (some im)

/-- The record keeps an image. -/
def keepImage (th key im : Nat) (s : State) : State :=
  (s.modRec key fun r => { r with image := some im }).modDomAt (domKey (pkgOf (th / 4)) (s.threadAt th).dom)
    fun d => { d with images := tput d.images im key }

/-- An error that the save of a killed thread's context meets is reported, and no image is left. -/
def doubleLost (th : Nat) (e : ErrRep) (s : State) : State :=
  let s := endThread th 5 none (reportError s (pkgOf (th / 4)) (some (th / 4)) (some th) e).1
  { s with pend := s.pend.filter (· != .kill th) }

/-- A thread whose operations have ended ends as killed; one that a double trap killed leaves its image. -/
def endKilled (th : Nat) (s : State) : State :=
  let t := s.threadAt th
  match t.dbl, s.keyOf th with
  | some _, some key =>
    if t.delivered.isSome then endThread th 5 none s
    else match doubleImage th s with
      | .ok (some im) s' =>
        let s := endThread th 5 none { (keepImage th key im s') with recs := s.recs }
        keepImage th key im s
      | .error .wait s' => { s' with pend := s'.pend ++ [.kill th] }
      | .error (.err e) s' => doubleLost th e (State.keepStores s s')
      | _ => endThread th 5 none s
  | _, _ => endThread th 5 none s

/-- A kill: operations that have not started end cancelled, and the thread ends once the others have ended. -/
def settleKill (th : Nat) (s : State) : State :=
  if !(s.threadAt th).bound then s.modThreadAt th fun t => { t with dying := false }
  else
    let s := ((s.allOps th).filter fun o => !o.started).foldl State.cancelOp s
    let s := s.modThreadAt th fun t => { t with dying := true }
    if (s.allOps th).isEmpty then endKilled th s else { s with pend := s.pend ++ [.kill th] }

/-! ## Partitions (spec/22 R353) -/

/-- A core of a partition after its reset: tracks, claims, rings and commands are gone. -/
def Core.partitionReset (c : Core) : Core :=
  { c with
    tracks := [], rings := [], owner := none, ce := [], te := [], me := []
    errs := c.errs.filter fun e => decide (e.1 < qErr 0) }

/-- The next spare seat after those that were taken so far; none when every spare is used. -/
def nextSeat (first limit : Nat) (used : List Nat) : Option Nat :=
  let n := used.foldl (fun m k => max m (k + 1)) first
  if n < limit then some n else none

/-- Firmware lets a spare core stand for a failed one of a cluster (spec/22 R356; log entry 71). -/
def remapCore (cl : Nat) (s : State) (k : Nat) : State :=
  let c := s.coreAt k
  if !c.fenced then s
  else match nextSeat 64 72 ((s.cores.filter fun x => clusterOf x.1 == cl).filterMap fun x => x.2.seat) with
    | some n => s.setCoreAt k { c with seat := some n, fenced := false }
    | none => s

/-- The die of a cluster, among all packages. -/
def dieOfCluster (cl : Nat) : Nat := pkgOfCluster cl * 18 + clusterIn cl / Config.clustersPerDie

/-- The same of a failed cluster; every core of the spare is sound. -/
def remapCluster (s : State) (cl : Nat) : State :=
  let c := s.clusterAt cl
  let cores := (s.cores.filter fun x => clusterOf x.1 == cl).map (·.1)
  if !c.fenced then cores.foldl (remapCore cl) s
  else match nextSeat Config.clustersPerDie 100
      ((s.clusters.filter fun x => dieOfCluster x.1 == dieOfCluster cl).filterMap fun x => x.2.seat) with
    | some n =>
      let s := s.setClusterAt cl { c with seat := some n, fenced := false }
      cores.foldl (fun s k => s.modCoreAt k fun c => { c with seat := none, fenced := false }) s
    | none => s

/-- The partition of some cores is reset: the domains with a member bound there are killed; SRAM, tracks, claims
and rings are cleared, the fault buffers and the slot tables too; then spares stand for what has failed. -/
def resetPartition (cores : Nat → Bool) (clusters : Nat → Bool) (s : State) : State :=
  let ths := (s.threads.filter fun (th, t) => t.bound && cores (th / 4)).map (·.1)
  let dks := (ths.map fun th => domKey (pkgOf (th / 4)) (s.threadAt th).dom).eraseDups
  let s := dks.foldl (fun s dk => killDomain dk s) s
  let s := ths.foldl (fun s th => endThread th 5 none (s.dropOps th)) s
  let s := { s with
    mem := s.mem.filter fun e => !(isSram e.1 && cores (sramCore e.1))
    sramErr := s.sramErr.filter fun e => !(isSram (8 * e.1) && cores (sramCore (8 * e.1)))
    cores := s.cores.map fun (x : Nat × Core) => if cores x.1 then (x.1, x.2.partitionReset) else x }
  let cls := (s.clusters.filter fun (x : Nat × Cluster) => clusters x.1).map (·.1)
  let s := cls.foldl (fun s cl => (flushBuffer cl s).modClusterAt cl fun c =>
    { c with slot0 := [], slot1 := [], errs := [] }) s
  let all := cls ++ (s.cores.filter fun (x : Nat × Core) => cores x.1).map fun x => clusterOf x.1
  all.eraseDups.foldl remapCluster s

/-! ## What a turn leaves to do -/

/-- One item; what it cannot end yet stays. -/
def settleOne (s : State) (p : Pend) : State :=
  match p with
  | .kill th => settleKill th s
  | .rollback dk => match s.domAt dk with
    | some d => if d.st = .running ∨ d.st = .draining then stopAndRollback dk s else s
    | none => s
  | .resetCluster cl => resetPartition (fun c => clusterOf c == cl) (fun k => k == cl) s
  | .resetPackage pkg => resetPartition (fun c => pkgOf c == pkg) (fun k => pkgOfCluster k == pkg) s

/-- Every item once, those that these add as well, in at most `n` rounds. -/
def settle : Nat → State → State
  | 0, s => s
  | n + 1, s => if s.pend.isEmpty then s else settle n (s.pend.foldl settleOne { s with pend := [] })

/-- Domains that a pre-empt drains. -/
def State.draining (s : State) : List Nat := (s.doms.filter fun (_, d) => d.st == .draining).map (·.1)

/-- Domains whose draining has ended are saved, and a command held meanwhile is applied (spec/15 R251). -/
def settleDomains (s : State) : State := s.draining.foldl (fun s dk => applyHeld dk (checkDrained dk s)) s

/-- Sends that wait for room in a drawer are tried again (spec/14 R244). -/
def settleSends (s : State) : State :=
  ((s.doms.filter fun (_, d) => d.due != []).map (·.1)).foldl (fun s dk => applyDue dk s) s

/-- What a waiter has paid for is kept while its next request is still to come: not once a turn of it has ended
without waiting, nor once its thread has gone elsewhere (spec/22 R358). -/
def stillPaid (s0 s : State) (w : Waiter) : Bool :=
  countOf s.granted w == 0 &&
  match w with
  | .sync th _ => (s.threadAt th).bound && (s.threadAt th).pc == (s0.threadAt th).pc
  | .op th e n => (s.opAt th e n).isSome
  | _ => true

/-- The turn's own lists are empty between turns. -/
def clearTurn (s0 s : State) : State :=
  { s with granted := [], asking := [], fixes := [], paid := s.paid.filter fun x => stillPaid s0 s x.1 }

/-- The end of a turn that began in `s0`. -/
def endTurn (s0 s : State) : State := clearTurn s0 (settleSends (settleDomains (settle 3 (gangTurn s0 s0.tk s))))

/-! ## The begin of a thread's turn -/

/-- A forced save that is due (spec/15 R264), once a trap that is determined has been taken (spec/16 R279). -/
def saveTurn (s : State) : State :=
  match forcedSave s.tk s with
  | .ok _ s' => s'
  | .error .wait s' => s'
  | .error (.err e) s' => (s'.reportHere e).1
  | .error _ _ => s.killThread s.tk

/-- A trap is due before anything else that the thread does: a delivered fault, a watchdog trap. -/
def Thread.trapDue (t : Thread) : Bool := t.delivered.isSome || (t.wdTrap.isSome && t.blocked.isNone)

/-- A thread that has come from another cluster goes on once the time-base copy here has come as far as the one it left
(spec/22 R361). -/
def timeTurn (s : State) : Fetched :=
  let cl := clusterOf s.cc
  if s.th.tbHold ≤ (s.clusterAt cl).tb then fetchTurn s
  else
    let s := s.sampleTime cl
    if s.th.tbHold ≤ (s.clusterAt cl).tb then fetchTurn s else .over s

/-- The turn of the current thread up to its instruction. -/
def beginTurn (s : State) : Fetched :=
  let t := s.th
  if (s.pkgAt (pkgOf s.cc)).gated || !t.bound || t.dying then .over s
  else if t.trapDue then fetchTurn s
  else if t.saving.isSome then .over (saveTurn s)
  else if s.gangExits s.tk then
    (if (s.allOps s.tk).isEmpty then .over (endThread s.tk 4 (some (t.g 16)) s) else .over s)
  else if s.gangHolds s.tk then .over s
  else
    let s := refillOps s.tk s
    if s.th.requeue.isEmpty then timeTurn s else .over s

/-! ## Time (spec/22 R361, spec/15 R262, R264) -/

/-- A member of a domain on its package has a fault message outstanding; the followers of a saved gang are members. -/
def faultWaits (s : State) (dk : Nat) : Bool :=
  ((s.domThreads dk).any fun th => (s.threadAt th).blocked.isSome || (s.allOps th).any (·.wait.isSome)) ||
  s.recs.any fun (_, r) => domKey r.pkg r.dom == dk &&
    (r.faultWait.isSome || r.bindWait.isSome || r.followers.any fun x => x.2.1.blocked.isSome)

/-- A member of a domain has a fault message outstanding: at level 6, on any package that holds the domain. -/
def faultOutstanding (s : State) (dk : Nat) : Bool :=
  match s.domAt dk with
  | some d => (s.sixDoms dk d).any (faultWaits s)
  | none => faultWaits s dk

/-- Watchdog ticks count for the members of a domain (R262). -/
def watchCounts (s : State) (pkg dom : Nat) : Bool :=
  !(s.pkgAt pkg).gated && s.domRunning (domKey pkg dom) && !faultOutstanding s (domKey pkg dom)

/-- tbase of a package after n ticks, less those that it omits. -/
def Pkg.tick (n : Nat) (p : Pkg) : Pkg :=
  let k := min n (-p.tbAdj).toNat
  { p with tbase := (p.tbase + (n - k)) % 2 ^ 64, tbAdj := p.tbAdj + k, tbGap := p.tbGap + n }

/-- n ticks of waiting. -/
def waitTicks (n : Nat) (s : State) : State :=
  { s with
    threads := s.threads.map fun (th, t) =>
      if t.waiting.isSome && (s.wdogOfThread (pkgOf (th / 4)) t).isSome && watchCounts s (pkgOf (th / 4)) t.dom
      then (th, { t with waited := t.waited + n }) else (th, t)
    recs := s.recs.map fun (k, r) =>
      if r.status = 3 ∧ r.why = .dsync ∧ (s.wdogOf r.pkg r.dom).isSome ∧ watchCounts s r.pkg r.dom
      then (k, { r with waited := r.waited + n }) else (k, r) }

/-- n ticks of the domains that drain. -/
def drainTicks (n : Nat) (s : State) : State :=
  { s with doms := s.doms.map fun (k, d) =>
      if d.st = .draining ∧ !(s.pkgAt (k / 2 ^ 32)).gated then (k, { d with drainLeft := d.drainLeft - n }) else (k, d) }

/-- What n ticks mean for a package: its count, and the codewords of its ports, which are filled with idle flits (spec/21
R338). -/
def Pkg.pass (n : Nat) (p : Pkg) : Pkg :=
  { p.tick n with ports := if n = 0 then p.ports else p.ports.map fun (k, x) => (k, x.fill) }

/-- n tbase ticks pass. -/
def tickTurn (n : Nat) (s : State) : State :=
  let s := drainTicks n (waitTicks n s)
  { s.modPkgAt (pkgOf s.cc) id with pkgs := (s.modPkgAt (pkgOf s.cc) id).pkgs.map fun (k, p) => (k, p.pass n) }

/-- A core number and thread index that the machine has (spec/00 R1): 9,216 packages at most. -/
def unitExists (_s : State) (core thr : Nat) : Bool := decide (thr < 4) && decide (core < 9216 * Config.cores)

/-- The turn of a thread of a core: the core picks which of its threads issues (spec/03 R33). -/
def State.turnTo (s : State) (core thr : Nat) (rest : List Turn) : State :=
  State.turnPick { s with turns := rest, cc := core, ct := thr }

def State.dropTurn (s : State) (rest : List Turn) : State := { s with turns := rest }

/-- The translation of the page at `virtual` 0x10000 in a space, to itself, with every permission. -/
def placeEntry (spn : Nat) : TlbEnt :=
  ⟨BitVec.ofNat 64 (1 + 2 ^ 4 * (spn % 2 ^ 12) + 0x10000), BitVec.ofNat 64 (7 + 0x10000), 0⟩

/-- The instruction's bytes at 0x10000 of the current thread's package, the page in the core's
micro-TLB, the thread bound, its pc there, nothing due before the instruction, and its fetch paid for. -/
def placeWord (nbits w : Nat) (s : State) : State :=
  let key := pkgOf s.cc * 2 ^ 48 + 0x10000
  let t := s.th
  let e := placeEntry t.spn
  let s := { s with
    turns := [], granted := [], asking := [], fixes := []
    mem := memWrites s.mem key (bytesLE 16 (w % 2 ^ nbits)), hbmErr := tdel s.hbmErr (key / 64) }
  let s := s.modPkgAt (pkgOf s.cc) fun p => { p with gated := false }
  let s := s.modCore fun c => { c with
    lastS := (s.ct + 3) % 4, lastV := (s.ct + 3) % 4
    utlb := useEntry 32 e (c.utlb.filter fun u => !(u.base ≤ 0x1FFFF && 0x10000 < u.base + u.size)) }
  let s := s.setTh { t with
    bound := true, dying := false, blocked := none, delivered := none, wdTrap := none, waitN := 0
    saving := none, gang := none, idle := false, waiting := none, requeue := [], tbHold := 0
    fetchFrom := s.old.length, fetchOld := [], pc := 0x10000 }
  { s with paid := [(s.lsu.waiter, 1)] }

end Sys2Proof.Machine
end

