-- ==== Sys2Proof/Machine/Input.lean ====
section
/-! DEFINITION. What reaches the machine from outside and has no row in the opcode table (log entry 77): bits that flip,
a port that slips, poison, the interleave of CXL memory, the host's accesses to BAR0, the progress of a copy, cores and
clusters that fail (spec/05 R94, spec/11 R179, spec/21 R334-R337, spec/22 R349, R356). -/

namespace Sys2Proof.Machine

/-! ## Flips (spec/22 R349) -/

/-- Bits of a code word flip, where its flips are listed. -/
def flipIn (t : Tbl (BitVec 72)) (k : Nat) (bits : BitVec 72) : Tbl (BitVec 72) :=
  let e := tgetD t k 0 ^^^ bits
  if e = 0 then tdel t k else tput t k e

/-- Bits of a symbol of a line flip. -/
def flipSymbol (l : List (Nat × BitVec 16)) (symbol : Nat) (bits : BitVec 16) : List (Nat × BitVec 16) :=
  let e := ((l.find? fun x => x.1 == symbol).map (·.2)).getD 0 ^^^ bits
  let l := l.filter fun x => x.1 != symbol
  if e = 0 then l else l ++ [(symbol, e)]

def flipLine (line symbol : Nat) (bits : BitVec 16) (s : State) : State :=
  let l := flipSymbol (tgetD s.hbmErr line []) symbol bits
  { s with hbmErr := if l = [] then tdel s.hbmErr line else tput s.hbmErr line l }

/-- Where the flips of queue entries and of parked tokens begin among those of a cluster: entry n at `entErr` + 2 n,
token n of the drawer behind it. -/
def entErr : Nat := 4096

/-- Change the n-th of a list. -/
def modNth {α : Type} (l : List α) (n : Nat) (f : α → α) : List α :=
  l.zipIdx.map fun (x, i) => if i = n then f x else x

/-- Bits of a code word of a cluster flip: of the fault buffer and the slot table, of a ready queue's entry, of a token in
the drawer (log entry 100). -/
def flipControl (k : Nat) (bits : BitVec 72) (c : Cluster) : Cluster :=
  if k < entErr then { c with errs := flipIn c.errs k bits }
  else if k % 2 = 0 then { c with queue := modNth c.queue ((k - entErr) / 2) fun e => { e with err := e.err ^^^ bits } }
  else { c with drawer := modNth c.drawer ((k - entErr) / 2) fun p => { p with err := p.err ^^^ bits } }

/-! ## The host's accesses to BAR0 (spec/21 R334) -/

/-- An aligned access of 8 bytes where a register lies. -/
def barOk (pkg off size : Nat) (s : State) : Bool := size == 8 && off % 8 == 0 && regOccupied pkg off s

/-- An access of the host; another completes as unsupported, with no effect. -/
def bar0Do (pkg off size : Nat) (write : Option Word) : Act Unit := do
  if !barOk pkg off size (← get) then modify fun s => s.hostGets pkg []
  else match write with
    | some w => regWrite pkg off w
    | none => hostDo pkg do
      clusterScan pkg none none (regAt off)
      match regRead pkg off (← get) with
      | none => pure ()
      | some (s, w) => set (s.hostGets pkg (leBytes 8 w.toNat))

/-! ## Failures (spec/22 R356) -/

/-- Every context bound on some cores is handled by the matrix, as one that consumes an uncorrectable error of engine
state (log entry 71). -/
def failContexts (on : Nat → Bool) (s : State) : State :=
  ((s.threads.filter fun (th, t) => t.bound && on (th / 4)).map (·.1)).foldl (fun s th =>
    (reportError s (pkgOf (th / 4)) (some (th / 4)) (some th) { cls := 1, src := 2, addr := 0 }).1) s

/-- What an input does. -/
def inputAct (x : Input) : Act Unit :=
  match x with
  | .flipSram w bits => do
    need (isSram (8 * w))
    modify fun s => { s with sramErr := flipIn s.sramErr w bits }
  | .flipSlot core track slot bits => do
    need (decide (track < 32) && decide (slot < 2048))
    modify fun s => s.modTrack core track fun x => { x with synd := flipIn x.synd slot bits }
  | .flipLine line symbol bits => do
    need (decide (64 * line % 2 ^ 48 < 2 ^ 44))
    modify (flipLine line symbol bits)
  | .flipThread th k bits => do
    need ((← get).threadAt th).bound
    modify fun s => s.modThreadAt th fun t => { t with errs := flipIn t.errs k bits }
  | .flipCore core k bits => modify fun s => s.modCoreAt core fun c => { c with errs := flipIn c.errs k bits }
  | .flipCluster cl k bits => modify fun s => s.modClusterAt cl (flipControl k bits)
  | .slip core track n => do
    need (decide (track < 32))
    modify fun s => s.modTrack core track fun x => { x with slip := x.slip + n }
  | .poison line => do
    need (decide (2 ^ 44 ≤ 64 * line % 2 ^ 48) && decide (64 * line % 2 ^ 48 < 2 ^ 45))
    modify fun s => { s with cxlPoison := line :: s.cxlPoison.filter (· != line) }
  | .interleave pkg caps => modify fun s => s.modPkgAt pkg fun p =>
    { p with cxl := cxlRange (caps.take 4), cxlPorts := (caps.take 4).length, cxlLost := [] }
  | .bar0 pkg off size write => do
    let s ← get
    need (!(((regGated pkg off).map fun p => (s.pkgAt p).gated).getD false))
    bar0Do pkg off size write
  | .progress core thr n => do
    need (!((← get).pkgAt (pkgOf core)).gated)
    progressAct core thr n
  | .failCore core => modify fun s =>
    failContexts (· == core) (s.modCoreAt core fun c => { c with fenced := true })
  | .failCluster cl => modify fun s =>
    failContexts (fun k => clusterOf k == cl) (s.modClusterAt cl fun c => { c with fenced := true })

/-- An input, as a turn. -/
def inputDo (x : Input) (s : State) : Outcome := eventDo (inputAct x) s

end Sys2Proof.Machine
end

