-- ==== Sys2Proof/Machine/Step.lean ====
section
/-! DEFINITION. One step of the machine: the turn at the head of the list, or an issue of the current core when none is
listed (log entry 10). -/

namespace Sys2Proof.Machine

/-- The outcome of a turn that began in `s0`, with what the turn left for its end carried out. -/
def closeTurn (s0 : State) (o : Host.Outcome State Fault Refusal) : Host.Outcome State Fault Refusal :=
  match o with
  | .next s => .next (endTurn s0 s)
  | .fault r => .fault r
  | .refused r => .refused r

/-- The current thread's turn: the instruction at its pc is fetched, decoded and run. -/
def issueStep (s : State) : Host.Outcome State Fault Refusal :=
  match beginTurn s with
  | .over s' => closeTurn s (.next s')
  | .run i s' => closeTurn s (exec i (s'.noteIssue i))

/-- An event of the opcode table. It does not come about while its package is gated, nor does what is no event but an
instruction that a thread issues. -/
def eventStep (i : Instr) (s : State) : Host.Outcome State Fault Refusal :=
  match i.guard with
  | none => if eventGated s i then .next s else closeTurn s (exec i s)
  | some _ => .next s

def step (s : State) : Host.Outcome State Fault Refusal :=
  match s.turns with
  | [] => issueStep s.turnPick
  | .issue core thr :: rest =>
    if unitExists s core thr then issueStep (s.turnTo core thr rest) else .fault .noSuchUnit
  | .event i :: rest => eventStep i (s.dropTurn rest)
  | .tick n :: rest => closeTurn s (.next (tickTurn n (s.dropTurn rest)))
  | .input x :: rest => closeTurn s (inputDo x (s.dropTurn rest))

/-- The state with an instruction placed where the current thread fetches next, and that thread bound
and due to issue it (log entry 17). -/
def State.withFetchWord (s : State) (nbits w : Nat) : State := placeWord nbits w s

end Sys2Proof.Machine
end

