-- ==== Sys2Proof/Safety.lean ====
section
/-! DEFINITION. What counts as a safe run, the invariants that statements are made under, and the words in
which the statements speak of an instruction that runs: the conditions of spec/16 R272 on the state, the
results that the tables of spec/03 give, and the parts of the state that a frame names. -/

namespace Sys2Proof.Machine

/-- A step that answers a next state. -/
def State.runs (s : State) : Prop := ∃ s', step s = .next s'

/-- The canonical form of the memory. -/
def State.memOk (s : State) : Prop := Memory.wf s.mem = true

/-- What every step keeps: the canonical form of the memory, and a thread number that a core has (spec/00 R1). -/
structure State.Inv (s : State) : Prop where
  memory : s.memOk
  slot : s.ct < 4

/-! ## When an instruction runs -/

/-- The current thread can run an instruction up to the instruction's own checks (spec/16 R272): its formats
are legal, it breaks no clause rule and no loop start is misaligned, its guard lets it act, the trap window and
the engine owner allow it, no asynchronous load is due to a register that it names and executes with, and no
code word that it reads holds a flipped bit (spec/22 R350). -/
structure Ready (i : Instr) (s : State) : Prop where
  slot : s.ct < 4
  before : s.preTrap i = none
  reads : guardScan i s = (s, none)
  guard : s.live i = true
  after : s.postTrap i = none
  loads : s.th.loadHeld (s.liveForm i) = false
  codes : regScan (s.liveForm i) s = (s, none)

/-- The same with a guard that is false (spec/02 R15, spec/11 R123), read without an error. -/
structure Skips (i : Instr) (s : State) : Prop where
  before : s.preTrap i = none
  reads : guardScan i s = (s, none)
  guard : s.live i = false
  format : s.vecFmtTrap i = none

/-- The stores hold no flipped bit and no poison, so that no access corrects or reports one (spec/21 R337, spec/22
R349, R350). -/
structure Clean (s : State) : Prop where
  sram : s.sramErr = []
  hbm : s.hbmErr = []
  cxl : s.cxlPoison = []

/-- A thread that can issue: its package runs, it is bound and nothing is due before its instruction (spec/14
R246, spec/15 R264, R265, spec/16 R274, spec/22 R360). It is in no gang, no held
operation of it has yet to find room in its queue (spec/11 R165), and its cluster's time-base copy has come as far as the
one it left (spec/22 R361). -/
structure Issues (s : State) : Prop where
  runs : (s.pkgAt (pkgOf s.cc)).gated = false
  bound : s.th.bound = true
  alive : s.th.dying = false
  stays : s.th.saving = none
  single : s.th.gang = none
  open_ : s.th.blocked = none
  clear : s.th.delivered = none
  watched : s.th.wdTrap = none
  unstalled : s.th.waitN = 0
  queued : s.th.requeue = []
  timed : s.th.tbHold ≤ (s.clusterAt (clusterOf s.cc)).tb

/-! ## Results of the integer instructions (spec/03 R46-R55) -/

/-- The count of the low n numbers that a test accepts before it first refuses one. -/
def runLength (p : Nat → Bool) (n : Nat) : Nat := ((List.range n).takeWhile p).length

/-- An exact result clamped to the signed range (R48). -/
def clamp64 (x : Int) : Word := BitVec.ofInt 64 (min (max x (-(2 ^ 63))) (2 ^ 63 - 1))

/-- An address with an offset added within bits 59:0 (R51). -/
def offsetAddr (a : Word) (off : BitVec 60) : Word := (a.extractLsb' 60 4 ++ (a.setWidth 60 + off) : BitVec 64)

/-- A field of len bits from pos up, extended (R52). -/
def extractField (a : Word) (pos len : Nat) (sg : Bool) : Word :=
  let f := (a >>> pos).setWidth len
  if sg then f.signExtend 64 else f.setWidth 64

/-- A field of len bits replaced from pos up (R52): bit by bit. -/
def insertField (d a : Word) (pos len : Nat) : Word :=
  BitVec.ofFnLE fun (i : Fin 64) => if pos ≤ i.val ∧ i.val < pos + len then a.getLsbD (i.val - pos) else d.getLsbD i.val

/-- The destination and the result of an instruction that only computes a general register, as the tables of
R46-R52 and R55 give it. -/
def intResult (s : State) : Instr → Option (GReg × Word)
  | .add _ d a b sat => some (d, if sat then clamp64 ((s.g a).toInt + (s.g b).toInt) else s.g a + s.g b)
  | .sub _ d a b sat => some (d, if sat then clamp64 ((s.g a).toInt - (s.g b).toInt) else s.g a - s.g b)
  | .and _ d a b => some (d, s.g a &&& s.g b)
  | .or _ d a b => some (d, s.g a ||| s.g b)
  | .xor _ d a b => some (d, s.g a ^^^ s.g b)
  | .sll _ d a b => some (d, s.g a <<< ((s.g b).toNat % 64))
  | .srl _ d a b => some (d, s.g a >>> ((s.g b).toNat % 64))
  | .sra _ d a b => some (d, (s.g a).sshiftRight ((s.g b).toNat % 64))
  | .mul _ d a b => some (d, s.g a * s.g b)
  | .mulh _ d a b => some (d, BitVec.ofInt 64 ((s.g a).toInt * (s.g b).toInt / 2 ^ 64))
  | .mulhu _ d a b => some (d, BitVec.ofNat 64 ((s.g a).toNat * (s.g b).toNat / 2 ^ 64))
  | .div _ d a b => some (d, if s.g b = 0 then BitVec.allOnes 64 else (s.g a).sdiv (s.g b))
  | .divu _ d a b => some (d, if s.g b = 0 then BitVec.allOnes 64 else s.g a / s.g b)
  | .rem _ d a b => some (d, if s.g b = 0 then s.g a else (s.g a).srem (s.g b))
  | .remu _ d a b => some (d, if s.g b = 0 then s.g a else s.g a % s.g b)
  | .min _ d a b => some (d, if (s.g a).sle (s.g b) then s.g a else s.g b)
  | .max _ d a b => some (d, if (s.g b).sle (s.g a) then s.g a else s.g b)
  | .minu _ d a b => some (d, if (s.g a).ule (s.g b) then s.g a else s.g b)
  | .maxu _ d a b => some (d, if (s.g b).ule (s.g a) then s.g a else s.g b)
  | .clz _ d a => some (d, BitVec.ofNat 64 (runLength (fun k => !(s.g a).getLsbD (63 - k)) 64))
  | .ctz _ d a => some (d, BitVec.ofNat 64 (runLength (fun k => !(s.g a).getLsbD k) 64))
  | .popc _ d a => some (d, BitVec.ofNat 64 ((List.range 64).countP (s.g a).getLsbD))
  | .sext _ d a n1 => some (d, ((s.g a).setWidth (n1.toNat + 1)).signExtend 64)
  | .zext _ d a n1 => some (d, ((s.g a).setWidth (n1.toNat + 1)).setWidth 64)
  | .mov _ d a => some (d, s.g a)
  | .addi _ d a imm sat => some (d, if sat then clamp64 ((s.g a).toInt + imm.toInt) else s.g a + imm.signExtend 64)
  | .andi _ d a imm => some (d, s.g a &&& imm.signExtend 64)
  | .ori _ d a imm => some (d, s.g a ||| imm.signExtend 64)
  | .xori _ d a imm => some (d, s.g a ^^^ imm.signExtend 64)
  | .slli _ d a n => some (d, s.g a <<< (n.toNat % 64))
  | .srli _ d a n => some (d, s.g a >>> (n.toNat % 64))
  | .srai _ d a n => some (d, (s.g a).sshiftRight (n.toNat % 64))
  | .li _ d imm => some (d, imm.signExtend 64)
  | .liI32 _ d imm => some (d, imm.signExtend 64)
  | .liI64 _ d imm => some (d, imm)
  | .lea _ d a off => some (d, offsetAddr (s.g a) (off.signExtend 60))
  | .leaI32 _ d a off => some (d, offsetAddr (s.g a) (off.signExtend 60))
  | .leaPc _ d off => some (d, (s.th.pc + off.signExtend 48).setWidth 64)
  | .leaPcI32 _ d off => some (d, (s.th.pc + off.signExtend 48).setWidth 64)
  | .bfx _ d a pos len1 sg => some (d, extractField (s.g a) pos.toNat (len1.toNat + 1) sg)
  | .bfi _ d a pos len1 => some (d, insertField (s.g d) (s.g a) pos.toNat (len1.toNat + 1))
  | .sel _ d p b c => some (d, if (s.p p).getLsbD 0 then s.g b else s.g c)
  | _ => none

/-- All 64 bits of a scalar outcome. -/
def ones (c : Bool) : Word := if c then BitVec.allOnes 64 else 0

/-- The condition of a compare (R53). -/
def condOn (x y : Word) : Cond → Bool
  | .eq => x == y
  | .ne => !(x == y)
  | .lt => x.slt y
  | .ge => y.sle x
  | .ltu => x.ult y
  | .geu => y.ule x
  | .tst => !(x &&& y == 0)
  | .ntst => x &&& y == 0

/-- The predicates that an instruction writes, in order, with their values (R53, R54). -/
def predResult (s : State) : Instr → Option (List (PIdx × Word))
  | .cmp _ c pt pf a b => some [(pt, ones (condOn (s.g a) (s.g b) c)), (pf, ones (!condOn (s.g a) (s.g b) c))]
  | .cmpi _ c pt pf a imm =>
    some [(pt, ones (condOn (s.g a) (imm.signExtend 64) c)), (pf, ones (!condOn (s.g a) (imm.signExtend 64) c))]
  | .pand _ d a b na nb => some [(d, (s.p a ^^^ ones na) &&& (s.p b ^^^ ones nb))]
  | .por _ d a b na nb => some [(d, (s.p a ^^^ ones na) ||| (s.p b ^^^ ones nb))]
  | .pxor _ d a b na nb => some [(d, (s.p a ^^^ ones na) ^^^ (s.p b ^^^ ones nb))]
  | .pmov _ d a na => some [(d, s.p a ^^^ ones na)]
  | _ => none

/-- The value that rdsr reads of each assigned number (spec/03 R40-R45, spec/04 R64, R66, spec/16 R268, spec/23
R368). -/
def sysValue (s : State) (n : BitVec 12) : Option Word :=
  match n.toNat with
  | 0x000 => some (s.core.fmt.setWidth 64)
  | 0x001 => some (BitVec.ofNat 64 (s.th.res % 8 + 2 ^ 32 * (s.th.depth % 2 ^ 32)))
  | 0x002 => some (BitVec.ofNat 64 (s.ct + 4 * (s.cc % 100352) + 2 ^ 32 * ((s.pkgAt (s.cc / 100352)).pkgId % 2 ^ 14)))
  | 0x003 => some (if s.core.stky then 1 else 0)
  | 0x004 => some (s.th.rngs.setWidth 64)
  | 0x008 => some s.th.cls
  | 0x010 => some (s.th.lsn 0) | 0x011 => some (s.th.lsn 1) | 0x012 => some (s.th.lsn 2) | 0x013 => some (s.th.lsn 3)
  | 0x014 => some (s.th.len 0) | 0x015 => some (s.th.len 1) | 0x016 => some (s.th.len 2) | 0x017 => some (s.th.len 3)
  | 0x018 => some (s.th.lcn 0) | 0x019 => some (s.th.lcn 1) | 0x01A => some (s.th.lcn 2) | 0x01B => some (s.th.lcn 3)
  | 0x020 => some s.th.tvec
  | 0x021 => some s.th.tpc
  | 0x022 => some s.th.tcause
  | 0x023 => some s.th.tval
  | 0x030 => some (s.pkgAt (s.cc / 100352)).cap0
  | 0x031 => some (s.pkgAt (s.cc / 100352)).cap1
  | _ => none

/-! ## How statements say what an instruction comes to -/

/-- An instruction completes with an effect on the state, and goes on at its back-edge or successor. -/
def Completes (i : Instr) (s e : State) : Prop := exec i s = .next (complete i .fall s e)

/-- An instruction takes a trap, with nothing written before it. -/
def Traps (i : Instr) (s : State) (code : Nat) (tval : Word) : Prop :=
  exec i s = .next (takeTrap { code := code, tval := tval } s)

/-- An event happens, with its effect. -/
def Happens (i : Instr) (s e : State) : Prop := exec i s = .next e

/-! ## Loads, stores and tracks in the words of the statements -/

/-- Bytes, signedness, destination and effective address of a synchronous scalar load (spec/10 R150). -/
def loadForm (s : State) : Instr → Option (Nat × Bool × GReg × Word)
  | .ld _ sz d a off _ => some (2 ^ (match sz with | .b => 0 | .h => 1 | .w => 2 | .d => 3), true, d, offsetAddr (s.g a) (off.signExtend 60))
  | .ldM32 _ sz d a off _ => some (2 ^ (match sz with | .b => 0 | .h => 1 | .w => 2 | .d => 3), true, d, offsetAddr (s.g a) (off.signExtend 60))
  | .ldu _ sz d a off _ => some (2 ^ (match sz with | .b => 0 | .h => 1 | .w => 2), false, d, offsetAddr (s.g a) (off.signExtend 60))
  | .lduM32 _ sz d a off _ => some (2 ^ (match sz with | .b => 0 | .h => 1 | .w => 2), false, d, offsetAddr (s.g a) (off.signExtend 60))
  | _ => none

/-- Bytes, value and effective address of a scalar store. -/
def storeForm (s : State) : Instr → Option (Nat × Word × Word)
  | .st _ sz d a off _ => some (2 ^ (match sz with | .b => 0 | .h => 1 | .w => 2 | .d => 3), s.g d, offsetAddr (s.g a) (off.signExtend 60))
  | .stM32 _ sz d a off _ => some (2 ^ (match sz with | .b => 0 | .h => 1 | .w => 2 | .d => 3), s.g d, offsetAddr (s.g a) (off.signExtend 60))
  | _ => none

/-- A location that the memory can serve an agent: in SRAM, or in memory whose device answers (spec/21 R337), and
the byte budget of the agent's cluster grants the request: none is set, the location lies in the cluster's own SRAM,
bytes of it are left, or the agent has paid for the request before (spec/22 R358). -/
structure State.answers (s : State) (ag : Agent) (k : Nat) : Prop where
  device : isSram k = false → (s.pkgAt (k / 2 ^ 48)).cxlGone (k % 2 ^ 48) = false
  budget : (s.clusterAt ag.cluster).budget = 0 ∨ ownSram ag.cluster k = true ∨
    countOf s.granted ag.waiter < countOf s.paid ag.waiter ∨ 0 < (s.clusterAt ag.cluster).balance

/-- The registers of the thread and everything but memory, clusters, packages and the kept old bytes are as they
were: what the bookkeeping of an access leaves alone. -/
structure SameUnits (s t : State) : Prop where
  threads : t.threads = s.threads
  cores : t.cores = s.cores
  dies : t.dies = s.dies
  recs : t.recs = s.recs
  doms : t.doms = s.doms

/-- The current thread may use a track: it is its holder, the track is not failing, and no command of the thread
on it is outstanding (spec/05 R79, R85, R96). -/
structure TrackReady (t : TIdx) (s : State) : Prop where
  mine : s.trackRefusal t = none
  good : s.core.failing t.toNat = false
  idle : s.trackOps s.tk (some t) = []

/-- A slot that the port of a track reads at the right place and without an error (spec/05 R94, spec/22 R350). -/
structure SlotReady (x : Track) (slot : Nat) : Prop where
  aligned : portOffset x slot = 0
  clean : tget x.synd slot = none

/-- An access of n bytes by an agent goes to a place, and the lookup leaves a state. -/
def Reaches (ag : Agent) (acc : Acc) (dev : Bool) (ea : Word) (n : Nat) (s : State) (p : Place) (s1 : State) : Prop :=
  resolve ag acc dev ea n 0 false s = .ok p s1

/-- Bytes, destination, address and new value, as a function of the old, of an atomic of spec/11 R193. -/
def atomicForm (s : State) : Instr → Option (Nat × GReg × Word × (Nat → Nat))
  | .amoadd _ d a b dw _ => some (if dw then 8 else 4, d, s.g a,
      fun o => (o + (s.g b).toNat) % (if dw then 2 ^ 64 else 2 ^ 32))
  | .amoswp _ d a b dw _ => some (if dw then 8 else 4, d, s.g a, fun _ => (s.g b).toNat % (if dw then 2 ^ 64 else 2 ^ 32))
  | .amocas _ d a b c dw _ => some (if dw then 8 else 4, d, s.g a,
      fun o => if o = (s.g b).toNat % (if dw then 2 ^ 64 else 2 ^ 32)
        then (s.g c).toNat % (if dw then 2 ^ 64 else 2 ^ 32) else o)
  | .amomin _ d a b dw _ u => some (if dw then 8 else 4, d, s.g a, fun o =>
      if dw then (if u then min o (s.g b).toNat else if (BitVec.ofNat 64 o).sle (s.g b) then o else (s.g b).toNat)
      else (if u then min o ((s.g b).setWidth 32).toNat
        else if (BitVec.ofNat 32 o).sle ((s.g b).setWidth 32) then o else ((s.g b).setWidth 32).toNat))
  | .amomax _ d a b dw _ u => some (if dw then 8 else 4, d, s.g a, fun o =>
      if dw then (if u then max o (s.g b).toNat else if (s.g b).sle (BitVec.ofNat 64 o) then o else (s.g b).toNat)
      else (if u then max o ((s.g b).setWidth 32).toNat
        else if ((s.g b).setWidth 32).sle (BitVec.ofNat 32 o) then o else ((s.g b).setWidth 32).toNat))
  | .amoand _ d a b dw _ => some (if dw then 8 else 4, d, s.g a, fun o => o &&& (s.g b).toNat % (if dw then 2 ^ 64 else 2 ^ 32))
  | .amoor _ d a b dw _ => some (if dw then 8 else 4, d, s.g a, fun o => o ||| (s.g b).toNat % (if dw then 2 ^ 64 else 2 ^ 32))
  | _ => none

/-! ## Results of the vector instructions (spec/08) -/

/-- Sources, destinations, and the thread and the core after a vector instruction that only computes registers, its
registers bound to no stream. -/
structure VecResult where
  srcs : List VIdx
  dsts : List VIdx
  th : Thread
  core : Core

/-- A destination with new lanes where the guard selects them, the tag cleared, and the generator advanced once per
selected lane under SR (spec/07 R110, spec/08 R121, R122). -/
def laneWrite (s : State) (i : Instr) (f : Fmt) (rm : Rm) (d : VIdx) (g : Nat → Nat → Nat) : Thread :=
  let sel (k : Nat) : Bool := laneBit f (s.mask i) k
  let r := rngFor rm f.lanes sel s.th.rngs
  { s.th with rngs := r.2 }.setV d { data := mergeLanes f sel (s.th.vr d).data fun k => g (r.1 k) k, tag := none }

/-- A sum, difference or product: exact, then wrapped or clamped in class I, rounded once in class F (R125). -/
def arithLane (f : Fmt) (rm : Rm) (sat : Bool) (t : Nat) (x : Int) (y : Num) : Nat :=
  if f.isI then icode f.width (if sat then clampS f.width x else x) else roundF f rm sat t y

def vecResult (s : State) (i : Instr) : Option VecResult :=
  let fm (ef : Ef) : Fmt := ef.getD s.core.format
  let v (r : VIdx) : BitVec 512 := (s.th.vr r).data
  let of (ef : Ef) (d : VIdx) (srcs : List VIdx) (rm : Rm) (g : Fmt → Nat → Nat → Nat) : Option VecResult :=
    some { srcs := srcs, dsts := [d], th := laneWrite s i (fm ef) rm d (g (fm ef)), core := s.core }
  let bits2 (ef : Ef) (d a b : VIdx) (g : Fmt → Nat → Nat → Nat) : Option VecResult :=
    of ef d [a, b] .rne fun f _ k => g f (lane f (v a) k) (lane f (v b) k)
  let red (ef : Ef) (d a : VIdx) (rm : Rm) (g : Fmt → Nat → List Nat → Nat) : Option VecResult :=
    let f := fm ef
    let r := rngFor rm f.lanes (fun _ => true) s.th.rngs
    let xs := ((List.range f.lanes).filter (laneBit f (s.mask i))).map (lane f (v a))
    some { srcs := [a], dsts := [d], core := s.core
           th := { s.th with rngs := r.2 }.setV d { data := BitVec.ofNat 512 (g f (r.1 0) xs), tag := none } }
  match i with
  | .vadd _ ef d a b rm sat => of ef d [a, b] rm fun f t k =>
      arithLane f rm sat t (sval f.width (lane f (v a) k) + sval f.width (lane f (v b) k))
        (sumNums (isRdn rm) [floatVal f (lane f (v a) k), floatVal f (lane f (v b) k)])
  | .vsub _ ef d a b rm sat => of ef d [a, b] rm fun f t k =>
      arithLane f rm sat t (sval f.width (lane f (v a) k) - sval f.width (lane f (v b) k))
        (sumNums (isRdn rm) [floatVal f (lane f (v a) k), (floatVal f (lane f (v b) k)).neg])
  | .vmul _ ef d a b rm sat => of ef d [a, b] rm fun f t k =>
      arithLane f rm sat t (sval f.width (lane f (v a) k) * sval f.width (lane f (v b) k))
        ((floatVal f (lane f (v a) k)).mul (floatVal f (lane f (v b) k)))
  | .vfma _ ef d a b c rm sat => of ef d [a, b, c] rm fun f t k =>
      roundF f rm sat t (sumNums (isRdn rm)
        [(floatVal f (lane f (v a) k)).mul (floatVal f (lane f (v b) k)), floatVal f (lane f (v c) k)])
  | .vmin _ ef d a b => bits2 ef d a b (pickNum true)
  | .vmax _ ef d a b => bits2 ef d a b (pickNum false)
  | .vabs _ ef d a sat => of ef d [a] .rne fun f _ k =>
      if f.isI then icode f.width (let x : Int := (sval f.width (lane f (v a) k)).natAbs
        if sat then clampS f.width x else x)
      else roundF f .rne false 0 (floatVal f (lane f (v a) k)).abs
  | .vneg _ ef d a sat => of ef d [a] .rne fun f _ k =>
      if f.isI then icode f.width (let x : Int := -sval f.width (lane f (v a) k)
        if sat then clampS f.width x else x)
      else roundF f .rne false 0 (floatVal f (lane f (v a) k)).neg
  | .vand _ ef d a b => bits2 ef d a b fun _ => Nat.land
  | .vor _ ef d a b => bits2 ef d a b fun _ => Nat.lor
  | .vxor _ ef d a b => bits2 ef d a b fun _ => Nat.xor
  | .vshl _ ef d a b => bits2 ef d a b fun f x y => x * 2 ^ (y % f.width) % 2 ^ f.width
  | .vshr _ ef d a b => bits2 ef d a b fun f x y => x / 2 ^ (y % f.width)
  | .vsra _ ef d a b => bits2 ef d a b fun f x y => icode f.width (sval f.width x / 2 ^ (y % f.width))
  | .vsel _ ef d pc a b => of ef d [a, b] .rne fun f _ k => lane f (v (if laneBit f (s.p pc) k then a else b)) k
  | .vrcp _ ef d a rm sat => of ef d [a] rm fun f t k => roundF f rm sat t (rcpNum (floatVal f (lane f (v a) k)))
  | .vrsqrt _ ef d a rm sat => of ef d [a] rm fun f t k => roundF f rm sat t (rsqrtNum (floatVal f (lane f (v a) k)))
  | .vlog2 _ ef d a rm sat => of ef d [a] rm fun f t k => roundF f rm sat t (log2Num (floatVal f (lane f (v a) k)))
  | .vexp2 _ ef d a => of ef d [a] .rne fun f _ k => roundF f .rne false 0 (f32 (exp2F (floatVal f (lane f (v a) k))))
  | .vbcast _ ef d a => of ef d [] .rne fun f _ _ => (s.g a).toNat % 2 ^ codeBits f
  | .vperm _ ef d a b => of ef d [a, b] .rne fun f _ k => lane f (v a) (rawLane f (v b) k % f.lanes)
  | .vshuf _ ef d a b c => of ef d [a, b, c] .rne fun f _ k =>
      let j := rawLane f (v c) k % (2 * f.lanes)
      if j < f.lanes then lane f (v a) j else lane f (v b) (j - f.lanes)
  | .vpack _ ef d a b sat => of ef d [a, b] .rne fun f _ k =>
      let w := Fmt.wider f
      let x := sval w.width (if k < f.lanes / 2 then lane w (v a) k else lane w (v b) (k - f.lanes / 2))
      icode f.width (if sat then clampS f.width x else x)
  | .vunpack _ ef d a h u => of ef d [a] .rne fun f _ k =>
      let n := Fmt.narrower f
      let x := lane n (v a) ((if h then f.lanes else 0) + k)
      if u then x else icode f.width (sval n.width x)
  | .vredsum _ ef d a rm sat => red ef d a rm fun f t xs =>
      arithLane f rm sat t (xs.foldl (fun n x => n + sval f.width x) 0) (sumNums false (xs.map (floatVal f)))
  | .vredmax _ ef d a => red ef d a .rne fun f _ xs =>
      match xs with
      | [] => 0
      | x :: l => l.foldl (pickNum false f) (pickNum false f x x)
  | .vmov _ ef d a =>
    let f := fm ef
    some { srcs := [a], dsts := [d], core := s.core
           th := s.th.setV d
            { data := mergeLanes f (laneBit f (s.mask i)) (v d) (lane f (v a))
              tag := if fullMask f (s.mask i) then (s.th.vr a).tag else none } }
  | .vcmp _ c ef pt pf a b =>
    let f := fm ef
    some { srcs := [a, b], dsts := [], core := s.core
           th := setLanes pt pf (bitsOf f.lanes fun k => vcondVal c f (lane f (v a) k) (lane f (v b) k))
            (lowBits (s.mask i) f.lanes) s.th }
  | .vext _ ef d a idx =>
    let f := fm ef
    let x := lane f (v a) idx.toNat
    some { srcs := [a], dsts := [], core := s.core
           th := s.th.setG d (if f.isI then BitVec.ofInt 64 (sval f.width x) else BitVec.ofNat 64 x) }
  | .vins _ ef d a idx =>
    let f := fm ef
    some { srcs := [], dsts := [d], core := s.core
           th := s.th.setV d { data := mergeLanes f (· == idx.toNat) (v d) fun _ => (s.g a).toNat % 2 ^ codeBits f
                               tag := none } }
  | .vcvt _ dst src d a part rm sat =>
    let fd := fm dst
    let fs := fm src
    let up := decide (fs.lanes ≤ fd.lanes)
    let off := part.toNat * (if up then fs.lanes else fd.lanes)
    let sel (k : Nat) : Bool := laneBit fd (s.mask i) k && (!up || (decide (off ≤ k) && decide (k < off + fs.lanes)))
    let at_ (k : Nat) : Nat := lane fs (v a) (if up then k - off else off + k)
    let r := rngFor rm fd.lanes sel s.th.rngs
    some { srcs := [a], dsts := [d]
           core := s.core.setTern ((fs == .ternary) && (List.range fd.lanes).any fun k => sel k && at_ k == 2)
           th := { s.th with rngs := r.2 }.setV d
            { data := mergeLanes fd sel (v d) fun k => convert fd fs rm sat (r.1 k) (at_ k), tag := none } }
  | .vquant _ dst src d a k o part rm =>
    let fd := fm dst
    let fs := fm src
    let srcs := match fs with | .fp32 => [a, a + 1] | _ => [a]
    let xs := (List.range 32).map fun j => floatVal fs (lane fs (v (srcs.getD (j / fs.lanes) a)) (j % fs.lanes))
    let r := rngFor rm 32 (fun _ => true) s.th.rngs
    let q := quantBlock fd rm ((List.range 32).map r.1) xs
    let lo := 32 * part.toNat
    let x := setEntry (s.core.k k.toNat) (4 * o.toNat + part.toNat) q.1
    let c := { s.core with kents := tput s.core.kents k.toNat x, kgen := tput s.core.kgen k.toNat (s.core.kg k.toNat + 1) }
    some { srcs := srcs, dsts := [d], core := c
           th := { s.th with rngs := r.2 }.setV d
            { data := mergeLanes fd (fun n => decide (lo ≤ n) && decide (n < lo + 32)) (v d) fun n => q.2.getD (n - lo) 0
              tag := some ⟨k, s.core.kg k.toNat + 1, o⟩ } }
  | .vdeq _ dst src d a part rm sat =>
    let fd := fm dst
    let fs := fm src
    match (s.th.vr a).tag with
    | none => none
    | some t =>
      if t.gen ≠ s.core.kg t.k.toNat then none
      else
        let x := s.core.kEntry t.k (4 * t.o.toNat + part.toNat)
        let code (j : Nat) : Nat := lane fs (v a) (32 * part.toNat + j)
        let r := rngFor rm 32 (fun _ => true) s.th.rngs
        let out (j : Nat) : Nat := roundF fd rm sat (r.1 j) (scaledVal fs x (code j))
        let t1 := { s.th with rngs := r.2 }
        some { srcs := [a], dsts := if fd.lanes < 32 then [d, d + 1] else [d]
               core := s.core.setTern ((fs == .ternary) && (List.range 32).any fun j => code j == 2)
               th := if fd.lanes < 32 then
                  (t1.setV d { data := ofLanes fd fd.lanes out, tag := none }).setV (d + 1)
                    { data := ofLanes fd fd.lanes fun j => out (fd.lanes + j), tag := none }
                else t1.setV d { data := ofLanes fd 32 out, tag := none } }
  | _ => none

/-! ## Scales (spec/18 R292) -/

/-- Entry j of the second source: a register's, or one byte for all. -/
def scaleSource (s : State) (src : KSrc) (j : Nat) : Nat :=
  match src with
  | .k r => s.core.kEntry r j
  | .g r => (s.g r).toNat % 256

/-- Two scales combined: NaN where either is. -/
def scalePair (f : Int → Int → Int) (x y : Nat) : Nat := if x = 255 ∨ y = 255 then 255 else (f x y).toNat

/-- The registers of a list are bound to no stream. -/
def State.unbound (s : State) (l : List VIdx) : Prop := ∀ v, v ∈ l → s.th.bind v = none

/-- Nothing but the current thread, the current core and the clusters' and packages' bookkeeping differs. -/
structure OnlyHere (s t : State) : Prop where
  threads : ∀ k, k ≠ s.tk → t.threadAt k = s.threadAt k
  cores : ∀ k, k ≠ s.cc → t.coreAt k = s.coreAt k
  clusters : t.clusters = s.clusters
  dies : t.dies = s.dies
  pkgs : t.pkgs = s.pkgs
  recs : t.recs = s.recs
  doms : t.doms = s.doms
  mem : t.mem = s.mem

end Sys2Proof.Machine
end

