-- ==== Sys2Proof/Certificates/Slice0/Obligations.lean ====
section
/-! DEFINITION. The statements for the provers. Each says in its docstring which rules of spec/ it formalises. -/

section Statements

open Sys2Proof Sys2Proof.Machine

/-! ## Words -/

/-- Words that the chapters write out bit by bit decode to the instructions they stand for (spec/03 R46-R55,
spec/04 R59-R65, spec/10 R150, spec/14 R226, R231, spec/22 R362). -/
def Obligations.DecodeWords : Prop :=
  decodeTableWord 64 0x0000000840C1481C = some (.cmp ⟨7, false⟩ .lt 1 2 3 4) ∧
  decodeTableWord 64 0x000400064243885C = some (.cmpi ⟨7, false⟩ .ltu 3 4 9 100) ∧
  decodeTableWord 64 0x0000002C8185051C = some (.bfx ⟨7, false⟩ 5 6 8 11 false) ∧
  decodeTableWord 64 0x00000001A4400A9C = some (.loop ⟨7, false⟩ 0 17 26) ∧
  decodeTableWord 64 0x000003FFFFD02A1C = some (.call ⟨7, false⟩ (-48)) ∧
  decodeTableWord 64 0x0000000030004A88 = some (.clause ⟨2, false⟩ 3) ∧
  decodeTableWord 64 0x0000000000004A5C = some (.ret ⟨7, false⟩) ∧
  decodeTableWord 64 0x0001FFFF81854C1C = some (.ld ⟨7, false⟩ .w 5 6 (-8) true) ∧
  decodeTableWord 64 0x0000000000149F9C = some (.rdtime ⟨7, false⟩ 20) ∧
  decodeTableWord 64 0x0000000510283B1C = some (.cut ⟨7, false⟩ 0x51 40) ∧
  decodeTableWord 64 0x0000000004005B1C = some (.graft ⟨7, false⟩ 16)

/-- Decode answers only well-formed instructions, and only for the bytes that the encoder writes for them: an
instruction has one encoding, and every bit that its entry does not define is 0 (spec/02 R11, R27). -/
def Obligations.DecodeSound : Prop :=
  ∀ (bs : List Byte) (i : Instr) (n : Nat), decode bs = .ok (i, n) →
    i.wf = true ∧ encode i = some (bs.take n) ∧ n ≤ bs.length ∧ n = i.bytes

/-- Every well-formed instruction that has an encoding is what decode reads from its bytes, with every operand
at every value that the encoding admits, whatever bytes follow it (spec/02 R11, R15, R19-R23, R26). -/
def Obligations.DecodeEncode : Prop :=
  ∀ (i : Instr) (bs rest : List Byte), i.wf = true → encode i = some bs →
    decode (bs ++ rest) = .ok (i, bs.length)

/-! ## The step -/

/-- A step runs the decoded instruction. When the bytes fetched at the program counter decode to an instruction,
step is exec of it, its core having noted that the thread issued, followed by what a turn leaves for its end (spec/02
R12, spec/03 R33, spec/04 R56). Nothing is left, and the end of the turn changes nothing, where no thread ends, no
domain drains or has sends to place, and the thread is in no gang. The current thread has the turn where its core
picks it; a turn of another thread comes first in the list, where one is listed (the model's choice, log entry 10). -/
def Obligations.StepRunsDecoded : Prop :=
  (∀ (s s1 : State) (bs : List Byte) (i : Instr) (n : Nat), s.turns = [] → s.turnPick = s → Issues s →
    legalStart s.th.pc = true → fetchBytes s = .ok bs s1 → decode bs = .ok (i, n) →
    step s = closeTurn s (exec i (s1.noteIssue i))) ∧
  (∀ (s s1 : State) (core thr : Nat) (rest : List Turn) (bs : List Byte) (i : Instr) (n : Nat),
    s.turns = .issue core thr :: rest → thr < 4 → core < 9216 * 100352 → Issues (s.turnTo core thr rest) →
    legalStart (s.turnTo core thr rest).th.pc = true → fetchBytes (s.turnTo core thr rest) = .ok bs s1 →
    decode bs = .ok (i, n) →
    step s = closeTurn (s.turnTo core thr rest) (exec i (s1.noteIssue i))) ∧
  (∀ (i : Instr) (s : State), (∀ k, k ≠ s.cc → (s.noteIssue i).coreAt k = s.coreAt k) ∧
    (s.noteIssue i).core = { s.core with lastS := (s.noteIssue i).core.lastS, lastV := (s.noteIssue i).core.lastV } ∧
    (s.noteIssue i).threads = s.threads ∧ (s.noteIssue i).clusters = s.clusters ∧ (s.noteIssue i).pkgs = s.pkgs ∧
    (s.noteIssue i).mem = s.mem ∧ (s.noteIssue i).recs = s.recs ∧ (s.noteIssue i).doms = s.doms) ∧
  (∀ (s t : State), (t.threadAt s.tk).gang = none → t.pend = [] → t.draining = [] →
    (∀ x, x ∈ t.doms → x.2.due = []) → t.granted = [] → t.paid = [] → t.asking = [] → t.fixes = [] → closeTurn s (.next t) = .next t)

/-- The bytes that a thread fetches: those from the pc to the end of its fetch block, at most 16, through path 0x0
with execute permission (spec/02 R12, R30), where the block has not been written since the thread began or last passed
a suspension point. The request is charged to the byte budget of the thread's cluster (spec/22 R358), here none.
Translation leaves every register as it was: an access that reaches a byte of memory changes no thread, no core
but in its micro-TLB, no die, record or domain, and no byte (spec/10 R151, R155). That a written block is fetched
wholly old or wholly new, by one choice until the next suspension point, is the model's reading (log entry 21). -/
def Obligations.TranslationAndFetch : Prop :=
  (∀ (s s1 : State) (k : Nat) (e : TlbEnt), Clean s → Clean s1 →
    Sys2Proof.Machine.translate { s.lsu with unit := 1 } (pkgOf s.cc) s.th.pc.toNat .fetch (s.th.pc.setWidth 64)
      0 false true s = .ok (k, e) s1 →
    (s1.pkgAt (k / 2 ^ 48)).cxlGone (k % 2 ^ 48) = false → s1.th.fetchFrom = s1.old.length →
    (s1.clusterAt (clusterOf s.cc)).budget = 0 →
    let n := min 16 (32 - s.th.pc.toNat % 32)
    fetchBytes s = .ok (memReads s1.mem k n) (s1.charge (clusterOf s.cc) k n)) ∧
  (∀ (ag : Agent) (acc : Acc) (dev : Bool) (ea : Word) (n k : Nat) (s s1 : State), Clean s →
    Reaches ag acc dev ea n s (.cell k) s1 →
      s1.threads = s.threads ∧ s1.dies = s.dies ∧ s1.recs = s.recs ∧ s1.doms = s.doms ∧
      (∀ c, s1.coreAt c = { s.coreAt c with utlb := (s1.coreAt c).utlb }) ∧ ∀ a, memRead s1.mem a = memRead s.mem a)

/-! ## Reset -/

/-- The values that the rules give for package reset or, for a thread's state, for fresh dispatch: the registers
of a thread (spec/03 R31, R41, R42, R44, R45), its frame store (spec/14 R223), the scale registers (spec/18
R284), the matrix engine (spec/19 R299), trip points and clocks (spec/22 R359, R360), SRAM (spec/23 R363). That an
unbound thread slot holds at reset what fresh dispatch gives is the model's choice (log entry 2). -/
def Obligations.ResetValues : Prop :=
  let s := State.reset
  (∀ r, s.g r = 0) ∧ (∀ r, s.p r = if r = 7 then BitVec.allOnes 64 else 0) ∧
  (∀ v, s.th.vr v = { data := 0, tag := none }) ∧ (∀ f, (s.th.fr f).v = false) ∧
  (∀ n, s.th.lsn n = 0 ∧ s.th.len n = 0 ∧ s.th.lcn n = 0) ∧
  s.th.cls = 0 ∧ s.th.tvec = 0 ∧ s.th.tpc = 0 ∧ s.th.tcause = 0 ∧ s.th.tval = 0 ∧ s.th.wst = 1 ∧
  s.th.rngs = 1 ∧ (∀ e, (s.th.tl e).last = 0 ∧ (s.th.tl e).cur = 0) ∧
  s.core.fmt = 12 ∧ s.core.stky = false ∧ (∀ k (e : Nat), e < 32 → s.core.kEntry k e = 0x7F) ∧ (∀ k, s.core.kg k = 0) ∧
  (∀ n i j, s.core.accAt n i j = 0) ∧ s.core.stage.lxc = 32 ∧
  (s.pkgAt 0).trip = 105 ∧ (s.pkgAt 0).resume = 95 ∧ (s.pkgAt 0).gates = 0 ∧ (s.pkgAt 0).tbase = 0 ∧
  (s.clusterAt 0).freq = 100 ∧ ∀ core off, off < 32768 → memRead s.mem (sramKey core off) = 0

/-- The invariant holds after reset. -/
def Obligations.ResetInvariant : Prop := State.reset.Inv

/-- Every step that answers a next state keeps the invariant: the canonical form of the memory, with addresses strictly
rising and no byte listed that an unlisted address reads as, so that equal memories are equal data whatever wrote
them; and a current thread number of 0 to 3. -/
def Obligations.InvariantKept : Prop := ∀ (s t : State), s.Inv → step s = .next t → t.Inv

/-! ## Guards, ownership, the trap window -/

/-- An instruction whose guard is false writes nothing: it completes at its successor or back-edge; an
instruction of a timeline takes its number, which ends at once, and its future is done (spec/02 R15, spec/04
R56, spec/08 R122, spec/11 R123). -/
def Obligations.FalseGuardSkips : Prop :=
  ∀ (i : Instr) (gd : Guard) (s : State), i.guard = some gd → Skips i s →
    exec i s = .next (complete i .fall s (match i.timeline with
      | some (e, fd) => s.modTh (skipTimeline e fd)
      | none => s))

/-- Of the threads of a core that are ready with an instruction of one class, the one that comes next after the last
that issued in that class has the turn, in the order 0, 1, 2, 3, 0, and its issue is noted (spec/03 R33; what a pair
word needs is the model's reading, log entry 10). An instruction of the engine owner that another thread executes takes the ownership trap: tval is the
owner's index, or 4 where no thread owns the engine (spec/03 R32, spec/16 R272). In the trap window a call, a
return, a loop, a clause header and the frame instructions other than spillw and fillw are illegal when their
guard is true (spec/16 R271, spec/14 R230). A member of a clause that is a control instruction other than nop,
or mark, cut or graft, takes the clause-misuse trap before it executes, whatever its guard (spec/04 R68). -/
def Obligations.IssueChecks : Prop :=
  (∀ (core thr k : Nat) (i j : Instr) (s : State), thr < 4 → k < 4 →
    let next (n : Nat) (x : Instr) : Prop := s.threadReady (4 * core + n) = true ∧
      (s.threadAt (4 * core + n)).saving = none ∧ s.peek (4 * core + n) = some x
    let p := s.pickFor core thr
    let first (last : Nat) : Prop := p < 4 ∧ s.threadReady (4 * core + p) = true ∧
      (p + 3 * last + 3) % 4 ≤ (k + 3 * last + 3) % 4
    next thr i → next k j →
    (Instr.slots i = (true, false) → Instr.slots j = (true, false) → first (s.coreAt core).lastS) ∧
    (Instr.slots i = (false, true) → Instr.slots j = (false, true) → first (s.coreAt core).lastV)) ∧
  (∀ (i : Instr) (s : State), s.stalls i = false →
    (s.noteIssue i).core.lastS = (if (Instr.slots i).1 then s.ct else s.core.lastS) ∧
    (s.noteIssue i).core.lastV = (if (Instr.slots i).2 then s.ct else s.core.lastV)) ∧
  (∀ (i : Instr) (gd : Guard) (s : State), i.guard = some gd → i.needsOwner = true → s.th.inTrap = false →
    s.preTrap i = none → guardScan i s = (s, none) → s.live i = true → s.core.owner ≠ some s.ct →
    exec i s = .next (takeTrap { code := 4, tval := BitVec.ofNat 64 (s.core.owner.getD 4) } s)) ∧
  (∀ (i : Instr) (gd : Guard) (s : State), i.guard = some gd → i.trapBarred = true → s.th.inTrap = true →
    s.preTrap i = none → guardScan i s = (s, none) → (s.mask i).getLsbD 0 = true →
    exec i s = .next (takeTrap { code := 1, tval := i.low } s)) ∧
  (∀ (i : Instr) (gd : Guard) (s : State), i.guard = some gd → i.clauseBarred = true → s.th.inClause = true →
    s.fmtTrap i = false → exec i s = .next (takeTrap { code := 13, tval := 0 } s))

/-! ## Taking a trap, and returning -/

/-- Trap entry outside the trap window with a handler at a legal start: tpc, tcause and tval are written, the
clause is saved and ended, the trap window is entered at the handler; nothing else changes (spec/16 R269,
spec/04 R69); a wait at rejoin is over (spec/15 R261). A trap in the trap window ends the thread as killed and leaves
tpc, tcause and tval as the first trap wrote them; a trap without a handler ends it too, and those registers receive
the trap; a handler that is no legal start ends it with the entry made (spec/16 R270). -/
def Obligations.TrapEntry : Prop :=
  (∀ (tr : Trap) (s : State), s.th.inTrap = false → s.th.tvec.toNat % 2 ^ 48 / 4 ≠ 0 →
    legalStart (handlerPc s.th.tvec) = true →
    (takeTrap tr s).th = { s.th with
      tpc := s.th.pc.setWidth 64, tcause := tr.cause, tval := tr.tval
      cls := (s.th.cls &&& 0xF0) ||| ((s.th.cls &&& 0xFF) <<< 8)
      inTrap := true, pc := (s.th.tvec &&& 0xFFFFFFFFFFFC).setWidth 48, waiting := none, waited := 0
      gang := s.th.gang.map fun g => { g with token := none } } ∧
    takeTrap tr s = s.setTh (takeTrap tr s).th) ∧
  (∀ (tr : Trap) (s : State),
    (s.th.inTrap = true →
      (takeTrap tr s).th = { s.th with dbl := some (tr.cause, tr.tval, s.th.pc.setWidth 64), dying := true } ∧
      (takeTrap tr s).pend = s.pend ++ [.kill s.tk]) ∧
    (s.th.inTrap = false → s.th.tvec.toNat % 2 ^ 48 / 4 = 0 →
      (takeTrap tr s).th = { s.th with
        tpc := s.th.pc.setWidth 64, tcause := tr.cause, tval := tr.tval, dying := true } ∧
      (takeTrap tr s).pend = s.pend ++ [.kill s.tk]) ∧
    (s.th.inTrap = false → s.th.tvec.toNat % 2 ^ 48 / 4 ≠ 0 → legalStart (handlerPc s.th.tvec) = false →
      let t := (takeTrap tr s).th
      t.inTrap = true ∧ t.tpc = s.th.pc.setWidth 64 ∧ t.tcause = tr.cause ∧ t.tval = tr.tval ∧
      t.cls = (s.th.cls &&& 0xF0) ||| ((s.th.cls &&& 0xFF) <<< 8) ∧ t.dying = true ∧
      (takeTrap tr s).pend = s.pend ++ [.kill s.tk]))

/-- tret in the trap window, with a legal start in tpc: the saved clause comes back and its saved copy is
cleared, the trap window is left, and the thread goes on at tpc with no back-edge (spec/04 R74). Outside the
window it is illegal. -/
def Obligations.TrapReturn : Prop :=
  ∀ (gd : Guard) (s : State), Ready (.tret gd) s →
    (s.th.inTrap = true → legalStart (s.th.tpc.setWidth 48) = true →
      exec (.tret gd) s = .next (complete (.tret gd) (.jump (s.th.tpc.setWidth 48)) s (s.modTh fun t => { t with
        cls := (t.cls >>> 8) &&& 0xFF, inTrap := false, pc := t.tpc.setWidth 48 }))) ∧
    (s.th.inTrap = true → legalStart (s.th.tpc.setWidth 48) = false →
      exec (.tret gd) s = .next (takeTrap { code := 2, tval := (s.th.tpc.setWidth 48).setWidth 64 } s)) ∧
    (s.th.inTrap = false →
      exec (.tret gd) s = .next (takeTrap { code := 1, tval := Instr.low (.tret gd) } s))

/-- The software trap is taken after the instruction completes: tpc is the next pc, back-edge included, and tval
is the immediate (spec/04 R73). -/
def Obligations.SoftwareTrap : Prop :=
  ∀ (gd : Guard) (n : BitVec 20) (s : State), Ready (.trap gd n) s →
    exec (.trap gd n) s =
      .next (takeTrap { code := 16, tval := n.setWidth 64 } (complete (.trap gd n) .fall s s))

/-! ## Where a completed instruction goes on -/

/-- The next pc (spec/04 R56, R61) and the clause count (R67) of an instruction that completes: a transfer goes
to its target; in the trap window no back-edge is examined; else the highest active level that ends at the
successor, with more than one iteration left, takes its back-edge; else the successor follows. The loop registers are
those before the instruction, whose back-edge target is known before it executes; a count that the instruction itself
wrote stands (the model's reading, log entry 76). -/
def Obligations.NextPc : Prop :=
  ∀ (i : Instr) (s s' : State),
    (∀ tgt, (complete i (.jump tgt) s s').th.pc = tgt) ∧
    (s.th.inTrap = true → (complete i .fall s s').th.pc = successor s.th.pc i.bytes) ∧
    (s.th.inTrap = false → backLevel s.th (successor s.th.pc i.bytes) = none →
      (complete i .fall s s').th.pc = successor s.th.pc i.bytes) ∧
    (∀ n, s.th.inTrap = false → backLevel s.th (successor s.th.pc i.bytes) = some n →
      (complete i .fall s s').th.pc = (s.th.lsn n).setWidth 48 ∧
      (complete i .fall s s').th.lcn n = if s.th.wroteCount i = some n then s'.th.lcn n else s.th.lcn n - 1) ∧
    ((complete i .fall s s').th.cls =
      if s.th.inTrap = false ∧ clsCount s.th.cls ≠ 0 ∧ s.th.wroteCls i = false ∧ clsCount s'.th.cls ≠ 0
      then s'.th.cls - 1 else s'.th.cls)

/-! ## Integer instructions -/

/-- Every instruction that only computes a general register completes with the result that the tables of spec/03
give it, for every operand (R46-R52, R55): sums wrap or saturate, shifts take six bits, division by zero and
-2^63 / -1 have the values of R47, an address keeps its path selector. Signed and unsigned division, with the
corner values of R47, in the numbers that the pseudocode uses. -/
def Obligations.IntegerResults : Prop :=
  (∀ (i : Instr) (s : State) (d : GReg) (v : Word), intResult s i = some (d, v) → i.wf = true → Ready i s →
    exec i s = .next (complete i .fall s (s.setG d v))) ∧
  (∀ (gd : Guard) (d a b : GReg) (s : State),
    (Ready (.div gd d a b) s → ∃ q : Word, exec (.div gd d a b) s = .next (complete (.div gd d a b) .fall s (s.setG d q)) ∧
      (s.g b = 0 → q = 0xFFFFFFFFFFFFFFFF) ∧
      (s.g a = 0x8000000000000000 → s.g b = 0xFFFFFFFFFFFFFFFF → q = 0x8000000000000000) ∧
      (s.g b ≠ 0 → ¬(s.g a = 0x8000000000000000 ∧ s.g b = 0xFFFFFFFFFFFFFFFF) →
        q.toInt = (s.g a).toInt.tdiv (s.g b).toInt)) ∧
    (Ready (.rem gd d a b) s → ∃ r : Word, exec (.rem gd d a b) s = .next (complete (.rem gd d a b) .fall s (s.setG d r)) ∧
      (s.g b = 0 → r = s.g a) ∧
      (s.g a = 0x8000000000000000 → s.g b = 0xFFFFFFFFFFFFFFFF → r = 0) ∧
      (s.g b ≠ 0 → r.toInt = (s.g a).toInt - (s.g a).toInt.tdiv (s.g b).toInt * (s.g b).toInt)) ∧
    (Ready (.divu gd d a b) s → ∃ q : Word, exec (.divu gd d a b) s = .next (complete (.divu gd d a b) .fall s (s.setG d q)) ∧
      (s.g b = 0 → q = 0xFFFFFFFFFFFFFFFF) ∧ (s.g b ≠ 0 → q.toNat = (s.g a).toNat / (s.g b).toNat)) ∧
    (Ready (.remu gd d a b) s → ∃ r : Word, exec (.remu gd d a b) s = .next (complete (.remu gd d a b) .fall s (s.setG d r)) ∧
      (s.g b = 0 → r = s.g a) ∧
      (s.g b ≠ 0 → r.toNat = (s.g a).toNat - (s.g a).toNat / (s.g b).toNat * (s.g b).toNat)))

/-- The frame of those instructions: g0 still reads 0 and the destination its result; every other general register,
the predicates, vectors, futures, the trap registers, the loop bounds, the core with its accumulators and scale
registers, every other thread, and every byte of memory stay as they were. The pc, the clause count, a loop
count and a gang's record of the next pc may change (spec/03 R35, R46, spec/04 R56, R61, R67). -/
def Obligations.IntegerFrame : Prop :=
  ∀ (i : Instr) (s t : State) (d : GReg) (v : Word), intResult s i = some (d, v) → i.wf = true → Ready i s →
    exec i s = .next t →
    (t.g d = if d = 0 then 0 else v) ∧ (∀ r, r ≠ d → t.g r = s.g r) ∧ (∀ r, t.p r = s.p r) ∧
    t.th.v = s.th.v ∧ t.th.f = s.th.f ∧ t.th.ls = s.th.ls ∧ t.th.le = s.th.le ∧
    t.th.tvec = s.th.tvec ∧ t.th.tpc = s.th.tpc ∧ t.th.tcause = s.th.tcause ∧ t.th.tval = s.th.tval ∧
    t.th.rngs = s.th.rngs ∧ t.th.wst = s.th.wst ∧ (∀ e, t.th.tl e = s.th.tl e) ∧ t.th.inTrap = s.th.inTrap ∧
    t.cores = s.cores ∧ t.clusters = s.clusters ∧ t.dies = s.dies ∧ t.pkgs = s.pkgs ∧ t.recs = s.recs ∧
    t.doms = s.doms ∧ (∀ k, k ≠ s.tk → t.threadAt k = s.threadAt k) ∧ (∀ a, memRead t.mem a = memRead s.mem a)

/-- The compares and the predicate operations write the predicates of R53 and R54, whole, pt before pf; p7 takes
no write; nothing else changes but where the thread goes on (spec/03 R53, R54). -/
def Obligations.PredicateResults : Prop :=
  ∀ (i : Instr) (s : State) (l : List (PIdx × Word)), predResult s i = some l → Ready i s →
    exec i s = .next (complete i .fall s (l.foldl (fun s (e : PIdx × Word) => s.setP e.1 e.2) s))

/-! ## System registers -/

/-- rdsr reads every assigned system register into its destination (spec/03 R39, R40). wrsr: fmt takes a format
code 1-13; stky is cleared by a 1; rngs stores 0x9E3779B9 for 0; the loop starts and ends take 48-bit addresses
and the counts any value; cls, tvec, tpc, tcause and tval as their maps say. A value that sets a reserved bit of
fmt, cls, the starts and ends, tvec or tpc, or gives fmt a code of none, is an illegal trap at the wrsr with the
value in tval (spec/03 R39, R41, R44, R45, spec/04 R64, R66, spec/16 R268). -/
def Obligations.SystemRegisters : Prop :=
  (∀ (gd : Guard) (d : GReg) (n : BitVec 12) (s : State) (v : Word), sysValue s n = some v →
    Ready (.rdsr gd d n) s →
    exec (.rdsr gd d n) s = .next (complete (.rdsr gd d n) .fall s (s.setG d v))) ∧
  (∀ (gd : Guard) (a : GReg) (s : State),
    let w (n : BitVec 12) (e : State) : Prop := Ready (.wrsr gd n a) s →
      exec (.wrsr gd n a) s = .next (complete (.wrsr gd n a) .fall s e)
    let bad (n : BitVec 12) : Prop := Ready (.wrsr gd n a) s →
      exec (.wrsr gd n a) s = .next (takeTrap { code := 1, tval := s.g a } s)
    let v := s.g a
    (if 1 ≤ v.toNat ∧ v.toNat ≤ 13 then w 0x000 (s.modCore fun c => { c with fmt := v.setWidth 4 }) else bad 0x000) ∧
    w 0x003 (s.modCore fun c => { c with stky := if v.getLsbD 0 then false else c.stky }) ∧
    w 0x004 (s.modTh fun t => { t with rngs := if v.setWidth 32 = 0#32 then 0x9E3779B9 else v.setWidth 32 }) ∧
    (if v.toNat < 2 ^ 16 ∧ v.toNat % 16 ≤ 8 ∧ v.toNat / 256 % 16 ≤ 8 then w 0x008 (s.modTh fun t => { t with cls := v })
      else bad 0x008) ∧
    (∀ k : Nat, k < 4 →
      (if v.toNat < 2 ^ 48 then w (0x010 + BitVec.ofNat 12 k) (s.modTh fun t => t.setLs k v)
        else bad (0x010 + BitVec.ofNat 12 k)) ∧
      (if v.toNat < 2 ^ 48 then w (0x014 + BitVec.ofNat 12 k) (s.modTh fun t => t.setLe k v)
        else bad (0x014 + BitVec.ofNat 12 k)) ∧
      w (0x018 + BitVec.ofNat 12 k) (s.modTh fun t => t.setLc k v)) ∧
    (if v.toNat < 2 ^ 48 ∧ v.toNat % 4 = 0 then w 0x020 (s.modTh fun t => { t with tvec := v }) else bad 0x020) ∧
    (if v.toNat < 2 ^ 48 then w 0x021 (s.modTh fun t => { t with tpc := v }) else bad 0x021) ∧
    w 0x022 (s.modTh fun t => { t with tcause := v &&& 0x3FF7F }) ∧
    w 0x023 (s.modTh fun t => { t with tval := v }))

/-! ## Control -/

/-- Branches: br goes 4 x OFF26 from its own address, jr to the register; a target that is no legal start is
misaligned, and a register target above 48 bits is an access trap; the trapping instruction writes nothing
(spec/04 R56, R59, R60). Loops: the header sets start, end and count of its level and falls into the body; with
a count of 0, or a body of no instruction, it leaves the level inactive and goes to the end (spec/04 R62). lbrk
ends its level and the inner ones and goes to the end of its own (R63). -/
def Obligations.Branches : Prop :=
  ((∀ (gd : Guard) (off : BitVec 26) (s : State), Ready (.br gd off) s →
    let tgt : Pc := s.th.pc + 4 * off.signExtend 48
    exec (.br gd off) s = .next (if legalStart tgt then complete (.br gd off) (.jump tgt) s s
      else takeTrap { code := 2, tval := tgt.setWidth 64 } s)) ∧
  (∀ (gd : Guard) (a : GReg) (s : State), Ready (.jr gd a) s →
    let v := s.g a
    exec (.jr gd a) s = .next (
      if 2 ^ 48 ≤ v.toNat then takeTrap { code := 3, tval := v } s
      else if legalStart (v.setWidth 48) then complete (.jr gd a) (.jump (v.setWidth 48)) s s
      else takeTrap { code := 2, tval := v } s))) ∧
  ((∀ (gd : Guard) (n : LIdx) (off : BitVec 20) (s : State) (i : Instr) (count : Word) (bytes : Nat),
    ((∃ a, i = .loop gd n a off ∧ count = s.g a ∧ bytes = 8) ∨
      (∃ c, i = .loopi gd n c off ∧ count = c.setWidth 64 ∧ bytes = 12)) → Ready i s →
    let start := successor s.th.pc bytes
    let fin : Pc := s.th.pc + 4 * off.setWidth 48
    let e (c : Word) : State := s.modTh fun t =>
      ((t.setLs n.toNat (start.setWidth 64)).setLe n.toNat (fin.setWidth 64)).setLc n.toNat c
    (count ≠ 0 → fin ≠ start → exec i s = .next (complete i .fall s (e count))) ∧
    (fin = start → legalStart fin = true → exec i s = .next (complete i .fall s (e 0))) ∧
    (count = 0 → fin ≠ start → legalStart fin = true → exec i s = .next (complete i (.jump fin) s (e 0))) ∧
    (count = 0 → legalStart fin = false → exec i s = .next (takeTrap { code := 2, tval := fin.setWidth 64 } s))) ∧
  (∀ (gd : Guard) (n : LIdx) (s : State), Ready (.lbrk gd n) s → legalStart ((s.th.len n.toNat).setWidth 48) = true →
    ∃ t, exec (.lbrk gd n) s = .next t ∧ t.th.pc = (s.th.len n.toNat).setWidth 48 ∧
      (∀ m : Nat, m < 4 → t.th.lcn m = if n.toNat ≤ m then 0 else s.th.lcn m) ∧
      (∀ r, t.g r = s.g r) ∧ t.mem = s.mem ∧ t.cores = s.cores))

/-- A clause header writes the live clause whatever its guard holds and keeps the saved copy (spec/04 R65, R66); a
wait stops the thread for its cycles until they have passed (R70); nop has no effect (R72). A fence whose kinds
include the engine operations waits until none of the thread's is outstanding; else it completes. It writes no
register and no byte: one core runs its accesses in order (spec/12 R199-R206). That one memory takes the
accesses in the order of turns is the model's reading (log entry 28). -/
def Obligations.ClausesWaitsFences : Prop :=
  ((∀ (gd : Guard) (n : BitVec 20) (s : State), Instr.wf (.clause gd n) = true → Ready (.clause gd n) s →
    exec (.clause gd n) s = .next (complete (.clause gd n) .fall s (s.modTh fun t => { t with
      cls := (t.cls &&& 0xFF00) ||| BitVec.ofNat 64 (n.toNat + 16 * gd.gp.toNat + 128 * gd.gn.toNat) }))) ∧
  (∀ (gd : Guard) (n : BitVec 20) (s : State), Ready (.wait gd n) s →
    exec (.wait gd n) s = .next (complete (.wait gd n) .fall s (s.modTh fun t => { t with waitN := n.toNat }))) ∧
  (∀ (core thr : Nat) (s : State), thr < 4 → (s.threadAt (4 * core + thr)).waitN ≠ 0 →
    exec (.waitExpiry core thr) s = .next (s.modThreadAt (4 * core + thr) fun t => { t with waitN := 0 })) ∧
  (∀ (gd : Guard) (l : BitVec 2) (s : State), Ready (.nop gd l) s →
    exec (.nop gd l) s = .next (complete (.nop gd l) .fall s s))) ∧
  (∀ (gd : Guard) (sc : Scope) (kinds : BitVec 5) (s : State), Ready (.fence gd sc kinds) s →
    (kinds.getLsbD 4 = true → s.allOps s.tk ≠ [] → exec (.fence gd sc kinds) s = .next s) ∧
    ((kinds.getLsbD 4 = false ∨ s.allOps s.tk = []) →
      ∃ e : State, Completes (.fence gd sc kinds) s e ∧ e.mem = s.mem ∧ (∀ r, e.g r = s.g r) ∧ (∀ p, e.p p = s.p p) ∧
        e.th.pc = s.th.pc ∧ e.cores = s.cores ∧ e.pkgs = s.pkgs))

/-! ## Calls, returns, the end of a thread -/

/-- Calls: with four windows resident a call takes the window-overflow trap, with no room for its frame the
frame-overflow trap; else it pushes a window frame of 41 words, the window moves on by 40 registers and G(23) of
the new window is the sequential successor (spec/04 R59, R60, spec/14 R226). The window names: a call makes the
caller's g56-g63 the callee's g16-g23, and the other names of the callee's window stand for other registers than
any name of the caller's below g56 (spec/03 R36). -/
def Obligations.Calls : Prop :=
  ((∀ (gd : Guard) (a : GReg) (s : State), Ready (.callr gd a) s → 2 ^ 48 ≤ (s.g a).toNat →
    Traps (.callr gd a) s 3 (s.g a)) ∧
  (∀ (i : Instr) (s : State) (tgt : Pc),
    ((∃ gd off, i = .call gd off ∧ tgt = s.th.pc + 4 * off.signExtend 48) ∨
      (∃ gd a, i = .callr gd a ∧ (s.g a).toNat < 2 ^ 48 ∧ tgt = (s.g a).setWidth 48)) →
    Ready i s →
    (legalStart tgt = false → Traps i s 2 (tgt.setWidth 64)) ∧
    (legalStart tgt = true → s.th.res = 4 → Traps i s 7 0) ∧
    (legalStart tgt = true → s.th.res ≠ 4 → s.th.frameCap < s.th.fsp + 41 →
      Traps i s 9 (BitVec.ofNat 64 (8 * (s.th.fsp + 41)))) ∧
    (∀ s1, legalStart tgt = true → s.th.res ≠ 4 →
      pushFrame s.tk { at_ := s.th.fsp, kind := .window, size := 41 } [] s = .ok () s1 →
      exec i s = .next (complete i (.jump tgt) s (s1.modTh fun t =>
        { t with res := t.res + 1, cwb := (t.cwb + 40) % 168 }.setG 23 ((successor s.th.pc 8).setWidth 64)))))) ∧
  (∀ (t : Thread) (r : GReg), t.inTrap = false →
    (16 ≤ r.toNat → r.toNat < 24 → Thread.g { t with cwb := (t.cwb + 40) % 168 } r = t.g (r + 40)) ∧
    (r.toNat < 16 → Thread.g { t with cwb := (t.cwb + 40) % 168 } r = t.g r) ∧
    (∀ (q : GReg) (v : Word), 24 ≤ r.toNat → q.toNat < 56 →
      Thread.g { Thread.setG { t with cwb := (t.cwb + 40) % 168 } r v with cwb := t.cwb } q =
        t.g q))

/-- ret reads the header of the frame below the current one in the frame store, where one is. It goes to the caller, at
G(23), whose window becomes current and whose frame is the topmost of the store; or out of the segment above a mark or
graft frame, at the resume address in that frame's store words, which is misaligned where it is no legal start; with only one window resident below more frames the
window-fill trap; from the thread's first call the thread ends, with G(16) as its exit value, once no operation of it
is outstanding; exit ends it from any depth (spec/04 R60, R71, spec/14 R222, R224, R226). Which words a pop reads is
the model's reading (log entry 83). -/
def Obligations.Returns : Prop :=
  (∀ (gd : Guard) (s s1 : State) (cur below : List Frame), Ready (.ret gd) s →
    splitCurrent s.th.frames = (cur, below) →
    (below = [] ∧ s1 = s ∨
      ∃ f rest h, below = f :: rest ∧ frameRead s.tk f.at_ 0 s = .ok h s1 ∧ h.toNat / 2 ^ 62 ≠ 1 ∧ h.toNat / 2 ^ 62 ≠ 2) →
    s1.tk = s.tk → s1.th = s.th →
    (s.th.res = 1 → s.th.depth ≠ 0 → Traps (.ret gd) s 8 0) ∧
    (s.th.res = 1 → s.th.depth = 0 → s1.allOps s.tk = [] →
      Happens (.ret gd) s (endThread s.tk 4 (some (s.g 16)) s1)) ∧
    (s.th.res ≠ 1 → (s.g 23).toNat < 2 ^ 48 → legalStart ((s.g 23).setWidth 48) = true → s1.frameOps s.tk = false →
      exec (.ret gd) s = .next (complete (.ret gd) (.jump ((s.g 23).setWidth 48)) s (s1.modTh fun t =>
        { t with res := t.res - 1, frames := below, fsp := (cur.getLast?.map Frame.at_).getD t.fsp
                 cwb := (t.cwb + 128) % 168 })))) ∧
  (∀ (gd : Guard) (s s1 : State) (cur rest : List Frame) (D : Frame) (h : Word), Ready (.ret gd) s →
    splitCurrent s.th.frames = (cur, D :: rest) → frameRead s.tk D.at_ 0 s = .ok h s1 →
    (h.toNat / 2 ^ 62 = 1 ∨ h.toNat / 2 ^ 62 = 2) → s1.tk = s.tk →
    (s.th.res = 1 → Traps (.ret gd) s 8 0) ∧
    (∀ s2 w, s.th.res ≠ 1 → s1.frameOps s.tk = false → frameRead s.tk (D.at_ + 1) 0 s1 = .ok w s2 →
      legalStart (w.setWidth 48) = false → Traps (.ret gd) s 2 ((w.setWidth 48).setWidth 64)) ∧
    (∀ s2 w, s.th.res ≠ 1 → s1.frameOps s.tk = false → frameRead s.tk (D.at_ + 1) 0 s1 = .ok w s2 →
      legalStart (w.setWidth 48) = true →
      exec (.ret gd) s = .next (complete (.ret gd) (.jump (w.setWidth 48)) s (s2.modTh fun t =>
        { t with res := t.res - 1, frames := rest, fsp := D.at_, cwb := (t.cwb + 128) % 168 })))) ∧
  (∀ (gd : Guard) (s : State), Ready (.exit gd) s → s.allOps s.tk = [] →
    Happens (.exit gd) s (endThread s.tk 4 (some (s.g 16)) s)) ∧
  (∀ (gd : Guard) (s : State), Ready (.exit gd) s → s.allOps s.tk ≠ [] → exec (.exit gd) s = .next s)

/-! ## Loads and stores -/

/-- Scalar loads: misaligned, they trap; else the destination receives the little-endian bytes at the address,
extended as the form says, and memory, where no stored bit is flipped, is as it was (spec/10 R147, R150). The
local SRAM (path 0x1) is addressed without translation; a register of path 0x9 is read whole, and an access trap is
taken where none lies (spec/22 R348). -/
def Obligations.Loads : Prop :=
  ∀ (i : Instr) (s : State) (n : Nat) (sg : Bool) (d : GReg) (ea : Word),
    loadForm s i = some (n, sg, d, ea) → Ready i s →
    (ea.toNat % n ≠ 0 → Traps i s 2 ea) ∧
    (ea.toNat % n = 0 → (ea.toNat / 2 ^ 60 = 1 ∧ 2 ^ 15 ≤ ea.toNat % 2 ^ 60 ∨ 10 ≤ ea.toNat / 2 ^ 60) → Traps i s 3 ea) ∧
    (∀ s1 k, ea.toNat % n = 0 → Reaches s.lsu .load (n == 8) ea n s (.cell k) s1 → Clean s1 → s1.answers s.lsu k →
      let b := leVal (memReads s1.mem k n)
      let v : Word := if sg then (BitVec.ofNat (8 * n) b).signExtend 64 else BitVec.ofNat 64 b
      ∃ s2, s2.mem = s1.mem ∧ SameUnits s1 s2 ∧ Completes i s (s2.setG d v)) ∧
    (∀ off, ea.toNat % n = 0 → ea.toNat = 2 ^ 60 + off → off < 2 ^ 15 →
      Reaches s.lsu .load (n == 8) ea n s (.cell (sramKey s.cc off)) s) ∧
    (∀ s1 p bs s2, ea.toNat % n = 0 → Reaches s.lsu .load (n == 8) ea n s p s1 → (∀ o, p ≠ .reg o) →
      placeRead s.lsu p n s1 = .ok bs s2 →
      Completes i s (s2.setG d (if sg then (BitVec.ofNat (8 * n) (leVal bs)).signExtend 64 else BitVec.ofNat 64 (leVal bs)))) ∧
    (∀ s1 o, ea.toNat % n = 0 → Reaches s.lsu .load (n == 8) ea n s (.reg o) s1 →
      (regRead s.lsu.pkg o s1 = none → Traps i s 3 ea) ∧
      (∀ s2 w, regRead s.lsu.pkg o s1 = some (s2, w) → (∀ c, (s1.clusterAt c).errs = []) → Completes i s (s2.setG d w)))

/-- Scalar stores: the low bytes of the source, little endian, at the address; every other byte of memory reads
as before, and so does every register (spec/10 R147, R150). A store to path 0x9 writes the register there (spec/22
R348). -/
def Obligations.Stores : Prop :=
  ∀ (i : Instr) (s : State) (n : Nat) (v ea : Word), storeForm s i = some (n, v, ea) → Ready i s →
    (ea.toNat % n ≠ 0 → Traps i s 2 ea) ∧
    (∀ s1 k, ea.toNat % n = 0 → Reaches s.lsu .store (n == 8) ea n s (.cell k) s1 → Clean s1 → s1.answers s.lsu k →
      ∃ s2, SameUnits s1 s2 ∧ Completes i s s2 ∧
        (∀ j, j < n → memRead s2.mem (k + j) = BitVec.ofNat 8 (v.toNat / 256 ^ j)) ∧
        (∀ a, a < k ∨ k + n ≤ a → memRead s2.mem a = memRead s1.mem a)) ∧
    (∀ off, ea.toNat % n = 0 → ea.toNat = 2 ^ 60 + off → off < 2 ^ 15 →
      Reaches s.lsu .store (n == 8) ea n s (.cell (sramKey s.cc off)) s) ∧
    (∀ s1 o, ea.toNat % n = 0 → Reaches s.lsu .store (n == 8) ea n s (.reg o) s1 →
      (regOccupied s.lsu.pkg o s1 = false → Traps i s 3 ea) ∧
      (∀ s2, regOccupied s.lsu.pkg o s1 = true → regWrite s.lsu.pkg o v s1 = .ok () s2 → Completes i s s2))

/-! ## Atomics -/

/-- Atomics: one step reads the old value, writes the new one of the table of R193 and gives the destination the
old value, sign-extended; every other byte of memory reads as before (spec/11 R193). The fixed-point cell:
famo.fx adds its FP32 operand to the cell by R117, fxrd reads it by R118 as an FP32 value with OV in bit 32 and
NV in bit 33, and .clr leaves the reserved bits alone; every byte outside the cell reads as before (spec/07
R116-R118, spec/11 R194). -/
def Obligations.Atomics : Prop :=
  (∀ (i : Instr) (s : State) (n : Nat) (d : GReg) (ea : Word) (f : Nat → Nat),
    atomicForm s i = some (n, d, ea, f) → Ready i s →
    (ea.toNat % n ≠ 0 → Traps i s 2 ea) ∧
    (∀ s1 k, ea.toNat % n = 0 → Reaches s.lsu .atomic false ea n s (.cell k) s1 → Clean s1 → s1.answers s.lsu k →
      let old := leVal (memReads s1.mem k n)
      ∃ s2, SameUnits s1 s2 ∧
        Completes i s (s2.setG d ((BitVec.ofNat (8 * n) old).signExtend 64)) ∧
        leVal (memReads s2.mem k n) = f old ∧
        (∀ a, a < k ∨ k + n ≤ a → memRead s2.mem a = memRead s1.mem a))) ∧
  ((∀ (gd : Guard) (a b : GReg) (ord : AmoOrd) (s s1 : State) (k : Nat), Ready (.famoFx gd a b ord) s →
    (s.g a).toNat % 32 = 0 → Reaches s.lsu .atomic false (s.g a) 32 s (.cell k) s1 → Clean s1 → s1.answers s.lsu k →
    ∃ s2, SameUnits s1 s2 ∧ Completes (.famoFx gd a b ord) s s2 ∧
      memReads s2.mem k 32 = leBytes 32 (cellAdd (leVal (memReads s1.mem k 32)) ((s.g b).setWidth 32)) ∧
      (∀ x, x < k ∨ k + 32 ≤ x → memRead s2.mem x = memRead s1.mem x)) ∧
  (∀ (gd : Guard) (d a : GReg) (clr : Bool) (ord : AmoOrd) (s s1 : State) (k : Nat), Ready (.fxrd gd d a clr ord) s →
    (s.g a).toNat % 32 = 0 → Reaches s.lsu .atomic false (s.g a) 32 s (.cell k) s1 → Clean s1 → s1.answers s.lsu k →
    let c := leVal (memReads s1.mem k 32)
    ∃ s2, SameUnits s1 s2 ∧
      Completes (.fxrd gd d a clr ord) s (s2.setG d ((cellF32 c).setWidth 64 ||| BitVec.ofNat 64 (c / 2 ^ 192 % 4 * 2 ^ 32))) ∧
      leVal (memReads s2.mem k 32) = (if clr then c / 2 ^ 194 * 2 ^ 194 else c) ∧
      (∀ x, x < k ∨ k + 32 ≤ x → memRead s2.mem x = memRead s1.mem x)))

/-! ## Asynchronous loads -/

/-- An asynchronous load joins its queue: the next number of the LD timeline is taken, the future names it as
pending, and no register is written; the queue holds eight. A misaligned address traps at issue (spec/11 R165,
R166, R173, R175). A queued scalar load's data arrives: its register, as its name stood at issue, takes the
value, extended as the form says, its number ends and its future is done (spec/11 R166, R167, R175, spec/08 R137); of
a load of the core's own SRAM the value and the frame are said whole: no other register and no byte changes. An
asynchronous vector load is queued with its guard and its format; no register changes until its data arrives; a bound
register is ring-misuse (spec/08 R137, R140, spec/11 R173, R175). When it arrives, the lanes that its guard selected
take the elements, the others stay, and the tag is cleared. Its lanes are translated once, when its requests leave
(spec/10 R164). -/
def Obligations.AsyncLoads : Prop :=
  (∀ (i : Instr) (s : State) (fd : FIdx) (d : GReg) (n : Nat) (ea : Word),
    ((∃ gd sz a off, i = .lda gd sz fd d a off ∧ n = sizeBytes sz ∧ ea = offsetAddr (s.g a) (off.signExtend 60)) ∨
      (∃ gd sz a off, i = .ldau gd sz fd d a off ∧ n = uSizeBytes sz ∧ ea = offsetAddr (s.g a) (off.signExtend 60))) →
    Ready i s →
    (ea.toNat % n ≠ 0 → Traps i s 2 ea) ∧
    (∀ s1 ad, ea.toNat % n = 0 → copyPath .load ea { run := n } s = .ok ad s1 → s1.th = s.th →
      s.th.ldq.length < 8 →
      ∃ e o, Completes i s e ∧ e.mem = s1.mem ∧ (∀ r, e.g r = s.g r) ∧
        (e.th.tl .ld).last = (s.th.tl .ld).last + 1 ∧ e.th.ldq = s.th.ldq ++ [o] ∧
        o.instr = i ∧ o.th = s.tk ∧ o.eng = .ld ∧ o.num = (s.th.tl .ld).last + 1 ∧ o.started = false ∧ o.wait = none ∧
        o.ldReg = (if d = 0 then none else some (gphys s.th d)) ∧
        e.th.fr fd = { v := true, st := .pending, eng := .ld, n := (s.th.tl .ld).last + 1 })) ∧
  ((∀ (core thr n : Nat) (o : Op) (s s1 : State), s.opAt (4 * core + thr) .ld n = some o →
    o.started = false → o.wait = none →
    (∀ m p, ((∃ gd sz fd d a off, o.instr = .lda gd sz fd d a off ∧ m = sizeBytes sz) ∨
        (∃ gd sz fd d a off, o.instr = .ldau gd sz fd d a off ∧ m = uSizeBytes sz)) →
      Reaches (loadAgent s o) .load false (o.args.getD 0 0) m s p s1 →
      Happens (.asyncLoadStart core thr n) s (s1.modOp o fun x => { x with started := true, places := [(p, m)] })) ∧
    (∀ gd fd d a off f ps, o.instr = .vlda gd fd d a off → Fmt.ofCode o.served = some f →
      lanePlaces (loadAgent s o) f o.mask (o.args.getD 0 0) s = .ok ps s1 →
      Happens (.asyncLoadStart core thr n) s (s1.modOp o fun x =>
        { x with started := true, places := ps.map fun p => (p, Fmt.laneBytes f) }))) ∧
  (∀ (core thr n : Nat) (o : Op) (s s1 : State), s.opAt (4 * core + thr) .ld n = some o →
    o.started = true → o.wait = none → loadArrive (loadAgent s o) o s = .ok () s1 →
    Happens (.asyncLoadComplete core thr n) s (s1.endOp o .done false 0)) ∧
  (∀ (core thr n k : Nat) (o : Op) (s : State), s.opAt (4 * core + thr) .ld n = some o → thr < 4 → o.eng = .ld →
    o.started = true → o.wait = none → s.sramErr = [] →
    let key := sramKey core k
    let t := s.threadAt (4 * core + thr)
    let arrives (t' : Thread → Prop) : Prop := ∃ e, Happens (.asyncLoadComplete core thr n) s e ∧ e.mem = s.mem ∧
      e.cores = s.cores ∧ e.pkgs = s.pkgs ∧ (∀ j, j ≠ 4 * core + thr → e.threadAt j = s.threadAt j) ∧
      (e.threadAt (4 * core + thr)).p = t.p ∧ (e.threadAt (4 * core + thr)).pc = t.pc ∧
      (∀ f : FIdx, t.fr f = { v := true, st := .pending, eng := .ld, n := n } →
        ((e.threadAt (4 * core + thr)).fr f).st = .done) ∧
      (∀ x, x ∈ (e.threadAt (4 * core + thr)).ldq → x ∈ t.ldq ∧ (x.num ≠ n ∨ x.th ≠ 4 * core + thr ∨ x.eng ≠ .ld)) ∧
      t' (e.threadAt (4 * core + thr))
    (∀ m sg, ((∃ gd sz fd d a off, o.instr = .lda gd sz fd d a off ∧ m = sizeBytes sz ∧ sg = true) ∨
        (∃ gd sz fd d a off, o.instr = .ldau gd sz fd d a off ∧ m = uSizeBytes sz ∧ sg = false)) →
      k + m ≤ 2 ^ 15 → o.places = [(.cell key, m)] →
      let b := leVal (memReads s.mem key m)
      let v : Word := if sg then (BitVec.ofNat (8 * m) b).signExtend 64 else BitVec.ofNat 64 b
      arrives fun t' => t'.v = t.v ∧ ∀ r, tgetD t'.regs r 0 = if o.ldReg = some r then v else tgetD t.regs r 0) ∧
    (∀ gd fd d a off f, o.instr = .vlda gd fd d a off → Fmt.ofCode o.served = some f → k + 64 ≤ 2 ^ 15 →
      o.places = (liveUnits f o.mask).map (fun u => (.cell (key + u * Fmt.laneBytes f), Fmt.laneBytes f)) →
      let there : BitVec 512 := BitVec.ofNat 512 (leVal (memReads s.mem key (Fmt.vecBytes f)))
      arrives fun t' => t'.regs = t.regs ∧ (t'.vr d).tag = none ∧ (∀ r, r ≠ d → t'.vr r = t.vr r) ∧
        ∀ j, j < f.lanes → rawLane f (t'.vr d).data j =
          if laneBit f o.mask j then lane f there j else rawLane f (t.vr d).data j))) ∧
  (∀ (gd : Guard) (fd : FIdx) (d : VIdx) (a : GReg) (off : BitVec 20) (s : State),
    let i := Instr.vlda gd fd d a off
    let n := Fmt.laneBytes s.core.format
    let ea := offsetAddr (s.g a) (off.signExtend 60)
    Ready i s →
    (s.th.bind d ≠ none → Traps i s 14 (d.setWidth 64)) ∧
    (s.th.bind d = none → ea.toNat % n ≠ 0 → Traps i s 2 ea) ∧
    (∀ k, s.th.bind d = none → ea.toNat % n = 0 → ea.toNat = 2 ^ 60 + k → k + 64 ≤ 2 ^ 15 → s.th.ldq.length < 8 →
      ∃ e o, Completes i s e ∧ e.mem = s.mem ∧ e.th.v = s.th.v ∧ e.th.ldq = s.th.ldq ++ [o] ∧
        o.instr = i ∧ o.th = s.tk ∧ o.eng = .ld ∧ o.num = (s.th.tl .ld).last + 1 ∧ o.started = false ∧ o.wait = none ∧
        o.mask = s.mask i ∧ o.served = s.core.format.code ∧
        (e.th.tl .ld).last = (s.th.tl .ld).last + 1 ∧
        e.th.fr fd = { v := true, st := .pending, eng := .ld, n := (s.th.tl .ld).last + 1 }))

/-! ## Tracks -/

/-- Claims: tclaim takes a free track for its thread and completes on one that the thread holds; a track held by
another thread or by a record is the ownership trap with its holder; one that fails is the track-shift trap after that;
tclaim.try tells instead of trapping; trel
gives the track back once no command of the thread on it is outstanding (spec/05 R79, R85, R87). tsync waits for
the thread's commands on a track, or on every track, and hpos reads a head (spec/05 R85, R89). -/
def Obligations.TrackClaims : Prop :=
  ((∀ (gd : Guard) (t : TIdx) (s : State), s.isFrameTrack s.cc t = false → s.isBoundTrack s.cc t = false →
    (t.toNat < 30 ∨ s.snapshotCore s.cc = false) → s.core.failing t.toNat = false →
    let mine := s.modTrack s.cc t.toNat fun x => { x with claim := .thread s.ct }
    (Ready (.tclaim gd t) s →
      ((s.trackAt s.cc t.toNat).claim = .none → Completes (.tclaim gd t) s mine) ∧
      ((s.trackAt s.cc t.toNat).claim = .thread s.ct → Completes (.tclaim gd t) s s) ∧
      (∀ x, (s.trackAt s.cc t.toNat).claim = .thread x → x ≠ s.ct →
        Traps (.tclaim gd t) s 4 (BitVec.ofNat 64 (x * 2 ^ 12 + 2 ^ 11 + t.toNat))) ∧
      (∀ k, (s.trackAt s.cc t.toNat).claim = .record k →
        Traps (.tclaim gd t) s 4 (BitVec.ofNat 64 (2 ^ 11 + 2 ^ 8 + t.toNat)))) ∧
    (∀ p : PIdx, Ready (.tclaimTry gd p t) s →
      ((s.trackAt s.cc t.toNat).claim = .none → Completes (.tclaimTry gd p t) s (mine.setP p (BitVec.allOnes 64))) ∧
      ((s.trackAt s.cc t.toNat).claim = .thread s.ct →
        Completes (.tclaimTry gd p t) s (s.setP p (BitVec.allOnes 64))) ∧
      ((s.trackAt s.cc t.toNat).claim ≠ .none → (s.trackAt s.cc t.toNat).claim ≠ .thread s.ct →
        Completes (.tclaimTry gd p t) s (s.setP p 0)))) ∧
  (∀ (gd : Guard) (t : TIdx) (s : State), Ready (.tclaim gd t) s → s.isFrameTrack s.cc t = false →
    s.isBoundTrack s.cc t = false → (t.toNat < 30 ∨ s.snapshotCore s.cc = false) → s.core.failing t.toNat = true →
    (∀ x, (s.trackAt s.cc t.toNat).claim = .thread x → x ≠ s.ct →
      Traps (.tclaim gd t) s 4 (BitVec.ofNat 64 (x * 2 ^ 12 + 2 ^ 11 + t.toNat))) ∧
    ((s.trackAt s.cc t.toNat).claim = .none ∨ (s.trackAt s.cc t.toNat).claim = .thread s.ct →
      Traps (.tclaim gd t) s 6 (BitVec.ofNat 64 (t.toNat + 2 ^ 16 * (s.trackAt s.cc t.toNat).head)))) ∧
  (∀ (gd : Guard) (t : TIdx) (s : State), Ready (.trel gd t) s → s.trackRefusal t = none →
    (s.trackOps s.tk (some t) = [] →
      Completes (.trel gd t) s (s.modTrack s.cc t.toNat fun x => { x with claim := .none })) ∧
    (s.trackOps s.tk (some t) ≠ [] → exec (.trel gd t) s = .next s)) ∧
  (∀ (gd : Guard) (t : TIdx) (s : State) (tr : Trap), Ready (.trel gd t) s → s.trackRefusal t = some tr →
    exec (.trel gd t) s = .next (takeTrap tr s))) ∧
  ((∀ (gd : Guard) (t : Option TIdx) (s : State), Ready (.tsync gd t) s → (∀ x, t = some x → s.trackRefusal x = none) →
    (s.trackOps s.tk t = [] → Completes (.tsync gd t) s s) ∧ (s.trackOps s.tk t ≠ [] → exec (.tsync gd t) s = .next s)) ∧
  (∀ (gd : Guard) (d : GReg) (t : TIdx) (s : State), Ready (.hpos gd d t) s → s.trackRefusal t = none →
    s.trackOps s.tk (some t) = [] →
    Completes (.hpos gd d t) s (s.setG d (BitVec.ofNat 64 (s.trackAt s.cc t.toNat).head))))

/-- Synchronous accesses at the head: the slot under it is read or written, then the head moves by the step,
whose shift steps are charged; a step that would leave slots 0 to 2047 is the bounds trap, with nothing moved; a
failing track is the track-shift trap (spec/05 R75, R83, R89, R90, R96). The eight slots of a vector access, at
the stride from the head, are the eight 64-bit lanes of the register; the head then stands eight strides on. The
register read or written is bound to no stream (spec/05 R90). A failing track is found last (spec/16 R272); that its tval
names the slot under the head is the model's reading (log entry 46). -/
def Obligations.TrackAccesses : Prop :=
  (∀ (t : TIdx) (s : State) (st : Int) (nh : Nat),
    let x := s.trackAt s.cc t.toNat
    let out := x.head + st < 0 ∨ 2047 < x.head + st
    (∀ (i : Instr) (d : GReg),
      ((∃ gd, i = .trd gd d t ∧ st = 0) ∨ (∃ gd k, i = .trds gd d t k ∧ st = k.toInt)) → Ready i s →
      (TrackReady t s → out → Traps i s 5 (BitVec.ofInt 64 (x.head + st))) ∧
      (TrackReady t s → x.head + st = nh → nh ≤ 2047 → SlotReady x x.head →
        Completes i s ((s.moveHead s.cc t.toNat nh).setG d (tgetD x.slots x.head 0))) ∧
      (s.trackRefusal t = none → s.trackOps s.tk (some t) = [] → s.core.failing t.toNat = true →
        Traps i s (if out then 5 else 6)
          (if out then BitVec.ofInt 64 (x.head + st) else BitVec.ofNat 64 (t.toNat + 2 ^ 16 * x.head)))) ∧
    (∀ (i : Instr) (d : GReg),
      ((∃ gd, i = .twr gd t d ∧ st = 0) ∨ (∃ gd k, i = .twrs gd t d k ∧ st = k.toInt)) → Ready i s →
      (TrackReady t s → out → Traps i s 5 (BitVec.ofInt 64 (x.head + st))) ∧
      (TrackReady t s → x.head + st = nh → nh ≤ 2047 → portOffset x x.head = 0 →
        Completes i s ((s.slotWrite s.cc t.toNat x.head (s.g d)).moveHead s.cc t.toNat nh)) ∧
      (s.trackRefusal t = none → s.trackOps s.tk (some t) = [] → s.core.failing t.toNat = true →
        Traps i s (if out then 5 else 6)
          (if out then BitVec.ofInt 64 (x.head + st) else BitVec.ofNat 64 (t.toNat + 2 ^ 16 * x.head)))) ∧
    ((s.moveHead s.cc t.toNat nh).trackAt s.cc t.toNat = { x with head := nh }) ∧
    ((s.moveHead s.cc t.toNat nh).core.tsteps = s.core.tsteps + BitVec.ofNat 64 ((nh : Int) - x.head).natAbs)) ∧
  (∀ (gd : Guard) (t : TIdx) (d : VIdx) (k : BitVec 20) (s : State) (nh : Nat),
    let x := s.trackAt s.cc t.toNat
    let slot (n : Nat) : Nat := (x.head + n * k.toInt).toNat
    TrackReady t s → s.th.bind d = none → x.head + 8 * k.toInt = nh → nh ≤ 2047 →
    (Ready (.vtrds gd d t k) s → (∀ n, n < 8 → SlotReady x (slot n)) →
      ∃ v : BitVec 512, (∀ n : Nat, n < 8 → (v >>> (64 * n)).setWidth 64 = tgetD x.slots (slot n) 0) ∧
        Completes (.vtrds gd d t k) s ((s.moveHead s.cc t.toNat nh).modTh fun th => th.setV d { data := v, tag := none })) ∧
    (Ready (.vtwrs gd t d k) s → (∀ n, n < 8 → portOffset x (slot n) = 0) →
      Completes (.vtwrs gd t d k) s (((List.range 8).foldl (fun s' n =>
        s'.slotWrite s.cc t.toNat (slot n) (((s.th.vr d).data >>> (64 * n)).setWidth 64)) s).moveHead s.cc t.toNat nh)))

/-- Sequencer commands at issue: seek goes to a slot, seekr a distance from the projected head, rew to slot 0; tstream
and tfill move 8 x SB slots per ring slot, at the stride, for the count. A target outside slots 0 to 2047 is the bounds
trap, and a failing track the track-shift trap; else the command takes its number on the TE timeline, with its start and end slots, its future names it as
pending, and the head does not move yet (spec/05 R82, R84, R88, R91). -/
def Obligations.TrackCommands : Prop :=
  ∀ (i : Instr) (fd : FIdx) (t : TIdx) (s : State) (en : Int) (args : List Word),
    ((∃ gd n, i = .seek gd fd t n ∧ en = n.toNat ∧ args = []) ∨
      (∃ gd n, i = .seekr gd fd t n ∧ en = s.proj t + n.toInt ∧ args = []) ∨
      (∃ gd, i = .rew gd fd t ∧ en = 0 ∧ args = []) ∨
      (∃ gd b, i = .seekReg gd fd t b ∧ en = (s.g b).toNat ∧ args = []) ∨
      (∃ gd b, i = .seekrReg gd fd t b ∧ en = s.proj t + (s.g b).toInt ∧ args = []) ∨
      (∃ gd q c k, (i = .tstream gd fd q t c k ∨ i = .tfill gd fd t q c k) ∧ (s.core.ring q.toNat).ns ≠ 0 ∧
        (s.g c).toNat ≤ 65535 ∧ args = [s.g c] ∧
        en = s.proj t + (s.g c).toNat * (8 * (s.core.ring q.toNat).sb) * k.toInt)) →
    Ready i s → s.trackRefusal t = none →
    (en < 0 ∨ 2047 < en → Traps i s 5 (BitVec.ofInt 64 en)) ∧
    (0 ≤ en → en ≤ 2047 → s.core.failing t.toNat = true →
      Traps i s 6 (BitVec.ofNat 64 (t.toNat + 2 ^ 16 * (s.trackAt s.cc t.toNat).head))) ∧
    (0 ≤ en → en ≤ 2047 → s.core.failing t.toNat = false → s.core.trackQueueFull = true → exec i s = .next s) ∧
    (0 ≤ en → en ≤ 2047 → s.core.failing t.toNat = false → s.core.trackQueueFull = false →
      let e := enqueueOp .te i fd (fun o => { o with
        args := [BitVec.ofNat 64 (s.proj t), BitVec.ofInt 64 en] ++ args }) s
      Completes i s e ∧ (e.trackAt s.cc t.toNat).head = (s.trackAt s.cc t.toNat).head ∧
        e.core.te.length = s.core.te.length + 1 ∧ (e.th.tl .te).last = (s.th.tl .te).last + 1 ∧
        e.th.fr fd = { v := true, st := .pending, eng := .te, n := (s.th.tl .te).last + 1 })

/-- The sequencer: the first queued command begins once none runs, with the head moved to its start slot; a seek ends
with the head on its end slot, verified there, and its number ends; a stream fills the ring slot at the producer
pointer from the track, or empties the one at the consumer pointer into it, slot by slot, and ends when its count
is spent; an unclaimed failing track is copied to a spare and no longer fails (spec/05 R82-R97). -/
def Obligations.TrackSequencer : Prop :=
  ∀ (core : Nat) (o : Op) (t : TIdx) (s : State), o.instr.cmdTrack = some t →
    (∀ rest, (s.coreAt core).te = o :: rest → (s.coreAt core).trackRunning = none →
      (s.coreAt core).failing t.toNat = false →
      Happens (.trackCmdBegin core) s ((s.modTe core o fun x => { x with started := true }).moveHead core t.toNat
        (o.args.getD 0 0).toNat)) ∧
    ((s.coreAt core).trackRunning = some o → Instr.streamOf o.instr = none → (s.coreAt core).failing t.toNat = false →
      portOffset (s.trackAt core t.toNat) (o.args.getD 1 0).toNat = 0 →
      Happens (.trackCmdComplete core) s ((s.moveHead core t.toNat (o.args.getD 1 0).toNat).endOp o .done false 0)) ∧
    ((s.coreAt core).trackRunning = some o → Instr.streamOf o.instr ≠ none → o.args.getD 2 0 = 0 →
      Happens (.trackCmdComplete core) s (s.endOp o .done false 0)) ∧
    (∀ q st s1 ws, (s.coreAt core).trackRunning = some o → Instr.streamOf o.instr = some (true, q, st) →
      o.args.getD 2 0 ≠ 0 → ((s.coreAt core).ring q.toNat).fc < ((s.coreAt core).ring q.toNat).ns →
      streamRead o core t.toNat st (8 * ((s.coreAt core).ring q.toNat).sb) [] s = .ok (s1, ws) → s1.sramErr = [] →
      core = o.th / 4 → (s.coreAt core).errs = [] →
      let r := (s.coreAt core).ring q.toNat
      r.base + (r.pp + 1) * (64 * r.sb) ≤ 2 ^ 15 →
      ∃ e, Happens (.tstreamSlot core) s e ∧
        e.mem = memWrites s1.mem (sramKey core (r.base + r.pp * (64 * r.sb))) (ws.flatMap fun (w : Word) => leBytes 8 w.toNat) ∧
        ((e.coreAt core).ring q.toNat).fc = ((s1.coreAt core).ring q.toNat).fc + 1) ∧
    (∀ q st s1, (s.coreAt core).trackRunning = some o → Instr.streamOf o.instr = some (false, q, st) →
      o.args.getD 2 0 ≠ 0 → ((s.coreAt core).ring q.toNat).fc ≠ 0 → s.sramErr = [] → core = o.th / 4 → (s.coreAt core).errs = [] →
      let r := (s.coreAt core).ring q.toNat
      r.base + (r.cp + 1) * (64 * r.sb) ≤ 2 ^ 15 →
      streamWrite o core t.toNat st (wordsOf (8 * r.sb)
        (memReads s.mem (sramKey core (r.base + r.cp * (64 * r.sb))) (64 * r.sb))) s = .ok s1 →
      Happens (.tfillSlot core) s (streamNext core t.toNat o
        (s1.modCoreAt core fun c => c.setRing q.toNat (c.ring q.toNat).release))) ∧
    (∀ lost, (s.coreAt core).failing t.toNat = true → (s.trackAt core t.toNat).claim = .none → (s.coreAt core).spare ≠ 0 →
      ∃ e, Happens (.trackSpareReplace core t.toNat lost) s e ∧ (e.coreAt core).failing t.toNat = false ∧
        (e.coreAt core).spare = (s.coreAt core).spare - 1 ∧
        (∀ n, tgetD (e.trackAt core t.toNat).slots n 0 = copiedSlot (s.trackAt core t.toNat) lost n) ∧
        (∀ n, n ∈ lost → copiedSlot (s.trackAt core t.toNat) lost n = 0))

/-! ## Vectors -/

/-- Every vector instruction that only computes registers, its registers bound to no stream, completes with the
result that spec/08 gives it (R119-R135): lane by lane where the guard selects, exact values rounded once, the
sticky bit where a ternary 0b10 is converted (spec/07 R105), the tag cleared but for a whole vmov (R121), a fresh
tag and the next generation for vquant (R134). Nothing else changes but where the thread goes on. -/
def Obligations.VectorResults : Prop :=
  ∀ (i : Instr) (s : State) (r : VecResult), vecResult s i = some r → Ready i s → s.unbound (r.srcs ++ r.dsts) →
    ∃ e, Completes i s e ∧ e.th = r.th ∧ e.core = r.core ∧ OnlyHere s e

/-- What merged lanes hold: a selected lane its new code, every other lane the bits that stood there; with every lane
selected nothing of the old bits stays; the lanes of a format fill the register, but in ternary, whose bits 511:256 are
written 0 (spec/07 R106, spec/08 R119, R122). A lane-wise compare writes bit k of pt and its
complement to bit k of pf for every selected lane k, and leaves every other bit of both as it was (spec/08
R128). -/
def Obligations.LaneLaws : Prop :=
  (∀ (f : Fmt) (sel : Nat → Bool) (old : BitVec 512) (new : Nat → Nat) (k : Nat), k < f.lanes →
    (∀ j, j < f.lanes → new j < 2 ^ f.width) →
    rawLane f (mergeLanes f sel old new) k = if sel k then new k else rawLane f old k) ∧
  (∀ (f : Fmt) (sel : Nat → Bool) (old old' : BitVec 512) (new : Nat → Nat), (∀ j, j < f.lanes → sel j = true) →
    mergeLanes f sel old new = mergeLanes f sel old' new) ∧
  (∀ f : Fmt, f.lanes * f.width = if f = .ternary then 256 else 512) ∧
  (∀ (sel : Nat → Bool) (old : BitVec 512) (new : Nat → Nat), (∀ j, j < 128 → new j < 4) →
    (mergeLanes .ternary sel old new).toNat < 2 ^ 256) ∧
  (∀ (gd : Guard) (c : VCond) (ef : Ef) (pt pf : PIdx) (a b : VIdx) (s : State), Ready (.vcmp gd c ef pt pf a b) s →
    s.unbound [a, b] → pt ≠ pf → pt ≠ 7 → pf ≠ 7 →
    let f := ef.getD s.core.format
    ∃ e, Completes (.vcmp gd c ef pt pf a b) s e ∧ (∀ q, q ≠ pt → q ≠ pf → e.p q = s.p q) ∧
      ∀ k : Nat, k < 64 →
        let x := vcondVal c f (lane f (s.th.vr a).data k) (lane f (s.th.vr b).data k)
        let hit := k < f.lanes ∧ (s.mask (.vcmp gd c ef pt pf a b)).getLsbD k = true
        (e.p pt).getLsbD k = (if hit then x else (s.p pt).getLsbD k) ∧
        (e.p pf).getLsbD k = (if hit then !x else (s.p pf).getLsbD k))

/-- Stream registers: a read of a ring consumer pops the next 64 bytes of the slot at the consumer pointer with the
slot's tag, which the register takes, waits while the ring is empty, and frees the slot with its last part; a write to
a ring producer fills the next part, with the first of them the slot's tag, waits while the ring is full, and publishes
the slot with its last part; the wrong direction is ring-misuse. A track stream reads or writes the eight slots at its
stride from the head, which then stands eight strides on; beyond slots 0 to 2047 it is the bounds trap, on a failing
track the track-shift trap, and it waits for the thread's commands on the track. An SRAM stream reads or writes 64
bytes at its cursor, which then moves by its stride (spec/08 R140, R141). -/
def Obligations.StreamRegisters : Prop :=
  ∀ (s : State) (v : VIdx) (b : Bind), s.sramErr = [] →
    let r := s.core.ring b.ring
    (b.kind = 0 → r.fc = 0 → popBound v b s = .error .wait s) ∧
    (b.kind = 0 → r.fc ≠ 0 → r.base + r.cp * (64 * r.sb) + 64 * b.j + 64 ≤ 2 ^ 15 →
      ∃ x mv s1 s2, popBound v b s = .ok (x, mv) s1 ∧ s1.mem = s.mem ∧ SameUnits s s1 ∧
        x.data = BitVec.ofNat 512 (leVal (memReads s.mem (sramKey s.cc (r.base + r.cp * (64 * r.sb) + 64 * b.j)) 64)) ∧
        x.tag = tget r.tags r.cp ∧ mv s1 = .ok () s2 ∧ (s2.th.vr v).tag = tget r.tags r.cp ∧
        (s2.th.vr v).data = (s.th.vr v).data ∧
        (r.sb ≤ b.j + 1 → tget s2.th.binds (v.toNat - 24) = some { b with j := 0 } ∧
          (s2.core.ring b.ring).fc = r.fc - 1 ∧ (s2.core.ring b.ring).cp = (r.cp + 1) % r.ns) ∧
        (b.j + 1 < r.sb → tget s2.th.binds (v.toNat - 24) = some { b with j := b.j + 1 } ∧ s2.core = s1.core)) ∧
    (b.kind = 1 → popBound v b s = .error (.trap { code := 14, tval := BitVec.ofNat 64 b.ring }) s) ∧
    (∀ x p, b.kind = 0 → pushBound v b x p s = .error (.trap { code := 14, tval := BitVec.ofNat 64 b.ring }) s) ∧
    (∀ x p, b.kind = 1 → b.j = 0 → r.ns ≤ r.fc → pushBound v b x p s = .error .wait s) ∧
    (∀ x p, b.kind = 1 → (b.j ≠ 0 ∨ r.fc < r.ns) → r.base + r.pp * (64 * r.sb) + 64 * b.j + 64 ≤ 2 ^ 15 →
      ∃ c s2, pushBound v b x p s = .ok c s ∧ c s = .ok () s2 ∧
        s2.mem = memWrites s.mem (sramKey s.cc (r.base + r.pp * (64 * r.sb) + 64 * b.j)) (leBytes 64 x.data.toNat) ∧
        tget (s2.core.ring b.ring).tags r.pp = (if b.j = 0 then x.tag else tget r.tags r.pp) ∧
        (r.sb ≤ b.j + 1 → tget s2.th.binds (v.toNat - 24) = some { b with j := 0 } ∧
          (s2.core.ring b.ring).fc = r.fc + 1 ∧ (s2.core.ring b.ring).pp = (r.pp + 1) % r.ns) ∧
        (b.j + 1 < r.sb → tget s2.th.binds (v.toNat - 24) = some { b with j := b.j + 1 } ∧
          (s2.core.ring b.ring).fc = r.fc)) ∧
    (b.kind = 2 → b.track < 32 →
      let k := s.trackAt s.cc b.track
      let t : TIdx := BitVec.ofNat 5 b.track
      let nh := (k.head : Int) + 8 * b.stride
      let slot (n : Nat) : Nat := (k.head + n * b.stride).toNat
      (s.trackOps s.tk (some t) ≠ [] → ∀ x, popBound v b s = .error .wait s ∧ pushBound v b x false s = .error .wait s) ∧
      (s.trackOps s.tk (some t) = [] →
        ((nh < 0 ∨ 2047 < nh) → ∀ x,
          let tr : Trap := { code := 5, tval := BitVec.ofInt 64 nh }
          popBound v b s = .error (.trap tr) s ∧ pushBound v b x false s = .error (.trap tr) s) ∧
        (0 ≤ nh → nh ≤ 2047 → s.core.failing b.track = true → ∀ x,
          let tr : Trap := { code := 6, tval := BitVec.ofNat 64 (b.track + 2 ^ 16 * k.head) }
          popBound v b s = .error (.trap tr) s ∧ pushBound v b x false s = .error (.trap tr) s) ∧
        (0 ≤ nh → nh ≤ 2047 → s.core.failing b.track = false →
          ((∀ n, n < 8 → SlotReady k (slot n)) → ∃ x mv, popBound v b s = .ok (x, mv) s ∧ x.tag = none ∧
            (∀ n : Nat, n < 8 → (x.data >>> (64 * n)).setWidth 64 = tgetD k.slots (slot n) 0) ∧
            mv s = .ok () (s.moveHead s.cc b.track nh.toNat)) ∧
          ((∀ n, n < 8 → portOffset k (slot n) = 0) → ∀ x, ∃ c, pushBound v b x false s = .ok c s ∧
            c s = .ok () (((List.range 8).foldl (fun s' n =>
              s'.slotWrite s.cc b.track (slot n) ((x.data >>> (64 * n)).setWidth 64)) s).moveHead s.cc b.track nh.toNat))))) ∧
    (∀ k, b.kind = 3 → b.cursor.toNat = 2 ^ 60 + k → k + 64 ≤ 2 ^ 15 →
      let next := b.cursor.toNat / 2 ^ 60 * 2 ^ 60 + (k + b.cstride.toNat) % 2 ^ 60
      (∃ x mv s2, popBound v b s = .ok (x, mv) s ∧ x.tag = none ∧ mv s = .ok () s2 ∧ s2.mem = s.mem ∧
        x.data = BitVec.ofNat 512 (leVal (memReads s.mem (sramKey s.cc k) 64)) ∧
        tget s2.th.binds (v.toNat - 24) = some { b with cursor := BitVec.ofNat 64 next }) ∧
      (∀ x, ∃ c s2, pushBound v b x false s = .ok c s ∧ c s = .ok () s2 ∧
        s2.mem = memWrites s.mem (sramKey s.cc k) (leBytes 64 x.data.toNat) ∧
        tget s2.th.binds (v.toNat - 24) = some { b with cursor := BitVec.ofNat 64 next }))

/-- Binding: a stream register is bound to a declared ring whose role no other register of the thread holds, to a track
that the thread may use, or to an aligned SRAM stream, and starts empty; sunbind ends a binding and clears the
register, and leaves an unbound one alone; vclear ends every binding and clears every register (spec/08 R133, R140,
R142). -/
def Obligations.Bindings : Prop :=
  ∀ (gd : Guard) (v : VIdx) (s : State),
    let bound (b : Bind) : State := s.modTh fun t => (t.setV v {}).setBind v b
    (∀ q, Ready (.sbind gd v (.rc q)) s → (s.core.ring q.toNat).ns ≠ 0 → s.th.roleHeld v 0 q.toNat = false →
      Completes (.sbind gd v (.rc q)) s (bound { kind := 0, ring := q.toNat })) ∧
    (∀ q, Ready (.sbind gd v (.rp q)) s → (s.core.ring q.toNat).ns ≠ 0 → s.th.roleHeld v 1 q.toNat = false →
      Completes (.sbind gd v (.rp q)) s (bound { kind := 1, ring := q.toNat })) ∧
    (∀ q, Ready (.sbind gd v (.rc q)) s → ((s.core.ring q.toNat).ns = 0 ∨ s.th.roleHeld v 0 q.toNat = true) →
      Traps (.sbind gd v (.rc q)) s 14 (q.setWidth 64)) ∧
    (∀ t k, Ready (.sbind gd v (.th t k)) s → s.trackRefusal t = none →
      Completes (.sbind gd v (.th t k)) s (bound { kind := 2, track := t.toNat, stride := k.toInt })) ∧
    (∀ a b, Ready (.sbind gd v (.sg a b)) s →
      let path := (s.g a).toNat / 2 ^ 60
      (path ≠ 1 → path ≠ 2 → Traps (.sbind gd v (.sg a b)) s 3 (s.g a)) ∧
      (path = 1 ∨ path = 2 →
        ((s.g a).toNat % 64 ≠ 0 → Traps (.sbind gd v (.sg a b)) s 2 (s.g a)) ∧
        ((s.g a).toNat % 64 = 0 → (s.g b).toNat % 64 ≠ 0 → Traps (.sbind gd v (.sg a b)) s 2 (s.g b)) ∧
        ((s.g a).toNat % 64 = 0 → (s.g b).toNat % 64 = 0 →
          Completes (.sbind gd v (.sg a b)) s (bound { kind := 3, cursor := s.g a, cstride := s.g b })))) ∧
    (Ready (.sunbind gd v) s →
      (∀ b, s.th.bind v = some b → Completes (.sunbind gd v) s (s.modTh fun t => (t.dropBind v).setV v {})) ∧
      (s.th.bind v = none → Completes (.sunbind gd v) s (s.modTh fun t => t))) ∧
    (Ready (.vclear gd) s →
      (s.th.ldq.all (fun o => o.ldVec.isNone) = true →
        Completes (.vclear gd) s (s.modTh fun t => { t.setAllV [] with binds := [], vlive := false })) ∧
      (s.th.ldq.any (fun o => o.ldVec.isSome) = true → exec (.vclear gd) s = .next s))

/-- vld: each selected lane takes the element that memory holds for it, with the bits that the format ignores 0, the
other lanes stay, and the tag is cleared; vst: each selected element is stored, with those bits 0, and no other element
or byte changes. Memory holds the elements of a register as the register does, in 64 bytes, or in 32 of ternary codes.
In the core's own SRAM (path 0x1) nothing is translated. A misaligned address traps (spec/07 R106, spec/08 R136,
spec/10 R147). -/
def Obligations.VectorMemory : Prop :=
  ∀ (gd : Guard) (d : VIdx) (a : GReg) (off : BitVec 20) (o : Bool) (s : State),
    let f := s.core.format
    let n := Fmt.laneBytes f
    let ea := offsetAddr (s.g a) (off.signExtend 60)
    s.th.bind d = none →
    (Ready (.vld gd d a off o) s →
      (ea.toNat % n ≠ 0 → Traps (.vld gd d a off o) s 2 ea) ∧
      (∀ x s1, ea.toNat % n = 0 →
        loadLanes s.lsu f (s.mask (.vld gd d a off o)) ea (s.th.vr d).data s = .ok x s1 →
        Completes (.vld gd d a off o) s (s1.modTh fun t => t.setV d { data := x, tag := none })) ∧
      (∀ k, ea.toNat % n = 0 → s.sramErr = [] → ea.toNat = 2 ^ 60 + k → k + 64 ≤ 2 ^ 15 →
        let m := s.mask (.vld gd d a off o)
        let old : BitVec 512 := BitVec.ofNat 512 (leVal (memReads s.mem (sramKey s.cc k) (Fmt.vecBytes f)))
        ∃ x s1, loadLanes s.lsu f m ea (s.th.vr d).data s = .ok x s1 ∧ s1.mem = s.mem ∧
          SameUnits s s1 ∧ ∀ j, j < f.lanes → rawLane f x j =
            if laneBit f m j then lane f old j else rawLane f (s.th.vr d).data j)) ∧
    (Ready (.vst gd d a off o) s →
      (ea.toNat % n ≠ 0 → Traps (.vst gd d a off o) s 2 ea) ∧
      (∀ k, ea.toNat % n = 0 → s.sramErr = [] → ea.toNat = 2 ^ 60 + k → k + 64 ≤ 2 ^ 15 →
        let m := s.mask (.vst gd d a off o)
        let held (t : State) : BitVec 512 := BitVec.ofNat 512 (leVal (memReads t.mem (sramKey s.cc k) (Fmt.vecBytes f)))
        ∃ e, Completes (.vst gd d a off o) s e ∧ SameUnits s e ∧
          (∀ j, j < f.lanes → rawLane f (held e) j =
            if laneBit f m j then lane f (s.th.vr d).data j else rawLane f (held s) j) ∧
          (∀ x, x < sramKey s.cc k ∨ sramKey s.cc k + Fmt.vecBytes f ≤ x → memRead e.mem x = memRead s.mem x)))

/-- The split load, the gather and the scatter (spec/08 R138, R139). vld.mx reads a block of a page of a block format:
the element bytes, 32 of an INT4 page and 64 of any other, become the register, the scale bytes its scale register's
entries, and the tag is fresh; of the 64 bytes of a ternary page the register holds the first 128 codes (the model's
reading, log entry 44). vldg and
vsts address each selected lane by base plus index, scaled by the element size with .x; every path and every
translation comes before any lane moves. -/
def Obligations.SplitAndIndexed : Prop :=
  (∀ (gd : Guard) (d : VIdx) (k : KIdx) (o : BitVec 3) (a : GReg) (off : BitVec 32) (acq : Bool) (s s1 s2 s3 : State)
      (key : Nat) (e : TlbEnt) (bs ss : List Byte),
    let i := Instr.vldMx gd d k o a off acq
    let ea := offsetAddr (s.g a) (off.signExtend 60)
    Ready i s → s.th.bind d = none → ea.toNat < 2 ^ 57 →
    Sys2Proof.Machine.translate s.lsu s.lsu.pkg ea.toNat .load ea 0 false true s = .ok (key, e) s1 → e.geo = 1 →
    ea.toNat % mxBytes e = 0 → cellRead s.lsu key (mxBytes e) s1 = .ok bs s2 →
    ((e.blocks s.lsu.pkg (ea.toNat % e.size) (mxHeld e)).mapM fun (b : Nat × Option Nat × Nat) => scaleLoad s.lsu b.2.1) s2 = .ok ss s3 →
    s3.th = s.th →
    ∃ t, Completes i s t ∧ t.th = s.th.setV d { data := mxData e bs, tag := some ⟨k, s3.core.kg k.toNat + 1, o⟩ } ∧
      t.core.k k.toNat = setEntriesFrom (s3.core.k k.toNat) (4 * o.toNat) ss ∧
      t.core.kg k.toNat = s3.core.kg k.toNat + 1 ∧ t.mem = s3.mem) ∧
  (∀ (gd : Guard) (ef : Ef) (d : VIdx) (a : GReg) (b : VIdx) (x : Bool) (s s1 s2 : State) (l : List (Nat × Word))
      (ps : List Place) (bs : List (List Byte)),
    let i := Instr.vldg gd ef d a b x
    let f := ef.getD s.core.format
    Ready i s → s.unbound [d, b] → laneAddrs f (s.mask i) (s.g a) (s.th.vr b).data x s = .ok l s →
    resolveAll s.lsu .load (f.width / 8) (l.map Prod.snd) s = .ok ps s1 →
    (ps.mapM fun p => placeRead s.lsu p (f.width / 8)) s1 = .ok bs s2 → s2.th.bind d = none →
    Completes i s (s2.modTh fun t => t.setV d
      { data := mergeLanes f (laneBit f (s.mask i)) (s.th.vr d).data
          (rawLane f (packUnits (f.width / 8) (List.zip (l.map Prod.fst) bs)))
        tag := none })) ∧
  (∀ (gd : Guard) (ef : Ef) (d : VIdx) (a : GReg) (b : VIdx) (x : Bool) (s s1 s2 : State) (l : List (Nat × Word))
      (ps : List Place),
    let i := Instr.vsts gd ef d a b x
    let f := ef.getD s.core.format
    Ready i s → s.unbound [d, b] → laneAddrs f (s.mask i) (s.g a) (s.th.vr b).data x s = .ok l s →
    resolveAll s.lsu .store (f.width / 8) (l.map Prod.snd) s = .ok ps s1 →
    placesWrite s.lsu ((List.zip (l.map Prod.fst) ps).map fun (e : Nat × Place) =>
      (e.2, unitBytes (f.width / 8) (s.th.vr d).data e.1)) s1 = .ok () s2 →
    Completes i s s2) ∧
  (∀ (f : Fmt) (m base : Word) (idx : BitVec 512) (x : Bool) (s : State) (k : Nat), k < f.lanes →
    laneBit f m k = true →
    (∀ j, j < f.lanes → laneBit f m j = true →
      (addrAdd base (sval f.width (lane f idx j) * (if x then (f.width / 8 : Nat) else 1))).toNat % (f.width / 8) = 0) →
    ∃ l, laneAddrs f m base idx x s = .ok l s ∧
      (k, addrAdd base (sval f.width (lane f idx k) * (if x then (f.width / 8 : Nat) else 1))) ∈ l)

/-! ## Scales -/

/-- Scale arithmetic: every entry from the entries of the sources as they stood before, clamped to the finite scales,
NaN where a source is NaN; knorm takes the largest finite entry to 1 and answers its exponent; kld and kst move the 32
entries from and to 32 bytes, and kst stores no generation. The plain forms advance the generation by one modulo 16
and the .keep forms leave it; no other scale register changes (spec/18 R285, R291, R292). -/
def Obligations.ScaleArithmetic : Prop :=
  let only (d : KIdx) (keep : Bool) (s e : State) : Prop :=
    e.core.kg d.toNat = (if keep then s.core.kg d.toNat else s.core.kg d.toNat + 1) ∧
    (∀ k : KIdx, k ≠ d → e.core.k k.toNat = s.core.k k.toNat ∧ e.core.kg k.toNat = s.core.kg k.toNat) ∧
    e.th = s.th ∧ e.mem = s.mem
  (∀ (i : Instr) (d a : KIdx) (src : KSrc) (keep : Bool) (f : Int → Int → Int) (s : State),
    ((∃ gd, i = .kadd gd d a src keep ∧ f = fun x y => max 0 (min (x + y - 127) 254)) ∨
      (∃ gd, i = .ksub gd d a src keep ∧ f = fun x y => max 0 (min (x - y + 127) 254)) ∨
      (∃ gd, i = .kmax gd d a src keep ∧ f = fun x y => max x y) ∨
      (∃ gd, i = .kmin gd d a src keep ∧ f = fun x y => min x y)) → Ready i s →
    ∃ e, Completes i s e ∧ only d keep s e ∧
      ∀ j : Nat, j < 32 → e.core.kEntry d j = scalePair f (s.core.kEntry a j) (scaleSource s src j)) ∧
  (∀ (gd : Guard) (d : KIdx) (src : KSrc) (keep : Bool) (s : State), Ready (.kmov gd d src keep) s →
    ∃ e, Completes (.kmov gd d src keep) s e ∧ only d keep s e ∧
      ∀ j : Nat, j < 32 → e.core.kEntry d j = scaleSource s src j) ∧
  (∀ (gd : Guard) (d a : KIdx) (c : GReg) (keep : Bool) (s : State) (m : Nat), Ready (.knorm gd d a c keep) s →
    ((∀ j : Nat, j < 32 → s.core.kEntry a j = 255) ∧ m = 127 ∨
      (∃ j : Nat, j < 32 ∧ s.core.kEntry a j = m) ∧ m ≠ 255 ∧
        ∀ j : Nat, j < 32 → s.core.kEntry a j = 255 ∨ s.core.kEntry a j ≤ m) →
    ∃ e, Completes (.knorm gd d a c keep) s (e.setG c (BitVec.ofInt 64 ((m : Int) - 127))) ∧ only d keep s e ∧
      ∀ j : Nat, j < 32 → e.core.kEntry d j =
        if s.core.kEntry a j = 255 then 255 else s.core.kEntry a j + 127 - m) ∧
  (∀ (gd : Guard) (d : KIdx) (a : GReg) (off : BitVec 20) (keep acq : Bool) (s s1 : State) (p : Nat),
    let i := Instr.kld gd d a off keep acq
    let ea := offsetAddr (s.g a) (off.signExtend 60)
    Ready i s →
    (ea.toNat % 32 ≠ 0 → Traps i s 2 ea) ∧
    (ea.toNat % 32 = 0 → Reaches s.lsu .load false ea 32 s (.cell p) s1 → Clean s1 → s1.answers s.lsu p →
      ∃ e, Completes i s e ∧ only d keep s1 e ∧
        ∀ j : Nat, j < 32 → e.core.kEntry d j = (memRead s1.mem (p + j)).toNat)) ∧
  (∀ (gd : Guard) (k : KIdx) (a : GReg) (off : BitVec 20) (rel : Bool) (s s1 : State) (p : Nat),
    let i := Instr.kst gd k a off rel
    let ea := offsetAddr (s.g a) (off.signExtend 60)
    Ready i s →
    (ea.toNat % 32 ≠ 0 → Traps i s 2 ea) ∧
    (ea.toNat % 32 = 0 → Reaches s.lsu .store false ea 32 s (.cell p) s1 → Clean s1 → s1.answers s.lsu p →
      ∃ e, Completes i s e ∧ SameUnits s1 e ∧
        (∀ j : Nat, j < 32 → (memRead e.mem (p + j)).toNat = s1.core.kEntry k j) ∧
        (∀ x, x < p ∨ p + 32 ≤ x → memRead e.mem x = memRead s1.mem x)))

/-- Tags and generations, and the paired save: kbind writes the tag of a register, and of the slot at the consumer
pointer plus G(C) of a ring, with the generation as it stands; .u clears it; kgen reads a generation and kgen.bump
advances it. A vector whose tag names another generation, or that has no tag, takes the stale-binding trap when it is
dequantised. vsave writes the 192 units of the image, in the core's own SRAM word by word as pairWord gives them, and
changes no register and no other byte; vrest, which a part missing from PRES
stops, restores the parts that it selects (spec/08 R135, spec/18 R285, R287, R288, R293-R296). -/
def Obligations.ScaleBindings : Prop :=
  (∀ (gd : Guard) (v : VIdx) (k : KIdx) (o : BitVec 3) (u : Bool) (s : State), Ready (.kbind gd v k o u) s →
    (s.th.bind v ≠ none → Traps (.kbind gd v k o u) s 14 (v.setWidth 64)) ∧
    (s.th.bind v = none → Completes (.kbind gd v k o u) s (s.modTh fun t => t.setV v { t.vr v with
      tag := if u then none else some ⟨k, s.core.kg k.toNat, o⟩ }))) ∧
  (∀ (gd : Guard) (q : QIdx) (c : GReg) (k : KIdx) (o : BitVec 3) (u : Bool) (s : State),
    let i := Instr.kbindQ gd q c k o u
    let r := s.core.ring q.toNat
    Ready i s →
    (r.ns = 0 → Traps i s 14 (q.setWidth 64)) ∧
    (r.ns ≠ 0 → r.ns ≤ (s.g c).toNat → Traps i s 14 (s.g c)) ∧
    (r.ns ≠ 0 → (s.g c).toNat < r.ns →
      ∃ e, Completes i s e ∧ e.th = s.th ∧ e.mem = s.mem ∧
        tget (e.core.ring q.toNat).tags ((r.cp + (s.g c).toNat) % r.ns) =
          (if u then none else some ⟨k, s.core.kg k.toNat, o⟩) ∧
        { e.core.ring q.toNat with tags := r.tags } = r)) ∧
  (∀ (gd : Guard) (d : GReg) (k : KIdx) (s : State),
    (Ready (.kgen gd d k) s → Completes (.kgen gd d k) s (s.setG d ((s.core.kg k.toNat).setWidth 64))) ∧
    (Ready (.kgenBump gd k) s → ∃ e, Completes (.kgenBump gd k) s e ∧
      e.core.kg k.toNat = s.core.kg k.toNat + 1 ∧ e.core.kents = s.core.kents ∧ e.th = s.th ∧ e.mem = s.mem)) ∧
  (∀ (gd : Guard) (dst src : Ef) (d a : VIdx) (part : BitVec 2) (rm : Rm) (sat : Bool) (s : State),
    Ready (.vdeq gd dst src d a part rm sat) s → s.unbound [a] →
    streamCheck [a] (if 32 ≤ (dst.getD s.core.format).lanes then [d] else [d, d + 1]) s = .ok () s →
    (∀ t, (s.th.vr a).tag = some t → t.gen ≠ s.core.kg t.k.toNat →
      Traps (.vdeq gd dst src d a part rm sat) s 11 (BitVec.ofNat 64
        (128 * t.k.toNat + 8 * t.gen.toNat + t.o.toNat + 2 ^ 16 * (s.core.kg t.k.toNat).toNat))) ∧
    ((s.th.vr a).tag = none →
      Traps (.vdeq gd dst src d a part rm sat) s 11 (BitVec.ofNat 64 (2 ^ 16 * (s.core.kg 0).toNat)))) ∧
  (∀ (gd : Guard) (a : GReg) (off : BitVec 20) (parts : BitVec 2) (s : State),
    let i := Instr.vsave gd a off parts
    let ea := offsetAddr (s.g a) (off.signExtend 60)
    Ready i s →
    (ea.toNat % 64 ≠ 0 → Traps i s 2 ea) ∧
    (∀ s1 s2, pairStart .store a off.toInt parts s = .ok ea s1 →
      writeUnits s1.lsu ea 0 ((List.range pairWords).map fun n =>
        pairWord s1.th s1.core (parts.getLsbD 0) (parts.getLsbD 1) (8 * n)) 192 s1 = .ok () s2 → Completes i s s2) ∧
    (∀ k, ea.toNat = 2 ^ 60 + k → k % 64 = 0 → k + 12288 ≤ 2 ^ 15 → s.sramErr = [] → pairWait parts s = .ok () s →
      ∃ e, Completes i s e ∧ SameUnits s e ∧
        (∀ n, n < 1536 → leVal (memReads e.mem (sramKey s.cc (k + 8 * n)) 8) =
          (pairWord s.th s.core (parts.getLsbD 0) (parts.getLsbD 1) (8 * n)).toNat) ∧
        (∀ x, x < sramKey s.cc k ∨ sramKey s.cc k + 12288 ≤ x → memRead e.mem x = memRead s.mem x))) ∧
  (∀ (gd : Guard) (a : GReg) (off : BitVec 20) (parts : BitVec 2) (s : State),
    let i := Instr.vrest gd a off parts
    let ea := offsetAddr (s.g a) (off.signExtend 60)
    Ready i s →
    (ea.toNat % 64 ≠ 0 → Traps i s 2 ea) ∧
    (∀ s1 s2 pres, pairStart .load a off.toInt parts s = .ok ea s1 →
      loadWord s1.lsu (addrAdd ea 0x9E0) s1 = .ok pres s2 →
      ((parts.getLsbD 1 && !pres.getLsbD 1 || parts.getLsbD 0 && !pres.getLsbD 0) = true → Traps i s 14 pres) ∧
      (∀ ws s3, (parts.getLsbD 1 && !pres.getLsbD 1 || parts.getLsbD 0 && !pres.getLsbD 0) = false →
        readUnits s1.lsu ea 0 192 s2 = .ok ws s3 → imageBinds ws = [] →
        (List.range 8).find? (fun q => ((loadEnginePart ws s3.core).ring q).bad) = none →
        ∃ e, Completes i s e ∧ e.mem = s3.mem ∧
          e.th = (if parts.getLsbD 0 then loadVectorPart ws { s3.th with binds := [] } else s3.th) ∧
          e.core.kents = (if parts.getLsbD 1 then (loadEnginePart ws s3.core).kents else s3.core.kents) ∧
          e.core.kgen = (if parts.getLsbD 1 then (loadEnginePart ws s3.core).kgen else s3.core.kgen) ∧
          e.core.acc = (if parts.getLsbD 1 then (loadEnginePart ws s3.core).acc else s3.core.acc))))

/-! ## Pair words -/

/-- Pair words: a pair issues when both its halves are ready (spec/03 R33, spec/08 R141), else nothing of it happens;
both halves read the state before the word and write their results together; a half that the guard does not let act does
nothing; the scalar half's trap comes before the vector half's, whose format is checked only then (spec/16 R272), and a
trap of either leaves nothing written (spec/02 R24, R25). -/
def Obligations.PairWords : Prop :=
  ∀ (gd : Guard) (a v : Instr) (s : State),
    let i := Instr.pair gd a v
    let owned := v.needsOwner = true → s.core.owner = some s.ct
    i.wf = true → Ready i s →
    (halfWaits s gd a = true ∨ s.fmtBad v = false ∧ halfWaits s gd v = true → exec i s = .next s) ∧
    (s.fmtBad v = false → ∀ d w r, halfLive s gd a = true → halfLive s gd v = true → intResult s a = some (d, w) →
      vecResult s v = some r → s.unbound (r.srcs ++ r.dsts) → owned →
      ∃ e, Completes i s (e.setG d w) ∧ e.th = r.th ∧ e.core = r.core ∧ OnlyHere s e) ∧
    (s.fmtBad v = false → ∀ d w, halfLive s gd a = true → halfLive s gd v = false → intResult s a = some (d, w) →
      Completes i s (s.setG d w)) ∧
    (s.fmtBad v = false → ∀ l, halfLive s gd a = true → halfLive s gd v = false → predResult s a = some l →
      Completes i s (l.foldl (fun s (e : PIdx × Word) => s.setP e.1 e.2) s)) ∧
    (s.fmtBad v = false → ∀ r, halfLive s gd a = false → halfLive s gd v = true → vecResult s v = some r →
      s.unbound (r.srcs ++ r.dsts) → owned →
      ∃ e, Completes i s e ∧ e.th = r.th ∧ e.core = r.core ∧ OnlyHere s e) ∧
    (∀ n sg d ea, halfLive s gd a = true → loadForm s a = some (n, sg, d, ea) → ea.toNat % n ≠ 0 →
      (s.fmtBad v = true ∨ halfWaits s gd v = false) → Traps i s 2 ea) ∧
    (∀ d w, halfLive s gd a = true → intResult s a = some (d, w) → s.fmtBad v = true →
      exec i s = .next (takeTrap { code := 1, tval := i.low, vh := true } s)) ∧
    (s.fmtBad v = false → ∀ d w, halfLive s gd a = true → halfLive s gd v = true → halfWaits s gd v = false →
      intResult s a = some (d, w) → v.needsOwner = true → s.core.owner ≠ some s.ct →
      exec i s = .next (takeTrap { code := 4, tval := BitVec.ofNat 64 (s.core.owner.getD 4), vh := true } s))

/-! ## Copies -/

/-- A copy command that passes its checks (R178) joins the copy queue of two with its operands as they stand: the next
number of the CE timeline is taken, its future names it as pending, no byte moves yet; with the queue full it is not
executed; a cpm to no core is done at once (R182). A length outside 32 bits is ring-misuse and a failing path the
access trap. cpcan cancels the thread's copies of a number or above that have not started, and counts them (R185). -/
def Obligations.CopyIssue : Prop :=
  (∀ (i : Instr) (fd : FIdx) (s s1 : State) (args : List Word) (used5 src5 : Bool),
    i.timeline = some (.ce, fd) → Ready i s → copyChecks i s = .ok (args, used5, src5) s1 →
    let e := enqueueOp .ce i fd (fun o => { o with args := args, frame := used5, noSplit := src5 }) s1
    (2 ≤ s1.core.ce.length → exec i s = .next s1) ∧
    (s1.core.ce.length < 2 → ((∀ gd f d a l m b dm sp bs, i ≠ .cpm gd f d a l m b dm sp bs) ∨ args.getD 3 0 ≠ 0) →
      Completes i s e ∧ e.mem = s1.mem ∧ e.core.ce.length = s1.core.ce.length + 1 ∧
        (e.th.tl .ce).last = (s1.th.tl .ce).last + 1 ∧
        e.th.fr fd = { v := true, st := .pending, eng := .ce, n := (s1.th.tl .ce).last + 1 }) ∧
    (s1.core.ce.length < 2 → (∃ gd d a l m b dm sp bs, i = .cpm gd fd d a l m b dm sp bs) → args.getD 3 0 = 0 →
      ∃ o, e.core.ce.getLast? = some o ∧ Completes i s (e.endOp o .done false 0))) ∧
  (∀ (gd : Guard) (fd : FIdx) (dst src len : GReg) (s : State),
    let i := Instr.cp gd fd dst src len .none .d1 none
    Ready i s →
    (2 ^ 32 ≤ (s.g len).toNat → Traps i s 14 (s.g len)) ∧
    ((s.g len).toNat < 2 ^ 32 → 10 ≤ (s.g src).toNat / 2 ^ 60 → Traps i s 3 (s.g src)) ∧
    ((s.g src).toNat < 2 ^ 57 → (s.g dst).toNat / 2 ^ 60 = 1 → 0 < (s.g len).toNat →
      (s.g dst).toNat % 2 ^ 60 + (s.g len).toNat ≤ 2 ^ 15 →
      copyChecks i s = .ok ([s.g dst, s.g src, 0, 0, 0, s.g len], false, false) s)) ∧
  (∀ (gd : Guard) (d a : GReg) (s : State), Ready (.cpcan gd d a) s →
    Completes (.cpcan gd d a) s ((cancelFrom s.tk (s.g a).toNat s).1.setG d (BitVec.ofNat 64
      ((s.opsOf s.tk .ce).filter fun o => !o.started && decide ((s.g a).toNat ≤ o.num)).length)))

/-- A copy starts once a slot of its ring is ready and, where it leaves its cluster, the cluster has bytes of its
budget left; it completes with the bytes of its plan landed, then its barrier word updated, then its number ended and
its future done; a multicast delivers each destination once, a ring copy fills or empties one slot at a time, a cpsig
within the package adds to its word once its bytes are there, and one to another package is done when its signal is
applied there, once; with no route left it ends faulted (spec/11 R173, R179-R184, R189, spec/12 R209, spec/22 R358).
That what is left of its bytes moves in the step that ends it, the others at turns of their own, is the model's reading
(log entries 30, 88). -/
def Obligations.CopyEvents : Prop :=
  ∀ (core thr n : Nat) (o : Op) (s : State), s.opAt (4 * core + thr) .ce n = some o → o.wait = none →
    let ag := s.opAgent o
    let r := (s.coreAt core).ring o.copyRing.toNat
    let cl := s.clusterAt (clusterOf core)
    (o.started = false → ringWaits (s.coreAt core) o = false → o.empty = false → cl.budget ≠ 0 → cl.balance ≤ 0 →
      o.leavesCluster s = true → Happens (.copyStart core thr n) s s) ∧
    (o.started = false → ringWaits (s.coreAt core) o = false →
      (o.empty = true ∨ cl.budget = 0 ∨ 0 < cl.balance ∨ o.leavesCluster s = false) →
      let begun (s1 : State) (pin : Option SeqPin) : Prop :=
        Happens (.copyStart core thr n) s (s1.modOp o fun x => { x with started := true, seq := pin, wait := none })
      (∀ gd fd q c b st dst, o.instr = .cps gd fd dst q c b st → begun s none) ∧
      (∀ s1 pin gd fd dst tab tok cnt bpt bar sp, o.instr = .cpg gd fd dst tab tok cnt bpt bar sp →
        gatherBegin ag o s = .ok pin s1 → begun s1 (some pin)) ∧
      (o.empty = true → begun s none) ∧
      (∀ s1 h, o.empty = false →
        ((∃ gd fd q src cnt bar str sp, o.instr = .cpr gd fd q src cnt bar str sp) ∨
          (∃ gd fd dst src len bar dim spl, o.instr = .cp gd fd dst src len bar dim spl) ∨
          (∃ gd fd dst src len mask bar dim spl bsh, o.instr = .cpm gd fd dst src len mask bar dim spl bsh) ∨
          (∃ gd fd dst src len sig dim, o.instr = .cpsig gd fd dst src len sig dim)) →
        copyPlace ag o true .load (o.args.getD 1 0) s = .ok h s1 → begun s1 none)) ∧
    (∀ gd fd dst src len bar dim spl p s1 s2 s3, o.started = true → o.instr = .cp gd fd dst src len bar dim spl →
      planPattern ag o true (o.args.getD 0 0) o.scaleDst s = .ok p s1 → p.halt = none → p.land ag o s1 = .ok () s2 →
      barrierEnd o ag (o.args.getD 2 0) p.payload s2 = .ok () s3 →
      Happens (.copyComplete core thr n) s (s3.endOp o .done false 0)) ∧
    (∀ gd fd dst tab tok cnt bpt bar sp p s1 s2 s3, o.started = true → o.instr = .cpg gd fd dst tab tok cnt bpt bar sp →
      planGather ag o true s = .ok p s1 → p.halt = none → p.land ag o s1 = .ok () s2 →
      barrierEnd o ag (o.args.getD 2 0) p.payload s2 = .ok () s3 →
      Happens (.copyComplete core thr n) s (s3.endOp o .done false 0)) ∧
    (∀ s1, o.started = true → ((∃ gd fd q src cnt bar str sp, o.instr = .cpr gd fd q src cnt bar str sp) ∨
        (∃ gd fd dst q cnt bar str, o.instr = .cps gd fd dst q cnt bar str)) → o.args.getD 5 0 = 0 →
      barrierEnd o ag (o.args.getD 2 0) o.mask.toNat s = .ok () s1 →
      Happens (.copyComplete core thr n) s (s1.endOp o .done false 0)) ∧
    (∀ gd fd dst src len mask bar dim spl bsh, o.started = true → o.instr = .cpm gd fd dst src len mask bar dim spl bsh →
      o.served = (o.args.getD 3 0).toNat → Happens (.copyComplete core thr n) s (s.endOp o .done false 0)) ∧
    (∀ gd fd dst src len mask bar dim spl bsh dest p s1 s2 s3, o.started = true →
      o.instr = .cpm gd fd dst src len mask bar dim spl bsh → dest < 64 → (o.args.getD 3 0).getLsbD dest = true →
      Nat.testBit o.served dest = false → planDest ag o true dest s = .ok p s1 → p.halt = none →
      p.land ag o s1 = .ok () s2 →
      barrierEnd o ag (if bsh then o.args.getD 2 0 else withCore (o.args.getD 2 0) dest) p.payload s2 = .ok () s3 →
      Happens (.cpmDelivery core thr n dest) s
        (s3.modOp o fun x => { x with served := x.served + 2 ^ dest, wait := none })) ∧
    (∀ gd fd q src cnt bar str spl p s1 s3 s4 s2, thr < 4 → (s.coreAt core).errs = [] → o.started = true →
      o.instr = .cpr gd fd q src cnt bar str spl → (spl = true → p.scales.length ≤ 32) →
      o.args.getD 5 0 ≠ 0 → r.fc < r.ns → planSlot ag o true r s = .ok p s1 → p.halt = none →
      p.land ag o s1 = .ok () s3 → (p.reads.forM fun k => grant ag k 1) s3 = .ok () s4 →
      (if spl then fillScan core o.th q p.scales.length else pure ()) s4 = .ok () s2 →
      Happens (.cprSlot core thr n) s ((s2.modCoreAt core (fillSlot q spl p.scales)).modOp o fun x =>
        x.slotDone (ringStride o.instr o.args (64 * r.sb)) p.payload)) ∧
    (∀ gd fd dst q cnt bar str p s1 s2, thr < 4 → (s.coreAt core).errs = [] → o.started = true →
      o.instr = .cps gd fd dst q cnt bar str →
      o.args.getD 5 0 ≠ 0 → 0 < r.fc → planSlot ag o true r s = .ok p s1 → p.halt = none →
      p.land ag o s1 = .ok () s2 →
      Happens (.cpsSlot core thr n) s ((s2.modCoreAt core fun c => c.setRing q.toNat (c.ring q.toNat).release).modOp o fun x =>
        x.slotDone (ringStride o.instr o.args (64 * r.sb)) p.payload)) ∧
    (∀ gd fd dst src len sig dim, o.started = true → o.instr = .cpsig gd fd dst src len sig dim →
      let addr := o.args.getD 2 0
      (∀ p s1 h s2 s3 s4, remotePkg s ag.pkg (o.args.getD 0 0) = none →
        planPattern ag o true (o.args.getD 0 0) none s = .ok p s1 → p.halt = none →
        copyPlace ag o true .atomic addr s1 = .ok h s2 → p.land ag o s2 = .ok () s3 →
        addSignal ag o true addr s3 = .ok () s4 →
        Happens (.copyComplete core thr n) s (s4.endOp o .done false 0)) ∧
      (∀ to_, remotePkg s ag.pkg (o.args.getD 0 0) = some to_ →
        (s.noRoute ag.pkg to_ = true → Happens (.copyComplete core thr n) s (unreachable o ag.pkg to_ addr s)) ∧
        (∀ p s1 s2 s3, s.noRoute ag.pkg to_ = false → o.served = 0 →
          planPattern ag o true (o.args.getD 0 0) none s = .ok p s1 → p.halt = none → p.land ag o s1 = .ok () s2 →
          let sent := s2.modOp o fun x => { x with served := 1 }
          (sent.opAt o.th o.eng o.num).map (·.served) = some 1 →
          sendSignal o ag.pkg to_ addr sent = .ok () s3 → Happens (.copyComplete core thr n) s s3) ∧
        (∀ s1, s.noRoute ag.pkg to_ = false → o.served = 1 → sendSignal o ag.pkg to_ addr s = .ok () s1 →
          Happens (.copyComplete core thr n) s s1))) ∧
    (∀ pkg src num s1, ((tgetD (s.pkgAt src).sigUnacked pkg []).any fun x => x.1 == num) = true →
      let w := tgetD (s.pkgAt pkg).sigSeen src {}
      (w.applied 256 num = true → Happens (.cpsigSignal pkg src num) s s) ∧
      (w.applied 256 num = false → s.signalOp src pkg num = some o → addSignal ag o true (o.args.getD 2 0) s = .ok () s1 →
        Happens (.cpsigSignal pkg src num) s ((s1.modPkgAt pkg fun p => { p with
          sigSeen := tput p.sigSeen src (w.record 256 num) }).endOp o .done false 0))) ∧
    (∀ pkg dst num, ((tgetD (s.pkgAt pkg).sigUnacked dst []).any fun x => x.1 == num) = true →
      (tgetD (s.pkgAt dst).sigSeen pkg {}).applied 256 num = true →
      Happens (.signalAck pkg dst num) s (s.modPkgAt pkg fun p => { p with
        sigUnacked := tput p.sigUnacked dst ((tgetD p.sigUnacked dst []).filter fun x => x.1 != num) }))

/-- What a plain copy within one core's SRAM moves: every byte of its run from the source to the destination, no
other byte, where the two do not overlap; then its number has ended. A byte that the copy has read and not yet written
is written as it was read, and one that it has written is not written again; so each byte has one value that is due to
it. At a turn of its progress some bytes are read, some of the destination's take what is due to them, and no other byte
changes (spec/11 R166, R176, R179; which bytes move at which turn: log entry 30, the model's reading). -/
def Obligations.CopyMovesBytes : Prop :=
  ∀ (core thr n len x y : Nat) (gd : Guard) (fd : FIdx) (a b c : GReg) (o : Op) (s : State),
    s.opAt (4 * core + thr) .ce n = some o → o.wait = none → o.started = true → o.th = 4 * core + thr → thr < 4 →
    o.num = n → o.eng = .ce → o.instr = .cp gd fd a b c .none .d1 none → o.served = 0 → s.sramErr = [] →
    o.args = [BitVec.ofNat 64 (2 ^ 60 + y), BitVec.ofNat 64 (2 ^ 60 + x), 0, 0, 0, BitVec.ofNat 64 len] →
    x + len ≤ 2 ^ 15 → y + len ≤ 2 ^ 15 → (x + len ≤ y ∨ y + len ≤ x) →
    let at_ (j : Nat) : Nat := sramKey core (y + j)
    let due (t : State) (o : Op) (j : Nat) : Byte :=
      if o.landed.contains (at_ j) then memRead t.mem (at_ j)
      else ((o.got.find? fun z => z.1 == j && z.2.1 == at_ j).map (·.2.2)).getD (memRead t.mem (sramKey core (x + j)))
    let others (t : State) : Prop :=
      (∀ k, k < sramKey core y ∨ sramKey core y + len ≤ k → memRead t.mem k = memRead s.mem k) ∧
        ∀ g, (t.threadAt (4 * core + thr)).g g = (s.threadAt (4 * core + thr)).g g
    (∃ e, Happens (.copyComplete core thr n) s e ∧ others e ∧ e.opAt (4 * core + thr) .ce n = none ∧
      ∀ j, j < len → memRead e.mem (at_ j) = due s o j) ∧
    ((s.pkgAt (pkgOf core)).gated = false →
      ∃ e g l, inputDo (.progress core thr n) s = .next e ∧ others e ∧
        e.opAt (4 * core + thr) .ce n = some { o with got := o.got ++ g, landed := o.landed ++ l } ∧
        ∀ j, j < len → due e { o with got := o.got ++ g, landed := o.landed ++ l } j = due s o j ∧
          memRead e.mem (at_ j) = (if (o.landed ++ l).contains (at_ j) then due s o j else memRead s.mem (at_ j)))

/-! ## Rings, barriers, futures -/

/-- Rings: ring declares an empty ring over aligned SRAM that no stream register and no command uses; rpub publishes
and radv frees G(B) slots, whose tags it clears, or ring-misuse with too few; rwait and rfree wait until that many slots are published or
free; rstat reads the ring's state and the addresses of its pointers. An undeclared ring is ring-misuse (spec/11 R186,
R187, R188). -/
def Obligations.Rings : Prop :=
  (∀ (gd : Guard) (q : QIdx) (a : GReg) (sb : BitVec 8) (ns : BitVec 7) (pool : Bool) (kf : BitVec 6) (s : State),
    let i := Instr.ring gd q a sb ns pool kf
    let x := (s.g a).toNat % 2 ^ 60
    Ready i s →
    (((s.g a).toNat / 2 ^ 60 ≠ 1 ∨ 2 ^ 15 ≤ x) → Traps i s 3 (s.g a)) ∧
    ((s.g a).toNat / 2 ^ 60 = 1 → x < 2 ^ 15 → x % 64 ≠ 0 → Traps i s 2 (s.g a)) ∧
    ((s.g a).toNat / 2 ^ 60 = 1 → x % 64 = 0 → x + ns.toNat * (64 * sb.toNat) ≤ 2 ^ 15 → x < 2 ^ 15 →
      s.th.ringBound q = false → s.core.ringBusy q = false →
      Completes i s (s.modCore fun c => c.setRing q.toNat
        { base := x, sb := sb.toNat, ns := ns.toNat, pool := pool, kf := kf.toNat }))) ∧
  (∀ (gd : Guard) (q : QIdx) (b : GReg) (s : State),
    let r := s.core.ring q.toNat
    let m := (s.g b).toNat
    (Ready (.rpub gd q b) s → (r.ns = 0 ∨ r.ns - r.fc < m → Traps (.rpub gd q b) s 14 (q.setWidth 64)) ∧
      (r.ns ≠ 0 → m ≤ r.ns - r.fc → r.pp < r.ns → Completes (.rpub gd q b) s (s.modCore fun c => c.setRing q.toNat
        { r with pp := (r.pp + m) % r.ns, fc := r.fc + m }))) ∧
    (Ready (.radv gd q b) s → (r.ns = 0 ∨ r.fc < m → Traps (.radv gd q b) s 14 (q.setWidth 64)) ∧
      (r.ns ≠ 0 → m ≤ r.fc → r.cp < r.ns → ∃ tags, Completes (.radv gd q b) s (s.modCore fun c => c.setRing q.toNat
        { r with cp := (r.cp + m) % r.ns, fc := r.fc - m, tags := tags }) ∧
        ∀ slot, tget tags slot = if (List.range m).any (fun n => (r.cp + n) % r.ns == slot) then none else tget r.tags slot)) ∧
    (Ready (.rwait gd q b) s → r.ns ≠ 0 → m ≤ r.ns →
      (m ≤ r.fc → Completes (.rwait gd q b) s s) ∧ (r.fc < m → exec (.rwait gd q b) s = .next s)) ∧
    (Ready (.rfree gd q b) s → r.ns ≠ 0 → m ≤ r.ns →
      (m ≤ r.ns - r.fc → Completes (.rfree gd q b) s s) ∧ (r.ns - r.fc < m → exec (.rfree gd q b) s = .next s))) ∧
  (∀ (gd : Guard) (d : GReg) (q : QIdx) (sel : BitVec 2) (s : State),
    let r := s.core.ring q.toNat
    Ready (.rstat gd d q sel) s → r.ns ≠ 0 → sel ≠ 3 →
    Completes (.rstat gd d q sel) s (s.setG d (if sel = 0 then
        BitVec.ofNat 64 (r.pp + 2 ^ 8 * r.cp + 2 ^ 16 * r.fc + 2 ^ 24 * r.ns + 2 ^ 32 * r.sb)
      else BitVec.ofNat 64 (2 ^ 60 + r.base + (if sel = 1 then r.pp else r.cp) * (64 * r.sb)))))

/-- Barrier words in the core's own SRAM: binit sets the expected count and clears the rest; an arrival that makes the
arrivals reach the count with no bytes pending flips the phase and clears both, any other adds to the arrivals and to the
pending bytes; G(D) takes the phase before it; an update that would carry the arrivals past the count, or the bytes out
of -2^20 to 2^20 - 1, changes nothing and is reported, and the instruction still completes; bwait
waits for the phase to differ from a parity and btest tests it (spec/11 R190, R191, R192). -/
def Obligations.Barriers : Prop :=
  ∀ (gd : Guard) (d a b : GReg) (pt pf : PIdx) (off : Nat) (s : State), s.sramErr = [] → (s.g a).toNat = 2 ^ 60 + off →
    off < 2 ^ 15 → off % 8 = 0 →
    let k := sramKey s.cc off
    let w : Word := BitVec.ofNat 64 (leVal (memReads s.mem k 8))
    (Ready (.binit gd a b) s →
      ((s.g b = 0 ∨ 2 ^ 20 ≤ (s.g b).toNat) → Traps (.binit gd a b) s 14 (s.g b)) ∧
      (s.g b ≠ 0 → (s.g b).toNat < 2 ^ 20 → ∃ e, Completes (.binit gd a b) s e ∧ SameUnits s e ∧
        e.mem = memWrites s.mem k (leBytes 8 (s.g b).toNat))) ∧
    (∀ i x, (i = .arrive gd d a ∧ x = 0 ∨ i = .arrivetx gd d a b ∧ x = (s.g b).toInt ∧ -(2 ^ 20) ≤ x ∧ x ≤ 2 ^ 20 - 1) →
      Ready i s →
      (∀ w', barrierStep w 1 x = some w' → ∃ e, SameUnits s e ∧ e.mem = memWrites s.mem k (leBytes 8 w'.toNat) ∧
        Completes i s (e.setG d (BitVec.ofNat 64 (w.getLsbD 63).toNat))) ∧
      (barrierStep w 1 x = none → Completes i s ((reportError s (pkgOf s.cc) (some s.cc) (some s.tk)
        { cls := 4, src := 7, addr := s.g a, synd := (s.g a).toNat % 2 ^ 32 }).1.setG d
          (BitVec.ofNat 64 (w.getLsbD 63).toNat)))) ∧
    (Ready (.arrivetx gd d a b) s → ((s.g b).toInt < -(2 ^ 20) ∨ 2 ^ 20 - 1 < (s.g b).toInt) →
      Traps (.arrivetx gd d a b) s 14 (s.g b)) ∧
    (Ready (.bwait gd a b) s →
      (w.getLsbD 63 ≠ (s.g b).getLsbD 0 →
        ∃ e, Completes (.bwait gd a b) s e ∧ e.mem = s.mem ∧ (∀ r, e.g r = s.g r) ∧ e.cores = s.cores) ∧
      (w.getLsbD 63 = (s.g b).getLsbD 0 → ∃ e, exec (.bwait gd a b) s = .next e ∧ e.th.pc = s.th.pc ∧ e.mem = s.mem ∧
        (∀ r, e.g r = s.g r))) ∧
    (Ready (.btest gd pt pf a b) s → ∃ e, SameUnits s e ∧ e.mem = s.mem ∧
      let c := w.getLsbD 63 != (s.g b).getLsbD 0
      Completes (.btest gd pt pf a b) s ((e.setP pt (ones c)).setP pf (ones !c))) ∧
    (∀ (n m a : Nat) (p x : Int) (ph : Bool), n < 2 ^ 20 → m < 2 ^ 20 → -(2 ^ 20) ≤ p → p ≤ 2 ^ 20 - 1 →
      barrierStep (mkBarrier ph p m n) a x =
        if a ≠ 0 ∧ n < m + a ∨ p + x < -(2 ^ 20) ∨ 2 ^ 20 - 1 < p + x then none
        else some (if m + a = n ∧ p + x = 0 then mkBarrier (!ph) 0 0 n else mkBarrier ph (p + x) (m + a) n))

/-- Futures and timelines: fwait passes a cleared or a done future, waits for a pending one, traps on a faulted
one by its address, and at a cancelled one suspends the thread as yield does, to resume after it; ftst takes the snapshot of R172; fcan cancels an operation that has not started; fmov copies and
clears; tlwait waits until a number has ended and tlrd reads the timeline (spec/11 R166, R169-R174). -/
def Obligations.Futures : Prop :=
  (∀ (gd : Guard) (f : FIdx) (s : State), Ready (.fwait gd f) s →
    let x := s.th.fr f
    ((x.v = false ∨ x.st = .done ∧ x.c = false) → Completes (.fwait gd f) s s) ∧
    (x.v = true → x.st = .pending → exec (.fwait gd f) s = .next s) ∧
    (x.v = true → x.st = .faulted →
      let sel := x.faddr.toNat / 2 ^ 60
      exec (.fwait gd f) s = .next (takeTrap
        { code := if sel = 13 then 17 else if sel = 14 then 6 else if sel = 15 then 11 else 12
          tval := if sel < 13 then x.faddr else BitVec.ofNat 64 (x.faddr.toNat % 2 ^ 60), async := true } s)) ∧
    (x.v = true → x.st = .done → x.c = true →
      let s1 := s.setTh (advanceThread (.fwait gd f) s.th s.th none)
      (∀ e, suspendThread s.tk .yield s1.th.pc true s1 = .ok () e → Happens (.fwait gd f) s e) ∧
      (∀ e, suspendThread s.tk .yield s1.th.pc true s1 = .error .wait e → ∃ e', exec (.fwait gd f) s = .next e' ∧
        e'.th.pc = s.th.pc))) ∧
  (∀ (gd : Guard) (pt pf : PIdx) (f : FIdx) (s : State), Ready (.ftst gd pt pf f) s →
    let x := s.th.fr f
    let q : Bool × Bool := if x.v = false then (true, false) else
      match x.st with | .pending => (false, false) | .faulted => (false, true) | .done => (true, x.c)
    Completes (.ftst gd pt pf f) s ((s.setP pt (ones q.1)).setP pf (ones q.2))) ∧
  (∀ (gd : Guard) (f : FIdx) (s : State), Ready (.fcan gd f) s →
    let x := s.th.fr f
    (x.v = false → Completes (.fcan gd f) s s) ∧
    (x.v = true → (s.opsOf s.tk x.eng).find? (fun o => o.num == x.n) = none → Completes (.fcan gd f) s s) ∧
    (∀ o, x.v = true → (s.opsOf s.tk x.eng).find? (fun o => o.num == x.n) = some o →
      (o.started = true → Completes (.fcan gd f) s s) ∧
      (o.started = false → Completes (.fcan gd f) s (s.endOp o .done true 0)))) ∧
  (∀ (gd : Guard) (fd fa : FIdx) (s : State),
    (Ready (.fmov gd fd fa) s → Completes (.fmov gd fd fa) s (s.modTh fun t => t.setF fd (t.fr fa))) ∧
    (Ready (.fmovClr gd fd) s → Completes (.fmovClr gd fd) s (s.modTh fun t => t.setF fd { v := false }))) ∧
  (∀ (gd : Guard) (eng : Eng) (a : GReg) (s : State), Ready (.tlwait gd eng a) s →
    ((s.th.tl eng).last < (s.g a).toNat → Traps (.tlwait gd eng a) s 14 (s.g a)) ∧
    ((s.g a).toNat ≤ (s.th.tl eng).last → (s.g a).toNat ≤ (s.th.tl eng).cur → Completes (.tlwait gd eng a) s s) ∧
    ((s.g a).toNat ≤ (s.th.tl eng).last → (s.th.tl eng).cur < (s.g a).toNat → exec (.tlwait gd eng a) s = .next s)) ∧
  (∀ (gd : Guard) (eng : Eng) (d : GReg) (last : Bool) (s : State), Ready (.tlrd gd eng d last) s →
    Completes (.tlrd gd eng d last) s
      (s.setG d (BitVec.ofNat 64 (if last then (s.th.tl eng).last else (s.th.tl eng).cur)))) ∧
  (∀ (t : Thread) (e : Eng) (n : Nat) (st : OpEnd) (c : Bool) (fa : Word) (f : FIdx), (t.fr f).v = true →
    (t.fr f).eng = e → (t.fr f).n = n → (t.fr f).st = .pending →
    (t.endOp e n st c fa).fr f = { t.fr f with st := st, c := c, faddr := fa })

/-! ## The frame store -/

/-- mark pushes a delimiter of 14 words with its resume address and the loop registers; frl grows the topmost window
frame's locals and answers their address on path 0x5; spillw writes the lowest resident window to its frame and
fillw reads the next one back, each once no operation acts on the frame store and no asynchronous load is due to the
window; each has its traps (spec/03 R34, spec/14 R226, R227, R231, R236). -/
def Obligations.Frames : Prop :=
  (∀ (gd : Guard) (tag : BitVec 16) (off : BitVec 32) (s : State), Ready (.mark gd tag off) s →
    let resume : Pc := s.th.pc + 4 * off.signExtend 48
    let f : Frame := { at_ := s.th.fsp, kind := .mark, tag := tag, size := 14 }
    (legalStart resume = false → Traps (.mark gd tag off) s 2 (resume.setWidth 64)) ∧
    (legalStart resume = true → s.th.frameCap < s.th.fsp + 14 →
      Traps (.mark gd tag off) s 9 (BitVec.ofNat 64 (8 * (s.th.fsp + 14)))) ∧
    (∀ s1, legalStart resume = true → s.th.fsp + 14 ≤ s.th.frameCap →
      frameWrites s.tk s.th.fsp none (f.header (linkTo s.th.fsp s.th.frames) :: resume.setWidth 64 :: s.th.loopWords) s =
        .ok () s1 →
      Completes (.mark gd tag off) s (s1.modTh fun t => { t with frames := f :: t.frames, fsp := s.th.fsp + 14 }))) ∧
  (∀ (gd : Guard) (d a : GReg) (s : State), Ready (.frl gd d a) s →
    (a ≠ 0 → 4095 < (s.g a).toNat → Traps (.frl gd d a) s 10 3) ∧
    ((a = 0 ∨ (s.g a).toNat ≤ 4095) → (∀ F rest, s.th.frames = F :: rest → F.kind ≠ .window) →
      Traps (.frl gd d a) s 10 6) ∧
    (∀ F rest, s.th.frames = F :: rest → F.kind = .window →
      let addr : Word := BitVec.ofNat 64 (5 * 2 ^ 60 + 8 * (F.at_ + 41))
      (a = 0 → Completes (.frl gd d a) s (s.setG d addr)) ∧
      (∀ s1, a ≠ 0 → (s.g a).toNat ≤ 4095 → F.at_ + 41 + (s.g a).toNat ≤ s.th.frameCap → s.frameOps s.tk = false →
        let F' : Frame := { F with loc := (s.g a).toNat, size := 41 + (s.g a).toNat }
        frameWrite s.tk F.at_ (F'.header (linkTo F.at_ rest)) 0 s = .ok () s1 →
        Completes (.frl gd d a) s ((s1.modTh fun t =>
          { t with frames := F' :: rest, fsp := F.at_ + 41 + (s.g a).toNat }).setG d addr)))) ∧
  (∀ (gd : Guard) (s : State), Ready (.spillw gd) s →
    (s.th.res ≤ 1 → Completes (.spillw gd) s s) ∧
    (1 < s.th.res → s.frameOps s.tk = true → exec (.spillw gd) s = .next s) ∧
    (1 < s.th.res → s.frameOps s.tk = false →
      s.th.regPending ((List.range 40).map (s.th.winPhys (s.th.res - 1) ·)) = true → exec (.spillw gd) s = .next s) ∧
    (∀ s1, 1 < s.th.res → s.frameOps s.tk = false →
      s.th.regPending ((List.range 40).map (s.th.winPhys (s.th.res - 1) ·)) = false →
      putWindow s.tk (s.th.res - 1) (some 0) s = .ok () s1 →
      Completes (.spillw gd) s (s1.modTh fun t => { t with res := t.res - 1, depth := t.depth + 1 }))) ∧
  (∀ (gd : Guard) (s : State), Ready (.fillw gd) s →
    ((s.th.depth = 0 ∨ 4 ≤ s.th.res) → Completes (.fillw gd) s s) ∧
    (s.th.depth ≠ 0 → s.th.res < 4 → s.frameOps s.tk = false →
      s.th.regPending ((List.range 40).map (s.th.winPhys s.th.res ·)) = true → exec (.fillw gd) s = .next s) ∧
    (∀ f ws s1, s.th.depth ≠ 0 → s.th.res < 4 → s.frameOps s.tk = false →
      s.th.regPending ((List.range 40).map (s.th.winPhys s.th.res ·)) = false → s.th.winFrames[s.th.res]? = some f →
      frameReads s.tk (f.at_ + 1) (some 0) 40 s = .ok ws s1 →
      Completes (.fillw gd) s (s1.modTh fun t =>
        let u := putRegs t t.res 0 ws
        { u with res := u.res + 1, depth := u.depth - 1 })))

/-- Slices: cut finds its delimiter by the header words in the store, lifts the frames above it into an object,
answers its handle and goes on at the delimiter's resume address with the delimiter's loops, both read from the store;
graft copies an object's frames above a new delimiter and goes on where the cut stood; sdrop frees an object. Slice
traps: 1 no such delimiter, 2 no call since, 4 a handle that names no live object, 5 another domain's (spec/14
R231-R235). A graft is one step (the model's reading, log entry 16). -/
def Obligations.Slices : Prop :=
  (∀ (gd : Guard) (tag : BitVec 16) (d : GReg) (s : State), Ready (.cut gd tag d) s →
    (∀ s0, findMark s.tk tag 0 s.th.frames s = .ok none s0 → Traps (.cut gd tag d) s 10 1) ∧
    (∀ i s0, findMark s.tk tag 0 s.th.frames s = .ok (some i) s0 →
      let lifted := s.th.frames.take i
      let wins := lifted.filter fun f => f.kind == .window
      (wins = [] → Traps (.cut gd tag d) s 10 2) ∧
      (∀ D low lowWin image body h s1 s2 s3, s.th.frames[i]? = some D → lifted.getLast? = some low →
        wins.getLast? = some lowWin → s0.frameOps s.tk = false →
        (s0.threadAt s.tk).regPending ((List.range 168).map (64 + ·)) = false →
        liftWords s.tk low.at_ lifted s0 = .ok image s1 → wins.length < s.th.res →
        frameReads s.tk (D.at_ + 1) none 13 s1 = .ok body s2 →
        buildSlice s.tk tag low.at_ (successor s.th.pc 8) wins.length d.toNat s.th.loopWords image s2 = .ok (some h) s3 →
        exec (.cut gd tag d) s = .next (complete (.cut gd tag d) (.jump ((body.getD 0 0).setWidth 48)) s (s3.modTh fun t =>
          let u := putRegs (t.winBack wins.length) 0 40 ((image.drop (lowWin.at_ + 1 - low.at_)).take 8)
          { u.setLoopWords (body.drop 1) with
            frames := s.th.frames.drop (i + 1), fsp := D.at_, res := t.res - wins.length, depth := t.depth }.setG d h))))) ∧
  (∀ (gd : Guard) (a : GReg) (s : State), Ready (.graft gd a) s →
    (s.g a = 0 → Traps (.graft gd a) s 10 4) ∧
    (∀ addr w0 hd raw s1 s2 s3 s4 s5 s6, sliceOf s.tk (s.g a) s = .ok (addr, w0) s1 →
      objReads s.tk addr 0 20 s1 = .ok hd s2 → objReads s.tk addr 20 (w0.toNat / 2 ^ 32) s2 = .ok raw s3 →
      let nw := w0.toNat / 2 ^ 32
      let nfr := (hd.getD 4 0).toNat / 2 ^ 32
      let base := s.th.fsp + 2
      let orig := (hd.getD 1 0).toNat
      let img := match rebase orig nw (8 * ((base : Int) - orig)) 0 false raw with
        | h0 :: rest => BitVec.ofNat 64 (h0.toNat - h0.toNat / 2 ^ 30 % 2 ^ 16 * 2 ^ 30 + 2 ^ 30 * 2) :: rest
        | [] => []
      let delim : Frame := { at_ := s.th.fsp, kind := .graft, size := 2 }
      s.th.fsp + 2 + nw ≤ s.th.frameCap → s3.frameOps s.tk = false →
      (s3.threadAt s.tk).regPending ((List.range 168).map (64 + ·)) = false → s.th.destPending (hd.getD 5 0) = false →
      frameWrites s.tk s.th.fsp none [delim.header (linkTo s.th.fsp s.th.frames), (successor s.th.pc 8).setWidth 64] s3 =
        .ok () s4 →
      frameWrites s.tk base none img s4 = .ok () s5 →
      (if nfr = 1 then (if s.th.res = 4 then putWindow s.tk 3 else pure ())
        else (List.range s.th.res).forM (putWindow s.tk ·)) s5 = .ok () s6 →
      ∃ e, exec (.graft gd a) s = .next (complete (.graft gd a) (.jump ((hd.getD 3 0).setWidth 48)) s e) ∧
        e.mem = s6.mem ∧ e.th.fsp = base + nw ∧ e.th.frames = parseFrames base nw img [] ++ delim :: s6.th.frames ∧
        e.th.cwb = (s6.th.cwb + 40) % 168 ∧ e.cores = s6.cores ∧
        (nfr = 1 → s6.th.res ≠ 4 → e.th.res = s6.th.res + 1 ∧ e.th.depth = s6.th.depth) ∧
        (nfr ≠ 1 → e.th.res = 1))) ∧
  (∀ (gd : Guard) (a : GReg) (s : State), Ready (.sdrop gd a) s → s.th.sdropped = none →
    (s.g a = 0 → Completes (.sdrop gd a) s s) ∧
    (∀ addr w0 w2 s1 s2, s.g a ≠ 0 → sliceOf s.tk (s.g a) s = .ok (addr, w0) s1 → objRead s.tk addr 2 s1 = .ok w2 s2 →
      (w2.toNat % 2 ^ 32 ≠ s.th.dom → Traps (.sdrop gd a) s 10 5) ∧
      (∀ s3 s4 s5 w4, w2.toNat % 2 ^ 32 = s.th.dom →
        heapStore (s.heapAgent s.tk addr) (BitVec.ofNat 64 addr) (w0 &&& ~~~(0x40 : Word)) s2 = .ok () s3 →
        objRead s.tk addr 4 (s3.modTh fun t => { t with sdropped := some (BitVec.ofNat 64 addr) }) = .ok w4 s4 →
        w4.toNat % 2 ^ 32 = 0 → freeSlice s.tk addr s4 = .ok () s5 →
        Completes (.sdrop gd a) s (s5.modTh fun t => { t with sdropped := none }))))

/-! ## Continuations, supersteps, gangs -/

/-- Continuations: spawn submits a record or answers why not; send places a token in the receiver's queue, its inbox or
a drawer, and waits while none has room; recv and recv.try first collect what is parked for the record, then take the
oldest token with its status; with none, recv.try answers 0 and 2 and recv leaves its slot; yield leaves its slot behind
itself. In an armed domain spawn and send are put off until the superstep's end (spec/14 R240-R245, spec/15 R259). That
a thread without a record waits at recv in its slot and completes a yield there is the model's reading (log entry 48). -/
def Obligations.Continuations : Prop :=
  (∀ (gd : Guard) (d a : GReg) (s s1 : State) (r : Named), Ready (.spawn gd d a) s →
    namedRecord (s.g a) s = .ok r s1 →
    let code := if s1.recLive (r.key s1) then 1 else spawnCode s1 r.pkg r.w0 r.w2 r.w3 s1.mayStart
    let cl := s1.clusterFor r.pkg r.w2 r.w3 (some (s1.clusterOn r.pkg))
    (code ≠ 0 → Completes (.spawn gd d a) s (s1.setG d (BitVec.ofNat 64 code))) ∧
    (code = 0 → s1.armed s1.tk = false →
      Completes (.spawn gd d a) s ((submitAt r.pkg (r.spn s1) r.addr r.w0 r.w2 r.w3 cl s1).setG d 0)) ∧
    (code = 0 → s1.armed s1.tk = true →
      Completes (.spawn gd d a) s ((s1.defer (.spawn r.pkg (r.spn s1) r.addr r.w0 r.w2 r.w3 cl)).setG d 0))) ∧
  (∀ (gd : Guard) (d a b : GReg) (s s1 : State) (r : Named), Ready (.send gd d a b) s →
    namedRecord (s.g a) s = .ok r s1 →
    let tok : Token := { tok := s.g b, bounce := false, src := s1.th.rec_, key := s1.memberKey s1.tk }
    let st := s1.targetStatus (r.key s1) (w3Status r.w3)
    (s1.armed s1.tk = false →
      (placeToken (r.key s1) st (r.drawer s1) r.dom tok s1 = none → exec (.send gd d a b) s = .next s1) ∧
      (∀ e, placeToken (r.key s1) st (r.drawer s1) r.dom tok s1 = some e → Completes (.send gd d a b) s (e.setG d 0))) ∧
    (s1.armed s1.tk = true →
      Completes (.send gd d a b) s ((s1.defer (.send (r.key s1) st (r.drawer s1) r.dom r.addr tok)).setG d 0))) ∧
  (∀ (k th cl dom : Nat) (r : RecInfo) (tok : Token) (s : State), s.recAt k = some r → r.slot = some th →
    (s.threadAt th).rq.length < 16 →
    ∃ e, placeToken k 2 cl dom tok s = some e ∧ (e.threadAt th).rq = (s.threadAt th).rq ++ [tok] ∧
      (e.threadAt th).evf = true) ∧
  (∀ (gd : Guard) (d c : GReg) (tok : Token) (rest : List Token) (s : State), (refillHere s).th.rq = tok :: rest →
    let e : State := (takeToken (refillHere s)).modTh fun t => (t.setG d tok.tok).setG c tok.status
    (Ready (.recv gd d c) s → Completes (.recv gd d c) s e) ∧
    (Ready (.recvTry gd d c) s → Completes (.recvTry gd d c) s e) ∧
    (s.th.rec_ = 0 → (takeToken (refillHere s)).th.rq = rest)) ∧
  (∀ (s : State), (s.th.rec_ = 0 ∨ s.parkedFor (pkgOf (s.tk / 4)) ((s.keyOf s.tk).getD 0) = []) → (refillHere s).th.rq = s.th.rq) ∧
  (∀ (gd : Guard) (d c : GReg) (s : State), (refillHere s).th.rq = [] →
    let r := refillHere s
    (Ready (.recvTry gd d c) s → Completes (.recvTry gd d c) s (r.modTh fun t => (t.setG d 0).setG c 2)) ∧
    (∀ s1, Ready (.recv gd d c) s → r.th.rec_ ≠ 0 → suspendThread r.tk .recv r.th.pc false r = .ok () s1 →
      Happens (.recv gd d c) s s1) ∧
    (Ready (.recv gd d c) s → r.th.rec_ = 0 → exec (.recv gd d c) s = .next r)) ∧
  (∀ (gd : Guard) (s : State), Ready (.yield gd) s →
    (s.th.rec_ = 0 → Completes (.yield gd) s s) ∧
    (∀ s1, s.th.rec_ ≠ 0 →
      let s0 := s.setTh (advanceThread (.yield gd) s.th s.th none)
      suspendThread s.tk .yield s0.th.pc true s0 = .ok () s1 → Happens (.yield gd) s s1))

/-- Supersteps: dsync of a level that no domain of the thread's has is illegal; level 0 completes at once; the
arrival that makes the count of a domain that takes no snapshot completes the superstep with result 0 or 1; one
beyond the count is reported and answers 2; a thread that comes back from its wait takes its result. dmem reads
the domain, snaparm asks for the next superstep, at level 6 on every package of the domain; a count and a completion go
between packages at level 6; a restored domain runs (spec/15 R247, R258-R260). Which arrival is discarded at level 6 is the model's reading
(log entry 49). -/
def Obligations.Supersteps : Prop :=
  (∀ (gd : Guard) (d : GReg) (level : BitVec 3) (s : State), Ready (.dsync gd d level) s →
    let i := Instr.dsync gd d level
    (∀ r, s.th.dsyncRes = some r →
      Completes i s (s.modTh fun t => { t with dsyncRes := none, waiting := none, waited := 0 }.setG d r)) ∧
    (s.th.dsyncRes = none → s.nearest (s.chainOf s.tk) level.toNat = none →
      exec i s = .next (takeTrap { code := 1, tval := i.low } s)) ∧
    (∀ dk, s.th.dsyncRes = none → s.nearest (s.chainOf s.tk) level.toNat = some dk → s.th.waiting ≠ some .dsync →
      (s.allOps s.tk ≠ [] → exec i s = .next s) ∧
      (s.allOps s.tk = [] → level = 0 → Completes i s (s.setG d 0)) ∧
      (∀ x, s.allOps s.tk = [] → level ≠ 0 → s.th.inTrap = false → s.th.follows s.tk = false → s.domAt dk = some x →
        let s1 := dsyncFence level.toNat s
        (x.memb ≤ x.countedAll (pkgOf s.cc) → Completes i s ((s1.reportHere
          { cls := 4, src := 7, addr := 0, synd := dk % 2 ^ 32 }).1.setG d 2)) ∧
        (x.countedAll (pkgOf s.cc) < x.memb → x.level ≠ 6 → x.memb ≤ x.arrived.length + x.ended + 1 → x.arm = false →
          x.armReq ≠ some true →
          let e : State := completeSuperstep dk (arriveHere dk (s1.memberKey s1.tk) s1)
          Completes i s (e.modTh fun t => { t with waiting := none, waited := 0 }.setG d
            (if ((e.domAt dk).map fun (y : Domain) => y.armFailed).getD false then 1 else 0)))))) ∧
  (∀ (gd : Guard) (d c : GReg) (s : State) (k : Nat) (x : Domain), Ready (.dmem gd d c) s →
    s.domOfThread s.tk = some (k, x) →
    Completes (.dmem gd d c) s ((s.setG d (BitVec.ofNat 64 (s.th.dom % 2 ^ 32 + 2 ^ 32 * (s.th.level % 8)))).setG c
      (BitVec.ofNat 64 (x.memb % 2 ^ 32 + 2 ^ 32 * (x.rbcnt % 2 ^ 16))))) ∧
  (∀ (gd : Guard) (d a : GReg) (s : State) (k : Nat) (x : Domain), Ready (.snaparm gd d a) s →
    s.domOfThread s.tk = some (k, x) →
    let ask (s : State) (k : Nat) : State := s.modDomAt k fun x => { x with armReq := some ((s.g a).getLsbD 0) }
    (x.level ≠ 6 → Completes (.snaparm gd d a) s ((ask s k).setG d (if s.armed s.tk then 1 else 0))) ∧
    (x.level = 6 → Completes (.snaparm gd d a) s
      ((((s.sixPkgs k).map fun p => domKey p (k % 2 ^ 32)).foldl ask s).setG d (if s.armed s.tk then 1 else 0)))) ∧
  (∀ (src dom low count : Nat) (d x : Domain) (s : State), (s.sixPkgs dom).min? = some low →
    (s.sixPkgs dom).contains src = true → s.domAt (domKey src dom) = some d → count = d.arrived.length + d.ended →
    s.domAt (domKey low dom) = some x →
    let s1 := s.modDomAt (domKey low dom) fun x => { x with counts := tput x.counts src count }
    let sum := ((tput x.counts src count).filter fun (p, _) => p != completionMark).foldl (fun n y => n + y.2) x.gone
    (sum < x.memb → Happens (.dsyncCountMessage src dom count) s s1) ∧
    (sum = x.memb → Happens (.dsyncCountMessage src dom count) s (startCompletion (s.sixPkgs dom) low dom s1))) ∧
  (∀ (pkg dom : Nat) (d : Domain) (s : State), s.domAt (domKey pkg dom) = some d →
    (∀ mark, tget d.counts completionMark = some mark → Happens (.dsyncCompletionMessage pkg dom) s (completeWith
      (mark == 2) (domKey pkg dom) (s.setDomAt (domKey pkg dom) { d with counts := tdel d.counts completionMark }))) ∧
    (d.st = .rollingBack → Happens (.restoreComplete pkg dom) s (restoreDone (domKey pkg dom) s)))

/-- Gangs: gang without the slots that it needs answers 0; with them the leader's state is copied to each and they
go on together; a count that leaves the row of eight cores is an access trap; detach makes a follower run on its
own and is illegal in the leader; rejoin completes once every detached follower waits at the same tag (spec/15
R261). A gang or a detach outside the cases of the rule follows the model's reading (log entry 48). -/
def Obligations.Gangs : Prop :=
  (∀ (gd : Guard) (d : GReg) (n : BitVec 20) (s : State), Ready (.gang gd d n) s →
    let i := Instr.gang gd d n
    let slots := (List.range (n.toNat - 1)).map fun m => 4 * (s.cc + m + 1) + s.ct
    (8 < coreIn s.cc % 64 % 8 + n.toNat → Traps i s 3 (n.setWidth 64)) ∧
    (coreIn s.cc % 64 % 8 + n.toNat ≤ 8 → (s.th.gang ≠ none ∨ slots.all (copySlotFree s s.th) = false) →
      Completes i s (s.setG d 0)) ∧
    (∀ ws s0 s1 s2, coreIn s.cc % 64 % 8 + n.toNat ≤ 8 → s.th.gang = none → slots.all (copySlotFree s s.th) = true →
      s.allOps s.tk = [] → saveScan s.tk s = .ok () s0 → frameReads s.tk 0 none s0.th.fsp s0 = .ok ws s1 →
      let lead := advanceThread i s0.th (s0.th.setG d (n.setWidth 64)) none
      slots.forM (placeCopy lead s.tk n.toNat (if s0.th.ftrk.isNone && w3Ovx s0.th.w3 != 0 then [] else ws))
        ((s1.setTh { lead with gang := some { leader := s.tk, n := n.toNat, attached := true } }).setDomAt (gangDom s.tk)
          { level := 2, spn := s0.th.spn, parent := some (domKey (pkgOf s1.cc) s0.th.dom), memb := n.toNat
            home := clusterIn (clusterOf s1.cc) }) = .ok ⟨⟩ s2 →
      Happens i s s2)) ∧
  (∀ (gd : Guard) (s : State), Ready (.detach gd) s →
    (s.th.gang = none → Completes (.detach gd) s s) ∧
    (∀ g, s.th.gang = some g → g.leader ≠ s.tk →
      Completes (.detach gd) s (s.modTh fun t => { t with gang := some { g with attached := false } })) ∧
    (∀ g, s.th.gang = some g → g.leader = s.tk →
      exec (.detach gd) s = .next (takeTrap { code := 1, tval := Instr.low (.detach gd) } s))) ∧
  (∀ (gd : Guard) (tok : BitVec 16) (s : State), Ready (.rejoin gd tok) s →
    (s.th.gang = none → Completes (.rejoin gd tok) s s) ∧
    (∀ g, s.th.gang = some g → g.leader ≠ s.tk → g.attached = true → Completes (.rejoin gd tok) s s) ∧
    (∀ g, s.th.gang = some g → g.leader = s.tk →
      (s.detached s.tk).all (fun f => (((s.threadAt f).gang).bind (·.token)) == some tok) = true →
      ∃ e, Completes (.rejoin gd tok) s e ∧ e.mem = s.mem ∧ e.cores = s.cores))

/-! ## The matrix engine -/

/-- Matrix and attention commands. At issue a command that passes its checks takes the next number of the ME timeline,
its future names it as pending, and nothing it will write is written; with two commands waiting it is not executed. It
begins when its slots are present and its bindings are not stale, else it ends faulted; at its end it has written what
R307-R320 compute from its operands, its number ends and its future is done. One K-step of mma or attn.v adds 32 exact
products to an accumulator with one rounding; mmz zeroes; lxcfg and smxcfg configure; attn.f divides by the
denominators (spec/19 R300-R305, R307, R308, R314, R316, R319, R320, spec/18 R288). -/
def Obligations.MatrixCommands : Prop :=
  (∀ (i : Instr) (fd : FIdx) (s : State), i.timeline = some (.me, fd) → Ready i s → matrixChecks i s = EStateM.Result.ok () s →
    (2 ≤ s.core.mePending → exec i s = .next s) ∧
    (s.core.mePending < 2 → ∃ e : State, Completes i s e ∧ e.mem = s.mem ∧ e.core.acc = s.core.acc ∧ e.core.stage = s.core.stage ∧
      e.core.me.length = s.core.me.length + 1 ∧ (∀ r, e.g r = s.g r) ∧
      (e.th.tl .me).last = (s.th.tl .me).last + 1 ∧
      e.th.fr fd = { v := true, st := .pending, eng := .me, n := (s.th.tl .me).last + 1 })) ∧
  (∀ (i : Instr) (fd : FIdx) (s : State), i.timeline = some (.me, fd) →
    match Sys2Proof.Machine.Instr.configReg i with
    | some a =>
      (configBad i (s.g a) = true → Ready i s → Traps i s 14 (s.g a)) ∧
      (configBad i (s.g a) = false → matrixChecks i s = EStateM.Result.ok () s)
    | none =>
      let needs := Op.slotNeeds i s.core.lxcIssued
      let all := needs.1 ++ needs.2.1 ++ needs.2.2
      let acc := Instr.accRange i s.core.lxcIssued
      let src := Instr.srcRange i s.core.lxcIssued
      (∀ x rest, all = x :: rest → (s.core.ring x.ring).ns = 0 → needs.2.2 = [] → Ready i s →
        Traps i s 14 (BitVec.ofNat 64 x.ring)) ∧
      (all = [] → (16 < acc.1 + acc.2 ∨ 16 < src.1 + src.2) → Ready i s → Traps i s 14 (BitVec.ofNat 64 acc.1)) ∧
      ((∀ x, x ∈ all → (s.core.ring x.ring).ns ≠ 0 ∧ x.bytes ≤ (s.core.ring x.ring).slotBytes ∧
          x.off + x.n ≤ (s.core.ring x.ring).ns) → (needs.2.2 ≠ [] → lxcWef s.core.lxcIssued ≠ 0) →
        acc.1 + acc.2 ≤ 16 → src.1 + src.2 ≤ 16 →
        (∀ k x, (Instr.scaleRegs i).2 = some k → needs.2.1.head? = some x → k.toNat + x.n ≤ 64) →
        matrixChecks i s = EStateM.Result.ok () s)) ∧
  (∀ (core : Nat) (o : Op) (s : State),
    let c := s.coreAt core
    let needs := Op.slotNeeds o.instr c.stage.lxc
    let bound (k : Option KIdx) (binds : List (Option Tag)) (l : List SlotNeed) : Except Word (List SlotRead) :=
      bindOperand c k.isSome binds (c.resolveSlots s core l)
    let ka := (Instr.scaleRegs o.instr).1
    let kb := (Instr.scaleRegs o.instr).2
    c.meNext = some o → c.lacks o.instr = false → o.th / 4 = core → c.errs = [] →
    (∀ a b s1, bound ka o.bindA needs.1 = .ok a → bound kb o.bindB needs.2.1 = .ok b →
      drainAll (o.drains c) s = (s1, none) →
      Happens (.matrixCmdBegin core) s (s1.modOp o fun x => { x with
        started := true, readA := a, readB := b
        readW := (c.resolveSlots s core needs.2.2).map fun (x : Nat × Nat × SlotRead) => x.2.2 })) ∧
    (∀ e, bound ka o.bindA needs.1 = .error e → Happens (.matrixCmdBegin core) s (s.endOp o .faulted false e)) ∧
    (∀ a e, bound ka o.bindA needs.1 = .ok a → bound kb o.bindB needs.2.1 = .error e →
      Happens (.matrixCmdBegin core) s (s.endOp o .faulted false e))) ∧
  (∀ (core n : Nat) (o : Op) (a b w : List SlotVal) (s s1 s2 s3 : State),
    ((s.coreAt core).me.find? fun (o : Op) => o.started && o.num == n) = some o →
    readSlots (s.opAgent o) o.readA s = .ok a s1 → readSlots (s.opAgent o) o.readB s1 = .ok b s2 →
    readSlots (s.opAgent o) o.readW s2 = .ok w s3 → o.th / 4 = core → (s3.coreAt core).errs = [] →
    let dst := accList (Instr.accRange o.instr (s3.coreAt core).stage.lxc)
    Happens (.matrixCmdEnd core n) s
      ((s3.modCoreAt core fun c => (matrixRun o a b w c).freshAcc dst).endOp o .done false 0)) ∧
  (∀ (l : List Nat) (c : Core), (c.freshAcc l).acc = c.acc ∧ (c.freshAcc l).stage = c.stage ∧ (c.freshAcc l).kents = c.kents) ∧
  (∀ (o : Op) (a b w : List SlotVal) (c : Core) (gd : Guard) (fd : FIdx),
    let e := matrixRun o a b w c
    (∀ ad qa qb ka kb fa fb qoff sca scb, o.instr = .mma gd fd ad qa qb ka kb (some fa) (some fb) qoff 1 sca scb →
      ∀ n x y : Nat, x < 8 → y < 8 → e.accAt n x y =
        if n = ad.toNat then toF32 (sumNums false (f32 (c.accAt n x y) :: (List.range 32).map fun k =>
          ((operandAt a 0).elem fa (32 * x + k) x).mul ((operandAt b 0).elem fb (32 * y + k) y)))
        else c.accAt n x y) ∧
    (∀ ad m1, o.instr = .mmz gd fd ad m1 → ∀ n x y : Nat, n < 16 → x < 8 → y < 8 → e.accAt n x y =
      if ad.toNat ≤ n ∧ n ≤ ad.toNat + m1.toNat then 0 else c.accAt n x y) ∧
    (∀ r, o.instr = .lxcfg gd fd r → e = { c with stage := { c.stage with lxc := o.args.getD 0 0 } }) ∧
    (∀ r, o.instr = .smxcfg gd fd r → (o.args.getD 0 0).getLsbD 32 = true →
      e = { c with stage := { c.stage with mult := (o.args.getD 0 0).setWidth 32 } }) ∧
    (∀ f ad qb kb qoff n scb, o.instr = .attnV gd fd (.plain n) (some f) ad qb kb qoff scb → c.stage.bufState = .probs →
      ∀ m x y : Nat, m < 16 → x < 8 → y < 8 → e.accAt m x y =
        if ad.toNat ≤ m ∧ m < ad.toNat + 4 * n.toNat then
          let ch := 8 * (m - ad.toNat) + y
          toF32 (sumNums false (f32 (c.accAt m x y) :: (List.range 32).map fun t =>
            (floatVal .e4m3 (tgetD c.stage.buf (32 * x + t) 0).toNat).mul
              ((operandAt b (ch / 32)).elem f (32 * (ch % 32) + t) (ch % 32))))
        else c.accAt m x y) ∧
    (∀ ad ae m, o.instr = .attnF gd fd ad ae none m → m ≠ 0 → ∀ g x y : Nat, g < m.toNat → ad.toNat + g < 16 → x < 8 →
      y < 8 → e.accAt (ad.toNat + g) x y =
        toF32 (divNum (f32 (c.accAt (ae.toNat + (8 * g + y) / 8) x ((8 * g + y) % 8))) (c.stage.denom x))))

/-- Accumulators read by the thread: mova converts the 64 values of an accumulator into lanes of consecutive registers,
msta stores them as FP32 words in row order, both once no command of the queue writes it, after a drain; a drain that
finds what it cannot correct is reported, and the checksum trap is taken where the matrix makes it one. mchk reads the
counts and the tolerance, sets the tolerance and clears the counts (spec/19 R302, R309-R313, spec/16 R273). -/
def Obligations.Accumulators : Prop :=
  (∀ (gd : Guard) (ef : Ef) (d : VIdx) (a : AIdx) (rm : Rm) (sat : Bool) (s s1 : State),
    let i := Instr.mova gd ef d a rm sat
    let f := ef.getD s.core.format
    i.wf = true → Ready i s → (∀ r : Nat, r < 64 / f.lanes → s.th.bind (d + BitVec.ofNat 5 r) = none) →
    s.core.accBusy a.toNat = false → drainAcc s.cc s.tk a.toNat s = (s1, none) →
    ∃ e, Completes i s e ∧ e.mem = s1.mem ∧ e.core = s1.core ∧
      ∀ r : Nat, r < 64 / f.lanes → e.th.vr (d + BitVec.ofNat 5 r) =
        { data := ofLanes f f.lanes fun l => convert f .fp32 rm sat
            ((rngFor rm 64 (fun _ => true) s1.th.rngs).1 (f.lanes * r + l))
            (s1.core.accAt a.toNat ((f.lanes * r + l) / 8) ((f.lanes * r + l) % 8)).toNat
          tag := none }) ∧
  (∀ (i : Instr) (a : AIdx) (s : State),
    ((∃ gd ef d rm sat, i = .mova gd ef d a rm sat ∧
        (∀ r : Nat, r < 64 / (ef.getD s.core.format).lanes → s.th.bind (d + BitVec.ofNat 5 r) = none)) ∨
      (∃ gd g off rel k, i = .msta gd a g off rel ∧ (offsetAddr (s.g g) (off.signExtend 60)).toNat = 2 ^ 60 + k ∧
        k % 32 = 0 ∧ k + 256 ≤ 2 ^ 15)) → i.wf = true → Ready i s →
    (s.core.accBusy a.toNat = true → exec i s = .next s) ∧
    (∀ s1 v act, s.core.accBusy a.toNat = false → drainAcc s.cc s.tk a.toNat s = (s1, some (v, act)) →
      1 ≤ act → act ≤ 2 → exec i s = .next (takeTrap { code := 17, tval := v } s1))) ∧
  (∀ (gd : Guard) (a : AIdx) (g : GReg) (off : BitVec 20) (rel : Bool) (s : State) (k : Nat),
    let i := Instr.msta gd a g off rel
    let ea := offsetAddr (s.g g) (off.signExtend 60)
    Ready i s →
    (ea.toNat % 32 ≠ 0 → Traps i s 2 ea) ∧
    (ea.toNat = 2 ^ 60 + k → k % 32 = 0 → k + 256 ≤ 2 ^ 15 → s.sramErr = [] →
      s.core.accBusy a.toNat = false →
      drainTile s.core.stage.ctol (tgetD s.core.shadow a.toNat {}) (s.core.accAt a.toNat) = .ok →
      ∃ e, Completes i s e ∧ SameUnits s e ∧
        (∀ x y : Nat, x < 8 → y < 8 → leVal (memReads e.mem (sramKey s.cc (k + 4 * (8 * x + y))) 4) =
          (s.core.accAt a.toNat x y).toNat) ∧
        (∀ z, z < sramKey s.cc k ∨ sramKey s.cc k + 256 ≤ z → memRead e.mem z = memRead s.mem z))) ∧
  (∀ (gd : Guard) (d : GReg) (set : Option GReg) (clr : Bool) (s : State), Ready (.mchk gd d set clr) s →
    let i := Instr.mchk gd d set clr
    (∀ r, set = some r → (finite32 ((s.g r).setWidth 32) = false ∨ (s.g r).getLsbD 31 = true) → Traps i s 14 (s.g r)) ∧
    ((∀ r, set = some r → finite32 ((s.g r).setWidth 32) = true ∧ (s.g r).getLsbD 31 = false) →
      ∃ e, Completes i s e ∧ e.g d = (if d = 0 then 0 else s.core.stage.status) ∧ e.mem = s.mem ∧
        (∀ r, set = some r → e.core.stage.ctol = (s.g r).setWidth 32) ∧ (set = none → e.core.stage.ctol = s.core.stage.ctol) ∧
        e.core.stage.cor = (if clr then 0 else s.core.stage.cor) ∧
        e.core.stage.unc = (if clr then 0 else s.core.stage.unc)))

/-! ## Services, idling, time -/

/-- The service operations: illegal unless SVCCTL lets the cluster's threads run them; tlbw installs an entry in place
of those that could match with it, or answers 1 for a word that breaks a rule and 2 for an address of none; tlbi
removes the entries of its scope from the clusters that it reaches and counts those of its own, and with its pins bit
waits for the copies that hold one; frep replies to an entry of the fault buffer, or answers 1 for an entry that is
not the one and 2 for no reply. The service window does the same for the bench core, and nothing while it is busy or its
package serves no registers; a flush frees every entry and advances the generation (spec/10 R157, R158, R161-R163,
spec/23 R363; reserved bits of FX: log entry 82). -/
def Obligations.Services : Prop :=
  (∀ (i : Instr) (s : State), ((∃ gd d a b c, i = .tlbw gd d a b c) ∨ (∃ gd d a b sc pw pn, i = .tlbi gd d a b sc pw pn) ∨
      (∃ gd d a b, i = .frep gd d a b)) → Ready i s → (s.clusterAt (clusterOf s.cc)).svcctl = false →
    Traps i s 1 i.low) ∧
  (∀ (gd : Guard) (d a b c : GReg) (s : State), Ready (.tlbw gd d a b c) s →
    let i := Instr.tlbw gd d a b c
    let cl := clusterOf s.cc
    let e : TlbEnt := ⟨s.g a, s.g b, s.g c⟩
    (s.clusterAt cl).svcctl = true →
    (e.ok = false → Completes i s (s.setG d 1)) ∧
    (e.ok = true → e.hole (s.pkgAt (pkgOfCluster cl)) ≠ none → Completes i s (s.setG d 2)) ∧
    (e.ok = true → e.hole (s.pkgAt (pkgOfCluster cl)) = none → ∃ x : State, Completes i s (x.setG d 0) ∧
      (x.clusterAt cl).tlb = (e :: (s.clusterAt cl).tlb.filter fun y => !(e.clashes y)).take 1024 ∧
      x.threads = s.threads ∧ x.mem = s.mem ∧ ∀ k, k ≠ cl → x.clusterAt k = s.clusterAt k)) ∧
  (∀ (gd : Guard) (d a b : GReg) (scope : BitVec 2) (pkgw pins : Bool) (s : State),
    let i := Instr.tlbi gd d a b scope pkgw pins
    let cl := clusterOf s.cc
    let p := inScope (s.pkgAt (pkgOfCluster cl)) scope.toNat (s.g a) (s.g b)
    Ready i s → (s.clusterAt cl).svcctl = true →
    (s.th.tlbiWait = none → (pins = false ∨ s.pinHolders cl pkgw p = []) →
      ∃ x : State, Completes i s (x.setG d (BitVec.ofNat 64 ((s.clusterAt cl).tlb.filter p).length)) ∧
        x.threads = s.threads ∧ x.mem = s.mem ∧
        ∀ k, (x.clusterAt k).tlb = if reached cl pkgw k = true then (s.clusterAt k).tlb.filter fun e => !(p e)
          else (s.clusterAt k).tlb) ∧
    (s.th.tlbiWait = none → pins = true → s.pinHolders cl pkgw p ≠ [] → ∃ x : State, exec i s = .next x ∧
      x.th.pc = s.th.pc ∧ x.mem = s.mem ∧ x.th.tlbiWait = some (s.pinHolders cl pkgw p,
        BitVec.ofNat 64 ((s.clusterAt cl).tlb.filter p).length)) ∧
    (∀ l n, s.th.tlbiWait = some (l, n) →
      (s.copiesLeft l = true → exec i s = .next s) ∧
      (s.copiesLeft l = false → Completes i s (s.modTh fun t => { t with tlbiWait := none }.setG d n)))) ∧
  (∀ (core thr : Nat) (l : List (Nat × Nat)) (n : Word) (s : State),
    (s.threadAt (4 * core + thr)).tlbiWait = some (l, n) →
    (s.copiesLeft l = true → Happens (.tlbiComplete core thr) s s) ∧
    (s.copiesLeft l = false → Happens (.tlbiComplete core thr) s
      (s.modThreadAt (4 * core + thr) fun t => { t with tlbiWait := some ([], n) }))) ∧
  (∀ (gd : Guard) (d a b : GReg) (s : State), Ready (.frep gd d a b) s →
    let i := Instr.frep gd d a b
    let cl := clusterOf s.cc
    (s.clusterAt cl).svcctl = true → (s.clusterAt cl).errs = [] →
    (tget (s.clusterAt cl).fb ((s.g a).toNat % 64) = none → Completes i s (s.setG d 1)) ∧
    (∀ e, tget (s.clusterAt cl).fb ((s.g a).toNat % 64) = some e →
      (msgGen e.msg ≠ (s.g a).toNat / 2 ^ 8 % 256 → Completes i s (s.setG d 1)) ∧
      (msgGen e.msg = (s.g a).toNat / 2 ^ 8 % 256 → 2 < (s.g b).toNat → Completes i s (s.setG d 2)) ∧
      (msgGen e.msg = (s.g a).toNat / 2 ^ 8 % 256 → (s.g b).toNat ≤ 2 →
        Completes i s ((faultReply cl ((s.g a).toNat % 64) (s.g b).toNat s).setG d 0)))) ∧
  (∀ (cl n th rc code : Nat) (e : FaultEnt) (b : Blocked) (s : State), tget (s.clusterAt cl).fb n = some e →
    e.waiters = [.sync th rc] → (s.clusterAt cl).late = [] → (s.threadAt th).bound = true →
    s.memberKey th = rc → (s.threadAt th).blocked = some b → b.cluster = cl → b.entry = n →
    b.gen = msgGen e.msg →
    let x := faultReply cl n code s
    tget (x.clusterAt cl).fb n = none ∧ (x.threadAt th).blocked = none ∧ x.mem = s.mem ∧
      (code = 0 → (x.threadAt th).delivered = (s.threadAt th).delivered) ∧
      (code = 1 → b.fetch = false → (x.threadAt th).delivered = some ⟨msgAddr e.msg, msgKind e.msg, b.moved, b.vh⟩)) ∧
  (∀ (cl : Nat) (s : State), s.svcRunning cl = false → (s.pkgAt (pkgOfCluster cl)).serves = true →
    let c := s.clusterAt cl
    let w := tlbwDo cl c.svcA c.svcB c.svcC s
    let r := frepDo cl c.svcA c.svcB s
    Happens (.svcTlbw cl) s (w.1.modClusterAt cl fun c => { c with svcRes := w.2, svcBusy := [] }) ∧
    Happens (.svcFrep cl) s (r.1.modClusterAt cl fun c => { c with svcRes := r.2, svcBusy := [] }) ∧
    (∀ fx : BitVec 6,
      let t := tlbiDo cl c.svcA c.svcB (fx.toNat % 4) (fx.toNat / 4 % 2 == 1) s
      Happens (.svcTlbi cl fx) s (t.1.modClusterAt cl fun c => { c with
        svcRes := t.2.1, svcBusy := if fx.toNat / 8 % 2 = 1 then t.2.2 else [] }))) ∧
  (∀ (cl : Nat) (fx : BitVec 6) (s : State), (s.svcRunning cl = true ∨ (s.pkgAt (pkgOfCluster cl)).serves = false) →
    Happens (.svcTlbw cl) s s ∧ Happens (.svcFrep cl) s s ∧ Happens (.svcTlbi cl fx) s s) ∧
  (∀ (cl : Nat) (s : State), (∀ x, x ∈ (s.clusterAt cl).fb → x.2.waiters = []) → (s.clusterAt cl).late = [] →
    (s.pkgAt (pkgOfCluster cl)).serves = true → ∃ e, Happens (.fbctlFlush cl) s e ∧ (e.clusterAt cl).fb = [] ∧
      (e.clusterAt cl).fbGen = ((s.clusterAt cl).fbGen + 1) % 256 ∧ e.threads = s.threads ∧ e.mem = s.mem)

/-- A thread whose fetch finds no translation posts its message and is blocked, or waits for room (spec/10 R155, R157).
idle completes with the event flag set, which it clears, and else rests; sevw sets the flags of a slot or of the four
slots of a core of the package, and another package's is an access trap (spec/15 R265); so is a core that does not
exist, by the model's reading (log entry 56). rdtime reads the cluster's copy of the time base, which is within a tick of
the package count or stands where it showed before, and never less than what the thread has read (spec/22 R361, R362;
log entry 12). -/
def Obligations.IdleEventsTime : Prop :=
  (∀ (core thr : Nat) (s s1 : State), (s.threadAt (4 * core + thr)).bound = true →
    (s.threadAt (4 * core + thr)).dying = false → (s.threadAt (4 * core + thr)).blocked = none →
    fetchBytes { s with cc := core, ct := thr } = .error .wait s1 →
    Happens (.faultMessagePost core thr) s { s1 with cc := s.cc, ct := s.ct }) ∧
  (∀ (gd : Guard) (s : State), Ready (.idle gd) s →
    (s.th.evf = true → Completes (.idle gd) s (s.modTh fun t => { t with evf := false, idle := false })) ∧
    (s.th.evf = false → exec (.idle gd) s = .next (s.modTh fun t => { t with idle := true }))) ∧
  (∀ (gd : Guard) (a : GReg) (s : State), Ready (.sevw gd a) s →
    let w := (s.g a).toNat
    let core := w / 2 ^ 2 % 2 ^ 17
    let here := w / 2 ^ 32 % 2 ^ 14 = (s.pkgAt (pkgOf s.cc)).pkgId ∧ core < 100352
    (¬here → Traps (.sevw gd a) s 3 (s.g a)) ∧
    (here → ∃ e, Completes (.sevw gd a) s e ∧ e.mem = s.mem ∧ e.cores = s.cores ∧
      ∀ k, e.threadAt k =
        if k / 4 = pkgOf s.cc * 100352 + core ∧ (2 ^ 63 ≤ w ∨ k % 4 = w % 4) ∧ (s.threadAt k).bound = true then
          { s.threadAt k with evf := true }
        else s.threadAt k)) ∧
  (∀ (gd : Guard) (d : GReg) (s : State), Ready (.rdtime gd d) s →
    let cl := clusterOf s.cc
    ∃ tb : Nat, (s.clusterAt cl).tb ≤ tb ∧ s.now (pkgOf s.cc) ≤ tb + 1 ∧
      tb ≤ max (s.clusterAt cl).tb (s.now (pkgOf s.cc) + 1) ∧
      let v := max s.th.lastTime tb
      Completes (.rdtime gd d) s ((({ s with fresh := s.fresh + 1 } : State).modClusterAt cl fun c => { c with tb := tb }).modTh
        fun t => { t with lastTime := v }.setG d (BitVec.ofNat 64 v)))

/-! ## Launch, dispatch, migration -/

/-- Launching: a write of LNCH is ignored before READY, while a launch is being checked and with a reserved bit set; an
accepted one ends with the RESULT and MISS that the checks of the descriptor give, BUSY clear; a descriptor that breaks
a rule of its words ends with RESULT 2. A domain command: pre-empt drains a running domain; resume runs a saved one and
queues every member record that was suspended by force, and changes no other record; kill leaves the domain killed, every
member record that no thread holds with STATUS 5, and every bound thread to end, which then leaves its slot and its record
with STATUS 5; one that comes while the domain drains or rolls back is held behind those before it, and none acts before
the package serves its registers; when DRAIN ticks have passed the members that remain are saved by force; a thread or a
suspended record that has waited for WDOG ticks takes the watchdog trap, and at a dsync every member that has arrived
takes it when it next runs, with the number of those that neither waited nor had ended (spec/14 R246, spec/15 R247-R249,
R251, R262-R264, spec/23 R363). In an armed domain a spawn that was put off could start a killed record again: the kill's
clauses leave that case out. The agent of the descriptor's reads and the order of the checks of its words (descBad) are log entry 35, the WDOG
of a domain below level 2 is log entry 47, a gang's is log entry 48: the model's readings. -/
def Obligations.DomainCommands : Prop :=
  (∀ (pkg : Nat) (w : Word) (s : State),
    let p := s.pkgAt pkg
    let s0 := s.setPkgAt pkg { p with lBusy := true, lDesc := w }
    ((p.ready = false ∨ p.lBusy = true ∨ 2 ^ 57 ≤ w.toNat ∨ w.toNat % 64 ≠ 0) → Happens (.lnch pkg w) s s) ∧
    (p.ready = true → p.lBusy = false → w.toNat < 2 ^ 57 → w.toNat % 64 = 0 →
      (∀ res miss s1, launchBody pkg s0 = .ok (res, miss) s1 → ∃ e, Happens (.lnch pkg w) s e ∧
        (e.pkgAt pkg).lBusy = false ∧ (e.pkgAt pkg).lResult = res ∧ (e.pkgAt pkg).lMiss = miss ∧
        e.recs = s1.recs ∧ e.doms = s1.doms ∧ e.mem = s1.mem) ∧
      (∀ ws s1, readWords (deviceAgent (pkg * 1568) 0 (.launch pkg)) w 0 16 s0 = .ok ws s1 → descBad ws = true →
        ∃ e, Happens (.lnch pkg w) s e ∧ (e.pkgAt pkg).lBusy = false ∧ (e.pkgAt pkg).lResult = 2 ∧
          (e.pkgAt pkg).lDom = (ws.getD 0 0).toNat % 2 ^ 32 ∧ e.recs = s1.recs ∧ e.doms = s1.doms))) ∧
  (∀ (pkg dom : Nat) (s : State), (s.pkgAt pkg).serves = false → Happens (.dcmdPreempt pkg dom) s s ∧
    Happens (.dcmdResume pkg dom) s s ∧ Happens (.dcmdKill pkg dom) s s) ∧
  (∀ (pkg dom : Nat) (d : Domain) (s : State), (s.pkgAt pkg).serves = true → s.domAt (domKey pkg dom) = some d →
    dom < 2 ^ 32 →
    ((d.st = .draining ∨ d.st = .rollingBack) →
      (∃ e, Happens (.dcmdPreempt pkg dom) s e ∧ e.domAt (domKey pkg dom) = some { d with heldCmd := d.heldCmd ++ [1] }) ∧
      ∃ e, Happens (.dcmdResume pkg dom) s e ∧ e.domAt (domKey pkg dom) = some { d with heldCmd := d.heldCmd ++ [2] }) ∧
    (d.st = .running → ∃ e d', Happens (.dcmdPreempt pkg dom) s e ∧ e.domAt (domKey pkg dom) = some d' ∧
      (d'.st = .draining ∧ d'.drainLeft = (if d.drain = 0 then 200000 else d.drain) ∨ d'.st = .saved) ∧
      ∀ th, th ∈ s.domThreads (domKey pkg dom) → (e.threadAt th).evf = true) ∧
    (d.st = .saved → ∃ e, Happens (.dcmdResume pkg dom) s e ∧
      e.domAt (domKey pkg dom) = some { d with st := .running } ∧
      ∀ k r, s.recAt k = some r →
        (k ∈ d.members → r.status = 3 → r.why = .forced → ∃ r', e.recAt k = some r' ∧ r'.status = 1 ∧
          r'.cluster = r.cluster ∧ ∃ q, q ∈ (e.clusterAt r.cluster).queue ∧ q.key = k) ∧
        ((k ∉ d.members ∨ r.status ≠ 3 ∨ r.why ≠ .forced) → e.recAt k = some r)) ∧
    (d.st.live = true →
      (∀ k r, k ∈ d.members → s.recAt k = some r → domKey r.pkg r.dom = domKey pkg dom) →
      (∀ x y z p sp a w0 w2 w3 cl, x ∈ s.chain (domKey pkg dom) → s.domAt x = some y → z ∈ y.deferred →
        z = .spawn p sp a w0 w2 w3 cl → recKey p sp a ∉ d.members) →
      ∃ e d', Happens (.dcmdKill pkg dom) s e ∧ e.domAt (domKey pkg dom) = some d' ∧ d'.st = .killed ∧
        (∀ th, th ∈ s.domThreads (domKey pkg dom) → (e.threadAt th).dying = true ∧ .kill th ∈ e.pend) ∧
        ∀ k r, k ∈ d.members → s.recAt k = some r → (r.status = 1 ∨ r.status = 3 ∨ r.status = 2 ∧ r.slot = none) →
          ∃ r', e.recAt k = some r' ∧ r'.status = 5) ∧
    (d.st.live = false → ∃ e, Happens (.dcmdKill pkg dom) s e ∧ e.doms = s.doms ∧ e.threads = s.threads)) ∧
  (∀ (th k : Nat) (r : RecInfo) (s : State), (s.threadAt th).bound = true → s.keyOf th = some k → s.recAt k = some r →
    (s.threadAt th).dbl = none → (s.threadAt th).gang = none → s.allOps th = [] →
    (∀ x y z p sp a w0 w2 w3 cl, x ∈ s.chain (domKey r.pkg r.dom) → s.domAt x = some y → z ∈ y.deferred →
      z = .spawn p sp a w0 w2 w3 cl → recKey p sp a ≠ k) →
    let e := settleOne s (.kill th)
    (e.threadAt th).bound = false ∧ ∃ r', e.recAt k = some r' ∧ r'.status = 5) ∧
  (∀ (pkg dom : Nat) (d : Domain) (s : State), s.domAt (domKey pkg dom) = some d → d.st = .draining → d.drainLeft = 0 →
    let late := (s.domThreads (domKey pkg dom)).filter fun th => (s.threadAt th).saving.isNone && !(s.threadAt th).dying
    ∃ e d', Happens (.drainExpiry pkg dom) s e ∧ (∀ th, th ∈ late → (e.threadAt th).saving = some false) ∧
      e.domAt (domKey pkg dom) = some d' ∧
      d' = { d with forced := d.forced + late.length, arrived := d'.arrived } ∧
      ∀ k, k ∈ d'.arrived ↔ k ∈ d.arrived ∧ ∀ th, th ∈ late → k ≠ s.memberKey th) ∧
  (∀ (core thr lim : Nat) (s : State), s.wdogOfThread (pkgOf core) (s.threadAt (4 * core + thr)) = some lim →
    lim ≤ (s.threadAt (4 * core + thr)).waited → (s.threadAt (4 * core + thr)).dying = false →
    (s.threadAt (4 * core + thr)).blocked = none →
    (∀ a, (s.threadAt (4 * core + thr)).waiting = some (.bwait a) →
      Happens (.watchdogExpiry core thr) s (asThread (4 * core + thr) (takeTrap { code := 15, tval := a }) s)) ∧
    (∀ tok, (s.threadAt (4 * core + thr)).waiting = some (.rejoin tok) →
      Happens (.watchdogExpiry core thr) s
        (asThread (4 * core + thr) (takeTrap { code := 15, tval := tok.setWidth 64 }) s)) ∧
    (∀ dk x, (s.threadAt (4 * core + thr)).waiting = some .dsync →
      s.dsyncDomain (s.memberKey (4 * core + thr)) = some (dk, x) →
      Happens (.watchdogExpiry core thr) s (dsyncTimeout dk x s))) ∧
  (∀ (core thr k dk : Nat) (r : RecInfo) (x : Domain) (s : State), (s.threadAt (4 * core + thr)).waiting = none →
    s.recs.find? (fun y => y.2.pkg == pkgOf core && y.2.status == 3 && y.2.why == .dsync && y.2.lastSlot == 4 * core + thr &&
      ((s.wdogOf (pkgOf core) y.2.dom).map fun n => decide (n ≤ y.2.waited)).getD false) = some (k, r) →
    s.dsyncDomain (recKey r.pkg r.spn r.addr) = some (dk, x) →
    Happens (.watchdogExpiry core thr) s (dsyncTimeout dk x s)) ∧
  (∀ (dk : Nat) (x : Domain) (s : State), s.domAt dk = some x → x.level ≠ 6 →
    let v : Word := BitVec.ofNat 64 (x.memb - (x.gone + (x.arrived.length + x.ended)))
    let e := dsyncTimeout dk x s
    (∀ m r, m ∈ x.arrived → s.recAt m = some r → r.status = 3 → ∃ r', e.recAt m = some r' ∧ r'.status = 1 ∧ r'.wdTrap = some v) ∧
    (∀ m r th, m ∈ x.arrived → s.recAt m = some r → r.status ≠ 3 → r.slot = some th →
      (s.threadAt th).waiting = some .dsync → (e.threadAt th).wdTrap = some v) ∧
    (e.domAt dk).map (·.arrived) = some [])

/-- Slots and queues: dispatch binds the record that hardware mode picks, and changes nothing with none; QPOP takes it
from its queue and QPUSH puts a queued record at the tail of its own; a bind or an evict of the slot table is
refused for another slot than the entry's, a bind makes the record's thread run and an evict saves the slot's
thread by force; sampling reads how many threads of each core are ready; a migration moves a thread to the free
slot of its target, with the time that its cluster's copy must have reached, and where no context image is free the
thread is killed (spec/15 R252-R257, spec/22 R361, spec/23 R363). The refusal codes of odd entries and the kill without
an image are the model's readings (log entries 53, 54). -/
def Obligations.SlotsAndQueues : Prop :=
  (∀ (cl : Nat) (s : State), pendingEntry s cl = none → (s.clusterAt cl).mode = 0 →
    (∀ q, q ∈ (s.clusterAt cl).queue → q.err = 0) →
    (∀ k th s1, pickRecord s cl = some (k, th) → bindOrKill k th s = .ok () s1 → Happens (.dispatch cl) s s1) ∧
    (pickRecord s cl = none → Happens (.dispatch cl) s s)) ∧
  (∀ (cl : Nat) (s : State), (s.pkgAt (pkgOfCluster cl)).serves = true →
    (∀ k th r, (∀ q, q ∈ (s.clusterAt cl).queue → q.err = 0) → pickRecord s cl = some (k, th) → s.recAt k = some r →
      ∃ e, Happens (.qpop cl) s e ∧ (e.pkgAt (pkgOfCluster cl)).hostRead = leBytes 8 r.addr.toNat ∧
        (∀ c x, x ∈ (e.clusterAt c).queue → x.key ≠ k) ∧ e.recs = s.recs) ∧
    ((∀ q, q ∈ (s.clusterAt cl).queue → q.err = 0) → pickRecord s cl = none → ∃ e, Happens (.qpop cl) s e ∧ e.clusters = s.clusters ∧
      (e.pkgAt (pkgOfCluster cl)).hostRead = leBytes 8 0) ∧
    (∀ w k r, s.recordAt (pkgOfCluster cl) w = some k → s.recAt k = some r →
      (r.status = 1 → Happens (.qpush cl w) s (s.enqueue k)) ∧ (r.status ≠ 1 → Happens (.qpush cl w) s s)) ∧
    (∀ w, s.recordAt (pkgOfCluster cl) w = none → Happens (.qpush cl w) s s)) ∧
  (∀ (cl n : Nat) (w : Word) (s : State), n < 256 → w.toNat / 2 ^ 62 = 1 → (s.pkgAt (pkgOfCluster cl)).serves = true →
    (s.clusterAt cl).errs = [] →
    let mine := w.toNat % 64 = n / 4 ∧ w.toNat / 64 % 4 = n % 4
    let th := 4 * coreOfCluster cl (n / 4) + n % 4
    let why := (tgetD (s.clusterAt cl).slot1 n 0).toNat / 2 ^ 59 % 8
    let posted := s.modClusterAt cl fun c => c.putSlot1 n (slotDone w 1 why)
    (w.toNat / 2 ^ 8 % 8 = 1 →
      (¬mine → ∃ e, Happens (.slotBind cl n w) s e ∧ tget (e.clusterAt cl).slot1 n = some (slotDone w 3 2) ∧
        e.threads = s.threads) ∧
      (∀ k s1, mine → posted.recordAt (pkgOfCluster cl) (tgetD (posted.clusterAt cl).slot0 n 0) = some k →
        bindRefusal posted k th = none → bindOrKill k th posted = .ok () s1 → (s1.threadAt th).bound = true →
        ∃ e, Happens (.slotBind cl n w) s e ∧ e.threads = s1.threads ∧ e.recs = s1.recs ∧
          tget (e.clusterAt cl).slot1 n = some (slotDone w 2 0)) ∧
      (∀ k y, mine → posted.recordAt (pkgOfCluster cl) (tgetD (posted.clusterAt cl).slot0 n 0) = some k →
        bindRefusal posted k th = some y → ∃ e, Happens (.slotBind cl n w) s e ∧ e.threads = s.threads ∧
          tget (e.clusterAt cl).slot1 n = some (slotDone w 3 y))) ∧
    (w.toNat / 2 ^ 8 % 8 = 2 →
      (mine → (s.threadAt th).bound = true → ∃ e, Happens (.slotEvict cl n w) s e ∧ (e.threadAt th).saving = some true ∧
        tget (e.clusterAt cl).slot1 n = some (slotDone w 2 0)) ∧
      (mine → (s.threadAt th).bound = false → ∃ e, Happens (.slotEvict cl n w) s e ∧ e.threads = s.threads ∧
        tget (e.clusterAt cl).slot1 n = some (slotDone w 3 0)) ∧
      (¬mine → ∃ e, Happens (.slotEvict cl n w) s e ∧ e.threads = s.threads ∧
        tget (e.clusterAt cl).slot1 n = some (slotDone w 3 2)))) ∧
  (∀ (cl : Nat) (s : State), ∃ e, Happens (.cloadSample cl) s e ∧ e.threads = s.threads ∧
    ∀ n, n < 64 → tgetD (e.clusterAt cl).cload n 0 = readyCount s (coreOfCluster cl n)) ∧
  (∀ (core n slot thr key : Nat) (s : State),
    let cl := clusterOf core
    let target := coreOfCluster cl n
    let th := 4 * core + thr
    let t := s.threadAt th
    (s.clusterAt cl).migen = true → 16 ≤ tgetD (s.clusterAt cl).cloadRun (coreIn core % 64) 0 →
    migrationTarget s cl = some n → tgetD (s.clusterAt cl).cload n 0 ≤ 2 → slotFree s (4 * target + slot) = true →
    slot < 4 → (∀ k, k < slot → slotFree s (4 * target + k) = false) → thr < 4 → migratable s th target = true →
    (∀ k, k < 4 → k ≠ thr → migratable s (4 * core + k) target = false) → s.keyOf th = some key → t.errs = [] →
    (∀ d im s1, s.domAt (domKey (pkgOf core) t.dom) = some d → freeImage d = some im →
      storeWords th (addrAdd d.ctxBase (16384 * im)) 0
        (scalarWords t ⟨t.rec_, [], [], BitVec.ofNat 64 (t.res % 8 + 2 ^ 32 * (t.depth % 2 ^ 32)), []⟩) s = .ok () s1 →
      ∃ e, Happens (.migration core) s e ∧ e.mem = s1.mem ∧ tget (e.clusterAt cl).cloadRun (coreIn core % 64) = none ∧
        ∃ a, (e.clusterAt cl).arriving = (s1.clusterAt cl).arriving ++ [a] ∧ a.key = key ∧ a.slot = 4 * target + slot ∧
          a.image = im ∧ ∃ b, t.tbHold ≤ b ∧ a.thread = { t with tbHold := b }) ∧
    (∀ d, s.domAt (domKey (pkgOf core) t.dom) = some d → freeImage d = none →
      Happens (.migration core) s ((endThread th 5 none s).modClusterAt cl fun c =>
        { c with cloadRun := tdel c.cloadRun (coreIn core % 64) }))) ∧
  (∀ (cl : Nat) (a : Arrival) (rest : List Arrival) (s : State), (s.clusterAt cl).arriving = a :: rest →
    a.thread.ftrk ≠ none → s.domAt (domKey (pkgOfCluster cl) a.thread.dom) = none →
    s.parkedFor (pkgOf (a.slot / 4)) a.key = [] →
    ∃ e, Happens (.migrationArrive cl) s e ∧ e.threadAt a.slot = a.thread ∧ (e.clusterAt cl).arriving = rest ∧
      e.mem = s.mem)

/-! ## Reliability, power, time -/

/-- Scrubs read a word or a line as an access does: nothing where it is clean, the bit gone where the code corrects
it, and an uncorrectable error stays and is reported as latent. CERATE takes the count of the interval that
ends; the nominal voltage comes back; a byte budget starts anew with its debt at an interval of 100 ticks; CLKCTL takes a
frequency of 25 to 120 and the cluster then runs at it; at TRIP a package is gated and counts it, at RESUME it goes on;
the time base of a ready package with a port up follows that of another of its domain by a tick, at most one in 1,024 (spec/22 R349, R350,
R356-R361, spec/21 R347, spec/23 R363). That a word is read whole by a scrub, and what an undetected error does, are the
model's readings (log entry 14); so is that an event for which the state gives no occasion changes nothing (log entry
74). -/
def Obligations.Reliability : Prop :=
  (∀ (core off : Nat) (s : State), off < 32768 → off % 8 = 0 →
    let wn := sramKey core off / 8
    (tget s.sramErr wn = none → Happens (.sramScrub core off) s s) ∧
    (∀ x k, tget s.sramErr wn = some x → eccRead x = .correct k → ∃ e : State, Happens (.sramScrub core off) s e ∧
      tget e.sramErr wn = none ∧ e.threads = s.threads ∧ ∀ a, a < 8 * wn ∨ 8 * wn + 8 ≤ a → memRead e.mem a = memRead s.mem a) ∧
    (∀ x, tget s.sramErr wn = some x → eccRead x = .uncorrectable → Happens (.sramScrub core off) s
      (reportError s (pkgOf core) (some core) none
        { cls := 2, src := 0, addr := errAddr (8 * wn), synd := eccSyndrome x }).1)) ∧
  (∀ (pkg line : Nat) (s : State), 64 * line + 64 ≤ (s.pkgAt pkg).hbm →
    let ln := pkg * 2 ^ 42 + line
    (tget s.hbmErr ln = none → Happens (.hbmScrub pkg line) s s) ∧
    (∀ x, tget s.hbmErr ln = some [x] → ∃ e : State, Happens (.hbmScrub pkg line) s e ∧ tget e.hbmErr ln = none ∧
      e.mem = s.mem) ∧
    (∀ x y, tget s.hbmErr ln = some [x, y] → Happens (.hbmScrub pkg line) s
      (reportError s pkg none none { cls := 2, src := 3, addr := errAddr (64 * ln) }).1)) ∧
  (∀ (pkg die : Nat) (s : State), die < 18 →
    let x := s.dieAt (pkg * 18 + die)
    Happens (.cerateInterval pkg die) s (s.setDieAt (pkg * 18 + die) { x with cecnt := x.ceRun % 2 ^ 32, ceRun := 0 }) ∧
    (x.restoring = true → Happens (.supplyRestoreDone pkg die) s
      (s.setDieAt (pkg * 18 + die) { x with restoring := false })) ∧
    (x.restoring = false → Happens (.supplyRestoreDone pkg die) s s)) ∧
  (∀ (cl : Nat) (w : Word) (s : State),
    let n := (s.pkgAt (pkgOfCluster cl)).tbase / 100
    (n ≠ (s.clusterAt cl).ival → Happens (.budgetInterval cl) s (replayLate cl (s.modClusterAt cl fun c => { c with
      used := 0, balance := refill c.budget c.balance (n - c.ival), ival := n }))) ∧
    (n = (s.clusterAt cl).ival → Happens (.budgetInterval cl) s s) ∧
    (∀ (b : Nat) (x : Int), b ≠ 0 → refill b x 1 = b + min 0 x) ∧
    ((s.pkgAt (pkgOfCluster cl)).serves = true → Happens (.clkctlWrite cl w) s (s.modClusterAt cl fun c => { c with
      freq := if 25 ≤ w.toNat % 2 ^ 8 ∧ w.toNat % 2 ^ 8 ≤ 120 then w.toNat % 2 ^ 8 else c.freq
      bias := w.toNat / 2 ^ 16 % 2 ^ 8 })) ∧
    ((s.pkgAt (pkgOfCluster cl)).serves = false → Happens (.clkctlWrite cl w) s s) ∧
    ((s.clusterAt cl).cur ≠ (s.clusterAt cl).freq →
      Happens (.clockChangeDone cl) s (s.modClusterAt cl fun c => { c with cur := c.freq }))) ∧
  (∀ (pkg temp : Nat) (s : State),
    let p := s.pkgAt pkg
    (p.gated = false → p.trip ≤ temp → temp < 256 → Happens (.thermalTrip pkg temp) s
      (s.setPkgAt pkg { p with temp := temp, gated := true, gates := (p.gates + 1) % 2 ^ 32 })) ∧
    (p.gated = true → temp ≤ p.resume → Happens (.thermalResume pkg temp) s
      (s.setPkgAt pkg { p with temp := temp, gated := false })) ∧
    ((p.gated = true ∨ temp < p.trip) → Happens (.thermalTrip pkg temp) s s)) ∧
  (∀ (pkg peer : Nat) (s : State),
    let p := s.pkgAt pkg
    let q := s.pkgAt peer
    ((p.ready = false ∨ q.ready = false ∨ p.npkgm1 < q.pkgId ∨ p.upPorts = [] ∨ q.upPorts = [] ∨ p.tbGap < 1024) →
      Happens (.tbaseDiscipline pkg peer) s s) ∧
    (p.ready = true → q.ready = true → q.pkgId ≤ p.npkgm1 → p.upPorts ≠ [] → q.upPorts ≠ [] → 1024 ≤ p.tbGap →
      (p.tbase < q.tbase → Happens (.tbaseDiscipline pkg peer) s
        (s.setPkgAt pkg { p with tbase := (p.tbase + 1) % 2 ^ 64, tbGap := 0 })) ∧
      (q.tbase < p.tbase → Happens (.tbaseDiscipline pkg peer) s
        (s.setPkgAt pkg { p with tbAdj := p.tbAdj - 1, tbGap := 0 })) ∧
      (p.tbase = q.tbase → Happens (.tbaseDiscipline pkg peer) s (s.setPkgAt pkg p))))

/-! ## Bring-up -/

/-- Package reset: the package's registers stand at their reset values and its SRAM holds zero once stage 4 is passed,
every other package and the memory behind HBM4E are as they were (the last, and that SRAM keeps its bytes until then, are
the model's choice, log entry 61); the stages run in order, and the first that fails stops them with its code in
recovery; READY comes with the last, and only once firmware has written CAPW0, CAPW1, PKGCFG and TBSET, with BASE set
and the time base aligned. Stage 5 may be left open, and takes its register writes until it is ended. An image is stored
in a flash slot in recovery and while firmware runs; a ready package answers reports and negotiates keys. A register
write does what the register's block says, and changes nothing where no register lies (spec/23 R363-R369, spec/21 R334,
R341, R344). -/
def Obligations.BringUp : Prop :=
  (∀ (pkg : Nat) (b : BootInput) (s : State), pkg < 9216 → b.resume = false → ∃ e, Happens (.packageReset pkg b) s e ∧
    (∀ k, sramOfPkg pkg k = true → memRead e.mem k = if 5 ≤ (e.pkgAt pkg).stage then 0 else memRead s.mem k) ∧
    (∀ k, sramOfPkg pkg k = false → memRead e.mem k = memRead s.mem k) ∧
    (∀ k, k ≠ pkg → e.pkgAt k = s.pkgAt k) ∧
    (∀ k, pkgOf (k / 4) = pkg → (e.threadAt k).bound = false) ∧ (∀ k, pkgOf (k / 4) ≠ pkg → e.threadAt k = s.threadAt k) ∧
    (∀ k, pkgOf k ≠ pkg → e.coreAt k = s.coreAt k) ∧
    let p := e.pkgAt pkg
    let boots : Pkg := { flashA := (s.pkgAt pkg).flashA, flashB := (s.pkgAt pkg).flashB, minSvn := (s.pkgAt pkg).minSvn }
    (b.fusesOk = false → p.stage = 0 ∧ p.err = 1 ∧ p.slot = 2 ∧ p.ready = false) ∧
    (b.fusesOk = true → boots.bootImage pkg = none → p.stage = 1 ∧ p.err = 2 ∧ p.slot = 2 ∧ p.ready = false) ∧
    (∀ slot img, b.fusesOk = true → boots.bootImage pkg = some (slot, img) →
      (b.trained = false → p.stage = 2 ∧ p.err = 3 ∧ p.slot = 2 ∧ p.ready = false) ∧
      (b.trained = true → b.sparesOk = false → p.stage = 3 ∧ p.err = 4 ∧ p.slot = 2 ∧ p.ready = false) ∧
      (b.trained = true → b.sparesOk = true → b.zeroedOk = false → p.stage = 4 ∧ p.err = 5 ∧ p.slot = 2 ∧ p.ready = false) ∧
      (b.trained = true → b.sparesOk = true → b.zeroedOk = true →
        (b.config = none → p.stage = 5 ∧ p.err = 0 ∧ p.ready = false ∧ p.slot = slot ∧ p.svn = imgSvn img) ∧
        (b.config = some false → p.stage = 5 ∧ p.err = 6 ∧ p.slot = 2 ∧ p.ready = false) ∧
        (b.config = some true → (b.capw0 = none ∨ b.capw1 = none ∨ b.pkgcfg = none ∨ b.tbset = none) →
          p.stage = 5 ∧ p.err = 0 ∧ p.ready = false) ∧
        (∀ w cfg tb, b.config = some true → b.capw0 = some w → b.capw1 = some 0 → b.pkgcfg = some cfg → b.tbset = some tb →
          w &&& ~~~(siliconBits pkg) = 0 → cfg.toNat % 2 ^ 14 ≤ cfg.toNat / 2 ^ 16 % 2 ^ 14 →
          cfg.toNat / 2 ^ 16 % 2 ^ 14 ≤ 9215 →
          (w.getLsbD 0 = false → p.stage = 5 ∧ p.err = 0 ∧ p.ready = false) ∧
          (w.getLsbD 0 = true → (clearPackage pkg s).aligned pkg tb.toNat = true →
            p.stage = 6 ∧ p.err = 0 ∧ p.ready = true ∧ p.slot = slot ∧ p.svn = imgSvn img ∧ p.m0 = imgDigest img ∧
              p.cap0 = w ∧ p.tbase = tb.toNat))))) ∧
  (∀ (pkg : Nat) (s : State) (w : Word),
    let p := s.pkgAt pkg
    (∀ b, pkg < 9216 → b.resume = true → p.configuring = true → Happens (.packageReset pkg b) s
      ((s.clearCopies pkg).setPkgAt pkg (p.bootConfig pkg (s.aligned pkg) b))) ∧
    (siliconBits pkg).getLsbD 0 = true ∧
    (p.configuring = true →
      (w &&& ~~~(siliconBits pkg) = 0#64 → Happens (.capwWrite pkg false w) s
        (s.setPkgAt pkg { p with cap0 := w, wrote := p.wrote ||| 1 })) ∧
      (w &&& ~~~(siliconBits pkg) ≠ 0#64 → Happens (.capwWrite pkg false w) s (s.setPkgAt pkg p)) ∧
      (w ≠ 0#64 → Happens (.capwWrite pkg true w) s (s.setPkgAt pkg p)) ∧
      Happens (.tbsetWrite pkg w) s ((s.clearCopies pkg).setPkgAt pkg
        { p with tbase := w.toNat, tbAdj := 0, tbGap := 0, wrote := p.wrote ||| 8 }) ∧
      (w.toNat % 2 ^ 14 ≤ w.toNat / 2 ^ 16 % 2 ^ 14 → w.toNat / 2 ^ 16 % 2 ^ 14 ≤ 9215 → Happens (.pkgcfgWrite pkg w) s
        (s.setPkgAt pkg { p with
          pkgId := w.toNat % 2 ^ 14, npkgm1 := w.toNat / 2 ^ 16 % 2 ^ 14, wrote := p.wrote ||| 4 }))) ∧
    (p.configuring = false → Happens (.capwWrite pkg false w) s (s.setPkgAt pkg p) ∧
      Happens (.capwWrite pkg true w) s (s.setPkgAt pkg p) ∧ Happens (.tbsetWrite pkg w) s s ∧
      Happens (.pkgcfgWrite pkg w) s (s.setPkgAt pkg p))) ∧
  (∀ (pkg : Nat) (img nonce x : List Byte) (s : State),
    let p := s.pkgAt pkg
    Happens (.recoveryFlashWrite pkg false img) s (s.setPkgAt pkg { p with flashA := some img }) ∧
    Happens (.recoveryFlashWrite pkg true img) s (s.setPkgAt pkg { p with flashB := some img }) ∧
    (p.ready = true → nonce.length = 32 → Happens (.spdmReport pkg nonce) s (s.setPkgAt pkg { p with
      reports := p.reports ++ [p.reportBody nonce ++ Config.ed448Sign p.aliasKey (p.reportBody nonce)] })) ∧
    (p.ready = true → Happens (.ideKeyNegotiation pkg x) s (s.setPkgAt pkg { p with
      ideKeys := p.ideKeys ++ [Config.ideKey p.aliasKey x] }))) ∧
  (∀ (pkg off : Nat) (w : Word) (s : State), off % 8 = 0 →
    (∀ s1, regOccupied pkg off s = true → regWrite pkg off w s = .ok () s1 → Happens (.registerWrite pkg off w) s s1) ∧
    (regOccupied pkg off s = false → Happens (.registerWrite pkg off w) s s))

/-! ## The host, memory expansion, compaction -/

/-- The host reads and writes the HBM4E range of a ready package as its bytes stand, and nothing else changes; a
memory device that is lost makes its granules unreachable. A compaction job starts, reads and checks its table once,
rewrites once no copy holds a pin on the inactive generation, and once none holds one on the old generation writes its
release list and word 4 of its descriptor, where they were found before the switch, and ends with RESULT 0; a job that
fails ends with its RESULT, word 4 of its descriptor 0 and its own writes undone; CMPCMD is ignored while a job
runs and before the package serves its registers (spec/21 R333-R337, spec/20 R322-R330, spec/23 R363). What a failed job
leaves is the model's reading (log entry 36). -/
def Obligations.HostAndCompaction : Prop :=
  (∀ (pkg pa n : Nat) (bytes : List Byte) (s : State), (s.pkgAt pkg).ready = true → s.hbmErr = [] →
    (pa + n ≤ (s.pkgAt pkg).hbm → pa + n ≤ 2 ^ 44 → ∃ e, Happens (.hostCxlRead pkg pa n) s e ∧
      (e.pkgAt pkg).hostRead = memReads s.mem (pkg * 2 ^ 48 + pa) n ∧ e.mem = s.mem ∧ e.threads = s.threads) ∧
    (pa + bytes.length ≤ (s.pkgAt pkg).hbm → pa + bytes.length ≤ 2 ^ 44 → ∃ e, Happens (.hostCxlWrite pkg pa bytes) s e ∧
      memReads e.mem (pkg * 2 ^ 48 + pa) bytes.length = bytes ∧
      (∀ a, a < pkg * 2 ^ 48 + pa ∨ pkg * 2 ^ 48 + pa + bytes.length ≤ a → memRead e.mem a = memRead s.mem a) ∧
      e.threads = s.threads ∧ e.pkgs = s.pkgs)) ∧
  (∀ (pkg port : Nat) (s : State), port < (s.pkgAt pkg).cxlPorts → port ∉ (s.pkgAt pkg).cxlLost →
    ∃ e, Happens (.cxlDeviceLoss pkg port) s e ∧ e.mem = s.mem ∧
      ∀ pa, 2 ^ 44 ≤ pa → pa < 2 ^ 45 → (pa - 2 ^ 44) / 4096 % (s.pkgAt pkg).cxlPorts = port →
        (e.pkgAt pkg).cxlGone pa = true) ∧
  (∀ (pkg e : Nat) (w : Word) (s : State), e < 2 →
    let c := (s.pkgAt pkg).cmp e
    let s0 := s.modPkgAt pkg fun p => p.setCmp e { c with
      busy := true, job := w, jobThr := c.thr.toNat, table := none, switched := false, release := [], removed := 0
      wait := none }
    ((c.busy = true ∨ 2 ^ 57 ≤ w.toNat ∨ w.toNat % 64 ≠ 0 ∨ (s.pkgAt pkg).serves = false) → Happens (.cmpcmd pkg e w) s s) ∧
    (c.busy = false → w.toNat < 2 ^ 57 → w.toNat % 64 = 0 → (s.pkgAt pkg).serves = true →
      (∀ j s1, (jobTable pkg e).run s0 = .ok (.ok j) s1 → Happens (.cmpcmd pkg e w) s s1) ∧
      (∀ res s1, (jobTable pkg e).run s0 = .ok (.error res) s1 →
        let x := State.keepStores s0 s1
        let p := x.pkgAt pkg
        (s0.fixes = s1.fixes → x.mem = s.mem) ∧ Happens (.cmpcmd pkg e w) s
          (schedWrite (pkg * 1568) p.kvspn ((p.cmp e).job + 32) (BitVec.allOnes 64) 0 (jobEnd pkg e res x))))) ∧
  (∀ (pkg e : Nat) (j : KvJob) (s : State), ((s.pkgAt pkg).cmp e).table = some j → (jobTable pkg e).run s = .ok (.ok j) s) ∧
  (∀ (pkg e : Nat) (s : State), e < 2 → ((s.pkgAt pkg).cmp e).busy = true →
    let c := (s.pkgAt pkg).cmp e
    (∀ j s1, c.switched = false → c.wait = none → (jobTable pkg e).run s = .ok (.ok j) s1 →
      (s1.pinHeld j.hdrKey ((j.sgen + 2 ^ 16 - 1) % 2 ^ 16) = true → Happens (.compactRewrite pkg e) s s1) ∧
      (∀ s2, s1.pinHeld j.hdrKey ((j.sgen + 2 ^ 16 - 1) % 2 ^ 16) = false →
        (jobRewrite pkg e j).run s1 = .ok (.ok ()) s2 → Happens (.compactRewrite pkg e) s s2)) ∧
    (c.switched = true → s.pinHeld c.hdr c.oldGen = true → Happens (.compactRelease pkg e) s s) ∧
    (c.switched = false → c.wait ≠ none → Happens (.compactRewrite pkg e) s s) ∧
    (c.switched = true → s.pinHeld c.hdr c.oldGen = false →
      ∃ e1, Happens (.compactRelease pkg e) s e1 ∧ ((e1.pkgAt pkg).cmp e).busy = false ∧ ((e1.pkgAt pkg).cmp e).result = 0 ∧
        (∀ key, c.relAt = [(key, 4 * c.release.length)] → c.doneAt + 8 ≤ key ∨ key + 4 * c.release.length ≤ c.doneAt →
          s.sramErr = [] → s.hbmErr = [] → s.cxlPoison = [] → (∀ k, ¬ isSram k → (s.pkgAt (k / 2 ^ 48)).cxlGone (k % 2 ^ 48) = false) →
          memReads e1.mem key (4 * c.release.length) = c.release.flatMap (leBytes 4) ∧
          memReads e1.mem c.doneAt 8 = leBytes 8 (c.removed % 2 ^ 32 + 2 ^ 32 * c.release.length))))

/-! ## The fabric -/

/-- Requests between packages are applied once where they arrive and their numbers kept, in a window of 4,096; a
response acknowledges its request. A codeword with up to 15 bad symbols is corrected and counted, one with more is
counted and its flits discarded. A flit that is whole and next in order is accepted, one that was accepted before has no
effect again, and one that is not whole or comes too early is discarded and its place asked for; a replay request names
where the sender is to begin. Replays send what is kept again and are counted; an armed injector counts the flits that its lane carries, fires on
its flit as that leaves, idle flits standing in where no other is sent, and spoils it at the receiver; a lane retires to the spare while the port retrains, and without a spare the port is down
(spec/21 R338-R345). What is kept, when a request acts and the form of a replay request are the model's readings (log
entries 24, 33). -/
def Obligations.Fabric : Prop :=
  (∀ (pkg src num : Nat) (r : RemoteReq) (s : State), s.requestAt src pkg num = some r → (s.pkgAt pkg).gated = false →
    let w := tgetD (s.pkgAt pkg).reqSeen src {}
    let cl := pkg * 1568 + clusterIn (clusterOf (r.th / 4))
    let ag : Agent := ⟨pkg, none, r.th, cl, r.spn, 4, 0, 0, .sync r.th (s.memberKey r.th)⟩
    (w.applied 4096 num = true → Happens (.remoteRequest pkg src num r.addr r.body) s s) ∧
    (∀ v s1, w.applied 4096 num = false → applyRequest ag pkg r s = .ok v s1 →
      Happens (.remoteRequest pkg src num r.addr r.body) s (s1.modPkgAt pkg fun p => { p with
        reqSeen := tput p.reqSeen src (w.record 4096 num), responses := p.responses ++ [(src, num, v)] }))) ∧
  (∀ (w : Window) (num n : Nat), 0 < n → num < 2 ^ 32 → w.top < 2 ^ 32 → (w.top + 2 ^ 32 - num) % 2 ^ 32 ≠ 2 ^ 31 →
    (w.applied n num = false → (w.record n num).applied n num = true) ∧
    (n ≤ (w.top + 2 ^ 32 - num) % 2 ^ 32 → (w.top + 2 ^ 32 - num) % 2 ^ 32 < 2 ^ 31 →
      (w.applied n num = true ↔ num ∈ w.seen ∨ num ∉ w.gaps))) ∧
  (∀ (pkg dst num : Nat) (r : RemoteReq) (s : State), s.requestAt pkg dst num = some r →
    (tgetD (s.pkgAt dst).reqSeen pkg {}).applied 4096 num = true → ((s.pkgAt dst).plane (s.pkgAt pkg).pkgId 0).isSome = true →
    ∃ e, Happens (.remoteResponse pkg dst num) s e ∧ e.requestAt pkg dst num = none ∧ e.mem = s.mem ∧
      e.threads = s.threads) ∧
  (∀ (pkg port bad : Nat) (flits : List (List Byte)) (sent : Option (Nat × Nat × Nat)) (s : State), port < 18 →
    (s.portAt pkg port).state = 2 →
    let p := (strikeHits sent flits s).1.portAt pkg port
    let n := bad + (strikeHits sent flits s).2
    ∃ e, Happens (.flitReceive pkg port flits bad sent) s e ∧ e.mem = s.mem ∧
      let q := e.portAt pkg port
      (15 < n → q.fecunc = min (p.fecunc + 1) (2 ^ 16 - 1) ∧ q.received = p.received ∧ q.rxSeq = p.rxSeq ∧
        q.replayFrom = some ((p.rxSeq + 1) % 4096)) ∧
      (n ≤ 15 → q = (flits.take 5).foldl Port.take
        { p with feccor := min (p.feccor + (if n = 0 then 0 else 1)) (2 ^ 32 - 1) })) ∧
  (∀ (p : Port) (f : List Byte),
    let next := (p.rxSeq + 1) % 4096
    let q := p.take f
    (flitGood f = false → q.received = p.received ∧ q.rxSeq = p.rxSeq ∧ q.replayFrom = some next) ∧
    (flitGood f = true → flitType f = 5 → q.asked = some (leVal ((flitPayload f).take 2) % 4096) ∧
      q.received = p.received ∧ q.rxSeq = p.rxSeq) ∧
    (flitGood f = true → 1 ≤ flitType f → flitType f ≤ 3 →
      (flitSeq f = next → q.received = p.received ++ [flitPayload f] ∧ q.rxSeq = next ∧ q.replayFrom = none) ∧
      (flitSeq f ≠ next → q.received = p.received ∧ q.rxSeq = p.rxSeq ∧ q.unacked = p.unacked ∧
        q.replayFrom = if seqBehind p.rxSeq (flitSeq f) < 2048 then p.replayFrom
          else if p.replayFrom.isSome && ((p.gapAt.map fun g => flitSeq f == (g + 1) % 4096).getD true) then p.replayFrom
          else some next))) ∧
  (∀ (pkg port : Nat) (s : State), port < 18 → (s.portAt pkg port).state = 2 →
    let p := s.portAt pkg port
    (∀ seq, p.asked = some seq → (p.unacked.any fun x => x.1 == seq) = true → ∃ e, Happens (.replayRequest pkg port seq) s e ∧
      (e.portAt pkg port).toSend = p.toSend ++ (p.unacked.dropWhile fun x => x.1 != seq).map (·.2) ∧
      (e.portAt pkg port).retry = min (p.retry + 1) (2 ^ 16 - 1) ∧ (e.portAt pkg port).unacked = p.unacked ∧
      (e.portAt pkg port).asked = none) ∧
    (∀ seq, p.asked ≠ some seq → Happens (.replayRequest pkg port seq) s s) ∧
    (p.unacked ≠ [] → ∃ e, Happens (.ackTimeout pkg port) s e ∧
      (e.portAt pkg port).toSend = p.toSend ++ p.unacked.map (·.2) ∧
      (e.portAt pkg port).retry = min (p.retry + 1) (2 ^ 16 - 1) ∧ (e.portAt pkg port).unacked = p.unacked) ∧
    (p.unacked = [] → Happens (.ackTimeout pkg port) s s)) ∧
  (∀ (pkg port lane : Nat) (s : State), port < 18 → lane < 9 →
    let p := s.portAt pkg port
    let w := tgetD p.winj lane 0
    (∀ n, w.getLsbD 63 = true → p.state = 2 → p.carries lane = true → tgetD p.carried lane 0 + n = max 1 (w.toNat % 2 ^ 32) →
      0 < n → ∃ e, Happens (.injectorFire pkg port lane) s e ∧ e.mem = s.mem ∧
        (e.portAt pkg port).toSend = p.toSend ++ List.replicate n p.idleFlit ∧
        (tgetD (e.portAt pkg port).winj lane 0).getLsbD 63 = false ∧
        (tgetD (e.portAt pkg port).winj lane 0).getLsbD 62 = true ∧
        (p.nsent + n - 1, winjStrike w) ∈ (e.portAt pkg port).struck) ∧
    (∀ f, w.getLsbD 63 = true → p.carries lane = true →
      let q := p.emit f
      (tgetD p.carried lane 0 + 1 < max 1 (w.toNat % 2 ^ 32) → tgetD q.winj lane 0 = w ∧
        tgetD q.carried lane 0 = tgetD p.carried lane 0 + 1) ∧
      (max 1 (w.toNat % 2 ^ 32) ≤ tgetD p.carried lane 0 + 1 → (tgetD q.winj lane 0).getLsbD 63 = false ∧
        (p.nsent, winjStrike w) ∈ q.struck)) ∧
    (w.getLsbD 63 = false → Happens (.injectorFire pkg port lane) s s) ∧
    (p.carries lane = true → (p.state = 2 ∨ p.state = 1 ∧ p.spused = true) → ∃ e, Happens (.laneRetire pkg port lane) s e ∧ e.mem = s.mem ∧
      (e.portAt pkg port).state = (if p.spused then 3 else 1) ∧ (e.portAt pkg port).spused = true ∧
      (p.spused = false → (e.portAt pkg port).failed = lane))) ∧
  (∀ (pkg port : Nat) (s : State), port < 18 →
    ((s.portAt pkg port).state = 1 → ∃ e, Happens (.portRetrainDone pkg port) s e ∧ (e.portAt pkg port).state = 2 ∧
      e.mem = s.mem) ∧
    ((s.portAt pkg port).state ≠ 1 → Happens (.portRetrainDone pkg port) s s))

end Statements
end

