-- ==== Sys2Proof/Laws/Memory.lean ====
section
/-! SUPPORT. The laws of the sparse tables and of the memory: what is read after a write, and that every
memory operation keeps the canonical form. -/

namespace Sys2Proof.Machine

/-! ## Tables -/

variable {α : Type}

theorem tget_tput (t : Tbl α) (k : Nat) (v : α) (j : Nat) :
    tget (tput t k v) j = if k = j then some v else tget t j := by
  induction t with
  | nil => simp [tput, tget]
  | cons e r ih =>
    obtain ⟨k', v'⟩ := e
    by_cases hlt : k < k'
    · simp [tput, hlt, tget]
    · by_cases heq : k = k'
      · subst heq
        by_cases hj : k = j <;> simp [tput, tget, hj]
      · simp only [tput, hlt, heq, if_false, tget, ih]
        by_cases h : k' = j
        · have : k ≠ j := by omega
          simp [h, this]
        · simp [h]

@[simp] theorem tget_tput_same (t : Tbl α) (k : Nat) (v : α) : tget (tput t k v) k = some v := by
  simp [tget_tput]

theorem tget_tput_other (t : Tbl α) {k j : Nat} (v : α) (h : k ≠ j) : tget (tput t k v) j = tget t j := by
  simp [tget_tput, h]

theorem tget_tdel (t : Tbl α) (k j : Nat) : tget (tdel t k) j = if k = j then none else tget t j := by
  induction t with
  | nil => simp [tdel, tget]
  | cons e r ih =>
    obtain ⟨k', v'⟩ := e
    unfold tdel at ih ⊢
    by_cases hk : k' = k
    · subst hk
      simp only [List.filter_cons, beq_self_eq_true, Bool.not_true, Bool.false_eq_true, if_false, ih, tget]
      by_cases hj : k' = j <;> simp [hj]
    · simp only [List.filter_cons, hk, not_false_eq_true, Bool.not_eq_true', beq_eq_false_iff_ne,
        ne_eq, if_true, tget, ih]
      by_cases h : k' = j
      · have : k ≠ j := fun c => hk (h.trans c.symm)
        simp [h, this]
      · simp [h]

@[simp] theorem tgetD_tput_same (t : Tbl α) (k : Nat) (v d : α) : tgetD (tput t k v) k d = v := by
  simp [tgetD]

theorem tgetD_tput_other (t : Tbl α) {k j : Nat} (v d : α) (h : k ≠ j) :
    tgetD (tput t k v) j d = tgetD t j d := by
  simp [tgetD, tget_tput_other _ _ h]

/-! ## Reads after writes -/

theorem memRead_memWrite (m : List Host.Cell) (a : Nat) (b : Byte) (x : Nat) :
    memRead (memWrite m a b) x = if a = x then b else memRead m x := by
  unfold memRead memWrite
  by_cases hb : b = memDefault
  · rw [if_pos hb]
    by_cases hx : a = x <;> simp [tgetD, tget_tdel, hx, hb]
  · rw [if_neg hb]
    by_cases hx : a = x <;> simp [tgetD, tget_tput, hx]

/-- A write leaves every byte outside the written range alone. -/
theorem memRead_memWrites_outside (bs : List Byte) (m : List Host.Cell) (a x : Nat)
    (h : x < a ∨ a + bs.length ≤ x) : memRead (memWrites m a bs) x = memRead m x := by
  induction bs generalizing m a with
  | nil => rfl
  | cons b bs ih =>
    simp only [List.length_cons] at h
    rw [memWrites, ih _ _ (by omega), memRead_memWrite, if_neg (by omega)]

/-- A byte of the written range reads as it was written. -/
theorem memRead_memWrites_inside (bs : List Byte) (m : List Host.Cell) (a i : Nat) (h : i < bs.length) :
    memRead (memWrites m a bs) (a + i) = bs[i] := by
  induction bs generalizing m a i with
  | nil => simp at h
  | cons b bs ih =>
    cases i with
    | zero => rw [memWrites, memRead_memWrites_outside _ _ _ _ (by omega), memRead_memWrite]; simp
    | succ i =>
      have h' : i < bs.length := by simpa using h
      have e : a + (i + 1) = a + 1 + i := by omega
      rw [memWrites, e, ih _ _ _ h', List.getElem_cons_succ]

theorem memReads_outside (m : List Host.Cell) (bs : List Byte) (a k n : Nat)
    (h : k + n ≤ a ∨ a + bs.length ≤ k) : memReads (memWrites m a bs) k n = memReads m k n := by
  induction n generalizing k with
  | zero => rfl
  | succ n ih => rw [memReads, memReads, ih _ (by omega), memRead_memWrites_outside _ _ _ _ (by omega)]

/-- The written range reads back as it was written. -/
theorem memReads_memWrites (bs : List Byte) (m : List Host.Cell) (a : Nat) :
    memReads (memWrites m a bs) a bs.length = bs := by
  induction bs generalizing m a with
  | nil => rfl
  | cons b bs ih =>
    rw [List.length_cons, memReads, memWrites, ih,
      memRead_memWrites_outside _ _ _ _ (by omega), memRead_memWrite]
    simp

/-! ## Little-endian numbers -/

@[simp] theorem leBytes_length (n w : Nat) : (leBytes n w).length = n := by
  induction n generalizing w with
  | zero => rfl
  | succ n ih => simp [leBytes, ih]

theorem leVal_leBytes (n w : Nat) : leVal (leBytes n w) = w % 256 ^ n := by
  induction n generalizing w with
  | zero => simp [leBytes, leVal, Nat.mod_one]
  | succ n ih =>
    have h : w % 256 ^ (n + 1) = w % 256 + 256 * (w / 256 % 256 ^ n) := by rw [pow_succ', Nat.mod_mul]
    rw [leBytes, leVal, ih, BitVec.toNat_ofNat, h]

/-! ## The canonical form -/

theorem memWfFrom_le {lo lo' : Nat} (h : lo' ≤ lo) (m : List Host.Cell) (hm : memWfFrom lo m = true) :
    memWfFrom lo' m = true := by
  cases m with
  | nil => rfl
  | cons e r =>
    obtain ⟨a, b⟩ := e
    simp only [memWfFrom, Bool.and_eq_true, decide_eq_true_eq] at hm ⊢
    exact ⟨⟨by omega, hm.1.2⟩, hm.2⟩

theorem memWfFrom_filter (p : Host.Cell → Bool) (lo : Nat) (m : List Host.Cell) (hm : memWfFrom lo m = true) :
    memWfFrom lo (m.filter p) = true := by
  induction m generalizing lo with
  | nil => rfl
  | cons e r ih =>
    obtain ⟨a, b⟩ := e
    simp only [memWfFrom, Bool.and_eq_true, decide_eq_true_eq] at hm
    have hr := ih (a + 1) hm.2
    by_cases hp : p (a, b) = true
    · simp only [List.filter_cons, hp, if_true, memWfFrom, Bool.and_eq_true, decide_eq_true_eq]
      exact ⟨hm.1, hr⟩
    · simp only [List.filter_cons, hp, Bool.false_eq_true, if_false]
      exact memWfFrom_le (by omega) _ hr

theorem memWfFrom_tput (lo : Nat) (m : List Host.Cell) (a : Nat) (b : Byte) (ha : lo ≤ a) (hb : b ≠ memDefault)
    (hm : memWfFrom lo m = true) : memWfFrom lo (tput m a b) = true := by
  induction m generalizing lo with
  | nil => simp [tput, memWfFrom, ha, hb]
  | cons e r ih =>
    obtain ⟨k, v⟩ := e
    simp only [memWfFrom, Bool.and_eq_true, decide_eq_true_eq] at hm
    by_cases hlt : a < k
    · simp only [tput, hlt, if_true, memWfFrom, Bool.and_eq_true, decide_eq_true_eq]
      exact ⟨⟨ha, by simpa using hb⟩, ⟨⟨by omega, hm.1.2⟩, hm.2⟩⟩
    · by_cases heq : a = k
      · simp only [tput, heq, Nat.lt_irrefl, if_false, if_true, memWfFrom, Bool.and_eq_true, decide_eq_true_eq]
        exact ⟨⟨by omega, by simpa using hb⟩, hm.2⟩
      · simp only [tput, hlt, heq, if_false, memWfFrom, Bool.and_eq_true, decide_eq_true_eq]
        exact ⟨hm.1, ih (k + 1) (by omega) hm.2⟩

/-- Writing a byte keeps the canonical form. -/
theorem memWrite_wf (m : List Host.Cell) (a : Nat) (b : Byte) (hm : Memory.wf m = true) :
    Memory.wf (memWrite m a b) = true := by
  unfold memWrite
  by_cases hb : b = memDefault
  · rw [if_pos hb]; exact memWfFrom_filter _ _ _ hm
  · rw [if_neg hb]; exact memWfFrom_tput 0 m a b (Nat.zero_le a) hb hm

/-- Writing bytes keeps the canonical form. -/
theorem memWrites_wf (bs : List Byte) (m : List Host.Cell) (a : Nat) (hm : Memory.wf m = true) :
    Memory.wf (memWrites m a bs) = true := by
  induction bs generalizing m a with
  | nil => exact hm
  | cons b bs ih => exact ih _ _ (memWrite_wf _ _ _ hm)

/-- Dropping bytes, as a reset of some SRAMs does, keeps the canonical form. -/
theorem filter_wf (p : Host.Cell → Bool) (m : List Host.Cell) (hm : Memory.wf m = true) :
    Memory.wf (m.filter p) = true := memWfFrom_filter p 0 m hm

end Sys2Proof.Machine
end

