-- ==== Sys2Proof/Laws/State.lean ====
section
/-! SUPPORT. The fields of the state and of a thread after each named update: one lemma for each field, so that
no proof unfolds a record update. -/

namespace Sys2Proof.Machine

/-! `State.setThreadAt` -/
@[simp] theorem State.setThreadAt_mem (s : State) (k : Nat) (t : Thread) : (s.setThreadAt k t).mem = s.mem := rfl
@[simp] theorem State.setThreadAt_old (s : State) (k : Nat) (t : Thread) : (s.setThreadAt k t).old = s.old := rfl
@[simp] theorem State.setThreadAt_sramErr (s : State) (k : Nat) (t : Thread) : (s.setThreadAt k t).sramErr = s.sramErr := rfl
@[simp] theorem State.setThreadAt_hbmErr (s : State) (k : Nat) (t : Thread) : (s.setThreadAt k t).hbmErr = s.hbmErr := rfl
@[simp] theorem State.setThreadAt_cxlPoison (s : State) (k : Nat) (t : Thread) : (s.setThreadAt k t).cxlPoison = s.cxlPoison := rfl
@[simp] theorem State.setThreadAt_cores (s : State) (k : Nat) (t : Thread) : (s.setThreadAt k t).cores = s.cores := rfl
@[simp] theorem State.setThreadAt_clusters (s : State) (k : Nat) (t : Thread) : (s.setThreadAt k t).clusters = s.clusters := rfl
@[simp] theorem State.setThreadAt_dies (s : State) (k : Nat) (t : Thread) : (s.setThreadAt k t).dies = s.dies := rfl
@[simp] theorem State.setThreadAt_pkgs (s : State) (k : Nat) (t : Thread) : (s.setThreadAt k t).pkgs = s.pkgs := rfl
@[simp] theorem State.setThreadAt_recs (s : State) (k : Nat) (t : Thread) : (s.setThreadAt k t).recs = s.recs := rfl
@[simp] theorem State.setThreadAt_doms (s : State) (k : Nat) (t : Thread) : (s.setThreadAt k t).doms = s.doms := rfl
@[simp] theorem State.setThreadAt_turns (s : State) (k : Nat) (t : Thread) : (s.setThreadAt k t).turns = s.turns := rfl
@[simp] theorem State.setThreadAt_cc (s : State) (k : Nat) (t : Thread) : (s.setThreadAt k t).cc = s.cc := rfl
@[simp] theorem State.setThreadAt_ct (s : State) (k : Nat) (t : Thread) : (s.setThreadAt k t).ct = s.ct := rfl
@[simp] theorem State.setThreadAt_fresh (s : State) (k : Nat) (t : Thread) : (s.setThreadAt k t).fresh = s.fresh := rfl
@[simp] theorem State.setThreadAt_pend (s : State) (k : Nat) (t : Thread) : (s.setThreadAt k t).pend = s.pend := rfl
@[simp] theorem State.setThreadAt_granted (s : State) (k : Nat) (t : Thread) : (s.setThreadAt k t).granted = s.granted := rfl
@[simp] theorem State.setThreadAt_paid (s : State) (k : Nat) (t : Thread) : (s.setThreadAt k t).paid = s.paid := rfl
@[simp] theorem State.setThreadAt_asking (s : State) (k : Nat) (t : Thread) : (s.setThreadAt k t).asking = s.asking := rfl
@[simp] theorem State.setThreadAt_fixes (s : State) (k : Nat) (t : Thread) : (s.setThreadAt k t).fixes = s.fixes := rfl

/-! `State.setCoreAt` -/
@[simp] theorem State.setCoreAt_mem (s : State) (k : Nat) (c : Core) : (s.setCoreAt k c).mem = s.mem := rfl
@[simp] theorem State.setCoreAt_old (s : State) (k : Nat) (c : Core) : (s.setCoreAt k c).old = s.old := rfl
@[simp] theorem State.setCoreAt_sramErr (s : State) (k : Nat) (c : Core) : (s.setCoreAt k c).sramErr = s.sramErr := rfl
@[simp] theorem State.setCoreAt_hbmErr (s : State) (k : Nat) (c : Core) : (s.setCoreAt k c).hbmErr = s.hbmErr := rfl
@[simp] theorem State.setCoreAt_cxlPoison (s : State) (k : Nat) (c : Core) : (s.setCoreAt k c).cxlPoison = s.cxlPoison := rfl
@[simp] theorem State.setCoreAt_threads (s : State) (k : Nat) (c : Core) : (s.setCoreAt k c).threads = s.threads := rfl
@[simp] theorem State.setCoreAt_clusters (s : State) (k : Nat) (c : Core) : (s.setCoreAt k c).clusters = s.clusters := rfl
@[simp] theorem State.setCoreAt_dies (s : State) (k : Nat) (c : Core) : (s.setCoreAt k c).dies = s.dies := rfl
@[simp] theorem State.setCoreAt_pkgs (s : State) (k : Nat) (c : Core) : (s.setCoreAt k c).pkgs = s.pkgs := rfl
@[simp] theorem State.setCoreAt_recs (s : State) (k : Nat) (c : Core) : (s.setCoreAt k c).recs = s.recs := rfl
@[simp] theorem State.setCoreAt_doms (s : State) (k : Nat) (c : Core) : (s.setCoreAt k c).doms = s.doms := rfl
@[simp] theorem State.setCoreAt_turns (s : State) (k : Nat) (c : Core) : (s.setCoreAt k c).turns = s.turns := rfl
@[simp] theorem State.setCoreAt_cc (s : State) (k : Nat) (c : Core) : (s.setCoreAt k c).cc = s.cc := rfl
@[simp] theorem State.setCoreAt_ct (s : State) (k : Nat) (c : Core) : (s.setCoreAt k c).ct = s.ct := rfl
@[simp] theorem State.setCoreAt_fresh (s : State) (k : Nat) (c : Core) : (s.setCoreAt k c).fresh = s.fresh := rfl
@[simp] theorem State.setCoreAt_pend (s : State) (k : Nat) (c : Core) : (s.setCoreAt k c).pend = s.pend := rfl
@[simp] theorem State.setCoreAt_granted (s : State) (k : Nat) (c : Core) : (s.setCoreAt k c).granted = s.granted := rfl
@[simp] theorem State.setCoreAt_paid (s : State) (k : Nat) (c : Core) : (s.setCoreAt k c).paid = s.paid := rfl
@[simp] theorem State.setCoreAt_asking (s : State) (k : Nat) (c : Core) : (s.setCoreAt k c).asking = s.asking := rfl
@[simp] theorem State.setCoreAt_fixes (s : State) (k : Nat) (c : Core) : (s.setCoreAt k c).fixes = s.fixes := rfl

/-! `State.setClusterAt` -/
@[simp] theorem State.setClusterAt_mem (s : State) (k : Nat) (c : Cluster) : (s.setClusterAt k c).mem = s.mem := rfl
@[simp] theorem State.setClusterAt_old (s : State) (k : Nat) (c : Cluster) : (s.setClusterAt k c).old = s.old := rfl
@[simp] theorem State.setClusterAt_sramErr (s : State) (k : Nat) (c : Cluster) : (s.setClusterAt k c).sramErr = s.sramErr := rfl
@[simp] theorem State.setClusterAt_hbmErr (s : State) (k : Nat) (c : Cluster) : (s.setClusterAt k c).hbmErr = s.hbmErr := rfl
@[simp] theorem State.setClusterAt_cxlPoison (s : State) (k : Nat) (c : Cluster) : (s.setClusterAt k c).cxlPoison = s.cxlPoison := rfl
@[simp] theorem State.setClusterAt_threads (s : State) (k : Nat) (c : Cluster) : (s.setClusterAt k c).threads = s.threads := rfl
@[simp] theorem State.setClusterAt_cores (s : State) (k : Nat) (c : Cluster) : (s.setClusterAt k c).cores = s.cores := rfl
@[simp] theorem State.setClusterAt_dies (s : State) (k : Nat) (c : Cluster) : (s.setClusterAt k c).dies = s.dies := rfl
@[simp] theorem State.setClusterAt_pkgs (s : State) (k : Nat) (c : Cluster) : (s.setClusterAt k c).pkgs = s.pkgs := rfl
@[simp] theorem State.setClusterAt_recs (s : State) (k : Nat) (c : Cluster) : (s.setClusterAt k c).recs = s.recs := rfl
@[simp] theorem State.setClusterAt_doms (s : State) (k : Nat) (c : Cluster) : (s.setClusterAt k c).doms = s.doms := rfl
@[simp] theorem State.setClusterAt_turns (s : State) (k : Nat) (c : Cluster) : (s.setClusterAt k c).turns = s.turns := rfl
@[simp] theorem State.setClusterAt_cc (s : State) (k : Nat) (c : Cluster) : (s.setClusterAt k c).cc = s.cc := rfl
@[simp] theorem State.setClusterAt_ct (s : State) (k : Nat) (c : Cluster) : (s.setClusterAt k c).ct = s.ct := rfl
@[simp] theorem State.setClusterAt_fresh (s : State) (k : Nat) (c : Cluster) : (s.setClusterAt k c).fresh = s.fresh := rfl
@[simp] theorem State.setClusterAt_pend (s : State) (k : Nat) (c : Cluster) : (s.setClusterAt k c).pend = s.pend := rfl
@[simp] theorem State.setClusterAt_granted (s : State) (k : Nat) (c : Cluster) : (s.setClusterAt k c).granted = s.granted := rfl
@[simp] theorem State.setClusterAt_paid (s : State) (k : Nat) (c : Cluster) : (s.setClusterAt k c).paid = s.paid := rfl
@[simp] theorem State.setClusterAt_asking (s : State) (k : Nat) (c : Cluster) : (s.setClusterAt k c).asking = s.asking := rfl
@[simp] theorem State.setClusterAt_fixes (s : State) (k : Nat) (c : Cluster) : (s.setClusterAt k c).fixes = s.fixes := rfl

/-! `State.setDieAt` -/
@[simp] theorem State.setDieAt_mem (s : State) (k : Nat) (d : Die) : (s.setDieAt k d).mem = s.mem := rfl
@[simp] theorem State.setDieAt_old (s : State) (k : Nat) (d : Die) : (s.setDieAt k d).old = s.old := rfl
@[simp] theorem State.setDieAt_sramErr (s : State) (k : Nat) (d : Die) : (s.setDieAt k d).sramErr = s.sramErr := rfl
@[simp] theorem State.setDieAt_hbmErr (s : State) (k : Nat) (d : Die) : (s.setDieAt k d).hbmErr = s.hbmErr := rfl
@[simp] theorem State.setDieAt_cxlPoison (s : State) (k : Nat) (d : Die) : (s.setDieAt k d).cxlPoison = s.cxlPoison := rfl
@[simp] theorem State.setDieAt_threads (s : State) (k : Nat) (d : Die) : (s.setDieAt k d).threads = s.threads := rfl
@[simp] theorem State.setDieAt_cores (s : State) (k : Nat) (d : Die) : (s.setDieAt k d).cores = s.cores := rfl
@[simp] theorem State.setDieAt_clusters (s : State) (k : Nat) (d : Die) : (s.setDieAt k d).clusters = s.clusters := rfl
@[simp] theorem State.setDieAt_pkgs (s : State) (k : Nat) (d : Die) : (s.setDieAt k d).pkgs = s.pkgs := rfl
@[simp] theorem State.setDieAt_recs (s : State) (k : Nat) (d : Die) : (s.setDieAt k d).recs = s.recs := rfl
@[simp] theorem State.setDieAt_doms (s : State) (k : Nat) (d : Die) : (s.setDieAt k d).doms = s.doms := rfl
@[simp] theorem State.setDieAt_turns (s : State) (k : Nat) (d : Die) : (s.setDieAt k d).turns = s.turns := rfl
@[simp] theorem State.setDieAt_cc (s : State) (k : Nat) (d : Die) : (s.setDieAt k d).cc = s.cc := rfl
@[simp] theorem State.setDieAt_ct (s : State) (k : Nat) (d : Die) : (s.setDieAt k d).ct = s.ct := rfl
@[simp] theorem State.setDieAt_fresh (s : State) (k : Nat) (d : Die) : (s.setDieAt k d).fresh = s.fresh := rfl
@[simp] theorem State.setDieAt_pend (s : State) (k : Nat) (d : Die) : (s.setDieAt k d).pend = s.pend := rfl
@[simp] theorem State.setDieAt_granted (s : State) (k : Nat) (d : Die) : (s.setDieAt k d).granted = s.granted := rfl
@[simp] theorem State.setDieAt_paid (s : State) (k : Nat) (d : Die) : (s.setDieAt k d).paid = s.paid := rfl
@[simp] theorem State.setDieAt_asking (s : State) (k : Nat) (d : Die) : (s.setDieAt k d).asking = s.asking := rfl
@[simp] theorem State.setDieAt_fixes (s : State) (k : Nat) (d : Die) : (s.setDieAt k d).fixes = s.fixes := rfl

/-! `State.setPkgAt` -/
@[simp] theorem State.setPkgAt_mem (s : State) (k : Nat) (p : Pkg) : (s.setPkgAt k p).mem = s.mem := rfl
@[simp] theorem State.setPkgAt_old (s : State) (k : Nat) (p : Pkg) : (s.setPkgAt k p).old = s.old := rfl
@[simp] theorem State.setPkgAt_sramErr (s : State) (k : Nat) (p : Pkg) : (s.setPkgAt k p).sramErr = s.sramErr := rfl
@[simp] theorem State.setPkgAt_hbmErr (s : State) (k : Nat) (p : Pkg) : (s.setPkgAt k p).hbmErr = s.hbmErr := rfl
@[simp] theorem State.setPkgAt_cxlPoison (s : State) (k : Nat) (p : Pkg) : (s.setPkgAt k p).cxlPoison = s.cxlPoison := rfl
@[simp] theorem State.setPkgAt_threads (s : State) (k : Nat) (p : Pkg) : (s.setPkgAt k p).threads = s.threads := rfl
@[simp] theorem State.setPkgAt_cores (s : State) (k : Nat) (p : Pkg) : (s.setPkgAt k p).cores = s.cores := rfl
@[simp] theorem State.setPkgAt_clusters (s : State) (k : Nat) (p : Pkg) : (s.setPkgAt k p).clusters = s.clusters := rfl
@[simp] theorem State.setPkgAt_dies (s : State) (k : Nat) (p : Pkg) : (s.setPkgAt k p).dies = s.dies := rfl
@[simp] theorem State.setPkgAt_recs (s : State) (k : Nat) (p : Pkg) : (s.setPkgAt k p).recs = s.recs := rfl
@[simp] theorem State.setPkgAt_doms (s : State) (k : Nat) (p : Pkg) : (s.setPkgAt k p).doms = s.doms := rfl
@[simp] theorem State.setPkgAt_turns (s : State) (k : Nat) (p : Pkg) : (s.setPkgAt k p).turns = s.turns := rfl
@[simp] theorem State.setPkgAt_cc (s : State) (k : Nat) (p : Pkg) : (s.setPkgAt k p).cc = s.cc := rfl
@[simp] theorem State.setPkgAt_ct (s : State) (k : Nat) (p : Pkg) : (s.setPkgAt k p).ct = s.ct := rfl
@[simp] theorem State.setPkgAt_fresh (s : State) (k : Nat) (p : Pkg) : (s.setPkgAt k p).fresh = s.fresh := rfl
@[simp] theorem State.setPkgAt_pend (s : State) (k : Nat) (p : Pkg) : (s.setPkgAt k p).pend = s.pend := rfl
@[simp] theorem State.setPkgAt_granted (s : State) (k : Nat) (p : Pkg) : (s.setPkgAt k p).granted = s.granted := rfl
@[simp] theorem State.setPkgAt_paid (s : State) (k : Nat) (p : Pkg) : (s.setPkgAt k p).paid = s.paid := rfl
@[simp] theorem State.setPkgAt_asking (s : State) (k : Nat) (p : Pkg) : (s.setPkgAt k p).asking = s.asking := rfl
@[simp] theorem State.setPkgAt_fixes (s : State) (k : Nat) (p : Pkg) : (s.setPkgAt k p).fixes = s.fixes := rfl

/-! `State.setTh` -/
@[simp] theorem State.setTh_mem (s : State) (t : Thread) : (s.setTh t).mem = s.mem := rfl
@[simp] theorem State.setTh_old (s : State) (t : Thread) : (s.setTh t).old = s.old := rfl
@[simp] theorem State.setTh_sramErr (s : State) (t : Thread) : (s.setTh t).sramErr = s.sramErr := rfl
@[simp] theorem State.setTh_hbmErr (s : State) (t : Thread) : (s.setTh t).hbmErr = s.hbmErr := rfl
@[simp] theorem State.setTh_cxlPoison (s : State) (t : Thread) : (s.setTh t).cxlPoison = s.cxlPoison := rfl
@[simp] theorem State.setTh_cores (s : State) (t : Thread) : (s.setTh t).cores = s.cores := rfl
@[simp] theorem State.setTh_clusters (s : State) (t : Thread) : (s.setTh t).clusters = s.clusters := rfl
@[simp] theorem State.setTh_dies (s : State) (t : Thread) : (s.setTh t).dies = s.dies := rfl
@[simp] theorem State.setTh_pkgs (s : State) (t : Thread) : (s.setTh t).pkgs = s.pkgs := rfl
@[simp] theorem State.setTh_recs (s : State) (t : Thread) : (s.setTh t).recs = s.recs := rfl
@[simp] theorem State.setTh_doms (s : State) (t : Thread) : (s.setTh t).doms = s.doms := rfl
@[simp] theorem State.setTh_turns (s : State) (t : Thread) : (s.setTh t).turns = s.turns := rfl
@[simp] theorem State.setTh_cc (s : State) (t : Thread) : (s.setTh t).cc = s.cc := rfl
@[simp] theorem State.setTh_ct (s : State) (t : Thread) : (s.setTh t).ct = s.ct := rfl
@[simp] theorem State.setTh_fresh (s : State) (t : Thread) : (s.setTh t).fresh = s.fresh := rfl
@[simp] theorem State.setTh_pend (s : State) (t : Thread) : (s.setTh t).pend = s.pend := rfl
@[simp] theorem State.setTh_granted (s : State) (t : Thread) : (s.setTh t).granted = s.granted := rfl
@[simp] theorem State.setTh_paid (s : State) (t : Thread) : (s.setTh t).paid = s.paid := rfl
@[simp] theorem State.setTh_asking (s : State) (t : Thread) : (s.setTh t).asking = s.asking := rfl
@[simp] theorem State.setTh_fixes (s : State) (t : Thread) : (s.setTh t).fixes = s.fixes := rfl

/-! `State.setCore` -/
@[simp] theorem State.setCore_mem (s : State) (c : Core) : (s.setCore c).mem = s.mem := rfl
@[simp] theorem State.setCore_old (s : State) (c : Core) : (s.setCore c).old = s.old := rfl
@[simp] theorem State.setCore_sramErr (s : State) (c : Core) : (s.setCore c).sramErr = s.sramErr := rfl
@[simp] theorem State.setCore_hbmErr (s : State) (c : Core) : (s.setCore c).hbmErr = s.hbmErr := rfl
@[simp] theorem State.setCore_cxlPoison (s : State) (c : Core) : (s.setCore c).cxlPoison = s.cxlPoison := rfl
@[simp] theorem State.setCore_threads (s : State) (c : Core) : (s.setCore c).threads = s.threads := rfl
@[simp] theorem State.setCore_clusters (s : State) (c : Core) : (s.setCore c).clusters = s.clusters := rfl
@[simp] theorem State.setCore_dies (s : State) (c : Core) : (s.setCore c).dies = s.dies := rfl
@[simp] theorem State.setCore_pkgs (s : State) (c : Core) : (s.setCore c).pkgs = s.pkgs := rfl
@[simp] theorem State.setCore_recs (s : State) (c : Core) : (s.setCore c).recs = s.recs := rfl
@[simp] theorem State.setCore_doms (s : State) (c : Core) : (s.setCore c).doms = s.doms := rfl
@[simp] theorem State.setCore_turns (s : State) (c : Core) : (s.setCore c).turns = s.turns := rfl
@[simp] theorem State.setCore_cc (s : State) (c : Core) : (s.setCore c).cc = s.cc := rfl
@[simp] theorem State.setCore_ct (s : State) (c : Core) : (s.setCore c).ct = s.ct := rfl
@[simp] theorem State.setCore_fresh (s : State) (c : Core) : (s.setCore c).fresh = s.fresh := rfl
@[simp] theorem State.setCore_pend (s : State) (c : Core) : (s.setCore c).pend = s.pend := rfl
@[simp] theorem State.setCore_granted (s : State) (c : Core) : (s.setCore c).granted = s.granted := rfl
@[simp] theorem State.setCore_paid (s : State) (c : Core) : (s.setCore c).paid = s.paid := rfl
@[simp] theorem State.setCore_asking (s : State) (c : Core) : (s.setCore c).asking = s.asking := rfl
@[simp] theorem State.setCore_fixes (s : State) (c : Core) : (s.setCore c).fixes = s.fixes := rfl

/-! `State.setG` -/
@[simp] theorem State.setG_mem (s : State) (r : GReg) (v : Word) : (s.setG r v).mem = s.mem := rfl
@[simp] theorem State.setG_old (s : State) (r : GReg) (v : Word) : (s.setG r v).old = s.old := rfl
@[simp] theorem State.setG_sramErr (s : State) (r : GReg) (v : Word) : (s.setG r v).sramErr = s.sramErr := rfl
@[simp] theorem State.setG_hbmErr (s : State) (r : GReg) (v : Word) : (s.setG r v).hbmErr = s.hbmErr := rfl
@[simp] theorem State.setG_cxlPoison (s : State) (r : GReg) (v : Word) : (s.setG r v).cxlPoison = s.cxlPoison := rfl
@[simp] theorem State.setG_cores (s : State) (r : GReg) (v : Word) : (s.setG r v).cores = s.cores := rfl
@[simp] theorem State.setG_clusters (s : State) (r : GReg) (v : Word) : (s.setG r v).clusters = s.clusters := rfl
@[simp] theorem State.setG_dies (s : State) (r : GReg) (v : Word) : (s.setG r v).dies = s.dies := rfl
@[simp] theorem State.setG_pkgs (s : State) (r : GReg) (v : Word) : (s.setG r v).pkgs = s.pkgs := rfl
@[simp] theorem State.setG_recs (s : State) (r : GReg) (v : Word) : (s.setG r v).recs = s.recs := rfl
@[simp] theorem State.setG_doms (s : State) (r : GReg) (v : Word) : (s.setG r v).doms = s.doms := rfl
@[simp] theorem State.setG_turns (s : State) (r : GReg) (v : Word) : (s.setG r v).turns = s.turns := rfl
@[simp] theorem State.setG_cc (s : State) (r : GReg) (v : Word) : (s.setG r v).cc = s.cc := rfl
@[simp] theorem State.setG_ct (s : State) (r : GReg) (v : Word) : (s.setG r v).ct = s.ct := rfl
@[simp] theorem State.setG_fresh (s : State) (r : GReg) (v : Word) : (s.setG r v).fresh = s.fresh := rfl
@[simp] theorem State.setG_pend (s : State) (r : GReg) (v : Word) : (s.setG r v).pend = s.pend := rfl
@[simp] theorem State.setG_granted (s : State) (r : GReg) (v : Word) : (s.setG r v).granted = s.granted := rfl
@[simp] theorem State.setG_paid (s : State) (r : GReg) (v : Word) : (s.setG r v).paid = s.paid := rfl
@[simp] theorem State.setG_asking (s : State) (r : GReg) (v : Word) : (s.setG r v).asking = s.asking := rfl
@[simp] theorem State.setG_fixes (s : State) (r : GReg) (v : Word) : (s.setG r v).fixes = s.fixes := rfl

/-! `State.setP` -/
@[simp] theorem State.setP_mem (s : State) (r : PIdx) (v : Word) : (s.setP r v).mem = s.mem := rfl
@[simp] theorem State.setP_old (s : State) (r : PIdx) (v : Word) : (s.setP r v).old = s.old := rfl
@[simp] theorem State.setP_sramErr (s : State) (r : PIdx) (v : Word) : (s.setP r v).sramErr = s.sramErr := rfl
@[simp] theorem State.setP_hbmErr (s : State) (r : PIdx) (v : Word) : (s.setP r v).hbmErr = s.hbmErr := rfl
@[simp] theorem State.setP_cxlPoison (s : State) (r : PIdx) (v : Word) : (s.setP r v).cxlPoison = s.cxlPoison := rfl
@[simp] theorem State.setP_cores (s : State) (r : PIdx) (v : Word) : (s.setP r v).cores = s.cores := rfl
@[simp] theorem State.setP_clusters (s : State) (r : PIdx) (v : Word) : (s.setP r v).clusters = s.clusters := rfl
@[simp] theorem State.setP_dies (s : State) (r : PIdx) (v : Word) : (s.setP r v).dies = s.dies := rfl
@[simp] theorem State.setP_pkgs (s : State) (r : PIdx) (v : Word) : (s.setP r v).pkgs = s.pkgs := rfl
@[simp] theorem State.setP_recs (s : State) (r : PIdx) (v : Word) : (s.setP r v).recs = s.recs := rfl
@[simp] theorem State.setP_doms (s : State) (r : PIdx) (v : Word) : (s.setP r v).doms = s.doms := rfl
@[simp] theorem State.setP_turns (s : State) (r : PIdx) (v : Word) : (s.setP r v).turns = s.turns := rfl
@[simp] theorem State.setP_cc (s : State) (r : PIdx) (v : Word) : (s.setP r v).cc = s.cc := rfl
@[simp] theorem State.setP_ct (s : State) (r : PIdx) (v : Word) : (s.setP r v).ct = s.ct := rfl
@[simp] theorem State.setP_fresh (s : State) (r : PIdx) (v : Word) : (s.setP r v).fresh = s.fresh := rfl
@[simp] theorem State.setP_pend (s : State) (r : PIdx) (v : Word) : (s.setP r v).pend = s.pend := rfl
@[simp] theorem State.setP_granted (s : State) (r : PIdx) (v : Word) : (s.setP r v).granted = s.granted := rfl
@[simp] theorem State.setP_paid (s : State) (r : PIdx) (v : Word) : (s.setP r v).paid = s.paid := rfl
@[simp] theorem State.setP_asking (s : State) (r : PIdx) (v : Word) : (s.setP r v).asking = s.asking := rfl
@[simp] theorem State.setP_fixes (s : State) (r : PIdx) (v : Word) : (s.setP r v).fixes = s.fixes := rfl

/-! `State.modTh` -/
@[simp] theorem State.modTh_mem (s : State) (f : Thread → Thread) : (s.modTh f).mem = s.mem := rfl
@[simp] theorem State.modTh_old (s : State) (f : Thread → Thread) : (s.modTh f).old = s.old := rfl
@[simp] theorem State.modTh_sramErr (s : State) (f : Thread → Thread) : (s.modTh f).sramErr = s.sramErr := rfl
@[simp] theorem State.modTh_hbmErr (s : State) (f : Thread → Thread) : (s.modTh f).hbmErr = s.hbmErr := rfl
@[simp] theorem State.modTh_cxlPoison (s : State) (f : Thread → Thread) : (s.modTh f).cxlPoison = s.cxlPoison := rfl
@[simp] theorem State.modTh_cores (s : State) (f : Thread → Thread) : (s.modTh f).cores = s.cores := rfl
@[simp] theorem State.modTh_clusters (s : State) (f : Thread → Thread) : (s.modTh f).clusters = s.clusters := rfl
@[simp] theorem State.modTh_dies (s : State) (f : Thread → Thread) : (s.modTh f).dies = s.dies := rfl
@[simp] theorem State.modTh_pkgs (s : State) (f : Thread → Thread) : (s.modTh f).pkgs = s.pkgs := rfl
@[simp] theorem State.modTh_recs (s : State) (f : Thread → Thread) : (s.modTh f).recs = s.recs := rfl
@[simp] theorem State.modTh_doms (s : State) (f : Thread → Thread) : (s.modTh f).doms = s.doms := rfl
@[simp] theorem State.modTh_turns (s : State) (f : Thread → Thread) : (s.modTh f).turns = s.turns := rfl
@[simp] theorem State.modTh_cc (s : State) (f : Thread → Thread) : (s.modTh f).cc = s.cc := rfl
@[simp] theorem State.modTh_ct (s : State) (f : Thread → Thread) : (s.modTh f).ct = s.ct := rfl
@[simp] theorem State.modTh_fresh (s : State) (f : Thread → Thread) : (s.modTh f).fresh = s.fresh := rfl
@[simp] theorem State.modTh_pend (s : State) (f : Thread → Thread) : (s.modTh f).pend = s.pend := rfl
@[simp] theorem State.modTh_granted (s : State) (f : Thread → Thread) : (s.modTh f).granted = s.granted := rfl
@[simp] theorem State.modTh_paid (s : State) (f : Thread → Thread) : (s.modTh f).paid = s.paid := rfl
@[simp] theorem State.modTh_asking (s : State) (f : Thread → Thread) : (s.modTh f).asking = s.asking := rfl
@[simp] theorem State.modTh_fixes (s : State) (f : Thread → Thread) : (s.modTh f).fixes = s.fixes := rfl

/-! `State.modCore` -/
@[simp] theorem State.modCore_mem (s : State) (f : Core → Core) : (s.modCore f).mem = s.mem := rfl
@[simp] theorem State.modCore_old (s : State) (f : Core → Core) : (s.modCore f).old = s.old := rfl
@[simp] theorem State.modCore_sramErr (s : State) (f : Core → Core) : (s.modCore f).sramErr = s.sramErr := rfl
@[simp] theorem State.modCore_hbmErr (s : State) (f : Core → Core) : (s.modCore f).hbmErr = s.hbmErr := rfl
@[simp] theorem State.modCore_cxlPoison (s : State) (f : Core → Core) : (s.modCore f).cxlPoison = s.cxlPoison := rfl
@[simp] theorem State.modCore_threads (s : State) (f : Core → Core) : (s.modCore f).threads = s.threads := rfl
@[simp] theorem State.modCore_clusters (s : State) (f : Core → Core) : (s.modCore f).clusters = s.clusters := rfl
@[simp] theorem State.modCore_dies (s : State) (f : Core → Core) : (s.modCore f).dies = s.dies := rfl
@[simp] theorem State.modCore_pkgs (s : State) (f : Core → Core) : (s.modCore f).pkgs = s.pkgs := rfl
@[simp] theorem State.modCore_recs (s : State) (f : Core → Core) : (s.modCore f).recs = s.recs := rfl
@[simp] theorem State.modCore_doms (s : State) (f : Core → Core) : (s.modCore f).doms = s.doms := rfl
@[simp] theorem State.modCore_turns (s : State) (f : Core → Core) : (s.modCore f).turns = s.turns := rfl
@[simp] theorem State.modCore_cc (s : State) (f : Core → Core) : (s.modCore f).cc = s.cc := rfl
@[simp] theorem State.modCore_ct (s : State) (f : Core → Core) : (s.modCore f).ct = s.ct := rfl
@[simp] theorem State.modCore_fresh (s : State) (f : Core → Core) : (s.modCore f).fresh = s.fresh := rfl
@[simp] theorem State.modCore_pend (s : State) (f : Core → Core) : (s.modCore f).pend = s.pend := rfl
@[simp] theorem State.modCore_granted (s : State) (f : Core → Core) : (s.modCore f).granted = s.granted := rfl
@[simp] theorem State.modCore_paid (s : State) (f : Core → Core) : (s.modCore f).paid = s.paid := rfl
@[simp] theorem State.modCore_asking (s : State) (f : Core → Core) : (s.modCore f).asking = s.asking := rfl
@[simp] theorem State.modCore_fixes (s : State) (f : Core → Core) : (s.modCore f).fixes = s.fixes := rfl

/-! `State.modThreadAt` -/
@[simp] theorem State.modThreadAt_mem (s : State) (k : Nat) (f : Thread → Thread) : (s.modThreadAt k f).mem = s.mem := rfl
@[simp] theorem State.modThreadAt_old (s : State) (k : Nat) (f : Thread → Thread) : (s.modThreadAt k f).old = s.old := rfl
@[simp] theorem State.modThreadAt_sramErr (s : State) (k : Nat) (f : Thread → Thread) : (s.modThreadAt k f).sramErr = s.sramErr := rfl
@[simp] theorem State.modThreadAt_hbmErr (s : State) (k : Nat) (f : Thread → Thread) : (s.modThreadAt k f).hbmErr = s.hbmErr := rfl
@[simp] theorem State.modThreadAt_cxlPoison (s : State) (k : Nat) (f : Thread → Thread) : (s.modThreadAt k f).cxlPoison = s.cxlPoison := rfl
@[simp] theorem State.modThreadAt_cores (s : State) (k : Nat) (f : Thread → Thread) : (s.modThreadAt k f).cores = s.cores := rfl
@[simp] theorem State.modThreadAt_clusters (s : State) (k : Nat) (f : Thread → Thread) : (s.modThreadAt k f).clusters = s.clusters := rfl
@[simp] theorem State.modThreadAt_dies (s : State) (k : Nat) (f : Thread → Thread) : (s.modThreadAt k f).dies = s.dies := rfl
@[simp] theorem State.modThreadAt_pkgs (s : State) (k : Nat) (f : Thread → Thread) : (s.modThreadAt k f).pkgs = s.pkgs := rfl
@[simp] theorem State.modThreadAt_recs (s : State) (k : Nat) (f : Thread → Thread) : (s.modThreadAt k f).recs = s.recs := rfl
@[simp] theorem State.modThreadAt_doms (s : State) (k : Nat) (f : Thread → Thread) : (s.modThreadAt k f).doms = s.doms := rfl
@[simp] theorem State.modThreadAt_turns (s : State) (k : Nat) (f : Thread → Thread) : (s.modThreadAt k f).turns = s.turns := rfl
@[simp] theorem State.modThreadAt_cc (s : State) (k : Nat) (f : Thread → Thread) : (s.modThreadAt k f).cc = s.cc := rfl
@[simp] theorem State.modThreadAt_ct (s : State) (k : Nat) (f : Thread → Thread) : (s.modThreadAt k f).ct = s.ct := rfl
@[simp] theorem State.modThreadAt_fresh (s : State) (k : Nat) (f : Thread → Thread) : (s.modThreadAt k f).fresh = s.fresh := rfl
@[simp] theorem State.modThreadAt_pend (s : State) (k : Nat) (f : Thread → Thread) : (s.modThreadAt k f).pend = s.pend := rfl
@[simp] theorem State.modThreadAt_granted (s : State) (k : Nat) (f : Thread → Thread) : (s.modThreadAt k f).granted = s.granted := rfl
@[simp] theorem State.modThreadAt_paid (s : State) (k : Nat) (f : Thread → Thread) : (s.modThreadAt k f).paid = s.paid := rfl
@[simp] theorem State.modThreadAt_asking (s : State) (k : Nat) (f : Thread → Thread) : (s.modThreadAt k f).asking = s.asking := rfl
@[simp] theorem State.modThreadAt_fixes (s : State) (k : Nat) (f : Thread → Thread) : (s.modThreadAt k f).fixes = s.fixes := rfl

/-! `State.modCoreAt` -/
@[simp] theorem State.modCoreAt_mem (s : State) (k : Nat) (f : Core → Core) : (s.modCoreAt k f).mem = s.mem := rfl
@[simp] theorem State.modCoreAt_old (s : State) (k : Nat) (f : Core → Core) : (s.modCoreAt k f).old = s.old := rfl
@[simp] theorem State.modCoreAt_sramErr (s : State) (k : Nat) (f : Core → Core) : (s.modCoreAt k f).sramErr = s.sramErr := rfl
@[simp] theorem State.modCoreAt_hbmErr (s : State) (k : Nat) (f : Core → Core) : (s.modCoreAt k f).hbmErr = s.hbmErr := rfl
@[simp] theorem State.modCoreAt_cxlPoison (s : State) (k : Nat) (f : Core → Core) : (s.modCoreAt k f).cxlPoison = s.cxlPoison := rfl
@[simp] theorem State.modCoreAt_threads (s : State) (k : Nat) (f : Core → Core) : (s.modCoreAt k f).threads = s.threads := rfl
@[simp] theorem State.modCoreAt_clusters (s : State) (k : Nat) (f : Core → Core) : (s.modCoreAt k f).clusters = s.clusters := rfl
@[simp] theorem State.modCoreAt_dies (s : State) (k : Nat) (f : Core → Core) : (s.modCoreAt k f).dies = s.dies := rfl
@[simp] theorem State.modCoreAt_pkgs (s : State) (k : Nat) (f : Core → Core) : (s.modCoreAt k f).pkgs = s.pkgs := rfl
@[simp] theorem State.modCoreAt_recs (s : State) (k : Nat) (f : Core → Core) : (s.modCoreAt k f).recs = s.recs := rfl
@[simp] theorem State.modCoreAt_doms (s : State) (k : Nat) (f : Core → Core) : (s.modCoreAt k f).doms = s.doms := rfl
@[simp] theorem State.modCoreAt_turns (s : State) (k : Nat) (f : Core → Core) : (s.modCoreAt k f).turns = s.turns := rfl
@[simp] theorem State.modCoreAt_cc (s : State) (k : Nat) (f : Core → Core) : (s.modCoreAt k f).cc = s.cc := rfl
@[simp] theorem State.modCoreAt_ct (s : State) (k : Nat) (f : Core → Core) : (s.modCoreAt k f).ct = s.ct := rfl
@[simp] theorem State.modCoreAt_fresh (s : State) (k : Nat) (f : Core → Core) : (s.modCoreAt k f).fresh = s.fresh := rfl
@[simp] theorem State.modCoreAt_pend (s : State) (k : Nat) (f : Core → Core) : (s.modCoreAt k f).pend = s.pend := rfl
@[simp] theorem State.modCoreAt_granted (s : State) (k : Nat) (f : Core → Core) : (s.modCoreAt k f).granted = s.granted := rfl
@[simp] theorem State.modCoreAt_paid (s : State) (k : Nat) (f : Core → Core) : (s.modCoreAt k f).paid = s.paid := rfl
@[simp] theorem State.modCoreAt_asking (s : State) (k : Nat) (f : Core → Core) : (s.modCoreAt k f).asking = s.asking := rfl
@[simp] theorem State.modCoreAt_fixes (s : State) (k : Nat) (f : Core → Core) : (s.modCoreAt k f).fixes = s.fixes := rfl

/-! `State.modClusterAt` -/
@[simp] theorem State.modClusterAt_mem (s : State) (k : Nat) (f : Cluster → Cluster) : (s.modClusterAt k f).mem = s.mem := rfl
@[simp] theorem State.modClusterAt_old (s : State) (k : Nat) (f : Cluster → Cluster) : (s.modClusterAt k f).old = s.old := rfl
@[simp] theorem State.modClusterAt_sramErr (s : State) (k : Nat) (f : Cluster → Cluster) : (s.modClusterAt k f).sramErr = s.sramErr := rfl
@[simp] theorem State.modClusterAt_hbmErr (s : State) (k : Nat) (f : Cluster → Cluster) : (s.modClusterAt k f).hbmErr = s.hbmErr := rfl
@[simp] theorem State.modClusterAt_cxlPoison (s : State) (k : Nat) (f : Cluster → Cluster) : (s.modClusterAt k f).cxlPoison = s.cxlPoison := rfl
@[simp] theorem State.modClusterAt_threads (s : State) (k : Nat) (f : Cluster → Cluster) : (s.modClusterAt k f).threads = s.threads := rfl
@[simp] theorem State.modClusterAt_cores (s : State) (k : Nat) (f : Cluster → Cluster) : (s.modClusterAt k f).cores = s.cores := rfl
@[simp] theorem State.modClusterAt_dies (s : State) (k : Nat) (f : Cluster → Cluster) : (s.modClusterAt k f).dies = s.dies := rfl
@[simp] theorem State.modClusterAt_pkgs (s : State) (k : Nat) (f : Cluster → Cluster) : (s.modClusterAt k f).pkgs = s.pkgs := rfl
@[simp] theorem State.modClusterAt_recs (s : State) (k : Nat) (f : Cluster → Cluster) : (s.modClusterAt k f).recs = s.recs := rfl
@[simp] theorem State.modClusterAt_doms (s : State) (k : Nat) (f : Cluster → Cluster) : (s.modClusterAt k f).doms = s.doms := rfl
@[simp] theorem State.modClusterAt_turns (s : State) (k : Nat) (f : Cluster → Cluster) : (s.modClusterAt k f).turns = s.turns := rfl
@[simp] theorem State.modClusterAt_cc (s : State) (k : Nat) (f : Cluster → Cluster) : (s.modClusterAt k f).cc = s.cc := rfl
@[simp] theorem State.modClusterAt_ct (s : State) (k : Nat) (f : Cluster → Cluster) : (s.modClusterAt k f).ct = s.ct := rfl
@[simp] theorem State.modClusterAt_fresh (s : State) (k : Nat) (f : Cluster → Cluster) : (s.modClusterAt k f).fresh = s.fresh := rfl
@[simp] theorem State.modClusterAt_pend (s : State) (k : Nat) (f : Cluster → Cluster) : (s.modClusterAt k f).pend = s.pend := rfl
@[simp] theorem State.modClusterAt_granted (s : State) (k : Nat) (f : Cluster → Cluster) : (s.modClusterAt k f).granted = s.granted := rfl
@[simp] theorem State.modClusterAt_paid (s : State) (k : Nat) (f : Cluster → Cluster) : (s.modClusterAt k f).paid = s.paid := rfl
@[simp] theorem State.modClusterAt_asking (s : State) (k : Nat) (f : Cluster → Cluster) : (s.modClusterAt k f).asking = s.asking := rfl
@[simp] theorem State.modClusterAt_fixes (s : State) (k : Nat) (f : Cluster → Cluster) : (s.modClusterAt k f).fixes = s.fixes := rfl

/-! `State.modPkgAt` -/
@[simp] theorem State.modPkgAt_mem (s : State) (k : Nat) (f : Pkg → Pkg) : (s.modPkgAt k f).mem = s.mem := rfl
@[simp] theorem State.modPkgAt_old (s : State) (k : Nat) (f : Pkg → Pkg) : (s.modPkgAt k f).old = s.old := rfl
@[simp] theorem State.modPkgAt_sramErr (s : State) (k : Nat) (f : Pkg → Pkg) : (s.modPkgAt k f).sramErr = s.sramErr := rfl
@[simp] theorem State.modPkgAt_hbmErr (s : State) (k : Nat) (f : Pkg → Pkg) : (s.modPkgAt k f).hbmErr = s.hbmErr := rfl
@[simp] theorem State.modPkgAt_cxlPoison (s : State) (k : Nat) (f : Pkg → Pkg) : (s.modPkgAt k f).cxlPoison = s.cxlPoison := rfl
@[simp] theorem State.modPkgAt_threads (s : State) (k : Nat) (f : Pkg → Pkg) : (s.modPkgAt k f).threads = s.threads := rfl
@[simp] theorem State.modPkgAt_cores (s : State) (k : Nat) (f : Pkg → Pkg) : (s.modPkgAt k f).cores = s.cores := rfl
@[simp] theorem State.modPkgAt_clusters (s : State) (k : Nat) (f : Pkg → Pkg) : (s.modPkgAt k f).clusters = s.clusters := rfl
@[simp] theorem State.modPkgAt_dies (s : State) (k : Nat) (f : Pkg → Pkg) : (s.modPkgAt k f).dies = s.dies := rfl
@[simp] theorem State.modPkgAt_recs (s : State) (k : Nat) (f : Pkg → Pkg) : (s.modPkgAt k f).recs = s.recs := rfl
@[simp] theorem State.modPkgAt_doms (s : State) (k : Nat) (f : Pkg → Pkg) : (s.modPkgAt k f).doms = s.doms := rfl
@[simp] theorem State.modPkgAt_turns (s : State) (k : Nat) (f : Pkg → Pkg) : (s.modPkgAt k f).turns = s.turns := rfl
@[simp] theorem State.modPkgAt_cc (s : State) (k : Nat) (f : Pkg → Pkg) : (s.modPkgAt k f).cc = s.cc := rfl
@[simp] theorem State.modPkgAt_ct (s : State) (k : Nat) (f : Pkg → Pkg) : (s.modPkgAt k f).ct = s.ct := rfl
@[simp] theorem State.modPkgAt_fresh (s : State) (k : Nat) (f : Pkg → Pkg) : (s.modPkgAt k f).fresh = s.fresh := rfl
@[simp] theorem State.modPkgAt_pend (s : State) (k : Nat) (f : Pkg → Pkg) : (s.modPkgAt k f).pend = s.pend := rfl
@[simp] theorem State.modPkgAt_granted (s : State) (k : Nat) (f : Pkg → Pkg) : (s.modPkgAt k f).granted = s.granted := rfl
@[simp] theorem State.modPkgAt_paid (s : State) (k : Nat) (f : Pkg → Pkg) : (s.modPkgAt k f).paid = s.paid := rfl
@[simp] theorem State.modPkgAt_asking (s : State) (k : Nat) (f : Pkg → Pkg) : (s.modPkgAt k f).asking = s.asking := rfl
@[simp] theorem State.modPkgAt_fixes (s : State) (k : Nat) (f : Pkg → Pkg) : (s.modPkgAt k f).fixes = s.fixes := rfl

/-! `Thread.setV` -/
@[simp] theorem Thread.setV_bound (t : Thread) (r : VIdx) (x : VReg) : (t.setV r x).bound = t.bound := rfl
@[simp] theorem Thread.setV_rec_ (t : Thread) (r : VIdx) (x : VReg) : (t.setV r x).rec_ = t.rec_ := rfl
@[simp] theorem Thread.setV_flagE (t : Thread) (r : VIdx) (x : VReg) : (t.setV r x).flagE = t.flagE := rfl
@[simp] theorem Thread.setV_flagM (t : Thread) (r : VIdx) (x : VReg) : (t.setV r x).flagM = t.flagM := rfl
@[simp] theorem Thread.setV_flagT (t : Thread) (r : VIdx) (x : VReg) : (t.setV r x).flagT = t.flagT := rfl
@[simp] theorem Thread.setV_dom (t : Thread) (r : VIdx) (x : VReg) : (t.setV r x).dom = t.dom := rfl
@[simp] theorem Thread.setV_level (t : Thread) (r : VIdx) (x : VReg) : (t.setV r x).level = t.level := rfl
@[simp] theorem Thread.setV_prio (t : Thread) (r : VIdx) (x : VReg) : (t.setV r x).prio = t.prio := rfl
@[simp] theorem Thread.setV_w3 (t : Thread) (r : VIdx) (x : VReg) : (t.setV r x).w3 = t.w3 := rfl
@[simp] theorem Thread.setV_spn (t : Thread) (r : VIdx) (x : VReg) : (t.setV r x).spn = t.spn := rfl
@[simp] theorem Thread.setV_regs (t : Thread) (r : VIdx) (x : VReg) : (t.setV r x).regs = t.regs := rfl
@[simp] theorem Thread.setV_cwb (t : Thread) (r : VIdx) (x : VReg) : (t.setV r x).cwb = t.cwb := rfl
@[simp] theorem Thread.setV_inTrap (t : Thread) (r : VIdx) (x : VReg) : (t.setV r x).inTrap = t.inTrap := rfl
@[simp] theorem Thread.setV_p (t : Thread) (r : VIdx) (x : VReg) : (t.setV r x).p = t.p := rfl
@[simp] theorem Thread.setV_f (t : Thread) (r : VIdx) (x : VReg) : (t.setV r x).f = t.f := rfl
@[simp] theorem Thread.setV_ls (t : Thread) (r : VIdx) (x : VReg) : (t.setV r x).ls = t.ls := rfl
@[simp] theorem Thread.setV_le (t : Thread) (r : VIdx) (x : VReg) : (t.setV r x).le = t.le := rfl
@[simp] theorem Thread.setV_lc (t : Thread) (r : VIdx) (x : VReg) : (t.setV r x).lc = t.lc := rfl
@[simp] theorem Thread.setV_cls (t : Thread) (r : VIdx) (x : VReg) : (t.setV r x).cls = t.cls := rfl
@[simp] theorem Thread.setV_pc (t : Thread) (r : VIdx) (x : VReg) : (t.setV r x).pc = t.pc := rfl
@[simp] theorem Thread.setV_tvec (t : Thread) (r : VIdx) (x : VReg) : (t.setV r x).tvec = t.tvec := rfl
@[simp] theorem Thread.setV_tpc (t : Thread) (r : VIdx) (x : VReg) : (t.setV r x).tpc = t.tpc := rfl
@[simp] theorem Thread.setV_tcause (t : Thread) (r : VIdx) (x : VReg) : (t.setV r x).tcause = t.tcause := rfl
@[simp] theorem Thread.setV_tval (t : Thread) (r : VIdx) (x : VReg) : (t.setV r x).tval = t.tval := rfl
@[simp] theorem Thread.setV_tlLd (t : Thread) (r : VIdx) (x : VReg) : (t.setV r x).tlLd = t.tlLd := rfl
@[simp] theorem Thread.setV_tlCe (t : Thread) (r : VIdx) (x : VReg) : (t.setV r x).tlCe = t.tlCe := rfl
@[simp] theorem Thread.setV_tlTe (t : Thread) (r : VIdx) (x : VReg) : (t.setV r x).tlTe = t.tlTe := rfl
@[simp] theorem Thread.setV_tlMe (t : Thread) (r : VIdx) (x : VReg) : (t.setV r x).tlMe = t.tlMe := rfl
@[simp] theorem Thread.setV_res (t : Thread) (r : VIdx) (x : VReg) : (t.setV r x).res = t.res := rfl
@[simp] theorem Thread.setV_depth (t : Thread) (r : VIdx) (x : VReg) : (t.setV r x).depth = t.depth := rfl
@[simp] theorem Thread.setV_rngs (t : Thread) (r : VIdx) (x : VReg) : (t.setV r x).rngs = t.rngs := rfl
@[simp] theorem Thread.setV_ftrk (t : Thread) (r : VIdx) (x : VReg) : (t.setV r x).ftrk = t.ftrk := rfl
@[simp] theorem Thread.setV_ab (t : Thread) (r : VIdx) (x : VReg) : (t.setV r x).ab = t.ab := rfl
@[simp] theorem Thread.setV_al (t : Thread) (r : VIdx) (x : VReg) : (t.setV r x).al = t.al := rfl
@[simp] theorem Thread.setV_fsp (t : Thread) (r : VIdx) (x : VReg) : (t.setV r x).fsp = t.fsp := rfl
@[simp] theorem Thread.setV_frames (t : Thread) (r : VIdx) (x : VReg) : (t.setV r x).frames = t.frames := rfl
@[simp] theorem Thread.setV_binds (t : Thread) (r : VIdx) (x : VReg) : (t.setV r x).binds = t.binds := rfl
@[simp] theorem Thread.setV_waitN (t : Thread) (r : VIdx) (x : VReg) : (t.setV r x).waitN = t.waitN := rfl
@[simp] theorem Thread.setV_idle (t : Thread) (r : VIdx) (x : VReg) : (t.setV r x).idle = t.idle := rfl
@[simp] theorem Thread.setV_evf (t : Thread) (r : VIdx) (x : VReg) : (t.setV r x).evf = t.evf := rfl
@[simp] theorem Thread.setV_rq (t : Thread) (r : VIdx) (x : VReg) : (t.setV r x).rq = t.rq := rfl
@[simp] theorem Thread.setV_blocked (t : Thread) (r : VIdx) (x : VReg) : (t.setV r x).blocked = t.blocked := rfl
@[simp] theorem Thread.setV_delivered (t : Thread) (r : VIdx) (x : VReg) : (t.setV r x).delivered = t.delivered := rfl
@[simp] theorem Thread.setV_waiting (t : Thread) (r : VIdx) (x : VReg) : (t.setV r x).waiting = t.waiting := rfl
@[simp] theorem Thread.setV_waited (t : Thread) (r : VIdx) (x : VReg) : (t.setV r x).waited = t.waited := rfl
@[simp] theorem Thread.setV_wdTrap (t : Thread) (r : VIdx) (x : VReg) : (t.setV r x).wdTrap = t.wdTrap := rfl
@[simp] theorem Thread.setV_dsyncRes (t : Thread) (r : VIdx) (x : VReg) : (t.setV r x).dsyncRes = t.dsyncRes := rfl
@[simp] theorem Thread.setV_saving (t : Thread) (r : VIdx) (x : VReg) : (t.setV r x).saving = t.saving := rfl
@[simp] theorem Thread.setV_lastTime (t : Thread) (r : VIdx) (x : VReg) : (t.setV r x).lastTime = t.lastTime := rfl
@[simp] theorem Thread.setV_tbHold (t : Thread) (r : VIdx) (x : VReg) : (t.setV r x).tbHold = t.tbHold := rfl
@[simp] theorem Thread.setV_constFrom (t : Thread) (r : VIdx) (x : VReg) : (t.setV r x).constFrom = t.constFrom := rfl
@[simp] theorem Thread.setV_constSeen (t : Thread) (r : VIdx) (x : VReg) : (t.setV r x).constSeen = t.constSeen := rfl
@[simp] theorem Thread.setV_fetchFrom (t : Thread) (r : VIdx) (x : VReg) : (t.setV r x).fetchFrom = t.fetchFrom := rfl
@[simp] theorem Thread.setV_fetchOld (t : Thread) (r : VIdx) (x : VReg) : (t.setV r x).fetchOld = t.fetchOld := rfl
@[simp] theorem Thread.setV_gang (t : Thread) (r : VIdx) (x : VReg) : (t.setV r x).gang = t.gang := rfl
@[simp] theorem Thread.setV_ldq (t : Thread) (r : VIdx) (x : VReg) : (t.setV r x).ldq = t.ldq := rfl
@[simp] theorem Thread.setV_requeue (t : Thread) (r : VIdx) (x : VReg) : (t.setV r x).requeue = t.requeue := rfl
@[simp] theorem Thread.setV_tlbiWait (t : Thread) (r : VIdx) (x : VReg) : (t.setV r x).tlbiWait = t.tlbiWait := rfl
@[simp] theorem Thread.setV_sdropped (t : Thread) (r : VIdx) (x : VReg) : (t.setV r x).sdropped = t.sdropped := rfl
@[simp] theorem Thread.setV_dying (t : Thread) (r : VIdx) (x : VReg) : (t.setV r x).dying = t.dying := rfl
@[simp] theorem Thread.setV_dbl (t : Thread) (r : VIdx) (x : VReg) : (t.setV r x).dbl = t.dbl := rfl

/-! `Thread.setF` -/
@[simp] theorem Thread.setF_bound (t : Thread) (r : FIdx) (x : Future) : (t.setF r x).bound = t.bound := rfl
@[simp] theorem Thread.setF_rec_ (t : Thread) (r : FIdx) (x : Future) : (t.setF r x).rec_ = t.rec_ := rfl
@[simp] theorem Thread.setF_flagE (t : Thread) (r : FIdx) (x : Future) : (t.setF r x).flagE = t.flagE := rfl
@[simp] theorem Thread.setF_flagM (t : Thread) (r : FIdx) (x : Future) : (t.setF r x).flagM = t.flagM := rfl
@[simp] theorem Thread.setF_flagT (t : Thread) (r : FIdx) (x : Future) : (t.setF r x).flagT = t.flagT := rfl
@[simp] theorem Thread.setF_dom (t : Thread) (r : FIdx) (x : Future) : (t.setF r x).dom = t.dom := rfl
@[simp] theorem Thread.setF_level (t : Thread) (r : FIdx) (x : Future) : (t.setF r x).level = t.level := rfl
@[simp] theorem Thread.setF_prio (t : Thread) (r : FIdx) (x : Future) : (t.setF r x).prio = t.prio := rfl
@[simp] theorem Thread.setF_w3 (t : Thread) (r : FIdx) (x : Future) : (t.setF r x).w3 = t.w3 := rfl
@[simp] theorem Thread.setF_spn (t : Thread) (r : FIdx) (x : Future) : (t.setF r x).spn = t.spn := rfl
@[simp] theorem Thread.setF_regs (t : Thread) (r : FIdx) (x : Future) : (t.setF r x).regs = t.regs := rfl
@[simp] theorem Thread.setF_cwb (t : Thread) (r : FIdx) (x : Future) : (t.setF r x).cwb = t.cwb := rfl
@[simp] theorem Thread.setF_inTrap (t : Thread) (r : FIdx) (x : Future) : (t.setF r x).inTrap = t.inTrap := rfl
@[simp] theorem Thread.setF_v (t : Thread) (r : FIdx) (x : Future) : (t.setF r x).v = t.v := rfl
@[simp] theorem Thread.setF_p (t : Thread) (r : FIdx) (x : Future) : (t.setF r x).p = t.p := rfl
@[simp] theorem Thread.setF_ls (t : Thread) (r : FIdx) (x : Future) : (t.setF r x).ls = t.ls := rfl
@[simp] theorem Thread.setF_le (t : Thread) (r : FIdx) (x : Future) : (t.setF r x).le = t.le := rfl
@[simp] theorem Thread.setF_lc (t : Thread) (r : FIdx) (x : Future) : (t.setF r x).lc = t.lc := rfl
@[simp] theorem Thread.setF_cls (t : Thread) (r : FIdx) (x : Future) : (t.setF r x).cls = t.cls := rfl
@[simp] theorem Thread.setF_pc (t : Thread) (r : FIdx) (x : Future) : (t.setF r x).pc = t.pc := rfl
@[simp] theorem Thread.setF_tvec (t : Thread) (r : FIdx) (x : Future) : (t.setF r x).tvec = t.tvec := rfl
@[simp] theorem Thread.setF_tpc (t : Thread) (r : FIdx) (x : Future) : (t.setF r x).tpc = t.tpc := rfl
@[simp] theorem Thread.setF_tcause (t : Thread) (r : FIdx) (x : Future) : (t.setF r x).tcause = t.tcause := rfl
@[simp] theorem Thread.setF_tval (t : Thread) (r : FIdx) (x : Future) : (t.setF r x).tval = t.tval := rfl
@[simp] theorem Thread.setF_tlLd (t : Thread) (r : FIdx) (x : Future) : (t.setF r x).tlLd = t.tlLd := rfl
@[simp] theorem Thread.setF_tlCe (t : Thread) (r : FIdx) (x : Future) : (t.setF r x).tlCe = t.tlCe := rfl
@[simp] theorem Thread.setF_tlTe (t : Thread) (r : FIdx) (x : Future) : (t.setF r x).tlTe = t.tlTe := rfl
@[simp] theorem Thread.setF_tlMe (t : Thread) (r : FIdx) (x : Future) : (t.setF r x).tlMe = t.tlMe := rfl
@[simp] theorem Thread.setF_res (t : Thread) (r : FIdx) (x : Future) : (t.setF r x).res = t.res := rfl
@[simp] theorem Thread.setF_depth (t : Thread) (r : FIdx) (x : Future) : (t.setF r x).depth = t.depth := rfl
@[simp] theorem Thread.setF_rngs (t : Thread) (r : FIdx) (x : Future) : (t.setF r x).rngs = t.rngs := rfl
@[simp] theorem Thread.setF_ftrk (t : Thread) (r : FIdx) (x : Future) : (t.setF r x).ftrk = t.ftrk := rfl
@[simp] theorem Thread.setF_ab (t : Thread) (r : FIdx) (x : Future) : (t.setF r x).ab = t.ab := rfl
@[simp] theorem Thread.setF_al (t : Thread) (r : FIdx) (x : Future) : (t.setF r x).al = t.al := rfl
@[simp] theorem Thread.setF_fsp (t : Thread) (r : FIdx) (x : Future) : (t.setF r x).fsp = t.fsp := rfl
@[simp] theorem Thread.setF_frames (t : Thread) (r : FIdx) (x : Future) : (t.setF r x).frames = t.frames := rfl
@[simp] theorem Thread.setF_binds (t : Thread) (r : FIdx) (x : Future) : (t.setF r x).binds = t.binds := rfl
@[simp] theorem Thread.setF_vlive (t : Thread) (r : FIdx) (x : Future) : (t.setF r x).vlive = t.vlive := rfl
@[simp] theorem Thread.setF_waitN (t : Thread) (r : FIdx) (x : Future) : (t.setF r x).waitN = t.waitN := rfl
@[simp] theorem Thread.setF_idle (t : Thread) (r : FIdx) (x : Future) : (t.setF r x).idle = t.idle := rfl
@[simp] theorem Thread.setF_evf (t : Thread) (r : FIdx) (x : Future) : (t.setF r x).evf = t.evf := rfl
@[simp] theorem Thread.setF_rq (t : Thread) (r : FIdx) (x : Future) : (t.setF r x).rq = t.rq := rfl
@[simp] theorem Thread.setF_blocked (t : Thread) (r : FIdx) (x : Future) : (t.setF r x).blocked = t.blocked := rfl
@[simp] theorem Thread.setF_delivered (t : Thread) (r : FIdx) (x : Future) : (t.setF r x).delivered = t.delivered := rfl
@[simp] theorem Thread.setF_waiting (t : Thread) (r : FIdx) (x : Future) : (t.setF r x).waiting = t.waiting := rfl
@[simp] theorem Thread.setF_waited (t : Thread) (r : FIdx) (x : Future) : (t.setF r x).waited = t.waited := rfl
@[simp] theorem Thread.setF_wdTrap (t : Thread) (r : FIdx) (x : Future) : (t.setF r x).wdTrap = t.wdTrap := rfl
@[simp] theorem Thread.setF_dsyncRes (t : Thread) (r : FIdx) (x : Future) : (t.setF r x).dsyncRes = t.dsyncRes := rfl
@[simp] theorem Thread.setF_saving (t : Thread) (r : FIdx) (x : Future) : (t.setF r x).saving = t.saving := rfl
@[simp] theorem Thread.setF_lastTime (t : Thread) (r : FIdx) (x : Future) : (t.setF r x).lastTime = t.lastTime := rfl
@[simp] theorem Thread.setF_tbHold (t : Thread) (r : FIdx) (x : Future) : (t.setF r x).tbHold = t.tbHold := rfl
@[simp] theorem Thread.setF_constFrom (t : Thread) (r : FIdx) (x : Future) : (t.setF r x).constFrom = t.constFrom := rfl
@[simp] theorem Thread.setF_constSeen (t : Thread) (r : FIdx) (x : Future) : (t.setF r x).constSeen = t.constSeen := rfl
@[simp] theorem Thread.setF_fetchFrom (t : Thread) (r : FIdx) (x : Future) : (t.setF r x).fetchFrom = t.fetchFrom := rfl
@[simp] theorem Thread.setF_fetchOld (t : Thread) (r : FIdx) (x : Future) : (t.setF r x).fetchOld = t.fetchOld := rfl
@[simp] theorem Thread.setF_gang (t : Thread) (r : FIdx) (x : Future) : (t.setF r x).gang = t.gang := rfl
@[simp] theorem Thread.setF_ldq (t : Thread) (r : FIdx) (x : Future) : (t.setF r x).ldq = t.ldq := rfl
@[simp] theorem Thread.setF_requeue (t : Thread) (r : FIdx) (x : Future) : (t.setF r x).requeue = t.requeue := rfl
@[simp] theorem Thread.setF_tlbiWait (t : Thread) (r : FIdx) (x : Future) : (t.setF r x).tlbiWait = t.tlbiWait := rfl
@[simp] theorem Thread.setF_sdropped (t : Thread) (r : FIdx) (x : Future) : (t.setF r x).sdropped = t.sdropped := rfl
@[simp] theorem Thread.setF_dying (t : Thread) (r : FIdx) (x : Future) : (t.setF r x).dying = t.dying := rfl
@[simp] theorem Thread.setF_dbl (t : Thread) (r : FIdx) (x : Future) : (t.setF r x).dbl = t.dbl := rfl

/-! `Thread.setLs` -/
@[simp] theorem Thread.setLs_bound (t : Thread) (n : Nat) (x : Word) : (t.setLs n x).bound = t.bound := rfl
@[simp] theorem Thread.setLs_rec_ (t : Thread) (n : Nat) (x : Word) : (t.setLs n x).rec_ = t.rec_ := rfl
@[simp] theorem Thread.setLs_flagE (t : Thread) (n : Nat) (x : Word) : (t.setLs n x).flagE = t.flagE := rfl
@[simp] theorem Thread.setLs_flagM (t : Thread) (n : Nat) (x : Word) : (t.setLs n x).flagM = t.flagM := rfl
@[simp] theorem Thread.setLs_flagT (t : Thread) (n : Nat) (x : Word) : (t.setLs n x).flagT = t.flagT := rfl
@[simp] theorem Thread.setLs_dom (t : Thread) (n : Nat) (x : Word) : (t.setLs n x).dom = t.dom := rfl
@[simp] theorem Thread.setLs_level (t : Thread) (n : Nat) (x : Word) : (t.setLs n x).level = t.level := rfl
@[simp] theorem Thread.setLs_prio (t : Thread) (n : Nat) (x : Word) : (t.setLs n x).prio = t.prio := rfl
@[simp] theorem Thread.setLs_w3 (t : Thread) (n : Nat) (x : Word) : (t.setLs n x).w3 = t.w3 := rfl
@[simp] theorem Thread.setLs_spn (t : Thread) (n : Nat) (x : Word) : (t.setLs n x).spn = t.spn := rfl
@[simp] theorem Thread.setLs_regs (t : Thread) (n : Nat) (x : Word) : (t.setLs n x).regs = t.regs := rfl
@[simp] theorem Thread.setLs_cwb (t : Thread) (n : Nat) (x : Word) : (t.setLs n x).cwb = t.cwb := rfl
@[simp] theorem Thread.setLs_inTrap (t : Thread) (n : Nat) (x : Word) : (t.setLs n x).inTrap = t.inTrap := rfl
@[simp] theorem Thread.setLs_v (t : Thread) (n : Nat) (x : Word) : (t.setLs n x).v = t.v := rfl
@[simp] theorem Thread.setLs_p (t : Thread) (n : Nat) (x : Word) : (t.setLs n x).p = t.p := rfl
@[simp] theorem Thread.setLs_f (t : Thread) (n : Nat) (x : Word) : (t.setLs n x).f = t.f := rfl
@[simp] theorem Thread.setLs_le (t : Thread) (n : Nat) (x : Word) : (t.setLs n x).le = t.le := rfl
@[simp] theorem Thread.setLs_lc (t : Thread) (n : Nat) (x : Word) : (t.setLs n x).lc = t.lc := rfl
@[simp] theorem Thread.setLs_cls (t : Thread) (n : Nat) (x : Word) : (t.setLs n x).cls = t.cls := rfl
@[simp] theorem Thread.setLs_pc (t : Thread) (n : Nat) (x : Word) : (t.setLs n x).pc = t.pc := rfl
@[simp] theorem Thread.setLs_tvec (t : Thread) (n : Nat) (x : Word) : (t.setLs n x).tvec = t.tvec := rfl
@[simp] theorem Thread.setLs_tpc (t : Thread) (n : Nat) (x : Word) : (t.setLs n x).tpc = t.tpc := rfl
@[simp] theorem Thread.setLs_tcause (t : Thread) (n : Nat) (x : Word) : (t.setLs n x).tcause = t.tcause := rfl
@[simp] theorem Thread.setLs_tval (t : Thread) (n : Nat) (x : Word) : (t.setLs n x).tval = t.tval := rfl
@[simp] theorem Thread.setLs_tlLd (t : Thread) (n : Nat) (x : Word) : (t.setLs n x).tlLd = t.tlLd := rfl
@[simp] theorem Thread.setLs_tlCe (t : Thread) (n : Nat) (x : Word) : (t.setLs n x).tlCe = t.tlCe := rfl
@[simp] theorem Thread.setLs_tlTe (t : Thread) (n : Nat) (x : Word) : (t.setLs n x).tlTe = t.tlTe := rfl
@[simp] theorem Thread.setLs_tlMe (t : Thread) (n : Nat) (x : Word) : (t.setLs n x).tlMe = t.tlMe := rfl
@[simp] theorem Thread.setLs_res (t : Thread) (n : Nat) (x : Word) : (t.setLs n x).res = t.res := rfl
@[simp] theorem Thread.setLs_depth (t : Thread) (n : Nat) (x : Word) : (t.setLs n x).depth = t.depth := rfl
@[simp] theorem Thread.setLs_rngs (t : Thread) (n : Nat) (x : Word) : (t.setLs n x).rngs = t.rngs := rfl
@[simp] theorem Thread.setLs_ftrk (t : Thread) (n : Nat) (x : Word) : (t.setLs n x).ftrk = t.ftrk := rfl
@[simp] theorem Thread.setLs_ab (t : Thread) (n : Nat) (x : Word) : (t.setLs n x).ab = t.ab := rfl
@[simp] theorem Thread.setLs_al (t : Thread) (n : Nat) (x : Word) : (t.setLs n x).al = t.al := rfl
@[simp] theorem Thread.setLs_fsp (t : Thread) (n : Nat) (x : Word) : (t.setLs n x).fsp = t.fsp := rfl
@[simp] theorem Thread.setLs_frames (t : Thread) (n : Nat) (x : Word) : (t.setLs n x).frames = t.frames := rfl
@[simp] theorem Thread.setLs_binds (t : Thread) (n : Nat) (x : Word) : (t.setLs n x).binds = t.binds := rfl
@[simp] theorem Thread.setLs_vlive (t : Thread) (n : Nat) (x : Word) : (t.setLs n x).vlive = t.vlive := rfl
@[simp] theorem Thread.setLs_waitN (t : Thread) (n : Nat) (x : Word) : (t.setLs n x).waitN = t.waitN := rfl
@[simp] theorem Thread.setLs_idle (t : Thread) (n : Nat) (x : Word) : (t.setLs n x).idle = t.idle := rfl
@[simp] theorem Thread.setLs_evf (t : Thread) (n : Nat) (x : Word) : (t.setLs n x).evf = t.evf := rfl
@[simp] theorem Thread.setLs_rq (t : Thread) (n : Nat) (x : Word) : (t.setLs n x).rq = t.rq := rfl
@[simp] theorem Thread.setLs_blocked (t : Thread) (n : Nat) (x : Word) : (t.setLs n x).blocked = t.blocked := rfl
@[simp] theorem Thread.setLs_delivered (t : Thread) (n : Nat) (x : Word) : (t.setLs n x).delivered = t.delivered := rfl
@[simp] theorem Thread.setLs_waiting (t : Thread) (n : Nat) (x : Word) : (t.setLs n x).waiting = t.waiting := rfl
@[simp] theorem Thread.setLs_waited (t : Thread) (n : Nat) (x : Word) : (t.setLs n x).waited = t.waited := rfl
@[simp] theorem Thread.setLs_wdTrap (t : Thread) (n : Nat) (x : Word) : (t.setLs n x).wdTrap = t.wdTrap := rfl
@[simp] theorem Thread.setLs_dsyncRes (t : Thread) (n : Nat) (x : Word) : (t.setLs n x).dsyncRes = t.dsyncRes := rfl
@[simp] theorem Thread.setLs_saving (t : Thread) (n : Nat) (x : Word) : (t.setLs n x).saving = t.saving := rfl
@[simp] theorem Thread.setLs_lastTime (t : Thread) (n : Nat) (x : Word) : (t.setLs n x).lastTime = t.lastTime := rfl
@[simp] theorem Thread.setLs_tbHold (t : Thread) (n : Nat) (x : Word) : (t.setLs n x).tbHold = t.tbHold := rfl
@[simp] theorem Thread.setLs_constFrom (t : Thread) (n : Nat) (x : Word) : (t.setLs n x).constFrom = t.constFrom := rfl
@[simp] theorem Thread.setLs_errs (t : Thread) (n : Nat) (x : Word) : (t.setLs n x).errs = t.errs := rfl
@[simp] theorem Thread.setLs_constSeen (t : Thread) (n : Nat) (x : Word) : (t.setLs n x).constSeen = t.constSeen := rfl
@[simp] theorem Thread.setLs_fetchFrom (t : Thread) (n : Nat) (x : Word) : (t.setLs n x).fetchFrom = t.fetchFrom := rfl
@[simp] theorem Thread.setLs_fetchOld (t : Thread) (n : Nat) (x : Word) : (t.setLs n x).fetchOld = t.fetchOld := rfl
@[simp] theorem Thread.setLs_gang (t : Thread) (n : Nat) (x : Word) : (t.setLs n x).gang = t.gang := rfl
@[simp] theorem Thread.setLs_ldq (t : Thread) (n : Nat) (x : Word) : (t.setLs n x).ldq = t.ldq := rfl
@[simp] theorem Thread.setLs_requeue (t : Thread) (n : Nat) (x : Word) : (t.setLs n x).requeue = t.requeue := rfl
@[simp] theorem Thread.setLs_tlbiWait (t : Thread) (n : Nat) (x : Word) : (t.setLs n x).tlbiWait = t.tlbiWait := rfl
@[simp] theorem Thread.setLs_sdropped (t : Thread) (n : Nat) (x : Word) : (t.setLs n x).sdropped = t.sdropped := rfl
@[simp] theorem Thread.setLs_dying (t : Thread) (n : Nat) (x : Word) : (t.setLs n x).dying = t.dying := rfl
@[simp] theorem Thread.setLs_dbl (t : Thread) (n : Nat) (x : Word) : (t.setLs n x).dbl = t.dbl := rfl

/-! `Thread.setLe` -/
@[simp] theorem Thread.setLe_bound (t : Thread) (n : Nat) (x : Word) : (t.setLe n x).bound = t.bound := rfl
@[simp] theorem Thread.setLe_rec_ (t : Thread) (n : Nat) (x : Word) : (t.setLe n x).rec_ = t.rec_ := rfl
@[simp] theorem Thread.setLe_flagE (t : Thread) (n : Nat) (x : Word) : (t.setLe n x).flagE = t.flagE := rfl
@[simp] theorem Thread.setLe_flagM (t : Thread) (n : Nat) (x : Word) : (t.setLe n x).flagM = t.flagM := rfl
@[simp] theorem Thread.setLe_flagT (t : Thread) (n : Nat) (x : Word) : (t.setLe n x).flagT = t.flagT := rfl
@[simp] theorem Thread.setLe_dom (t : Thread) (n : Nat) (x : Word) : (t.setLe n x).dom = t.dom := rfl
@[simp] theorem Thread.setLe_level (t : Thread) (n : Nat) (x : Word) : (t.setLe n x).level = t.level := rfl
@[simp] theorem Thread.setLe_prio (t : Thread) (n : Nat) (x : Word) : (t.setLe n x).prio = t.prio := rfl
@[simp] theorem Thread.setLe_w3 (t : Thread) (n : Nat) (x : Word) : (t.setLe n x).w3 = t.w3 := rfl
@[simp] theorem Thread.setLe_spn (t : Thread) (n : Nat) (x : Word) : (t.setLe n x).spn = t.spn := rfl
@[simp] theorem Thread.setLe_regs (t : Thread) (n : Nat) (x : Word) : (t.setLe n x).regs = t.regs := rfl
@[simp] theorem Thread.setLe_cwb (t : Thread) (n : Nat) (x : Word) : (t.setLe n x).cwb = t.cwb := rfl
@[simp] theorem Thread.setLe_inTrap (t : Thread) (n : Nat) (x : Word) : (t.setLe n x).inTrap = t.inTrap := rfl
@[simp] theorem Thread.setLe_v (t : Thread) (n : Nat) (x : Word) : (t.setLe n x).v = t.v := rfl
@[simp] theorem Thread.setLe_p (t : Thread) (n : Nat) (x : Word) : (t.setLe n x).p = t.p := rfl
@[simp] theorem Thread.setLe_f (t : Thread) (n : Nat) (x : Word) : (t.setLe n x).f = t.f := rfl
@[simp] theorem Thread.setLe_ls (t : Thread) (n : Nat) (x : Word) : (t.setLe n x).ls = t.ls := rfl
@[simp] theorem Thread.setLe_lc (t : Thread) (n : Nat) (x : Word) : (t.setLe n x).lc = t.lc := rfl
@[simp] theorem Thread.setLe_cls (t : Thread) (n : Nat) (x : Word) : (t.setLe n x).cls = t.cls := rfl
@[simp] theorem Thread.setLe_pc (t : Thread) (n : Nat) (x : Word) : (t.setLe n x).pc = t.pc := rfl
@[simp] theorem Thread.setLe_tvec (t : Thread) (n : Nat) (x : Word) : (t.setLe n x).tvec = t.tvec := rfl
@[simp] theorem Thread.setLe_tpc (t : Thread) (n : Nat) (x : Word) : (t.setLe n x).tpc = t.tpc := rfl
@[simp] theorem Thread.setLe_tcause (t : Thread) (n : Nat) (x : Word) : (t.setLe n x).tcause = t.tcause := rfl
@[simp] theorem Thread.setLe_tval (t : Thread) (n : Nat) (x : Word) : (t.setLe n x).tval = t.tval := rfl
@[simp] theorem Thread.setLe_tlLd (t : Thread) (n : Nat) (x : Word) : (t.setLe n x).tlLd = t.tlLd := rfl
@[simp] theorem Thread.setLe_tlCe (t : Thread) (n : Nat) (x : Word) : (t.setLe n x).tlCe = t.tlCe := rfl
@[simp] theorem Thread.setLe_tlTe (t : Thread) (n : Nat) (x : Word) : (t.setLe n x).tlTe = t.tlTe := rfl
@[simp] theorem Thread.setLe_tlMe (t : Thread) (n : Nat) (x : Word) : (t.setLe n x).tlMe = t.tlMe := rfl
@[simp] theorem Thread.setLe_res (t : Thread) (n : Nat) (x : Word) : (t.setLe n x).res = t.res := rfl
@[simp] theorem Thread.setLe_depth (t : Thread) (n : Nat) (x : Word) : (t.setLe n x).depth = t.depth := rfl
@[simp] theorem Thread.setLe_rngs (t : Thread) (n : Nat) (x : Word) : (t.setLe n x).rngs = t.rngs := rfl
@[simp] theorem Thread.setLe_ftrk (t : Thread) (n : Nat) (x : Word) : (t.setLe n x).ftrk = t.ftrk := rfl
@[simp] theorem Thread.setLe_ab (t : Thread) (n : Nat) (x : Word) : (t.setLe n x).ab = t.ab := rfl
@[simp] theorem Thread.setLe_al (t : Thread) (n : Nat) (x : Word) : (t.setLe n x).al = t.al := rfl
@[simp] theorem Thread.setLe_fsp (t : Thread) (n : Nat) (x : Word) : (t.setLe n x).fsp = t.fsp := rfl
@[simp] theorem Thread.setLe_frames (t : Thread) (n : Nat) (x : Word) : (t.setLe n x).frames = t.frames := rfl
@[simp] theorem Thread.setLe_binds (t : Thread) (n : Nat) (x : Word) : (t.setLe n x).binds = t.binds := rfl
@[simp] theorem Thread.setLe_vlive (t : Thread) (n : Nat) (x : Word) : (t.setLe n x).vlive = t.vlive := rfl
@[simp] theorem Thread.setLe_waitN (t : Thread) (n : Nat) (x : Word) : (t.setLe n x).waitN = t.waitN := rfl
@[simp] theorem Thread.setLe_idle (t : Thread) (n : Nat) (x : Word) : (t.setLe n x).idle = t.idle := rfl
@[simp] theorem Thread.setLe_evf (t : Thread) (n : Nat) (x : Word) : (t.setLe n x).evf = t.evf := rfl
@[simp] theorem Thread.setLe_rq (t : Thread) (n : Nat) (x : Word) : (t.setLe n x).rq = t.rq := rfl
@[simp] theorem Thread.setLe_blocked (t : Thread) (n : Nat) (x : Word) : (t.setLe n x).blocked = t.blocked := rfl
@[simp] theorem Thread.setLe_delivered (t : Thread) (n : Nat) (x : Word) : (t.setLe n x).delivered = t.delivered := rfl
@[simp] theorem Thread.setLe_waiting (t : Thread) (n : Nat) (x : Word) : (t.setLe n x).waiting = t.waiting := rfl
@[simp] theorem Thread.setLe_waited (t : Thread) (n : Nat) (x : Word) : (t.setLe n x).waited = t.waited := rfl
@[simp] theorem Thread.setLe_wdTrap (t : Thread) (n : Nat) (x : Word) : (t.setLe n x).wdTrap = t.wdTrap := rfl
@[simp] theorem Thread.setLe_dsyncRes (t : Thread) (n : Nat) (x : Word) : (t.setLe n x).dsyncRes = t.dsyncRes := rfl
@[simp] theorem Thread.setLe_saving (t : Thread) (n : Nat) (x : Word) : (t.setLe n x).saving = t.saving := rfl
@[simp] theorem Thread.setLe_lastTime (t : Thread) (n : Nat) (x : Word) : (t.setLe n x).lastTime = t.lastTime := rfl
@[simp] theorem Thread.setLe_tbHold (t : Thread) (n : Nat) (x : Word) : (t.setLe n x).tbHold = t.tbHold := rfl
@[simp] theorem Thread.setLe_constFrom (t : Thread) (n : Nat) (x : Word) : (t.setLe n x).constFrom = t.constFrom := rfl
@[simp] theorem Thread.setLe_errs (t : Thread) (n : Nat) (x : Word) : (t.setLe n x).errs = t.errs := rfl
@[simp] theorem Thread.setLe_constSeen (t : Thread) (n : Nat) (x : Word) : (t.setLe n x).constSeen = t.constSeen := rfl
@[simp] theorem Thread.setLe_fetchFrom (t : Thread) (n : Nat) (x : Word) : (t.setLe n x).fetchFrom = t.fetchFrom := rfl
@[simp] theorem Thread.setLe_fetchOld (t : Thread) (n : Nat) (x : Word) : (t.setLe n x).fetchOld = t.fetchOld := rfl
@[simp] theorem Thread.setLe_gang (t : Thread) (n : Nat) (x : Word) : (t.setLe n x).gang = t.gang := rfl
@[simp] theorem Thread.setLe_ldq (t : Thread) (n : Nat) (x : Word) : (t.setLe n x).ldq = t.ldq := rfl
@[simp] theorem Thread.setLe_requeue (t : Thread) (n : Nat) (x : Word) : (t.setLe n x).requeue = t.requeue := rfl
@[simp] theorem Thread.setLe_tlbiWait (t : Thread) (n : Nat) (x : Word) : (t.setLe n x).tlbiWait = t.tlbiWait := rfl
@[simp] theorem Thread.setLe_sdropped (t : Thread) (n : Nat) (x : Word) : (t.setLe n x).sdropped = t.sdropped := rfl
@[simp] theorem Thread.setLe_dying (t : Thread) (n : Nat) (x : Word) : (t.setLe n x).dying = t.dying := rfl
@[simp] theorem Thread.setLe_dbl (t : Thread) (n : Nat) (x : Word) : (t.setLe n x).dbl = t.dbl := rfl

/-! `Thread.setLc` -/
@[simp] theorem Thread.setLc_bound (t : Thread) (n : Nat) (x : Word) : (t.setLc n x).bound = t.bound := rfl
@[simp] theorem Thread.setLc_rec_ (t : Thread) (n : Nat) (x : Word) : (t.setLc n x).rec_ = t.rec_ := rfl
@[simp] theorem Thread.setLc_flagE (t : Thread) (n : Nat) (x : Word) : (t.setLc n x).flagE = t.flagE := rfl
@[simp] theorem Thread.setLc_flagM (t : Thread) (n : Nat) (x : Word) : (t.setLc n x).flagM = t.flagM := rfl
@[simp] theorem Thread.setLc_flagT (t : Thread) (n : Nat) (x : Word) : (t.setLc n x).flagT = t.flagT := rfl
@[simp] theorem Thread.setLc_dom (t : Thread) (n : Nat) (x : Word) : (t.setLc n x).dom = t.dom := rfl
@[simp] theorem Thread.setLc_level (t : Thread) (n : Nat) (x : Word) : (t.setLc n x).level = t.level := rfl
@[simp] theorem Thread.setLc_prio (t : Thread) (n : Nat) (x : Word) : (t.setLc n x).prio = t.prio := rfl
@[simp] theorem Thread.setLc_w3 (t : Thread) (n : Nat) (x : Word) : (t.setLc n x).w3 = t.w3 := rfl
@[simp] theorem Thread.setLc_spn (t : Thread) (n : Nat) (x : Word) : (t.setLc n x).spn = t.spn := rfl
@[simp] theorem Thread.setLc_regs (t : Thread) (n : Nat) (x : Word) : (t.setLc n x).regs = t.regs := rfl
@[simp] theorem Thread.setLc_cwb (t : Thread) (n : Nat) (x : Word) : (t.setLc n x).cwb = t.cwb := rfl
@[simp] theorem Thread.setLc_inTrap (t : Thread) (n : Nat) (x : Word) : (t.setLc n x).inTrap = t.inTrap := rfl
@[simp] theorem Thread.setLc_v (t : Thread) (n : Nat) (x : Word) : (t.setLc n x).v = t.v := rfl
@[simp] theorem Thread.setLc_p (t : Thread) (n : Nat) (x : Word) : (t.setLc n x).p = t.p := rfl
@[simp] theorem Thread.setLc_f (t : Thread) (n : Nat) (x : Word) : (t.setLc n x).f = t.f := rfl
@[simp] theorem Thread.setLc_ls (t : Thread) (n : Nat) (x : Word) : (t.setLc n x).ls = t.ls := rfl
@[simp] theorem Thread.setLc_le (t : Thread) (n : Nat) (x : Word) : (t.setLc n x).le = t.le := rfl
@[simp] theorem Thread.setLc_cls (t : Thread) (n : Nat) (x : Word) : (t.setLc n x).cls = t.cls := rfl
@[simp] theorem Thread.setLc_pc (t : Thread) (n : Nat) (x : Word) : (t.setLc n x).pc = t.pc := rfl
@[simp] theorem Thread.setLc_tvec (t : Thread) (n : Nat) (x : Word) : (t.setLc n x).tvec = t.tvec := rfl
@[simp] theorem Thread.setLc_tpc (t : Thread) (n : Nat) (x : Word) : (t.setLc n x).tpc = t.tpc := rfl
@[simp] theorem Thread.setLc_tcause (t : Thread) (n : Nat) (x : Word) : (t.setLc n x).tcause = t.tcause := rfl
@[simp] theorem Thread.setLc_tval (t : Thread) (n : Nat) (x : Word) : (t.setLc n x).tval = t.tval := rfl
@[simp] theorem Thread.setLc_tlLd (t : Thread) (n : Nat) (x : Word) : (t.setLc n x).tlLd = t.tlLd := rfl
@[simp] theorem Thread.setLc_tlCe (t : Thread) (n : Nat) (x : Word) : (t.setLc n x).tlCe = t.tlCe := rfl
@[simp] theorem Thread.setLc_tlTe (t : Thread) (n : Nat) (x : Word) : (t.setLc n x).tlTe = t.tlTe := rfl
@[simp] theorem Thread.setLc_tlMe (t : Thread) (n : Nat) (x : Word) : (t.setLc n x).tlMe = t.tlMe := rfl
@[simp] theorem Thread.setLc_res (t : Thread) (n : Nat) (x : Word) : (t.setLc n x).res = t.res := rfl
@[simp] theorem Thread.setLc_depth (t : Thread) (n : Nat) (x : Word) : (t.setLc n x).depth = t.depth := rfl
@[simp] theorem Thread.setLc_rngs (t : Thread) (n : Nat) (x : Word) : (t.setLc n x).rngs = t.rngs := rfl
@[simp] theorem Thread.setLc_ftrk (t : Thread) (n : Nat) (x : Word) : (t.setLc n x).ftrk = t.ftrk := rfl
@[simp] theorem Thread.setLc_ab (t : Thread) (n : Nat) (x : Word) : (t.setLc n x).ab = t.ab := rfl
@[simp] theorem Thread.setLc_al (t : Thread) (n : Nat) (x : Word) : (t.setLc n x).al = t.al := rfl
@[simp] theorem Thread.setLc_fsp (t : Thread) (n : Nat) (x : Word) : (t.setLc n x).fsp = t.fsp := rfl
@[simp] theorem Thread.setLc_frames (t : Thread) (n : Nat) (x : Word) : (t.setLc n x).frames = t.frames := rfl
@[simp] theorem Thread.setLc_binds (t : Thread) (n : Nat) (x : Word) : (t.setLc n x).binds = t.binds := rfl
@[simp] theorem Thread.setLc_vlive (t : Thread) (n : Nat) (x : Word) : (t.setLc n x).vlive = t.vlive := rfl
@[simp] theorem Thread.setLc_waitN (t : Thread) (n : Nat) (x : Word) : (t.setLc n x).waitN = t.waitN := rfl
@[simp] theorem Thread.setLc_idle (t : Thread) (n : Nat) (x : Word) : (t.setLc n x).idle = t.idle := rfl
@[simp] theorem Thread.setLc_evf (t : Thread) (n : Nat) (x : Word) : (t.setLc n x).evf = t.evf := rfl
@[simp] theorem Thread.setLc_rq (t : Thread) (n : Nat) (x : Word) : (t.setLc n x).rq = t.rq := rfl
@[simp] theorem Thread.setLc_blocked (t : Thread) (n : Nat) (x : Word) : (t.setLc n x).blocked = t.blocked := rfl
@[simp] theorem Thread.setLc_delivered (t : Thread) (n : Nat) (x : Word) : (t.setLc n x).delivered = t.delivered := rfl
@[simp] theorem Thread.setLc_waiting (t : Thread) (n : Nat) (x : Word) : (t.setLc n x).waiting = t.waiting := rfl
@[simp] theorem Thread.setLc_waited (t : Thread) (n : Nat) (x : Word) : (t.setLc n x).waited = t.waited := rfl
@[simp] theorem Thread.setLc_wdTrap (t : Thread) (n : Nat) (x : Word) : (t.setLc n x).wdTrap = t.wdTrap := rfl
@[simp] theorem Thread.setLc_dsyncRes (t : Thread) (n : Nat) (x : Word) : (t.setLc n x).dsyncRes = t.dsyncRes := rfl
@[simp] theorem Thread.setLc_saving (t : Thread) (n : Nat) (x : Word) : (t.setLc n x).saving = t.saving := rfl
@[simp] theorem Thread.setLc_lastTime (t : Thread) (n : Nat) (x : Word) : (t.setLc n x).lastTime = t.lastTime := rfl
@[simp] theorem Thread.setLc_tbHold (t : Thread) (n : Nat) (x : Word) : (t.setLc n x).tbHold = t.tbHold := rfl
@[simp] theorem Thread.setLc_constFrom (t : Thread) (n : Nat) (x : Word) : (t.setLc n x).constFrom = t.constFrom := rfl
@[simp] theorem Thread.setLc_errs (t : Thread) (n : Nat) (x : Word) : (t.setLc n x).errs = t.errs := rfl
@[simp] theorem Thread.setLc_constSeen (t : Thread) (n : Nat) (x : Word) : (t.setLc n x).constSeen = t.constSeen := rfl
@[simp] theorem Thread.setLc_fetchFrom (t : Thread) (n : Nat) (x : Word) : (t.setLc n x).fetchFrom = t.fetchFrom := rfl
@[simp] theorem Thread.setLc_fetchOld (t : Thread) (n : Nat) (x : Word) : (t.setLc n x).fetchOld = t.fetchOld := rfl
@[simp] theorem Thread.setLc_gang (t : Thread) (n : Nat) (x : Word) : (t.setLc n x).gang = t.gang := rfl
@[simp] theorem Thread.setLc_ldq (t : Thread) (n : Nat) (x : Word) : (t.setLc n x).ldq = t.ldq := rfl
@[simp] theorem Thread.setLc_requeue (t : Thread) (n : Nat) (x : Word) : (t.setLc n x).requeue = t.requeue := rfl
@[simp] theorem Thread.setLc_tlbiWait (t : Thread) (n : Nat) (x : Word) : (t.setLc n x).tlbiWait = t.tlbiWait := rfl
@[simp] theorem Thread.setLc_sdropped (t : Thread) (n : Nat) (x : Word) : (t.setLc n x).sdropped = t.sdropped := rfl
@[simp] theorem Thread.setLc_dying (t : Thread) (n : Nat) (x : Word) : (t.setLc n x).dying = t.dying := rfl
@[simp] theorem Thread.setLc_dbl (t : Thread) (n : Nat) (x : Word) : (t.setLc n x).dbl = t.dbl := rfl

/-! `Thread.setG` -/
@[simp] theorem Thread.setG_bound (t : Thread) (r : GReg) (x : Word) : (t.setG r x).bound = t.bound := by unfold Thread.setG; split <;> rfl
@[simp] theorem Thread.setG_rec_ (t : Thread) (r : GReg) (x : Word) : (t.setG r x).rec_ = t.rec_ := by unfold Thread.setG; split <;> rfl
@[simp] theorem Thread.setG_flagE (t : Thread) (r : GReg) (x : Word) : (t.setG r x).flagE = t.flagE := by unfold Thread.setG; split <;> rfl
@[simp] theorem Thread.setG_flagM (t : Thread) (r : GReg) (x : Word) : (t.setG r x).flagM = t.flagM := by unfold Thread.setG; split <;> rfl
@[simp] theorem Thread.setG_flagT (t : Thread) (r : GReg) (x : Word) : (t.setG r x).flagT = t.flagT := by unfold Thread.setG; split <;> rfl
@[simp] theorem Thread.setG_dom (t : Thread) (r : GReg) (x : Word) : (t.setG r x).dom = t.dom := by unfold Thread.setG; split <;> rfl
@[simp] theorem Thread.setG_level (t : Thread) (r : GReg) (x : Word) : (t.setG r x).level = t.level := by unfold Thread.setG; split <;> rfl
@[simp] theorem Thread.setG_prio (t : Thread) (r : GReg) (x : Word) : (t.setG r x).prio = t.prio := by unfold Thread.setG; split <;> rfl
@[simp] theorem Thread.setG_w3 (t : Thread) (r : GReg) (x : Word) : (t.setG r x).w3 = t.w3 := by unfold Thread.setG; split <;> rfl
@[simp] theorem Thread.setG_spn (t : Thread) (r : GReg) (x : Word) : (t.setG r x).spn = t.spn := by unfold Thread.setG; split <;> rfl
@[simp] theorem Thread.setG_cwb (t : Thread) (r : GReg) (x : Word) : (t.setG r x).cwb = t.cwb := by unfold Thread.setG; split <;> rfl
@[simp] theorem Thread.setG_inTrap (t : Thread) (r : GReg) (x : Word) : (t.setG r x).inTrap = t.inTrap := by unfold Thread.setG; split <;> rfl
@[simp] theorem Thread.setG_v (t : Thread) (r : GReg) (x : Word) : (t.setG r x).v = t.v := by unfold Thread.setG; split <;> rfl
@[simp] theorem Thread.setG_p (t : Thread) (r : GReg) (x : Word) : (t.setG r x).p = t.p := by unfold Thread.setG; split <;> rfl
@[simp] theorem Thread.setG_f (t : Thread) (r : GReg) (x : Word) : (t.setG r x).f = t.f := by unfold Thread.setG; split <;> rfl
@[simp] theorem Thread.setG_ls (t : Thread) (r : GReg) (x : Word) : (t.setG r x).ls = t.ls := by unfold Thread.setG; split <;> rfl
@[simp] theorem Thread.setG_le (t : Thread) (r : GReg) (x : Word) : (t.setG r x).le = t.le := by unfold Thread.setG; split <;> rfl
@[simp] theorem Thread.setG_lc (t : Thread) (r : GReg) (x : Word) : (t.setG r x).lc = t.lc := by unfold Thread.setG; split <;> rfl
@[simp] theorem Thread.setG_cls (t : Thread) (r : GReg) (x : Word) : (t.setG r x).cls = t.cls := by unfold Thread.setG; split <;> rfl
@[simp] theorem Thread.setG_pc (t : Thread) (r : GReg) (x : Word) : (t.setG r x).pc = t.pc := by unfold Thread.setG; split <;> rfl
@[simp] theorem Thread.setG_tvec (t : Thread) (r : GReg) (x : Word) : (t.setG r x).tvec = t.tvec := by unfold Thread.setG; split <;> rfl
@[simp] theorem Thread.setG_tpc (t : Thread) (r : GReg) (x : Word) : (t.setG r x).tpc = t.tpc := by unfold Thread.setG; split <;> rfl
@[simp] theorem Thread.setG_tcause (t : Thread) (r : GReg) (x : Word) : (t.setG r x).tcause = t.tcause := by unfold Thread.setG; split <;> rfl
@[simp] theorem Thread.setG_tval (t : Thread) (r : GReg) (x : Word) : (t.setG r x).tval = t.tval := by unfold Thread.setG; split <;> rfl
@[simp] theorem Thread.setG_tlLd (t : Thread) (r : GReg) (x : Word) : (t.setG r x).tlLd = t.tlLd := by unfold Thread.setG; split <;> rfl
@[simp] theorem Thread.setG_tlCe (t : Thread) (r : GReg) (x : Word) : (t.setG r x).tlCe = t.tlCe := by unfold Thread.setG; split <;> rfl
@[simp] theorem Thread.setG_tlTe (t : Thread) (r : GReg) (x : Word) : (t.setG r x).tlTe = t.tlTe := by unfold Thread.setG; split <;> rfl
@[simp] theorem Thread.setG_tlMe (t : Thread) (r : GReg) (x : Word) : (t.setG r x).tlMe = t.tlMe := by unfold Thread.setG; split <;> rfl
@[simp] theorem Thread.setG_res (t : Thread) (r : GReg) (x : Word) : (t.setG r x).res = t.res := by unfold Thread.setG; split <;> rfl
@[simp] theorem Thread.setG_depth (t : Thread) (r : GReg) (x : Word) : (t.setG r x).depth = t.depth := by unfold Thread.setG; split <;> rfl
@[simp] theorem Thread.setG_rngs (t : Thread) (r : GReg) (x : Word) : (t.setG r x).rngs = t.rngs := by unfold Thread.setG; split <;> rfl
@[simp] theorem Thread.setG_ftrk (t : Thread) (r : GReg) (x : Word) : (t.setG r x).ftrk = t.ftrk := by unfold Thread.setG; split <;> rfl
@[simp] theorem Thread.setG_ab (t : Thread) (r : GReg) (x : Word) : (t.setG r x).ab = t.ab := by unfold Thread.setG; split <;> rfl
@[simp] theorem Thread.setG_al (t : Thread) (r : GReg) (x : Word) : (t.setG r x).al = t.al := by unfold Thread.setG; split <;> rfl
@[simp] theorem Thread.setG_fsp (t : Thread) (r : GReg) (x : Word) : (t.setG r x).fsp = t.fsp := by unfold Thread.setG; split <;> rfl
@[simp] theorem Thread.setG_frames (t : Thread) (r : GReg) (x : Word) : (t.setG r x).frames = t.frames := by unfold Thread.setG; split <;> rfl
@[simp] theorem Thread.setG_binds (t : Thread) (r : GReg) (x : Word) : (t.setG r x).binds = t.binds := by unfold Thread.setG; split <;> rfl
@[simp] theorem Thread.setG_vlive (t : Thread) (r : GReg) (x : Word) : (t.setG r x).vlive = t.vlive := by unfold Thread.setG; split <;> rfl
@[simp] theorem Thread.setG_waitN (t : Thread) (r : GReg) (x : Word) : (t.setG r x).waitN = t.waitN := by unfold Thread.setG; split <;> rfl
@[simp] theorem Thread.setG_idle (t : Thread) (r : GReg) (x : Word) : (t.setG r x).idle = t.idle := by unfold Thread.setG; split <;> rfl
@[simp] theorem Thread.setG_evf (t : Thread) (r : GReg) (x : Word) : (t.setG r x).evf = t.evf := by unfold Thread.setG; split <;> rfl
@[simp] theorem Thread.setG_rq (t : Thread) (r : GReg) (x : Word) : (t.setG r x).rq = t.rq := by unfold Thread.setG; split <;> rfl
@[simp] theorem Thread.setG_blocked (t : Thread) (r : GReg) (x : Word) : (t.setG r x).blocked = t.blocked := by unfold Thread.setG; split <;> rfl
@[simp] theorem Thread.setG_delivered (t : Thread) (r : GReg) (x : Word) : (t.setG r x).delivered = t.delivered := by unfold Thread.setG; split <;> rfl
@[simp] theorem Thread.setG_waiting (t : Thread) (r : GReg) (x : Word) : (t.setG r x).waiting = t.waiting := by unfold Thread.setG; split <;> rfl
@[simp] theorem Thread.setG_waited (t : Thread) (r : GReg) (x : Word) : (t.setG r x).waited = t.waited := by unfold Thread.setG; split <;> rfl
@[simp] theorem Thread.setG_wdTrap (t : Thread) (r : GReg) (x : Word) : (t.setG r x).wdTrap = t.wdTrap := by unfold Thread.setG; split <;> rfl
@[simp] theorem Thread.setG_dsyncRes (t : Thread) (r : GReg) (x : Word) : (t.setG r x).dsyncRes = t.dsyncRes := by unfold Thread.setG; split <;> rfl
@[simp] theorem Thread.setG_saving (t : Thread) (r : GReg) (x : Word) : (t.setG r x).saving = t.saving := by unfold Thread.setG; split <;> rfl
@[simp] theorem Thread.setG_lastTime (t : Thread) (r : GReg) (x : Word) : (t.setG r x).lastTime = t.lastTime := by unfold Thread.setG; split <;> rfl
@[simp] theorem Thread.setG_tbHold (t : Thread) (r : GReg) (x : Word) : (t.setG r x).tbHold = t.tbHold := by unfold Thread.setG; split <;> rfl
@[simp] theorem Thread.setG_constFrom (t : Thread) (r : GReg) (x : Word) : (t.setG r x).constFrom = t.constFrom := by unfold Thread.setG; split <;> rfl
@[simp] theorem Thread.setG_constSeen (t : Thread) (r : GReg) (x : Word) : (t.setG r x).constSeen = t.constSeen := by unfold Thread.setG; split <;> rfl
@[simp] theorem Thread.setG_fetchFrom (t : Thread) (r : GReg) (x : Word) : (t.setG r x).fetchFrom = t.fetchFrom := by unfold Thread.setG; split <;> rfl
@[simp] theorem Thread.setG_fetchOld (t : Thread) (r : GReg) (x : Word) : (t.setG r x).fetchOld = t.fetchOld := by unfold Thread.setG; split <;> rfl
@[simp] theorem Thread.setG_gang (t : Thread) (r : GReg) (x : Word) : (t.setG r x).gang = t.gang := by unfold Thread.setG; split <;> rfl
@[simp] theorem Thread.setG_ldq (t : Thread) (r : GReg) (x : Word) : (t.setG r x).ldq = t.ldq := by unfold Thread.setG; split <;> rfl
@[simp] theorem Thread.setG_requeue (t : Thread) (r : GReg) (x : Word) : (t.setG r x).requeue = t.requeue := by unfold Thread.setG; split <;> rfl
@[simp] theorem Thread.setG_tlbiWait (t : Thread) (r : GReg) (x : Word) : (t.setG r x).tlbiWait = t.tlbiWait := by unfold Thread.setG; split <;> rfl
@[simp] theorem Thread.setG_sdropped (t : Thread) (r : GReg) (x : Word) : (t.setG r x).sdropped = t.sdropped := by unfold Thread.setG; split <;> rfl
@[simp] theorem Thread.setG_dying (t : Thread) (r : GReg) (x : Word) : (t.setG r x).dying = t.dying := by unfold Thread.setG; split <;> rfl
@[simp] theorem Thread.setG_dbl (t : Thread) (r : GReg) (x : Word) : (t.setG r x).dbl = t.dbl := by unfold Thread.setG; split <;> rfl

/-! `Thread.setP` -/
@[simp] theorem Thread.setP_bound (t : Thread) (r : PIdx) (x : Word) : (t.setP r x).bound = t.bound := by unfold Thread.setP; split <;> rfl
@[simp] theorem Thread.setP_rec_ (t : Thread) (r : PIdx) (x : Word) : (t.setP r x).rec_ = t.rec_ := by unfold Thread.setP; split <;> rfl
@[simp] theorem Thread.setP_flagE (t : Thread) (r : PIdx) (x : Word) : (t.setP r x).flagE = t.flagE := by unfold Thread.setP; split <;> rfl
@[simp] theorem Thread.setP_flagM (t : Thread) (r : PIdx) (x : Word) : (t.setP r x).flagM = t.flagM := by unfold Thread.setP; split <;> rfl
@[simp] theorem Thread.setP_flagT (t : Thread) (r : PIdx) (x : Word) : (t.setP r x).flagT = t.flagT := by unfold Thread.setP; split <;> rfl
@[simp] theorem Thread.setP_dom (t : Thread) (r : PIdx) (x : Word) : (t.setP r x).dom = t.dom := by unfold Thread.setP; split <;> rfl
@[simp] theorem Thread.setP_level (t : Thread) (r : PIdx) (x : Word) : (t.setP r x).level = t.level := by unfold Thread.setP; split <;> rfl
@[simp] theorem Thread.setP_prio (t : Thread) (r : PIdx) (x : Word) : (t.setP r x).prio = t.prio := by unfold Thread.setP; split <;> rfl
@[simp] theorem Thread.setP_w3 (t : Thread) (r : PIdx) (x : Word) : (t.setP r x).w3 = t.w3 := by unfold Thread.setP; split <;> rfl
@[simp] theorem Thread.setP_spn (t : Thread) (r : PIdx) (x : Word) : (t.setP r x).spn = t.spn := by unfold Thread.setP; split <;> rfl
@[simp] theorem Thread.setP_regs (t : Thread) (r : PIdx) (x : Word) : (t.setP r x).regs = t.regs := by unfold Thread.setP; split <;> rfl
@[simp] theorem Thread.setP_cwb (t : Thread) (r : PIdx) (x : Word) : (t.setP r x).cwb = t.cwb := by unfold Thread.setP; split <;> rfl
@[simp] theorem Thread.setP_inTrap (t : Thread) (r : PIdx) (x : Word) : (t.setP r x).inTrap = t.inTrap := by unfold Thread.setP; split <;> rfl
@[simp] theorem Thread.setP_v (t : Thread) (r : PIdx) (x : Word) : (t.setP r x).v = t.v := by unfold Thread.setP; split <;> rfl
@[simp] theorem Thread.setP_f (t : Thread) (r : PIdx) (x : Word) : (t.setP r x).f = t.f := by unfold Thread.setP; split <;> rfl
@[simp] theorem Thread.setP_ls (t : Thread) (r : PIdx) (x : Word) : (t.setP r x).ls = t.ls := by unfold Thread.setP; split <;> rfl
@[simp] theorem Thread.setP_le (t : Thread) (r : PIdx) (x : Word) : (t.setP r x).le = t.le := by unfold Thread.setP; split <;> rfl
@[simp] theorem Thread.setP_lc (t : Thread) (r : PIdx) (x : Word) : (t.setP r x).lc = t.lc := by unfold Thread.setP; split <;> rfl
@[simp] theorem Thread.setP_cls (t : Thread) (r : PIdx) (x : Word) : (t.setP r x).cls = t.cls := by unfold Thread.setP; split <;> rfl
@[simp] theorem Thread.setP_pc (t : Thread) (r : PIdx) (x : Word) : (t.setP r x).pc = t.pc := by unfold Thread.setP; split <;> rfl
@[simp] theorem Thread.setP_tvec (t : Thread) (r : PIdx) (x : Word) : (t.setP r x).tvec = t.tvec := by unfold Thread.setP; split <;> rfl
@[simp] theorem Thread.setP_tpc (t : Thread) (r : PIdx) (x : Word) : (t.setP r x).tpc = t.tpc := by unfold Thread.setP; split <;> rfl
@[simp] theorem Thread.setP_tcause (t : Thread) (r : PIdx) (x : Word) : (t.setP r x).tcause = t.tcause := by unfold Thread.setP; split <;> rfl
@[simp] theorem Thread.setP_tval (t : Thread) (r : PIdx) (x : Word) : (t.setP r x).tval = t.tval := by unfold Thread.setP; split <;> rfl
@[simp] theorem Thread.setP_tlLd (t : Thread) (r : PIdx) (x : Word) : (t.setP r x).tlLd = t.tlLd := by unfold Thread.setP; split <;> rfl
@[simp] theorem Thread.setP_tlCe (t : Thread) (r : PIdx) (x : Word) : (t.setP r x).tlCe = t.tlCe := by unfold Thread.setP; split <;> rfl
@[simp] theorem Thread.setP_tlTe (t : Thread) (r : PIdx) (x : Word) : (t.setP r x).tlTe = t.tlTe := by unfold Thread.setP; split <;> rfl
@[simp] theorem Thread.setP_tlMe (t : Thread) (r : PIdx) (x : Word) : (t.setP r x).tlMe = t.tlMe := by unfold Thread.setP; split <;> rfl
@[simp] theorem Thread.setP_res (t : Thread) (r : PIdx) (x : Word) : (t.setP r x).res = t.res := by unfold Thread.setP; split <;> rfl
@[simp] theorem Thread.setP_depth (t : Thread) (r : PIdx) (x : Word) : (t.setP r x).depth = t.depth := by unfold Thread.setP; split <;> rfl
@[simp] theorem Thread.setP_rngs (t : Thread) (r : PIdx) (x : Word) : (t.setP r x).rngs = t.rngs := by unfold Thread.setP; split <;> rfl
@[simp] theorem Thread.setP_ftrk (t : Thread) (r : PIdx) (x : Word) : (t.setP r x).ftrk = t.ftrk := by unfold Thread.setP; split <;> rfl
@[simp] theorem Thread.setP_ab (t : Thread) (r : PIdx) (x : Word) : (t.setP r x).ab = t.ab := by unfold Thread.setP; split <;> rfl
@[simp] theorem Thread.setP_al (t : Thread) (r : PIdx) (x : Word) : (t.setP r x).al = t.al := by unfold Thread.setP; split <;> rfl
@[simp] theorem Thread.setP_fsp (t : Thread) (r : PIdx) (x : Word) : (t.setP r x).fsp = t.fsp := by unfold Thread.setP; split <;> rfl
@[simp] theorem Thread.setP_frames (t : Thread) (r : PIdx) (x : Word) : (t.setP r x).frames = t.frames := by unfold Thread.setP; split <;> rfl
@[simp] theorem Thread.setP_binds (t : Thread) (r : PIdx) (x : Word) : (t.setP r x).binds = t.binds := by unfold Thread.setP; split <;> rfl
@[simp] theorem Thread.setP_vlive (t : Thread) (r : PIdx) (x : Word) : (t.setP r x).vlive = t.vlive := by unfold Thread.setP; split <;> rfl
@[simp] theorem Thread.setP_waitN (t : Thread) (r : PIdx) (x : Word) : (t.setP r x).waitN = t.waitN := by unfold Thread.setP; split <;> rfl
@[simp] theorem Thread.setP_idle (t : Thread) (r : PIdx) (x : Word) : (t.setP r x).idle = t.idle := by unfold Thread.setP; split <;> rfl
@[simp] theorem Thread.setP_evf (t : Thread) (r : PIdx) (x : Word) : (t.setP r x).evf = t.evf := by unfold Thread.setP; split <;> rfl
@[simp] theorem Thread.setP_rq (t : Thread) (r : PIdx) (x : Word) : (t.setP r x).rq = t.rq := by unfold Thread.setP; split <;> rfl
@[simp] theorem Thread.setP_blocked (t : Thread) (r : PIdx) (x : Word) : (t.setP r x).blocked = t.blocked := by unfold Thread.setP; split <;> rfl
@[simp] theorem Thread.setP_delivered (t : Thread) (r : PIdx) (x : Word) : (t.setP r x).delivered = t.delivered := by unfold Thread.setP; split <;> rfl
@[simp] theorem Thread.setP_waiting (t : Thread) (r : PIdx) (x : Word) : (t.setP r x).waiting = t.waiting := by unfold Thread.setP; split <;> rfl
@[simp] theorem Thread.setP_waited (t : Thread) (r : PIdx) (x : Word) : (t.setP r x).waited = t.waited := by unfold Thread.setP; split <;> rfl
@[simp] theorem Thread.setP_wdTrap (t : Thread) (r : PIdx) (x : Word) : (t.setP r x).wdTrap = t.wdTrap := by unfold Thread.setP; split <;> rfl
@[simp] theorem Thread.setP_dsyncRes (t : Thread) (r : PIdx) (x : Word) : (t.setP r x).dsyncRes = t.dsyncRes := by unfold Thread.setP; split <;> rfl
@[simp] theorem Thread.setP_saving (t : Thread) (r : PIdx) (x : Word) : (t.setP r x).saving = t.saving := by unfold Thread.setP; split <;> rfl
@[simp] theorem Thread.setP_lastTime (t : Thread) (r : PIdx) (x : Word) : (t.setP r x).lastTime = t.lastTime := by unfold Thread.setP; split <;> rfl
@[simp] theorem Thread.setP_tbHold (t : Thread) (r : PIdx) (x : Word) : (t.setP r x).tbHold = t.tbHold := by unfold Thread.setP; split <;> rfl
@[simp] theorem Thread.setP_constFrom (t : Thread) (r : PIdx) (x : Word) : (t.setP r x).constFrom = t.constFrom := by unfold Thread.setP; split <;> rfl
@[simp] theorem Thread.setP_constSeen (t : Thread) (r : PIdx) (x : Word) : (t.setP r x).constSeen = t.constSeen := by unfold Thread.setP; split <;> rfl
@[simp] theorem Thread.setP_fetchFrom (t : Thread) (r : PIdx) (x : Word) : (t.setP r x).fetchFrom = t.fetchFrom := by unfold Thread.setP; split <;> rfl
@[simp] theorem Thread.setP_fetchOld (t : Thread) (r : PIdx) (x : Word) : (t.setP r x).fetchOld = t.fetchOld := by unfold Thread.setP; split <;> rfl
@[simp] theorem Thread.setP_gang (t : Thread) (r : PIdx) (x : Word) : (t.setP r x).gang = t.gang := by unfold Thread.setP; split <;> rfl
@[simp] theorem Thread.setP_ldq (t : Thread) (r : PIdx) (x : Word) : (t.setP r x).ldq = t.ldq := by unfold Thread.setP; split <;> rfl
@[simp] theorem Thread.setP_requeue (t : Thread) (r : PIdx) (x : Word) : (t.setP r x).requeue = t.requeue := by unfold Thread.setP; split <;> rfl
@[simp] theorem Thread.setP_tlbiWait (t : Thread) (r : PIdx) (x : Word) : (t.setP r x).tlbiWait = t.tlbiWait := by unfold Thread.setP; split <;> rfl
@[simp] theorem Thread.setP_sdropped (t : Thread) (r : PIdx) (x : Word) : (t.setP r x).sdropped = t.sdropped := by unfold Thread.setP; split <;> rfl
@[simp] theorem Thread.setP_dying (t : Thread) (r : PIdx) (x : Word) : (t.setP r x).dying = t.dying := by unfold Thread.setP; split <;> rfl
@[simp] theorem Thread.setP_dbl (t : Thread) (r : PIdx) (x : Word) : (t.setP r x).dbl = t.dbl := by unfold Thread.setP; split <;> rfl

/-! `Thread.goTo` -/
@[simp] theorem Thread.goTo_bound (t : Thread) (nx : Pc) : (t.goTo nx).bound = t.bound := rfl
@[simp] theorem Thread.goTo_rec_ (t : Thread) (nx : Pc) : (t.goTo nx).rec_ = t.rec_ := rfl
@[simp] theorem Thread.goTo_flagE (t : Thread) (nx : Pc) : (t.goTo nx).flagE = t.flagE := rfl
@[simp] theorem Thread.goTo_flagM (t : Thread) (nx : Pc) : (t.goTo nx).flagM = t.flagM := rfl
@[simp] theorem Thread.goTo_flagT (t : Thread) (nx : Pc) : (t.goTo nx).flagT = t.flagT := rfl
@[simp] theorem Thread.goTo_dom (t : Thread) (nx : Pc) : (t.goTo nx).dom = t.dom := rfl
@[simp] theorem Thread.goTo_level (t : Thread) (nx : Pc) : (t.goTo nx).level = t.level := rfl
@[simp] theorem Thread.goTo_prio (t : Thread) (nx : Pc) : (t.goTo nx).prio = t.prio := rfl
@[simp] theorem Thread.goTo_w3 (t : Thread) (nx : Pc) : (t.goTo nx).w3 = t.w3 := rfl
@[simp] theorem Thread.goTo_spn (t : Thread) (nx : Pc) : (t.goTo nx).spn = t.spn := rfl
@[simp] theorem Thread.goTo_regs (t : Thread) (nx : Pc) : (t.goTo nx).regs = t.regs := rfl
@[simp] theorem Thread.goTo_cwb (t : Thread) (nx : Pc) : (t.goTo nx).cwb = t.cwb := rfl
@[simp] theorem Thread.goTo_inTrap (t : Thread) (nx : Pc) : (t.goTo nx).inTrap = t.inTrap := rfl
@[simp] theorem Thread.goTo_v (t : Thread) (nx : Pc) : (t.goTo nx).v = t.v := rfl
@[simp] theorem Thread.goTo_p (t : Thread) (nx : Pc) : (t.goTo nx).p = t.p := rfl
@[simp] theorem Thread.goTo_f (t : Thread) (nx : Pc) : (t.goTo nx).f = t.f := rfl
@[simp] theorem Thread.goTo_ls (t : Thread) (nx : Pc) : (t.goTo nx).ls = t.ls := rfl
@[simp] theorem Thread.goTo_le (t : Thread) (nx : Pc) : (t.goTo nx).le = t.le := rfl
@[simp] theorem Thread.goTo_lc (t : Thread) (nx : Pc) : (t.goTo nx).lc = t.lc := rfl
@[simp] theorem Thread.goTo_cls (t : Thread) (nx : Pc) : (t.goTo nx).cls = t.cls := rfl
@[simp] theorem Thread.goTo_tvec (t : Thread) (nx : Pc) : (t.goTo nx).tvec = t.tvec := rfl
@[simp] theorem Thread.goTo_tpc (t : Thread) (nx : Pc) : (t.goTo nx).tpc = t.tpc := rfl
@[simp] theorem Thread.goTo_tcause (t : Thread) (nx : Pc) : (t.goTo nx).tcause = t.tcause := rfl
@[simp] theorem Thread.goTo_tval (t : Thread) (nx : Pc) : (t.goTo nx).tval = t.tval := rfl
@[simp] theorem Thread.goTo_tlLd (t : Thread) (nx : Pc) : (t.goTo nx).tlLd = t.tlLd := rfl
@[simp] theorem Thread.goTo_tlCe (t : Thread) (nx : Pc) : (t.goTo nx).tlCe = t.tlCe := rfl
@[simp] theorem Thread.goTo_tlTe (t : Thread) (nx : Pc) : (t.goTo nx).tlTe = t.tlTe := rfl
@[simp] theorem Thread.goTo_tlMe (t : Thread) (nx : Pc) : (t.goTo nx).tlMe = t.tlMe := rfl
@[simp] theorem Thread.goTo_res (t : Thread) (nx : Pc) : (t.goTo nx).res = t.res := rfl
@[simp] theorem Thread.goTo_depth (t : Thread) (nx : Pc) : (t.goTo nx).depth = t.depth := rfl
@[simp] theorem Thread.goTo_rngs (t : Thread) (nx : Pc) : (t.goTo nx).rngs = t.rngs := rfl
@[simp] theorem Thread.goTo_ftrk (t : Thread) (nx : Pc) : (t.goTo nx).ftrk = t.ftrk := rfl
@[simp] theorem Thread.goTo_ab (t : Thread) (nx : Pc) : (t.goTo nx).ab = t.ab := rfl
@[simp] theorem Thread.goTo_al (t : Thread) (nx : Pc) : (t.goTo nx).al = t.al := rfl
@[simp] theorem Thread.goTo_fsp (t : Thread) (nx : Pc) : (t.goTo nx).fsp = t.fsp := rfl
@[simp] theorem Thread.goTo_frames (t : Thread) (nx : Pc) : (t.goTo nx).frames = t.frames := rfl
@[simp] theorem Thread.goTo_binds (t : Thread) (nx : Pc) : (t.goTo nx).binds = t.binds := rfl
@[simp] theorem Thread.goTo_vlive (t : Thread) (nx : Pc) : (t.goTo nx).vlive = t.vlive := rfl
@[simp] theorem Thread.goTo_waitN (t : Thread) (nx : Pc) : (t.goTo nx).waitN = t.waitN := rfl
@[simp] theorem Thread.goTo_idle (t : Thread) (nx : Pc) : (t.goTo nx).idle = t.idle := rfl
@[simp] theorem Thread.goTo_evf (t : Thread) (nx : Pc) : (t.goTo nx).evf = t.evf := rfl
@[simp] theorem Thread.goTo_rq (t : Thread) (nx : Pc) : (t.goTo nx).rq = t.rq := rfl
@[simp] theorem Thread.goTo_blocked (t : Thread) (nx : Pc) : (t.goTo nx).blocked = t.blocked := rfl
@[simp] theorem Thread.goTo_delivered (t : Thread) (nx : Pc) : (t.goTo nx).delivered = t.delivered := rfl
@[simp] theorem Thread.goTo_waiting (t : Thread) (nx : Pc) : (t.goTo nx).waiting = t.waiting := rfl
@[simp] theorem Thread.goTo_waited (t : Thread) (nx : Pc) : (t.goTo nx).waited = t.waited := rfl
@[simp] theorem Thread.goTo_wdTrap (t : Thread) (nx : Pc) : (t.goTo nx).wdTrap = t.wdTrap := rfl
@[simp] theorem Thread.goTo_dsyncRes (t : Thread) (nx : Pc) : (t.goTo nx).dsyncRes = t.dsyncRes := rfl
@[simp] theorem Thread.goTo_saving (t : Thread) (nx : Pc) : (t.goTo nx).saving = t.saving := rfl
@[simp] theorem Thread.goTo_lastTime (t : Thread) (nx : Pc) : (t.goTo nx).lastTime = t.lastTime := rfl
@[simp] theorem Thread.goTo_tbHold (t : Thread) (nx : Pc) : (t.goTo nx).tbHold = t.tbHold := rfl
@[simp] theorem Thread.goTo_constFrom (t : Thread) (nx : Pc) : (t.goTo nx).constFrom = t.constFrom := rfl
@[simp] theorem Thread.goTo_errs (t : Thread) (nx : Pc) : (t.goTo nx).errs = t.errs := rfl
@[simp] theorem Thread.goTo_constSeen (t : Thread) (nx : Pc) : (t.goTo nx).constSeen = t.constSeen := rfl
@[simp] theorem Thread.goTo_fetchFrom (t : Thread) (nx : Pc) : (t.goTo nx).fetchFrom = t.fetchFrom := rfl
@[simp] theorem Thread.goTo_fetchOld (t : Thread) (nx : Pc) : (t.goTo nx).fetchOld = t.fetchOld := rfl
@[simp] theorem Thread.goTo_ldq (t : Thread) (nx : Pc) : (t.goTo nx).ldq = t.ldq := rfl
@[simp] theorem Thread.goTo_requeue (t : Thread) (nx : Pc) : (t.goTo nx).requeue = t.requeue := rfl
@[simp] theorem Thread.goTo_tlbiWait (t : Thread) (nx : Pc) : (t.goTo nx).tlbiWait = t.tlbiWait := rfl
@[simp] theorem Thread.goTo_sdropped (t : Thread) (nx : Pc) : (t.goTo nx).sdropped = t.sdropped := rfl
@[simp] theorem Thread.goTo_dying (t : Thread) (nx : Pc) : (t.goTo nx).dying = t.dying := rfl
@[simp] theorem Thread.goTo_dbl (t : Thread) (nx : Pc) : (t.goTo nx).dbl = t.dbl := rfl

@[simp] theorem Thread.goTo_pc (t : Thread) (nx : Pc) : (t.goTo nx).pc = nx := rfl

end Sys2Proof.Machine
end

