-- ==== Sys2Proof/Laws/Units.lean ====
section
/-! SUPPORT. The current thread, its core and the registers after the named updates: what is read back is what
was written, and the others stay. -/

namespace Sys2Proof.Machine

/-- Setting an entry twice. -/
theorem tput_tput {α : Type} (t : Tbl α) (k : Nat) (a b : α) : tput (tput t k a) k b = tput t k b := by
  induction t with
  | nil => simp [tput]
  | cons e r ih =>
    obtain ⟨k', v⟩ := e
    by_cases h : k < k'
    · simp [tput, h]
    · by_cases h2 : k = k'
      · simp [tput, h2]
      · simp [tput, h, h2, ih]

/-! ## Threads -/

@[simp] theorem threadAt_setThreadAt (s : State) (k : Nat) (t : Thread) : (s.setThreadAt k t).threadAt k = t := by
  simp [State.threadAt, State.setThreadAt]

theorem threadAt_setThreadAt_other (s : State) {k j : Nat} (t : Thread) (h : k ≠ j) :
    (s.setThreadAt k t).threadAt j = s.threadAt j := by
  simp [State.threadAt, State.setThreadAt, tgetD_tput_other _ _ _ h]

@[simp] theorem tk_setTh (s : State) (t : Thread) : (s.setTh t).tk = s.tk := rfl
@[simp] theorem th_setTh (s : State) (t : Thread) : (s.setTh t).th = t := by
  simp [State.th, State.setTh, State.tk, State.setThreadAt, State.threadAt]

theorem setTh_setTh (s : State) (t u : Thread) : (s.setTh t).setTh u = s.setTh u := by
  simp [State.setTh, State.setThreadAt, State.tk, tput_tput]

theorem threadAt_setTh_other (s : State) {j : Nat} (t : Thread) (h : j ≠ s.tk) :
    (s.setTh t).threadAt j = s.threadAt j := threadAt_setThreadAt_other s t (Ne.symm h)

theorem modTh_eq (s : State) (f : Thread → Thread) : s.modTh f = s.setTh (f s.th) := rfl
@[simp] theorem th_modTh (s : State) (f : Thread → Thread) : (s.modTh f).th = f s.th := by simp [modTh_eq]
@[simp] theorem tk_modTh (s : State) (f : Thread → Thread) : (s.modTh f).tk = s.tk := rfl
theorem modTh_modTh (s : State) (f g : Thread → Thread) : (s.modTh f).modTh g = s.modTh fun t => g (f t) := by
  simp [modTh_eq, setTh_setTh]

theorem setG_eq (s : State) (r : GReg) (v : Word) : s.setG r v = s.modTh fun t => t.setG r v := rfl
theorem setP_eq (s : State) (r : PIdx) (v : Word) : s.setP r v = s.modTh fun t => t.setP r v := rfl

@[simp] theorem threadAt_setCoreAt (s : State) (k j : Nat) (c : Core) : (s.setCoreAt k c).threadAt j = s.threadAt j := rfl
@[simp] theorem th_setCore (s : State) (c : Core) : (s.setCore c).th = s.th := rfl
@[simp] theorem th_modCore (s : State) (f : Core → Core) : (s.modCore f).th = s.th := rfl
@[simp] theorem th_setClusterAt (s : State) (k : Nat) (c : Cluster) : (s.setClusterAt k c).th = s.th := rfl
@[simp] theorem th_setPkgAt (s : State) (k : Nat) (p : Pkg) : (s.setPkgAt k p).th = s.th := rfl

/-! ## Cores, clusters, packages -/

@[simp] theorem coreAt_setCoreAt (s : State) (k : Nat) (c : Core) : (s.setCoreAt k c).coreAt k = c := by
  simp [State.coreAt, State.setCoreAt]

theorem coreAt_setCoreAt_other (s : State) {k j : Nat} (c : Core) (h : k ≠ j) :
    (s.setCoreAt k c).coreAt j = s.coreAt j := by
  simp [State.coreAt, State.setCoreAt, tgetD_tput_other _ _ _ h]

@[simp] theorem core_setCore (s : State) (c : Core) : (s.setCore c).core = c := by
  simp [State.core, State.setCore, State.setCoreAt, State.coreAt]

@[simp] theorem core_modCore (s : State) (f : Core → Core) : (s.modCore f).core = f s.core := by
  simp [State.modCore]

@[simp] theorem coreAt_setThreadAt (s : State) (k j : Nat) (t : Thread) : (s.setThreadAt k t).coreAt j = s.coreAt j := rfl
@[simp] theorem core_setTh (s : State) (t : Thread) : (s.setTh t).core = s.core := rfl
@[simp] theorem core_modTh (s : State) (f : Thread → Thread) : (s.modTh f).core = s.core := rfl

@[simp] theorem clusterAt_setClusterAt (s : State) (k : Nat) (c : Cluster) : (s.setClusterAt k c).clusterAt k = c := by
  simp [State.clusterAt, State.setClusterAt]

@[simp] theorem pkgAt_setPkgAt (s : State) (k : Nat) (p : Pkg) : (s.setPkgAt k p).pkgAt k = p := by
  simp [State.pkgAt, State.setPkgAt]

@[simp] theorem clusterAt_modClusterAt (s : State) (k : Nat) (f : Cluster → Cluster) :
    (s.modClusterAt k f).clusterAt k = f (s.clusterAt k) := by simp [State.modClusterAt]

@[simp] theorem pkgAt_modPkgAt (s : State) (k : Nat) (f : Pkg → Pkg) :
    (s.modPkgAt k f).pkgAt k = f (s.pkgAt k) := by simp [State.modPkgAt]

@[simp] theorem coreAt_modCoreAt (s : State) (k : Nat) (f : Core → Core) :
    (s.modCoreAt k f).coreAt k = f (s.coreAt k) := by simp [State.modCoreAt]

@[simp] theorem threadAt_modThreadAt (s : State) (k : Nat) (f : Thread → Thread) :
    (s.modThreadAt k f).threadAt k = f (s.threadAt k) := by simp [State.modThreadAt]

/-! ## Registers (spec/03 R35, R36, R38) -/

@[simp] theorem g_zero (t : Thread) : t.g 0#6 = 0#64 := rfl
@[simp] theorem setG_zero (t : Thread) (v : Word) : t.setG 0#6 v = t := rfl
@[simp] theorem pr_seven (t : Thread) : t.pr 7#3 = BitVec.allOnes 64 := rfl
@[simp] theorem setP_seven (t : Thread) (v : Word) : t.setP 7#3 v = t := rfl

/-- Two names of a thread never share a register. -/
theorem gphys_inj (t : Thread) {a b : GReg} (h : gphys t a = gphys t b) : a = b := by
  have ha := a.isLt
  have hb := b.isLt
  apply BitVec.eq_of_toNat_eq
  unfold gphys at h
  split at h <;> split at h <;> try split at h
  all_goals omega

theorem gphys_setG (t : Thread) (d : GReg) (v : Word) (r : GReg) : gphys (t.setG d v) r = gphys t r := by
  simp [gphys]

/-- A general register after a write (R35). -/
theorem g_setG (t : Thread) (d r : GReg) (v : Word) :
    (t.setG d v).g r = if r = d then (if d = 0 then 0 else v) else t.g r := by
  by_cases hd : d = 0
  · have e : t.setG d v = t := if_pos hd
    rw [e]
    split
    · next h => rw [h, hd]; rfl
    · rfl
  · have e : t.setG d v = { t with regs := tput t.regs (gphys t d) v, errs := tdel t.errs (gErr (gphys t d)) } := if_neg hd
    by_cases hr : r = d
    · rw [if_pos hr, if_neg hd, hr, e]
      exact (if_neg hd).trans (tgetD_tput_same _ _ _ _)
    · rw [if_neg hr, e]
      have hne : gphys t d ≠ gphys t r := fun c => hr (gphys_inj t c).symm
      show (if r = 0 then (0 : Word) else tgetD (tput t.regs (gphys t d) v) (gphys t r) 0) = _
      rw [tgetD_tput_other _ _ _ hne]
      rfl

/-- A predicate after a write. -/
theorem pr_setP (t : Thread) (d r : PIdx) (v : Word) :
    (t.setP d v).pr r = if r = d then (if d = 7 then BitVec.allOnes 64 else v) else t.pr r := by
  by_cases hd : d = 7
  · have e : t.setP d v = t := if_pos hd
    rw [e]
    split
    · next h => rw [h, hd]; rfl
    · rfl
  · have e : t.setP d v = { t with p := tput t.p d.toNat v, errs := tdel t.errs (pErr d.toNat) } := if_neg hd
    by_cases hr : r = d
    · rw [if_pos hr, if_neg hd, hr, e]
      exact (if_neg hd).trans (tgetD_tput_same _ _ _ _)
    · rw [if_neg hr, e]
      have hne : d.toNat ≠ r.toNat := fun c => hr (BitVec.eq_of_toNat_eq c.symm)
      show (if r = 7 then BitVec.allOnes 64 else tgetD (tput t.p d.toNat v) r.toNat 0) = _
      rw [tgetD_tput_other _ _ _ hne]
      rfl

@[simp] theorem vr_setV (t : Thread) (d : VIdx) (x : VReg) : (t.setV d x).vr d = x := by simp [Thread.vr, Thread.setV]
theorem vr_setV_other (t : Thread) {d r : VIdx} (x : VReg) (h : r ≠ d) : (t.setV d x).vr r = t.vr r := by
  have : d.toNat ≠ r.toNat := fun c => h (BitVec.eq_of_toNat_eq c.symm)
  simp [Thread.vr, Thread.setV, tgetD_tput_other _ _ _ this]

@[simp] theorem fr_setF (t : Thread) (d : FIdx) (x : Future) : (t.setF d x).fr d = x := by simp [Thread.fr, Thread.setF]
theorem fr_setF_other (t : Thread) {d r : FIdx} (x : Future) (h : r ≠ d) : (t.setF d x).fr r = t.fr r := by
  have : d.toNat ≠ r.toNat := fun c => h (BitVec.eq_of_toNat_eq c.symm)
  simp [Thread.fr, Thread.setF, tgetD_tput_other _ _ _ this]

end Sys2Proof.Machine
end

