-- ==== Sys2Proof/Laws/Exec.lean ====
section
/-! SUPPORT. What `issue` can do, said once: every instruction that has a guard is an `issue` of a body, and an
issue ends in one of a few ways (spec/16 R272). -/

namespace Sys2Proof.Machine

/-- Every instruction with a guard runs through `issue`. -/
theorem exec_is_issue (i : Instr) (gd : Guard) (s : State) (h : i.guard = some gd) :
    ∃ body, exec i s = issue i body s := by
  cases i <;> first | exact ⟨_, rfl⟩ | exact nomatch h

/-! ## The ends of an issue -/

variable {i : Instr} {body : Act Next} {s s' : State}

theorem issue_preTrap {tr : Trap} (h : s.preTrap i = some tr) : issue i body s = .next (takeTrap tr s) := by
  simp [issue, h]

theorem issue_skips (h : Skips i s) : issue i body s = .next (complete i .fall s (skipped i s)) := by
  simp [issue, guarded, h.before, h.reads, h.guard, h.format]

theorem issue_postTrap {tr : Trap} (hb : s.preTrap i = none) (hg : guardScan i s = (s, none)) (hl : s.live i = true) (h : s.postTrap i = some tr) :
    issue i body s = .next (takeTrap tr s) := by
  simp [issue, guarded, hb, hg, hl, h]

/-- A dead instruction whose vector half's format is none of its own. -/
theorem issue_format {tr : Trap} (hb : s.preTrap i = none) (hg : guardScan i s = (s, none)) (hl : s.live i = false) (h : s.vecFmtTrap i = some tr) :
    issue i body s = .next (takeTrap tr s) := by
  simp [issue, guarded, hb, hg, hl, h]

/-- Registers whose code words hold no flips are read as they stand. -/
theorem regScan_clean (ht : s.th.errs = []) (hc : s.core.errs = []) : regScan i s = (s, none) := by
  simp [regScan, ht, hc]

/-- The same of the guard. -/
theorem guardScan_clean (ht : s.th.errs = []) : guardScan i s = (s, none) := by
  simp [guardScan, ht]

/-- An instruction that is ready does what its body does. -/
theorem issue_ready (h : Ready i s) : issue i body s = runBody i body s := by
  simp [issue, guarded, h.before, h.reads, h.guard, h.after]

/-- A ready instruction whose effect ends well completes. -/
theorem issue_ok {n : Next} (h : Ready i s) (hb : body s = .ok n s') :
    issue i body s = .next (complete i n s s') := by
  rw [issue_ready h]; simp [runBody, h.loads, h.codes, hb]

/-- A ready instruction whose effect stops. -/
theorem issue_error {st : Stop} (h : Ready i s) (hb : body s = .error st s') :
    issue i body s = stopped st s s' := by
  rw [issue_ready h]; simp [runBody, h.loads, h.codes, hb]

/-- A ready instruction that finds an uncorrectable error in a register. -/
theorem issue_codes {e : ErrRep} (hb : s.preTrap i = none) (hg : guardScan i s = (s, none)) (hl : s.live i = true) (ho : s.postTrap i = none)
    (hh : s.th.loadHeld (s.liveForm i) = false) (hr : regScan (s.liveForm i) s = (s', some e)) :
    issue i body s = .next (s'.reportHere e).1 := by
  simp [issue, guarded, hb, hg, hl, ho, runBody, hh, hr]

/-- An instruction that finds an uncorrectable error in its guard. -/
theorem issue_guard {e : ErrRep} (hb : s.preTrap i = none) (hg : guardScan i s = (s', some e)) :
    issue i body s = .next (s'.reportHere e).1 := by
  simp [issue, hb, hg]

/-- Everything an issue of an instruction can come to in a state whose registers hold no flips. -/
theorem issue_cases (i : Instr) (body : Act Next) (s : State) (hc : s.ct < 4) (ht : s.th.errs = [])
    (hk : s.core.errs = []) :
    (∃ tr, s.preTrap i = some tr ∧ issue i body s = .next (takeTrap tr s)) ∨
    (∃ tr, s.preTrap i = none ∧ s.live i = false ∧ s.vecFmtTrap i = some tr ∧
      issue i body s = .next (takeTrap tr s)) ∨
    (Skips i s ∧ issue i body s = .next (complete i .fall s (skipped i s))) ∨
    (∃ tr, s.preTrap i = none ∧ s.live i = true ∧ s.postTrap i = some tr ∧
      issue i body s = .next (takeTrap tr s)) ∨
    (s.th.loadHeld (s.liveForm i) = true ∧ issue i body s = .next s) ∨
    (Ready i s ∧ ∃ n s', body s = .ok n s' ∧ issue i body s = .next (complete i n s s')) ∨
    (Ready i s ∧ ∃ st s', body s = .error st s' ∧ issue i body s = stopped st s s') := by
  have hg := guardScan_clean (i := i) ht
  cases hp : s.preTrap i with
  | some tr => exact .inl ⟨tr, rfl, issue_preTrap hp⟩
  | none =>
    cases hl : s.live i with
    | false =>
      cases hv : s.vecFmtTrap i with
      | some tr => exact .inr (.inl ⟨tr, rfl, rfl, rfl, issue_format hp hg hl hv⟩)
      | none => exact .inr (.inr (.inl ⟨⟨hp, hg, hl, hv⟩, issue_skips ⟨hp, hg, hl, hv⟩⟩))
    | true =>
      cases ho : s.postTrap i with
      | some tr => exact .inr (.inr (.inr (.inl ⟨tr, rfl, rfl, rfl, issue_postTrap hp hg hl ho⟩)))
      | none =>
        cases hh : s.th.loadHeld (s.liveForm i) with
        | true => exact .inr (.inr (.inr (.inr (.inl ⟨rfl, by simp [issue, guarded, hp, hg, hl, ho, runBody, hh]⟩))))
        | false =>
          have hr : Ready i s := ⟨hc, hp, hg, hl, ho, hh, regScan_clean ht hk⟩
          cases hb : body s with
          | ok n s' => exact .inr (.inr (.inr (.inr (.inr (.inl ⟨hr, n, s', rfl, issue_ok hr hb⟩)))))
          | error st s' => exact .inr (.inr (.inr (.inr (.inr (.inr ⟨hr, st, s', rfl, issue_error hr hb⟩)))))

/-! ## Bodies -/

theorem alone_ok {h : Half} {c : Commit} {s1 s2 : State} (h1 : h s = .ok c s1) (h2 : c s1 = .ok () s2) :
    alone h s = .ok .fall s2 := by
  simp [alone, bind, EStateM.bind, h1, h2, pure, EStateM.pure]

theorem alone_pureHalf (f : State → Thread → Thread) (s : State) :
    alone (pureHalf f) s = .ok .fall (s.modTh (f s)) := rfl

theorem onThread_ok (f : Thread → Thread) (s : State) : onThread f s = .ok .fall (s.modTh f) := rfl

theorem onState_ok (f : State → State) (s : State) : onState f s = .ok .fall (f s) := rfl

/-- An event that its rule allows. -/
theorem eventDo_ok {b : Act Unit} (h : b s = .ok () s') : eventDo b s = .next s' := by
  simp [eventDo, h]

end Sys2Proof.Machine
end

