-- ==== Sys2Proof/Laws/Act.lean ====
section
/-! SUPPORT. How a computation that may stop runs: one lemma for each way to put computations together. -/

namespace Sys2Proof.Machine

variable {α β : Type} {s s' : State}

/-! ## One computation -/

@[simp] theorem act_pure (a : α) : (pure a : Act α) s = .ok a s := rfl
@[simp] theorem act_get : (get : Act State) s = .ok s s := rfl
@[simp] theorem act_set (t : State) : (set t : Act PUnit) s = .ok ⟨⟩ t := rfl
@[simp] theorem act_modify (g : State → State) : (modify g : Act PUnit) s = .ok ⟨⟩ (g s) := rfl
@[simp] theorem act_throw (e : Stop) : (throw e : Act α) s = .error e s := rfl
@[simp] theorem act_stopTrap (t : Trap) : (stopTrap t : Act α) s = .error (.trap t) s := rfl
@[simp] theorem act_stopKeep (t : Trap) : (stopKeep t : Act α) s = .error (.trapKeep t) s := rfl
@[simp] theorem act_stopWait : (stopWait : Act α) s = .error .wait s := rfl
@[simp] theorem act_updTh (f : Thread → Thread) : updTh f s = .ok ⟨⟩ (s.modTh f) := rfl
@[simp] theorem act_updCore (f : Core → Core) : updCore f s = .ok ⟨⟩ (s.modCore f) := rfl
@[simp] theorem act_onThread (f : Thread → Thread) : onThread f s = .ok .fall (s.modTh f) := rfl
@[simp] theorem act_onState (f : State → State) : onState f s = .ok .fall (f s) := rfl
theorem act_ite (c : Prop) [Decidable c] (x y : Act α) : (if c then x else y) s = if c then x s else y s := by
  split <;> rfl
theorem act_trapIf_true (t : Trap) : trapIf true t s = .error (.trap t) s := rfl
theorem act_trapIf_false (t : Trap) : trapIf false t s = .ok () s := rfl
@[simp] theorem act_trapIf (b : Bool) (t : Trap) :
    trapIf b t s = if b = true then .error (.trap t) s else .ok () s := by cases b <;> rfl
@[simp] theorem act_need (b : Bool) : need b s = if b = true then .ok () s else .error .refuse s := by cases b <;> rfl
@[simp] theorem act_needSome (o : Option α) :
    needSome o s = match o with | some a => .ok a s | none => .error .refuse s := by cases o <;> rfl

/-! ## One after another -/

/-- Run the second computation where the first left off. -/
def Andthen (r : EStateM.Result Stop State α) (f : α → Act β) : EStateM.Result Stop State β :=
  match r with
  | .ok a s => f a s
  | .error e s => .error e s

@[simp] theorem act_bind (x : Act α) (f : α → Act β) : (x >>= f) s = Andthen (x s) f := by
  simp only [bind, EStateM.bind, Andthen]; cases x s <;> rfl
@[simp] theorem act_map (g : α → β) (x : Act α) : (g <$> x) s = Andthen (x s) (fun a => pure (g a)) := by
  simp only [Functor.map, EStateM.map, Andthen]; cases x s <;> rfl
@[simp] theorem andthen_ok (a : α) (f : α → Act β) : Andthen (.ok a s) f = f a s := rfl
@[simp] theorem andthen_error (e : Stop) (f : α → Act β) : Andthen (.error e s) f = .error e s := rfl
@[simp] theorem andthen_ite (c : Prop) [Decidable c] (x y : EStateM.Result Stop State α) (f : α → Act β) :
    Andthen (if c then x else y) f = if c then Andthen x f else Andthen y f := by split <;> rfl

/-- Every way in which two computations in a row end well. -/
theorem act_bind_ok_iff {x : Act α} {f : α → Act β} {b : β} :
    (x >>= f) s = .ok b s' ↔ ∃ a s1, x s = .ok a s1 ∧ f a s1 = .ok b s' := by
  rw [act_bind]
  cases h : x s with
  | ok a s1 => simp
  | error e s1 => simp

/-- Every way in which two computations in a row stop. -/
theorem act_bind_error_iff {x : Act α} {f : α → Act β} {e : Stop} :
    (x >>= f) s = .error e s' ↔ x s = .error e s' ∨ ∃ a s1, x s = .ok a s1 ∧ f a s1 = .error e s' := by
  rw [act_bind]
  cases h : x s with
  | ok a s1 => simp
  | error e1 s1 => simp

end Sys2Proof.Machine
end

