-- ==== Sys2Proof/Tests/Slice0.lean ====
section
/-! SUPPORT. The model's own tests: words of the spec, ill-formed terms, single steps with the spec's values, and for
each statement states and operands that meet its hypotheses. -/

namespace Sys2Proof.Tests

set_option Elab.async false

open Sys2Proof.Machine

/-! ## Words that the chapters write out -/

/-- An instruction of some parcels. -/
def word (ps : List Nat) : Option Instr := decodeTableWord (32 * ps.length) (ps.foldr (fun p a => p + 2 ^ 32 * a) 0)

/-- The guard that is always true. -/
def gt : Guard := ⟨7, false⟩

/-- spec/02, the worked words. -/
theorem test_words_02 :
    word [0xF015041C, 0x0000FFFF] = some (.addi gt 21 0 0xFFFFF false) ∧
    word [0x041C2C5C, 0] = some (.st gt .h 28 16 0 false) ∧
    word [0x7185002C, 0] = some (.add ⟨3, true⟩ 5 6 7 false) ∧
    word [0x001E049D, 0, 0x12345678] = some (.liI32 gt 30 0x12345678) ∧
    word [0x04101FDE, 0x04000004, 0x30811400, 0x0000C000] =
      some (.pair gt (.addi gt 16 16 64 false) (.vadd gt (some .fp32) 1 2 3 .rne false)) := by decide +kernel

/-- spec/03 and spec/04: compares, fields, loops, calls, clauses. -/
theorem test_words_03_04 :
    word [0x40C1481C, 8] = some (.cmp gt .lt 1 2 3 4) ∧ word [0x4243885C, 0x00040006] = some (.cmpi gt .ltu 3 4 9 100) ∧
    word [0x8185051C, 0x2C] = some (.bfx gt 5 6 8 11 false) ∧ word [0xA4400A9C, 1] = some (.loop gt 0 17 26) ∧
    word [0xFFD02A1C, 0x3FF] = some (.call gt (-48)) ∧ word [0x30004A88, 0] = some (.clause ⟨2, false⟩ 3) ∧
    word [0x00004A5C, 0] = some (.ret gt) := by decide +kernel

/-- spec/05: tracks. -/
theorem test_words_05 :
    word [0x0140101C, 0] = some (.tclaim gt 5) ∧ word [0x4140105C, 6] = some (.seek gt 0 5 100) ∧
    word [0x115850DC, 0] = some (.trds gt 24 5 1) ∧ word [0xD08550DC, 0xFFFF] = some (.trds gt 5 2 (-3)) ∧
    word [0x0141505C, 0] = some (.rew gt 1 5) ∧ word [0x0150701C, 0] = some (.hpos gt 16 5) ∧
    word [0x0140301C, 0] = some (.trel gt 5) ∧ word [0x1243111C, 0] = some (.vtrds gt 3 9 1) ∧
    word [0x1C12115D, 0x14, 1] = some (.tstream gt 2 1 7 20 1) := by decide +kernel

/-- spec/08: vectors. -/
theorem test_words_08 :
    word [0x1081548C, 0xA008] = some (.vcmp ⟨3, false⟩ .lt (some .fp16) 1 2 2 1) ∧
    word [0x044A5814, 0x000C0000] = some (.vlda ⟨5, false⟩ 3 10 17 0) ∧
    word [0x010514DC, 0x9A30] = some (.vcvt gt (some .e2m1) (some .fp32) 5 4 0 .sr false) ∧
    word [0x3046159C, 0x00045028] = some (.vquant gt (some .e4m3) (some .fp16) 6 1 3 1 0 .rne) ∧
    word [0x1580189D, 0, 6] = some (.sbind gt 24 (.th 5 1)) := by decide +kernel

/-- spec/10, spec/11, spec/12: memory, engines, fences. -/
theorem test_words_10_12 :
    word [0x81854C1C, 0x0001FFFF] = some (.ld gt .w 5 6 (-8) true) ∧
    word [0x02896C9D, 0, 0x100000] = some (.ldM32 gt .d 9 10 0x100000 false) ∧
    word [0x7E001905, 0x852, 4] = some (.cp ⟨1, false⟩ 0 32 31 18 (.arrival 33) .d1 none) ∧
    word [0x58407A5C, 2] = some (.bwait gt 33 37) ∧ word [0x00C13A9C, 8] = some (.ftst gt 1 2 3) ∧
    word [0x0A409A9C, 0x10000] = some (.tlwait gt .ce 41) ∧ word [0x00040E9C, 0x80000] = some (.fence gt .pkg 8) ∧
    word [0x00050E9C, 0x1F0000] = some (.fence gt .dom 31) ∧
    word [0x7DE03905, 0x008E18A0, 0x34] = some (.cpm ⟨1, false⟩ 0 30 31 32 33 (.arrival 34) .d1 (some 35) true) := by
  decide +kernel

/-- spec/14, spec/15, spec/22: frames, domains, gangs, the system. -/
theorem test_words_14_15 :
    word [0x00001B1D, 0x144, 8] = some (.mark gt 0x51 8) ∧ word [0x10283B1C, 5] = some (.cut gt 0x51 40) ∧
    word [0x04005B1C, 0] = some (.graft gt 16) ∧ word [0x00149B5C, 0x30000] = some (.dsync gt 20 3) ∧
    word [0x0014BB5C, 0x54] = some (.dmem gt 20 21) ∧ word [0x0554DB5C, 0] = some (.snaparm gt 20 21) ∧
    word [0x40151B9C, 0] = some (.gang gt 21 4) ∧ word [0xA0005B9C, 2] = some (.rejoin gt 0x2A) ∧
    word [0x00007F9C, 0] = some (.idle gt) ∧ word [0x0240BF9C, 0] = some (.sevw gt 9) ∧
    word [0x00149F9C, 0] = some (.rdtime gt 20) := by decide +kernel

/-- spec/18: scales. -/
theorem test_words_18 :
    word [0x09081C1C, 0] = some (.kld gt 8 36 0 false false) ∧
    word [0x55143C5C, 0x30000] = some (.kadd gt 20 20 (.g 5) true) ∧
    word [0x0249BC5C, 0x78] = some (.knorm gt 9 9 30 false) ∧ word [0x30061C9C, 0x10000] = some (.kbind gt 6 3 1 false) ∧
    word [0x0A001CDC, 0x000C0000] = some (.vsave gt 40 0 3) := by decide +kernel

/-- spec/19: matrix and attention commands. -/
theorem test_words_19 :
    word [0xA3021D9E, 0x055000B2, 0x02000002, 3] =
      some (.mma gt 2 2 3 4 10 11 (some .e4m3) (some .e4m3) 0 2 true true) ∧
    word [0x00003D9E, 0, 1, 3] = some (.mmz gt 1 0 3) ∧
    word [0x11001E9E, 0x05B00000, 0x01000005, 0] = some (.qabs gt 5 (some .bf16) (some .e4m3) 1 2 0 1) ∧
    word [0x00001E5E, 0x29000080, 6, 0x40] = some (.attnS gt 6 .absorb none (some .e2m1) 0 0 8 0 0 true) ∧
    word [0x00003E5E, 0, 7, 0] = some (.attnP gt 7 0 0) ∧
    word [0x10047E5E, 0x25000000, 0x00010009, 0] = some (.attnF gt 9 4 0 (some (some .e4m3, 2, 1, 0)) 0) ∧
    word [0x01531EDD, 0, 0] = some (.lxcfg gt 3 21) ∧ word [0x01643EDD, 0, 0] = some (.smxcfg gt 4 22) := by decide +kernel

/-! ## Ill-formed terms: one for each check -/

/-- Integer, control and track checks (spec/03 R39, R49, R52, R53, spec/04 R62, R65, R72, spec/12 R202, spec/05 R86). -/
theorem test_ill_scalar :
    ([.wrsr gt 0x002 1, .wrsr gt 0x005 1, .slli gt 1 2 64, .srli gt 1 2 64, .srai gt 1 2 64, .bfx gt 1 2 60 4 false,
      .bfi gt 1 2 60 4, .cmp gt .eq 1 1 2 3, .cmpi gt .eq 2 2 2 3, .ftst gt 1 1 0, .loop gt 0 1 2, .loopi gt 0 1 3,
      .clause gt 0, .clause gt 9, .nop gt 3, .fence gt .dom 0, .trds gt 1 2 9, .twrs gt 2 1 (-9), .vtrds gt 1 2 9,
      .vtwrs gt 2 1 9, .tstream gt 1 1 1 1 9, .tfill gt 1 1 1 1 (-9)] : List Instr).all (fun i => !i.wf) = true := by
  decide +kernel

/-- Vector checks: formats and rounding, lanes, blocks (spec/08 R120, R126-R135, R139). -/
theorem test_ill_vector :
    ([.vadd gt (some .ternary) 1 2 3 .rne false, .vsub gt (some .int8) 1 2 3 .rz false, .vmul gt (some .ternary) 1 2 3 .rne true,
      .vfma gt (some .int8) 1 2 3 4 .rne false, .vmin gt (some .ternary) 1 2 3, .vmax gt (some .ternary) 1 2 3,
      .vabs gt (some .fp32) 1 2 true, .vneg gt (some .fp32) 1 2 true, .vshl gt (some .fp32) 1 2 3, .vshr gt (some .fp32) 1 2 3,
      .vsra gt (some .fp32) 1 2 3, .vcmp gt .ltu (some .fp32) 1 2 3 4, .vcmp gt .uo (some .int8) 1 2 3 4,
      .vcmp gt .eq (some .int8) 1 1 3 4, .vcvt gt (some .fp32) (some .fp32) 1 2 1 .rne false, .vrcp gt (some .int8) 1 2 .rne false,
      .vrsqrt gt (some .int8) 1 2 .rne false, .vexp2 gt (some .int8) 1 2, .vlog2 gt (some .int8) 1 2 .rne false,
      .vredsum gt (some .ternary) 1 2 .rne false, .vredmax gt (some .ternary) 1 2, .vbcast gt (some .e2m1) 1 2,
      .vext gt (some .fp32) 1 2 16, .vins gt (some .fp32) 1 2 16, .vperm gt (some .e2m1) 1 2 3, .vshuf gt (some .e2m1) 1 2 3 4,
      .vpack gt (some .fp32) 1 2 3 false, .vunpack gt (some .int8) 1 2 false false, .vquant gt (some .e4m3) none 1 2 3 0 0 .rne,
      .vquant gt (some .int16) (some .fp32) 1 2 3 0 0 .rne, .vquant gt (some .e4m3) (some .fp32) 1 3 3 0 0 .rne,
      .vquant gt (some .e4m3) (some .fp32) 1 2 3 0 2 .rne, .vdeq gt (some .fp32) none 2 1 0 .rne false,
      .vdeq gt (some .fp32) (some .e4m3) 1 2 0 .rne false, .vldg gt (some .int8) 1 2 3 false, .vsts gt (some .int8) 1 2 3 false,
      .sbind gt 23 (.rc 0), .sbind gt 24 (.th 0 9), .sunbind gt 23] : List Instr).all (fun i => !i.wf) = true := by decide +kernel

/-- Copies, rings, domains, scales, matrix (spec/11 R176, R186, spec/15 R258, R261, spec/18 R290, R295, spec/19 R306). -/
theorem test_ill_engines :
    ([.cp gt 0 1 2 61 .none .d2 none, .cpm gt 0 1 2 58 3 .none .d3 none false, .cpsig gt 0 1 2 61 3 .d2,
      .ring gt 0 1 0 1 false 0, .ring gt 0 1 129 1 false 0, .ring gt 0 1 1 65 false 0, .ring gt 0 1 1 1 false 1,
      .ring gt 0 1 1 2 true 63, .dsync gt 1 7, .dmem gt 1 1, .gang gt 1 1, .gang gt 1 9, .vsave gt 1 0 0, .vrest gt 1 0 0,
      .kbind gt 1 1 0 true, .kbindQ gt 1 1 0 1 true, .mma gt 0 0 0 0 0 0 none (some .e4m3) 0 1 false false,
      .mma gt 0 0 0 0 0 0 (some .bf16) (some .e4m3) 0 1 false false, .mma gt 0 0 0 0 0 0 (some .bf16) (some .bf16) 0 1 true false,
      .mma gt 0 0 0 0 0 0 (some .e4m3) (some .e4m3) 0 0 false false, .mma gt 0 0 0 0 0 0 (some .e4m3) (some .e4m3) 0 33 false false,
      .mma gt 0 0 0 0 0 0 (some .e4m3) (some .e4m3) 0 5 true true, .mmz gt 0 13 3, .mova gt none 0 0 .rne false,
      .mova gt (some .fp32) 2 0 .rne false, .mova gt (some .fp32) 0 0 .rz false, .mova gt (some .bf16) 1 0 .rne false,
      .attnS gt 0 (.plain 1) (some .e4m3) (some .e4m3) 0 0 0 0 33 false, .attnS gt 0 (.plain 0) (some .e4m3) (some .e4m3) 0 0 0 0 0 false,
      .attnS gt 0 .absorb none (some .e4m3) 1 0 0 0 0 false, .attnS gt 0 (.plain 1) (some .int8) (some .e4m3) 0 0 0 0 0 false,
      .attnS gt 0 (.plain 1) (some .e4m3) (some .int8) 0 0 0 0 0 false, .attnP gt 0 15 2, .attnV gt 0 (.plain 4) (some .e4m3) 1 0 0 0 false,
      .attnV gt 0 (.plain 1) (some .int8) 0 0 0 0 false, .attnF gt 0 0 15 none 2, .attnF gt 0 15 0 none 2,
      .attnF gt 0 13 0 (some (some .e4m3, 0, 0, 0)) 0, .attnF gt 0 0 0 (some (some .e2m1, 0, 0, 0)) 0,
      .attnF gt 0 0 0 (some (some .e4m3, 0, 0, 0)) 1, .qabs gt 0 (some .e2m1) (some .e4m3) 0 0 0 1,
      .qabs gt 0 (some .e4m3) (some .e4m3) 0 0 0 5] : List Instr).all (fun i => !i.wf) = true := by decide +kernel

/-- Pair words: guards that differ, a half of the wrong kind, an order, two accesses, one destination (spec/02 R24). -/
theorem test_ill_pair :
    let a : Instr := .add gt 1 2 3 false
    let v : Instr := .vadd gt (some .fp32) 1 2 3 .rne false
    (Instr.pair gt a v).wf = true ∧
    ([.pair ⟨1, false⟩ a v, .pair gt (.add ⟨1, false⟩ 1 2 3 false) v, .pair gt a (.vadd ⟨1, false⟩ (some .fp32) 1 2 3 .rne false),
      .pair gt v v, .pair gt a a, .pair gt (.slli gt 1 2 64) v, .pair gt a (.vadd gt (some .ternary) 1 2 3 .rne false),
      .pair gt (.ld gt .w 1 2 0 true) v, .pair gt a (.vld gt 1 2 0 true), .pair gt (.ld gt .w 1 2 0 false) (.vld gt 1 2 0 false),
      .pair gt a (.vext gt (some .fp32) 1 2 0)] : List Instr).all (fun i => !i.wf) = true := by decide +kernel

/-! ## Small states -/

/-- The machine after reset with thread 0 of core 0 bound at 0x10000, which owns the core's engine. -/
def mk (f : Thread → Thread) (c : Core → Core) : State :=
  (State.reset.modTh fun t => f { t with bound := true, pc := 0x10000 }).modCore fun x => c { x with owner := some 0 }

/-- General registers with values. -/
def regs (l : List (GReg × Word)) (t : Thread) : Thread := l.foldl (fun t (x : GReg × Word) => t.setG x.1 x.2) t

/-- A translation of 64 KB from 0x10000 to frame 0x20000, for loads, stores and fetches. -/
def page : TlbEnt := ⟨0x10001, 0x20007, 0⟩

/-- A state with that translation in the cluster's TLB. -/
def mapped (s : State) : State := s.modClusterAt 0 fun c => { c with tlb := [page] }

/-- An operand address in the core's own SRAM. -/
def sram (n : Nat) : Word := BitVec.ofNat 64 (2 ^ 60 + n)

/-- What Ready asks, as one Boolean. -/
def readyB (i : Instr) (s : State) : Bool :=
  decide (s.ct < 4) && decide (s.preTrap i = none) && decide (guardScan i s = (s, none)) && s.live i &&
    decide (s.postTrap i = none) && !s.th.loadHeld (s.liveForm i) && decide (regScan (s.liveForm i) s = (s, none))

theorem ready_of {i : Instr} {s : State} (h : readyB i s = true) : Ready i s := by
  simp only [readyB, Bool.and_eq_true, decide_eq_true_eq, Bool.not_eq_true'] at h
  obtain ⟨⟨⟨⟨⟨⟨h1, h2⟩, h3⟩, h4⟩, h5⟩, h6⟩, h7⟩ := h
  exact ⟨h1, h2, h3, h4, h5, h6, h7⟩

/-- A computation ends well with a value in a state. -/
def isOk {α : Type} [DecidableEq α] (r : EStateM.Result Stop State α) (a : α) (s : State) : Bool :=
  match r with
  | .ok x t => decide (x = a) && decide (t = s)
  | .error _ _ => false

theorem ok_of {α : Type} [DecidableEq α] {r : EStateM.Result Stop State α} {a : α} {s : State}
    (h : isOk r a s = true) : r = .ok a s := by
  cases r with
  | ok x t =>
    simp only [isOk, Bool.and_eq_true, decide_eq_true_eq] at h
    rw [h.1, h.2]
  | error e t => simp [isOk] at h

/-- A computation ends well. -/
def ends {α : Type} (r : EStateM.Result Stop State α) : Bool :=
  match r with
  | .ok _ _ => true
  | .error _ _ => false

theorem ok_ex {α : Type} {r : EStateM.Result Stop State α} (h : ends r = true) : ∃ a s, r = .ok a s := by
  cases r with
  | ok a s => exact ⟨a, s, rfl⟩
  | error e s => simp [ends] at h

/-- A value that an outcome's next state has. -/
def after {α : Type} (o : Outcome) (f : State → α) : Option α :=
  match o with
  | .next s => some (f s)
  | _ => none

/-! ## The step -/

/-- A mapped state whose memory holds `add g3, g1, g2` at the pc. -/
def stepS : State :=
  let s := mapped (mk (regs [(1, 5), (2, 7)]) id)
  { s with mem := memWrites s.mem 0x20000 [0x1C, 0, 0x43, 0x20, 0, 0, 0, 0] }

/-- The hypotheses of StepRunsDecoded, without and with a turn listed, and of TranslationAndFetch. -/
theorem test_step_hyps :
    stepS.turns = [] ∧ stepS.turnPick = stepS ∧ Issues stepS ∧ legalStart stepS.th.pc = true ∧ (∃ bs s, fetchBytes stepS = .ok bs s) ∧
    Issues ({ stepS with turns := [.issue 0 0] }.turnTo 0 0 []) ∧
    Clean stepS := by
  refine ⟨by decide, by decide +kernel, ⟨by decide, by decide, by decide, by decide, by decide, by decide, by decide, by decide, by decide,
    by decide, by decide⟩, by decide, ok_ex (by decide +kernel), ⟨by decide, by decide, by decide, by decide, by decide, by decide,
    by decide, by decide, by decide, by decide, by decide⟩, ⟨by decide, by decide, by decide⟩⟩

/-- The bytes at the pc are the instruction's, and one step runs it: 5 + 7 (spec/03 R46). -/
theorem test_step_add : after (step stepS) (fun s => (s.g 3, s.th.pc)) = some (12, 0x10008) := by decide +kernel

/-- The end of a turn with nothing left for it (the third clause of StepRunsDecoded). -/
theorem test_close_hyps : (stepS.threadAt stepS.tk).gang = none ∧ stepS.pend = [] ∧ stepS.draining = [] ∧
    (∀ x, x ∈ stepS.doms → x.2.due = []) ∧ stepS.granted = [] ∧ stepS.paid = [] ∧ stepS.asking = [] ∧ stepS.fixes = [] :=
  ⟨by decide +kernel, by decide, by decide, by decide, by decide, by decide, by decide, by decide⟩

/-- A byte of a translated page is reached without a change of the registers. -/
theorem test_reach_page : ∃ s1, Reaches stepS.lsu .load false 0x10004 4 stepS (.cell 0x20004) s1 ∧
    s1.threads = stepS.threads := by
  have h : ∃ p s1, resolve stepS.lsu .load false 0x10004 4 0 false stepS = .ok p s1 := ok_ex (by decide +kernel)
  obtain ⟨p, s1, e⟩ := h
  have h2 : (match resolve stepS.lsu .load false 0x10004 4 0 false stepS with
    | .ok p s1 => decide (p = .cell 0x20004) && decide (s1.threads = stepS.threads)
    | _ => false) = true := by decide +kernel
  rw [e] at h2
  simp only [Bool.and_eq_true, decide_eq_true_eq] at h2
  exact ⟨s1, by rw [Reaches, e, h2.1], h2.2⟩

/-- InvariantKept: the state meets the invariant and its step answers. -/
theorem test_inv_hyps : stepS.Inv ∧ (after (step stepS) fun _ => ()) = some () :=
  ⟨⟨by unfold State.memOk; decide +kernel, by decide⟩, by decide +kernel⟩

/-! ## Guards, checks, traps -/

/-- g1 = 5, g2 = 7, the highest negative number in g3, -1 in g4. -/
def intS : State := mk (regs [(1, 5), (2, 7), (3, 0x8000000000000000), (4, 0xFFFFFFFFFFFFFFFF)]) id
/-- The trap window, with a handler and a saved pc. -/
def trapS : State := mk (fun t => { t with inTrap := true, tvec := 0x20000, tpc := 0x12340 }) id
/-- Out of the trap window, with a handler at the lowest legal address. -/
def handS : State := mk (fun t => { t with tvec := 4 }) id
/-- A member of a clause of eight. -/
def clauseS : State := mk (fun t => { t with cls := 8 }) id
/-- Thread 0 does not own the engine: thread 3 does, or none. -/
def otherS (o : Option Nat) : State := (mk id id).modCore fun c => { c with owner := o }

/-- FalseGuardSkips: a false guard, of a plain instruction and of one of a timeline. -/
theorem test_skip_hyps :
    (Skips (.add ⟨7, true⟩ 3 1 2 false) intS ∧ Instr.guard (.add ⟨7, true⟩ 3 1 2 false) = some ⟨7, true⟩) ∧
    Skips (.mmz ⟨7, true⟩ 3 1 2) intS :=
  ⟨⟨⟨by decide, by decide, by decide, by decide⟩, by decide⟩, ⟨by decide, by decide, by decide, by decide⟩⟩

/-- A timeline instruction with a false guard takes number 1, which ends at once (spec/11 R123). -/
theorem test_skip_timeline :
    after (exec (.mmz ⟨7, true⟩ 3 1 2) intS) (fun s => ((s.th.tl .me).last, (s.th.tl .me).cur, (s.th.fr 3).st)) =
      some (1, 1, .done) := by decide +kernel

/-- IssueChecks: another owner and none; a call in the trap window; a branch and a mark in a clause. -/
theorem test_check_hyps :
    ((otherS (some 3)).preTrap (.kgen gt 1 2) = none ∧ (otherS (some 3)).live (.kgen gt 1 2) = true ∧
      guardScan (.kgen gt 1 2) (otherS (some 3)) = (otherS (some 3), none) ∧ guardScan (.call gt 4) trapS = (trapS, none) ∧
      (otherS (some 3)).th.inTrap = false ∧ (otherS (some 3)).core.owner ≠ some (otherS (some 3)).ct ∧
      Instr.needsOwner (.kgen gt 1 2) = true ∧ (otherS none).core.owner ≠ some (otherS none).ct) ∧
    (Instr.trapBarred (.call gt 4) = true ∧ trapS.preTrap (.call gt 4) = none ∧ (trapS.mask (.call gt 4)).getLsbD 0 = true) ∧
    (Instr.clauseBarred (.br gt 4) = true ∧ Instr.clauseBarred (.mark gt 1 4) = true ∧ clauseS.th.inClause = true ∧
      clauseS.fmtTrap (.br gt 4) = false) := by decide +kernel

/-- IssueChecks, the pick: threads 0 and 1 stand at one instruction of a class, a scalar and a vector one. -/
def pickS (i : Instr) : State :=
  let s := stepS.modThreadAt 1 fun t => { t with bound := true, pc := 0x10000 }
  { s with mem := memWrites [] 0x20000 ((encode i).getD []) }
theorem test_pick_hyps :
    let a : Instr := .add gt 3 1 2 false
    let v : Instr := .vadd gt (some .fp32) 4 1 2 .rne false
    [0, 1].all (fun n => (pickS a).threadReady (4 * 0 + n) && ((pickS a).threadAt (4 * 0 + n)).saving.isNone &&
      decide ((pickS a).peek (4 * 0 + n) = some a)) = true ∧
    [0, 1].all (fun n => (pickS v).threadReady (4 * 0 + n) && decide ((pickS v).peek (4 * 0 + n) = some v)) = true ∧
    Instr.slots a = (true, false) ∧ Instr.slots v = (false, true) ∧ stepS.stalls a = false := by decide +kernel

/-- After thread 0 has issued, thread 1 has the next turn of the class, and thread 0 the one after it (spec/03 R33). -/
theorem test_pick :
    let s := pickS (.add gt 3 1 2 false)
    (s.modCore fun c => { c with lastS := 0 }).pickFor 0 0 = 1 ∧
    (s.modCore fun c => { c with lastS := 1 }).pickFor 0 1 = 0 := by decide +kernel

/-- The owner trap's value is 3 for thread 3 and 4 for none (spec/03 R32). -/
theorem test_owner_value :
    after (exec (.kgen gt 1 2) ((otherS (some 3)).modTh fun t => { t with tvec := 4 })) (fun s => (s.th.tcause, s.th.tval)) =
      some (4, 3) ∧
    after (exec (.kgen gt 1 2) ((otherS none).modTh fun t => { t with tvec := 4 })) (·.th.tval) = some 4 := by decide +kernel

/-- TrapEntry: a handler at the lowest legal address; the window; no handler; one at no legal start. -/
theorem test_entry_hyps :
    (handS.th.inTrap = false ∧ handS.th.tvec.toNat % 2 ^ 48 / 4 ≠ 0 ∧ legalStart (handlerPc handS.th.tvec) = true) ∧
    trapS.th.inTrap = true ∧ ((mk id id).th.inTrap = false ∧ (mk id id).th.tvec.toNat % 2 ^ 48 / 4 = 0) ∧
    (let t := (mk (fun t => { t with tvec := 0x1C }) id).th
     t.inTrap = false ∧ t.tvec.toNat % 2 ^ 48 / 4 ≠ 0 ∧ legalStart (handlerPc t.tvec) = false) := by decide +kernel

/-- TrapReturn: a legal saved pc, a misaligned one, and outside the window. -/
theorem test_tret_hyps :
    (Ready (.tret gt) trapS ∧ legalStart (trapS.th.tpc.setWidth 48) = true) ∧
    (Ready (.tret gt) (trapS.modTh fun t => { t with tpc := 2 }) ∧ legalStart (2 : Pc) = false) ∧
    (Ready (.tret gt) handS ∧ handS.th.inTrap = false) :=
  ⟨⟨ready_of (by decide +kernel), by decide⟩, ⟨ready_of (by decide +kernel), by decide⟩, ⟨ready_of (by decide +kernel), by decide⟩⟩

/-- SoftwareTrap: ready, with the largest immediate. -/
theorem test_trap_hyps : Ready (.trap gt 0xFFFFF) handS := ready_of (by decide +kernel)

/-- The trap saves the next pc and goes to the handler (spec/04 R73, spec/16 R269). -/
theorem test_trap_entry : after (exec (.trap gt 9) handS) (fun s => (s.th.tpc, s.th.tcause, s.th.tval, s.th.pc, s.th.inTrap)) =
    some (0x10008, 16, 9, 4, true) := by decide +kernel

/-- NextPc: a level with two iterations left ends at the successor; one with its last. -/
def loopS (n : Word) : State := mk (fun t => ((t.setLs 1 0x8000).setLe 1 0x10008).setLc 1 n) id
theorem test_next_hyps :
    backLevel (loopS 2).th (successor (loopS 2).th.pc 8) = some 1 ∧ backLevel (mk id id).th (successor (mk id id).th.pc 8) = none ∧
    backLevel (loopS 1).th (successor (loopS 1).th.pc 8) = none := by decide +kernel

/-- The back-edge is taken with two iterations left (spec/04 R61). -/
theorem test_back_edge : after (exec (.nop gt 0) (loopS 2)) (fun s => (s.th.pc, s.th.lcn 1)) = some (0x8000, 1) := by decide +kernel

/-! ## Integer instructions -/

/-- IntegerResults and IntegerFrame: hypotheses, also with g0 as the destination; a field up to bit 63. -/
theorem test_int_hyps :
    (intResult intS (.add gt 0 1 2 false) = some (0, 12) ∧ Instr.wf (.add gt 0 1 2 false) = true ∧ Ready (.add gt 0 1 2 false) intS) ∧
    (Instr.wf (.bfi gt 1 2 60 3) = true ∧ Ready (.bfi gt 1 2 60 3) intS) ∧ Ready (.div gt 5 3 4) intS ∧
    Ready (.rem gt 5 1 0) intS ∧ Ready (.divu gt 5 1 0) intS ∧ Ready (.remu gt 5 1 2) intS :=
  ⟨⟨by decide +kernel, by decide, ready_of (by decide +kernel)⟩, ⟨by decide, ready_of (by decide +kernel)⟩, ready_of (by decide +kernel),
    ready_of (by decide +kernel), ready_of (by decide +kernel), ready_of (by decide +kernel)⟩

/-- -2^63 / -1 is -2^63, and its remainder 0 (spec/03 R47). -/
theorem test_div_corner : after (exec (.div gt 5 3 4) intS) (·.g 5) = some 0x8000000000000000 ∧
    after (exec (.rem gt 5 3 4) intS) (·.g 5) = some 0 := by decide +kernel

/-- The saturating sum of two large numbers is the largest (spec/03 R48). -/
theorem test_add_sat : after (exec (.add gt 5 1 2 true)
    (mk (regs [(1, 0x7FFFFFFFFFFFFFFF), (2, 1)]) id)) (·.g 5) = some 0x7FFFFFFFFFFFFFFF := by decide +kernel

/-- A field with a sign (spec/03 R52), and an address that keeps its path selector when its offset wraps (R51). -/
theorem test_fields : after (exec (.bfx gt 5 1 4 3 true) (mk (regs [(1, 0x81)]) id)) (·.g 5) = some 0xFFFFFFFFFFFFFFF8 ∧
    after (exec (.lea gt 5 1 (-1)) (mk (regs [(1, 0x3000000000000000)]) id)) (·.g 5) = some 0x3FFFFFFFFFFFFFFF := by decide +kernel

/-- PredicateResults. -/
theorem test_pred_hyps : predResult intS (.cmp gt .lt 1 2 1 2) = some [(1, BitVec.allOnes 64), (2, 0)] ∧
    Ready (.cmp gt .lt 1 2 1 2) intS ∧ Ready (.pmov gt 7 1 true) intS :=
  ⟨by decide +kernel, ready_of (by decide +kernel), ready_of (by decide +kernel)⟩

/-- SystemRegisters: fmt at its bounds, a loop start, tvec with a reserved bit. -/
theorem test_sys_hyps :
    (sysValue intS 0x020 = some 0 ∧ Ready (.rdsr gt 5 0x020) intS) ∧ Ready (.wrsr gt 0x000 1) (mk (regs [(1, 13)]) id) ∧
    Ready (.wrsr gt 0x000 1) (mk (regs [(1, 14)]) id) ∧ Ready (.wrsr gt 0x013 1) (mk (regs [(1, 0xFFFFFFFFFFFF)]) id) ∧
    Ready (.wrsr gt 0x020 1) (mk (regs [(1, 2)]) id) ∧ Ready (.wrsr gt 0x008 1) (mk (regs [(1, 0x808)]) id) :=
  ⟨⟨by decide +kernel, ready_of (by decide +kernel)⟩, ready_of (by decide +kernel), ready_of (by decide +kernel), ready_of (by decide +kernel),
    ready_of (by decide +kernel), ready_of (by decide +kernel)⟩

/-- A written generator state of 0 is stored as 0x9E3779B9 (spec/03 R45). -/
theorem test_rngs_zero : after (exec (.wrsr gt 0x004 0) intS) (·.th.rngs) = some 0x9E3779B9 := by decide +kernel

/-! ## Control -/

/-- Branches and loops: legal and misaligned targets, a register above 48 bits, counts of 0 and more, an empty body. -/
theorem test_control_hyps :
    (Ready (.br gt 4) intS ∧ legalStart (intS.th.pc + 4 * (4 : BitVec 26).signExtend 48) = true) ∧
    Ready (.br gt 1) (mk (fun t => { t with pc := 0x1001C }) id) ∧
    Ready (.jr gt 1) (mk (regs [(1, 2 ^ 48)]) id) ∧ Ready (.jr gt 1) (mk (regs [(1, 2)]) id) ∧
    Ready (.loop gt 0 1 3) intS ∧ Ready (.loop gt 0 0 3) intS ∧ Ready (.loop gt 0 0 2) intS ∧ Ready (.loopi gt 3 0xFFFFFFFF 4) intS ∧
    (Ready (.lbrk gt 1) (loopS 5) ∧ legalStart (((loopS 5).th.len 1).setWidth 48) = true) :=
  ⟨⟨ready_of (by decide +kernel), by decide +kernel⟩, ready_of (by decide +kernel), ready_of (by decide +kernel), ready_of (by decide +kernel),
    ready_of (by decide +kernel), ready_of (by decide +kernel), ready_of (by decide +kernel), ready_of (by decide +kernel),
    ⟨ready_of (by decide +kernel), by decide +kernel⟩⟩

/-- A count of 0 goes to the end and leaves the level inactive (spec/04 R62). -/
theorem test_loop_zero : after (exec (.loop gt 0 0 4) intS) (fun s => (s.th.pc, s.th.lcn 0)) = some (0x10010, 0) := by decide +kernel

/-- ClausesWaitsFences: a clause, a wait, its expiry, a fence with and without an outstanding operation. -/
def opS : State := (mk id id).modCore fun c => { c with me := [{ num := 1, eng := .me, th := 0, instr := .mmz gt 1 0 0, fd := 1, pc := 0 }] }
theorem test_wait_hyps :
    (Instr.wf (.clause ⟨2, true⟩ 8) = true ∧ Ready (.clause ⟨2, true⟩ 8) intS) ∧ Ready (.wait gt 0xFFFFF) intS ∧
    ((intS.modTh fun t => { t with waitN := 9 }).threadAt 0).waitN ≠ 0 ∧ Ready (.nop gt 2) intS ∧
    (Ready (.fence gt .dom 16) opS ∧ opS.allOps opS.tk ≠ []) ∧ (Ready (.fence gt .dom 15) opS ∧ (15 : BitVec 5).getLsbD 4 = false) :=
  ⟨⟨by decide, ready_of (by decide +kernel)⟩, ready_of (by decide +kernel), by decide +kernel, ready_of (by decide +kernel),
    ⟨ready_of (by decide +kernel), by decide +kernel⟩, ⟨ready_of (by decide +kernel), by decide⟩⟩

/-- A clause header writes COUNT, GP and GN into the live clause (spec/04 R65). -/
theorem test_clause : after (exec (.clause ⟨2, true⟩ 8) intS) (·.th.cls) = some 0xA8 := by decide +kernel

/-! ## Calls and returns -/

/-- A thread whose frame store is track 5. -/
def frS (f : Thread → Thread) : State := (mk (fun t => f { t with ftrk := some 5, flagT := true }) id).modTrack 0 5 fun x => { x with claim := .thread 0 }
/-- The same one call deep. -/
def callS : State := frS fun t => ({ t with res := 2, cwb := 40, fsp := 82, frames := { at_ := 41, kind := .window, size := 41 } :: t.frames }).setG 23 0x10008

/-- Calls: the frame is pushed; four windows; no room; a target that is misaligned or above 48 bits. -/
theorem test_call_hyps :
    (Ready (.call gt 8) (frS id) ∧ legalStart ((frS id).th.pc + 4 * (8 : BitVec 26).signExtend 48) = true ∧
      ∃ s1, pushFrame (frS id).tk { at_ := 41, kind := .window, size := 41 } [] (frS id) = .ok () s1) ∧
    (Ready (.call gt 8) (frS fun t => { t with res := 4 }) ∧ Ready (.callr gt 1) (frS (regs [(1, 2 ^ 48)])) ∧
      Ready (.callr gt 1) (frS (regs [(1, 2)]))) ∧
    (Ready (.call gt 8) (frS fun t => { t with fsp := 2047 }) ∧ (frS fun t => { t with fsp := 2047 }).th.frameCap < 2047 + 41) := by
  refine ⟨⟨ready_of (by decide +kernel), by decide +kernel, ?_⟩, ⟨ready_of (by decide +kernel), ready_of (by decide +kernel),
    ready_of (by decide +kernel)⟩, ready_of (by decide +kernel), by decide +kernel⟩
  obtain ⟨a, s1, h⟩ := ok_ex (r := pushFrame (frS id).tk { at_ := 41, kind := .window, size := 41 } [] (frS id)) (by decide +kernel)
  exact ⟨s1, h⟩

/-- A call moves the window on: g23 of the callee is the return address (spec/03 R36, spec/04 R59). -/
theorem test_call : after (exec (.call gt 8) (frS id)) (fun s => (s.th.pc, s.g 23, s.th.res, s.th.cwb, s.th.fsp)) =
    some (0x10020, 0x10008, 2, 40, 82) := by decide +kernel

/-- Returns: to the caller; over a mark; from the first call; with one window resident below more. -/
def markFrame : Frame := { at_ := 41, kind := .mark, tag := 1, size := 14 }
/-- The delimiter's words in the store: its header and its resume address. -/
def marked (s : State) : State := s.modTrack 0 5 fun x => { x with slots := [(41, markFrame.header 41), (42, 0x9000)] }
def markS : State :=
  marked (frS fun t => { t with res := 2, fsp := 96, frames := { at_ := 55, kind := .window, size := 41 } :: markFrame :: t.frames })
/-- What a return does once it has read the header below the current frame. -/
def headerRead (at_ : Nat) (s : State) (f : Word → State → Bool) : Bool :=
  match frameRead s.tk at_ 0 s with
  | .ok h s1 => decide (s1.tk = s.tk) && decide (s1.th = s.th) && f h s1
  | .error _ _ => false
theorem test_ret_hyps :
    (Ready (.ret gt) callS ∧ splitCurrent callS.th.frames = ([{ at_ := 41, kind := .window, size := 41 }],
        [{ at_ := 0, kind := .window, size := 41 }]) ∧ callS.th.res ≠ 1 ∧ legalStart ((callS.g 23).setWidth 48) = true ∧
      headerRead 0 callS (fun h s1 => decide (h.toNat / 2 ^ 62 ≠ 1) && decide (h.toNat / 2 ^ 62 ≠ 2) && !s1.frameOps callS.tk) = true) ∧
    (Ready (.ret gt) markS ∧ splitCurrent markS.th.frames = ([{ at_ := 55, kind := .window, size := 41 }],
        markFrame :: [{ at_ := 0, kind := .window, size := 41 }]) ∧ markS.th.res ≠ 1 ∧
      headerRead 41 markS (fun h s1 => decide (h.toNat / 2 ^ 62 = 1) && !s1.frameOps markS.tk && ends (frameRead markS.tk 42 0 s1)) = true) ∧
    (Ready (.ret gt) (frS id) ∧ (frS id).th.res = 1 ∧ (frS id).th.depth = 0 ∧ (frS id).allOps (frS id).tk = [] ∧
      (splitCurrent (frS id).th.frames).2 = []) ∧
    (Ready (.ret gt) (frS fun t => { t with depth := 1 })) ∧ (Ready (.exit gt) (frS id) ∧ Ready (.exit gt) opS) :=
  ⟨⟨ready_of (by decide +kernel), by decide +kernel, by decide +kernel, by decide +kernel, by decide +kernel⟩,
    ⟨ready_of (by decide +kernel), by decide +kernel, by decide +kernel, by decide +kernel⟩,
    ⟨ready_of (by decide +kernel), by decide +kernel, by decide +kernel, by decide +kernel, by decide +kernel⟩, ready_of (by decide +kernel), ready_of (by decide +kernel), ready_of (by decide +kernel)⟩

/-- Returns: a resume address that is no legal start. -/
theorem test_ret_misaligned :
    let s := markS.modTrack 0 5 fun x => { x with slots := [(41, markFrame.header 41), (42, 0x9002)] }
    readyB (.ret gt) s = true ∧ legalStart ((0x9002 : Word).setWidth 48) = false ∧
      after (exec (.ret gt) (s.modTh fun t => { t with tvec := 4 })) (fun s => (s.th.tcause, s.th.tval, s.th.fsp)) =
        some (2, 0x9002, 96) := by decide +kernel

/-- A return over a mark goes on at its resume address and pops it (spec/14 R226). -/
theorem test_ret_mark : after (exec (.ret gt) markS) (fun s => (s.th.pc, s.th.fsp, s.th.frames.length)) = some (0x9000, 41, 1) := by decide +kernel

/-! ## Memory -/

/-- g1 addresses the SRAM's last eight bytes, g2 a device register, g3 a misaligned byte, g4 a path of none; g5 a value. -/
def memS : State :=
  let s := mk (regs [(1, sram 0x7FF8), (2, 0x9000000000000000), (3, sram 1), (4, 0xA000000000000000), (5, 0x8182), (6, sram 64)]) id
  { s with mem := memWrites [] (sramKey 0 0x7FF8) [0x80, 0xFF, 3, 4, 5, 6, 7, 8] }

/-- Loads and Stores: a byte of the own SRAM, a device register and a hole among them, misaligned, a path of none. -/
theorem test_load_hyps :
    (loadForm memS (.ld gt .d 7 1 0 false) = some (8, true, 7, sram 0x7FF8) ∧ Ready (.ld gt .d 7 1 0 false) memS ∧
      Reaches memS.lsu .load true (sram 0x7FF8) 8 memS (.cell (sramKey 0 0x7FF8)) memS ∧ Clean memS ∧
      memS.answers memS.lsu (sramKey 0 0x7FF8) ∧ ∃ bs s2, placeRead memS.lsu (.cell (sramKey 0 0x7FF8)) 8 memS = .ok bs s2) ∧
    (Ready (.ld gt .h 7 3 0 false) memS ∧ (sram 1).toNat % 2 ≠ 0) ∧ Ready (.ldu gt .b 7 4 0 false) memS ∧
    (Ready (.ld gt .d 7 2 0 false) memS ∧ Reaches memS.lsu .load true 0x9000000000000000 8 memS (.reg 0) memS ∧
      (regRead memS.lsu.pkg 0 memS).isSome = true ∧ (regRead memS.lsu.pkg 0x18 memS).isSome = false) :=
  ⟨⟨by decide +kernel, ready_of (by decide +kernel), ok_of (by decide +kernel), ⟨by decide, by decide, by decide⟩,
    ⟨fun h => absurd h (by decide +kernel), .inl (by decide +kernel)⟩, ok_ex (by decide +kernel)⟩,
    ⟨ready_of (by decide +kernel), by decide⟩, ready_of (by decide +kernel), ready_of (by decide +kernel), ok_of (by decide +kernel),
    by decide +kernel, by decide +kernel⟩

theorem test_store_hyps :
    (storeForm memS (.st gt .h 5 1 0 false) = some (2, 0x8182, sram 0x7FF8) ∧ Ready (.st gt .h 5 1 0 false) memS ∧
      Reaches memS.lsu .store false (sram 0x7FF8) 2 memS (.cell (sramKey 0 0x7FF8)) memS) ∧
    (Ready (.st gt .d 5 2 0 false) memS ∧ Reaches memS.lsu .store true 0x9000000000000000 8 memS (.reg 0) memS ∧
      regOccupied memS.lsu.pkg 0 memS = true ∧ ∃ u s2, regWrite memS.lsu.pkg 0 5 memS = .ok u s2) :=
  ⟨⟨by decide +kernel, ready_of (by decide +kernel), ok_of (by decide +kernel)⟩,
    ready_of (by decide +kernel), ok_of (by decide +kernel), by decide +kernel, ok_ex (by decide +kernel)⟩

/-- A signed load of a byte of 0x80, and the bytes of a half-word store, lowest first (spec/10 R150). -/
theorem test_load_byte : after (exec (.ld gt .b 7 1 0 false) memS) (·.g 7) = some 0xFFFFFFFFFFFFFF80 := by decide +kernel
theorem test_store_half : after (exec (.st gt .h 5 1 0 false) memS) (fun s => memReads s.mem (sramKey 0 0x7FF8) 3) =
    some [0x82, 0x81, 3] := by decide +kernel

/-- Atomics, and the fixed-point cell at an address that is a multiple of 32. -/
theorem test_atomic_hyps :
    (Ready (.amoadd gt 7 1 5 true .plain) memS ∧ Reaches memS.lsu .atomic false (sram 0x7FF8) 8 memS (.cell (sramKey 0 0x7FF8)) memS) ∧
    Ready (.amomin gt 7 3 5 false .plain false) memS ∧
    (Ready (.famoFx gt 6 5 .plain) memS ∧ Ready (.fxrd gt 7 6 true .plain) memS ∧
      Reaches memS.lsu .atomic false (sram 64) 32 memS (.cell (sramKey 0 64)) memS) :=
  ⟨⟨ready_of (by decide +kernel), ok_of (by decide +kernel)⟩, ready_of (by decide +kernel), ready_of (by decide +kernel),
    ready_of (by decide +kernel), ok_of (by decide +kernel)⟩

/-- A signed minimum of words keeps the old value and answers it, sign-extended (spec/11 R193). -/
theorem test_amomin : after (exec (.amomin gt 7 1 5 false .plain false)
    { memS with mem := memWrites [] (sramKey 0 0x7FF8) [0, 0, 0, 0x80] }) (fun s => (s.g 7, memReads s.mem (sramKey 0 0x7FF8) 4)) =
    some (0xFFFFFFFF80000000, [0, 0, 0, 0x80]) := by decide +kernel

/-- An asynchronous load in the queue, started. -/
def ldOp : Op := { num := 1, eng := .ld, th := 0, instr := .lda gt .w 2 7 1 0, fd := 2, pc := 0, started := true, args := [sram 0x7FF8, 71] }
def ldqS (o : Op) : State := memS.modTh fun t => ({ t with ldq := [o] }.setTl .ld { last := 1, cur := 0 }).setF 2 { v := true, st := .pending, eng := .ld, n := 1 }

def vldOp : Op := { ldOp with instr := .vlda gt 2 7 1 0, started := false, mask := BitVec.allOnes 64, served := 12, args := [sram 0x7FC0] }
def ldArrived : Op := { ldOp with places := [(.cell (sramKey 0 0x7FF8), 4)] }

/-- AsyncLoads: at issue, started, arrived; a vector load of the last 64 bytes; a bound register. -/
theorem test_async_hyps :
    (Ready (.lda gt .d 2 7 1 0) memS ∧ memS.th.ldq.length < 8 ∧
      ∃ s1, copyPath .load (sram 0x7FF8) { run := 8 } memS = .ok (sram 0x7FF8) s1 ∧ s1.th = memS.th) ∧
    ((ldqS { ldOp with started := false }).opAt 0 .ld 1 = some { ldOp with started := false } ∧
      (∃ p s1, Reaches (loadAgent (ldqS { ldOp with started := false }) { ldOp with started := false }) .load false
        (ldOp.args.getD 0 0) 4 (ldqS { ldOp with started := false }) p s1) ∧
      ∃ ps s1, (ldqS vldOp).opAt 0 .ld 1 = some vldOp ∧
        lanePlaces (loadAgent (ldqS vldOp) vldOp) .fp32 vldOp.mask (vldOp.args.getD 0 0) (ldqS vldOp) = .ok ps s1) ∧
    ((ldqS ldArrived).opAt 0 .ld 1 = some ldArrived ∧ ∃ u s1, loadArrive (loadAgent (ldqS ldArrived) ldArrived) ldArrived (ldqS ldArrived) = .ok u s1) ∧
    (Ready (.vlda gt 2 7 1 0) (mk (regs [(1, sram 0x7FC0)]) id) ∧ Ready (.vlda gt 2 24 1 0)
      ((mk (regs [(1, sram 0)]) id).modTh fun t => t.setBind 24 { kind := 0, ring := 0 })) :=
  ⟨⟨ready_of (by decide +kernel), by decide +kernel, memS, ok_of (by decide +kernel), rfl⟩,
    ⟨by decide +kernel, ok_ex (by decide +kernel),
      (ok_ex (r := lanePlaces (loadAgent (ldqS vldOp) vldOp) .fp32 vldOp.mask (vldOp.args.getD 0 0) (ldqS vldOp)) (by decide +kernel)).imp
        fun ps h => h.imp fun s1 e => ⟨by decide +kernel, e⟩⟩, ⟨by decide +kernel, ok_ex (by decide +kernel)⟩,
    ready_of (by decide +kernel), ready_of (by decide +kernel)⟩

/-- AsyncLoads: what arrives from the core's own SRAM's last bytes, for a scalar and for a vector register; a vector load
at issue. -/
def vldArrived : Op := { vldOp with
  started := true, mask := 3, places := [(.cell (sramKey 0 0x7FC0), 4), (.cell (sramKey 0 0x7FC4), 4)] }
theorem test_arrive_hyps :
    ((ldqS ldArrived).opAt (4 * 0 + 0) .ld 1 = some ldArrived ∧ ldArrived.eng = .ld ∧ ldArrived.started = true ∧ ldArrived.wait = none ∧
      (ldqS ldArrived).sramErr = [] ∧ ldArrived.ldReg = some 71 ∧ 0x7FF8 + 4 ≤ 2 ^ 15) ∧
    ((ldqS vldArrived).opAt (4 * 0 + 0) .ld 1 = some vldArrived ∧ Fmt.ofCode vldArrived.served = some .fp32 ∧ 0x7FC0 + 64 ≤ 2 ^ 15 ∧
      vldArrived.places = (liveUnits .fp32 vldArrived.mask).map (fun u => (.cell (sramKey 0 0x7FC0 + u * Fmt.laneBytes .fp32), Fmt.laneBytes .fp32)) ∧
      liveUnits .fp32 vldArrived.mask = [0, 1]) ∧
    (let s := mk (regs [(1, sram 0x7FC0), (2, sram 2)]) fun c => { c with fmt := 12 }
     readyB (.vlda gt 2 7 1 0) s = true ∧ s.th.bind 7 = none ∧ (offsetAddr (s.g 1) 0).toNat = 2 ^ 60 + 0x7FC0 ∧ s.th.ldq.length < 8 ∧
       readyB (.vlda gt 2 7 2 0) s = true ∧ (offsetAddr (s.g 2) 0).toNat % 4 ≠ 0) := by decide +kernel

/-- The register takes the word at the place, with its sign (spec/11 R175). -/
theorem test_lda_arrive : after (exec (.asyncLoadComplete 0 0 1) (ldqS ldArrived))
    (fun s => (tgetD s.th.regs 71 0, (s.th.fr 2).st, s.th.ldq.length)) = some (0x0403FF80, .done, 0) := by decide +kernel

/-! ## Tracks -/

/-- Thread 0 holds track 5, its head at slot 2047; thread 2 holds track 6, a record track 7; track 8 fails. -/
def trS : State := mk (regs [(1, 77)]) fun c =>
  let c := c.setTrack 5 { slots := [(2040, 9), (2047, 42)], head := 2047, claim := .thread 0 }
  let c := (c.setTrack 6 { claim := .thread 2 }).setTrack 7 { claim := .record 1 }
  { (c.setTrack 8 { claim := .thread 0 }).setTrack 9 { head := 16, claim := .thread 0 } with fail := 256, spare := 3 }

/-- TrackClaims: a free track, the own one, another thread's, a record's. -/
theorem test_claim_hyps :
    Ready (.tclaim gt 4) trS ∧ Ready (.tclaim gt 5) trS ∧ Ready (.tclaim gt 6) trS ∧ Ready (.tclaimTry gt 1 7) trS ∧
    (trS.isFrameTrack 0 4 = false ∧ trS.isBoundTrack 0 4 = false ∧ trS.core.failing 4 = false ∧ (trS.trackAt 0 4).claim = .none ∧
      (trS.trackAt 0 6).claim = .thread 2 ∧ (trS.trackAt 0 7).claim = .record 1) ∧
    (Ready (.trel gt 5) trS ∧ trS.trackRefusal 5 = none ∧ trS.trackCmds (some 5) = []) ∧ Ready (.tsync gt none) trS ∧
    (Ready (.trel gt 6) trS ∧ trS.trackRefusal 6 ≠ none) ∧ Ready (.hpos gt 7 5) trS :=
  ⟨ready_of (by decide +kernel), ready_of (by decide +kernel), ready_of (by decide +kernel), ready_of (by decide +kernel),
    by decide +kernel, ⟨ready_of (by decide +kernel), by decide +kernel, by decide +kernel⟩, ready_of (by decide +kernel),
    ⟨ready_of (by decide +kernel), by decide +kernel⟩, ready_of (by decide +kernel)⟩

/-- TrackClaims and TrackCommands: a failing track that the thread holds, one that another holds, one of nobody; a seek on
it; a full queue. -/
theorem test_failing_hyps :
    (readyB (.tclaim gt 8) trS = true ∧ trS.isFrameTrack 0 8 = false ∧ trS.isBoundTrack 0 8 = false ∧ (8 : TIdx).toNat < 30 ∧
      trS.core.failing (8 : TIdx).toNat = true ∧ (trS.trackAt 0 8).claim = .thread 0) ∧
    (let s (c : Claim) := trS.modTrack 0 8 fun x => { x with claim := c }
     readyB (.tclaim gt 8) (s (.thread 2)) = true ∧ ((s (.thread 2)).trackAt 0 8).claim = .thread 2 ∧
       readyB (.tclaim gt 8) (s .none) = true ∧ (s .none).core.failing 8 = true) ∧
    (readyB (.seek gt 2 8 5) trS = true ∧ trS.trackRefusal 8 = none) ∧
    (let o : Op := { num := 1, eng := .te, th := 0, instr := .rew gt 2 9, fd := 2, pc := 0 }
     let s := trS.modCore fun c => { c with te := (List.range 4).map fun n => { o with num := n } }
     readyB (.seek gt 2 9 5) s = true ∧ s.core.trackQueueFull = true) := by decide +kernel

/-- TrackAccesses: at the last slot; a step back; one out of the track; a failing track; eight slots with stride 2. -/
theorem test_track_hyps :
    (TrackReady 5 trS ∧ SlotReady (trS.trackAt 0 5) 2047 ∧ Ready (.trd gt 7 5) trS ∧ Ready (.trds gt 7 5 1) trS ∧
      Ready (.twrs gt 5 1 (-8)) trS) ∧
    (Ready (.trd gt 7 8) trS ∧ trS.trackRefusal 8 = none ∧ trS.core.failing 8 = true) ∧
    (TrackReady 9 trS ∧ Ready (.vtrds gt 3 9 2) trS ∧ Ready (.vtwrs gt 9 3 (-2)) trS ∧ trS.th.bind 3 = none ∧
      portOffset (trS.trackAt 0 9) 30 = 0) :=
  ⟨⟨⟨by decide +kernel, by decide +kernel, by decide +kernel⟩, ⟨by decide +kernel, by decide +kernel⟩, ready_of (by decide +kernel),
    ready_of (by decide +kernel), ready_of (by decide +kernel)⟩, ⟨ready_of (by decide +kernel), by decide +kernel, by decide +kernel⟩,
    ⟨by decide +kernel, by decide +kernel, by decide +kernel⟩, ready_of (by decide +kernel), ready_of (by decide +kernel),
    by decide +kernel, by decide +kernel⟩

/-- A read with a step back of three: the slot under the head, three shift steps (spec/05 R83, R89, R90). -/
theorem test_trds : after (exec (.trds gt 7 5 (-3)) trS) (fun s => (s.g 7, (s.trackAt 0 5).head, s.core.tsteps)) =
    some (42, 2044, 3) := by decide +kernel

/-- The sequencer: a command that has begun, and one that is to begin. -/
def teOp : Op := { num := 1, eng := .te, th := 0, instr := .seek gt 2 9 40, fd := 2, pc := 0, args := [16, 40] }
def teS (o : Op) : State := trS.modCore fun c => { c with te := [o] }
/-- A ring of one slot of 64 bytes, with a fill count. -/
def ringC (fc : Nat) (c : Core) : Core := c.setRing 1 { base := 0x7FC0, sb := 1, ns := 1, fc := fc }
def fillOp : Op := { teOp with instr := .tstream gt 2 1 9 1 1, started := true, args := [16, 24, 1] }
def drainOp : Op := { teOp with instr := .tfill gt 2 9 1 1 1, started := true, args := [16, 24, 1] }

/-- TrackCommands: a seek to the last slot and one beyond it, a relative seek below slot 0. -/
theorem test_cmd_hyps :
    Ready (.seek gt 2 9 2047) trS ∧ Ready (.seek gt 2 9 2048) trS ∧ Ready (.seekr gt 2 9 (-17)) trS ∧ Ready (.rew gt 2 9) trS ∧
    (trS.trackRefusal 9 = none ∧ trS.core.failing 9 = false ∧ trS.core.trackQueueFull = false) ∧
    (Ready (.tstream gt 2 1 9 1 1) (trS.modCore (ringC 0)) ∧ (trS.modCore (ringC 0)).core.ring 1 ≠ {}) :=
  ⟨ready_of (by decide +kernel), ready_of (by decide +kernel), ready_of (by decide +kernel), ready_of (by decide +kernel),
    by decide +kernel, ready_of (by decide +kernel), by decide +kernel⟩

/-- TrackSequencer: a begin, a completion, a slot in and out, a spare for a failing track that nobody holds. -/
theorem test_sequencer_hyps :
    (teOp.instr.cmdTrack = some 9 ∧ ((teS teOp).coreAt 0).te = [teOp] ∧ ((teS teOp).coreAt 0).trackRunning = none ∧
      ((teS teOp).coreAt 0).failing 9 = false) ∧
    (((teS { teOp with started := true }).coreAt 0).trackRunning = some { teOp with started := true } ∧
      portOffset ((teS teOp).trackAt 0 9) 40 = 0) ∧
    (Instr.streamOf fillOp.instr = some (true, 1, 1) ∧ (((teS fillOp).modCore (ringC 0)).coreAt 0).trackRunning = some fillOp ∧
      (match streamRead fillOp 0 9 1 8 [] ((teS fillOp).modCore (ringC 0)) with | .ok _ => true | .error _ => false) = true) ∧
    (Instr.streamOf drainOp.instr = some (false, 1, 1) ∧ (((teS drainOp).modCore (ringC 1)).coreAt 0).trackRunning = some drainOp ∧
      (match streamWrite drainOp 0 9 1 (List.replicate 8 0) ((teS drainOp).modCore (ringC 1)) with
        | .ok _ => true | .error _ => false) = true) ∧
    ((trS.modTrack 0 8 fun x => { x with claim := .none }).coreAt 0).failing 8 = true := by decide +kernel

/-! ## Vectors -/

/-- Vector registers with values and no tag. -/
def vecs (l : List (VIdx × Nat)) (t : Thread) : Thread :=
  l.foldl (fun t (x : VIdx × Nat) => t.setV x.1 { data := BitVec.ofNat 512 x.2 }) t

/-- Lane k of a register after an instruction. -/
def laneAfter (f : Fmt) (i : Instr) (s : State) (d : VIdx) (k : Nat) : Option Nat :=
  after (exec i s) fun s => lane f (s.th.vr d).data k

/-- FP32: v1 holds 1.0 in lanes 0 and 1, v2 holds 2^-24 in lane 0 and 3 * 2^-24 in lane 1. -/
def vecS : State := mk (vecs [(1, 0x3F8000003F800000), (2, 0x3440000033800000), (3, 0x7F)]) (fun c => { c with fmt := 12 })

/-- VectorResults: an addition, a compare, a conversion, a quantisation. -/
theorem test_vec_hyps :
    ((vecResult vecS (.vadd gt none 4 1 2 .rne false)).isSome = true ∧ Ready (.vadd gt none 4 1 2 .rne false) vecS ∧
      vecS.unbound [1, 2, 4]) ∧
    ((vecResult vecS (.vquant gt (some .e4m3) (some .fp32) 4 2 5 7 1 .rne)).isSome = true ∧
      Ready (.vquant gt (some .e4m3) (some .fp32) 4 2 5 7 1 .rne) vecS) ∧
    ((vecResult vecS (.vext gt none 9 1 15)).isSome = true ∧ Ready (.vext gt none 9 1 15) vecS) :=
  ⟨⟨by decide +kernel, ready_of (by decide +kernel), by unfold State.unbound; decide +kernel⟩,
    ⟨by decide +kernel, ready_of (by decide +kernel)⟩, ⟨by decide +kernel, ready_of (by decide +kernel)⟩⟩

/-- Round to nearest, ties to even: 1 + 2^-24 is 1 and 1 + 3 * 2^-24 is 1 + 2^-22 (spec/07 R104). -/
theorem test_vadd : laneAfter .fp32 (.vadd gt none 4 1 2 .rne false) vecS 4 0 = some 0x3F800000 ∧
    laneAfter .fp32 (.vadd gt none 4 1 2 .rne false) vecS 4 1 = some 0x3F800002 ∧
    laneAfter .fp32 (.vadd gt none 4 1 2 .rup false) vecS 4 0 = some 0x3F800001 := by decide +kernel

/-- INT8: 127 + 127 wraps to -2 and saturates to 127 (spec/08 R125). -/
theorem test_vadd_int : laneAfter .int8 (.vadd gt (some .int8) 4 3 3 .rne false) vecS 4 0 = some 0xFE ∧
    laneAfter .int8 (.vadd gt (some .int8) 4 3 3 .rne true) vecS 4 0 = some 0x7F := by decide +kernel

/-- LaneLaws: codes below 2^8, the last lane; a compare under a guard that selects one lane. -/
theorem test_lane_hyps :
    (63 < Fmt.int8.lanes ∧ ∀ j : Nat, j < Fmt.int8.lanes → (255 - j) < 2 ^ Fmt.int8.width) ∧
    (∀ j, j < Fmt.ternary.lanes → (fun k => decide (k < 128)) j = true) ∧ (∀ j, j < 128 → (j : Nat) % 4 < 4) ∧
    (Ready (.vcmp gt .lt none 1 2 1 2) vecS ∧ vecS.unbound [1, 2]) :=
  ⟨⟨by decide, by decide⟩, by decide, by decide, ready_of (by decide +kernel), by unfold State.unbound; decide +kernel⟩

/-- A lane-wise compare of 1.0 with 2^-24: greater in lanes 0 and 1, equal in the others (spec/08 R128). -/
theorem test_vcmp : after (exec (.vcmp gt .lt none 1 2 2 1) vecS) (fun s => ((s.p 1).toNat, (s.p 2).toNat % 2 ^ 16)) =
    some (3, 0xFFFC) := by decide +kernel

/-! ## Streams -/

/-- Ring 0 at the SRAM's end: two slots of 128 bytes, one full. -/
def ringS (fc : Nat) (b : Bind) : State :=
  (mk id id).modCore (fun c => c.setRing 0 { base := 0x7F00, sb := 2, ns := 2, fc := fc, cp := 1 }) |>.modTh fun t => t.setBind 25 b

/-- StreamRegisters: an empty and a full ring, the first and the last part of a slot, both roles. -/
theorem test_stream_hyps :
    (ringS 0 { kind := 0 }).sramErr = [] ∧ ((ringS 0 { kind := 0 }).core.ring 0).fc = 0 ∧
    (((ringS 1 { kind := 0 }).core.ring 0).fc ≠ 0 ∧ 0x7F00 + 1 * (64 * 2) + 64 * 1 + 64 ≤ 2 ^ 15 ∧
      (({ kind := 0, j := 0 } : Bind).j + 1 < 2 ∧ 2 ≤ ({ kind := 0, j := 1 } : Bind).j + 1)) ∧
    (((ringS 2 { kind := 1 }).core.ring 0).ns ≤ ((ringS 2 { kind := 1 }).core.ring 0).fc ∧
      ((ringS 1 { kind := 1 }).core.ring 0).fc < ((ringS 1 { kind := 1 }).core.ring 0).ns) := by decide +kernel

/-- StreamRegisters, the other kinds: a track that fails, one with a command, one at its end and one with room; an SRAM
stream at its end. -/
theorem test_stream_kind_hyps :
    let b (t : Nat) (k : Int) : Bind := { kind := 2, track := t, stride := k }
    trS.sramErr = [] ∧ trS.core.failing (b 8 1).track = true ∧ trS.core.failing (b 9 1).track = false ∧
    (teS teOp).trackOps (teS teOp).tk (some 9) ≠ [] ∧ trS.trackOps trS.tk (some 9) = [] ∧
    2047 < ((trS.trackAt 0 5).head : Int) + 8 * (b 5 1).stride ∧ ((trS.trackAt 0 9).head : Int) + 8 * (b 9 2).stride = 32 ∧
    (List.range 8).all (fun n => portOffset (trS.trackAt 0 9) (16 + 2 * n) == 0) = true ∧
    (∀ n, n < 8 → SlotReady (trS.trackAt 0 9) (16 + 2 * n)) ∧
    (let c : Bind := { kind := 3, cursor := sram 0x7FC0, cstride := BitVec.ofInt 64 (-64) }
     c.cursor.toNat = 2 ^ 60 + 0x7FC0 ∧ 0x7FC0 + 64 ≤ 2 ^ 15) :=
  ⟨by decide, by decide +kernel, by decide +kernel, by decide +kernel, by decide +kernel, by decide +kernel, by decide +kernel,
    by decide +kernel, fun n h => ⟨by revert n; decide +kernel, by revert n; decide +kernel⟩, by decide +kernel⟩

/-- A store through an SRAM stream with stride -64 moves its cursor back (spec/08 R141). -/
theorem test_sg_push : after (exec (.vmov gt (some .int8) 25 1)
    ((mk (vecs [(1, 0x2A)]) id).modTh fun t => t.setBind 25 { kind := 3, cursor := sram 64, cstride := BitVec.ofInt 64 (-64) }))
    (fun s => (memReads s.mem (sramKey 0 64) 1, (s.th.bind 25).map Bind.cursor)) = some ([0x2A], some (sram 0)) := by decide +kernel

/-- A read of the last part of a slot frees the slot and starts again at part 0 (spec/08 R140, R141). -/
theorem test_pop : after (exec (.vmov gt (some .int8) 1 25) (ringS 1 { kind := 0, j := 1 }))
    (fun s => ((s.core.ring 0).fc, (s.core.ring 0).cp, s.th.bind 25)) = some (0, 0, some { kind := 0, j := 0 }) := by decide +kernel

/-- Bindings: a consumer, a producer, a role that is held, a ring that is not declared, a track, a stream; clearing. -/
theorem test_bind_hyps :
    (Ready (.sbind gt 24 (.rc 0)) (ringS 1 { kind := 1 }) ∧ ((ringS 1 { kind := 1 }).core.ring 0).ns ≠ 0 ∧
      (ringS 1 { kind := 1 }).th.roleHeld 24 0 0 = false) ∧
    (Ready (.sbind gt 24 (.rp 0)) (ringS 1 { kind := 0 }) ∧ (ringS 1 { kind := 0 }).th.roleHeld 24 1 0 = false) ∧
    (Ready (.sbind gt 24 (.rc 0)) (ringS 1 { kind := 0 }) ∧ (ringS 1 { kind := 0 }).th.roleHeld 24 0 0 = true) ∧
    (Ready (.sbind gt 24 (.rc 7)) (ringS 1 { kind := 0 }) ∧ ((ringS 1 { kind := 0 }).core.ring 7).ns = 0) ∧
    (Ready (.sbind gt 24 (.th 5 (-16))) trS ∧ trS.trackRefusal 5 = none) ∧
    (Ready (.sbind gt 31 (.sg 1 2)) (mk (regs [(1, sram 0x7FC0), (2, 0xFFFFFFFFFFFFFFC0)]) id) ∧
      Ready (.sbind gt 31 (.sg 1 2)) (mk (regs [(1, sram 0x7FC0), (2, 32)]) id) ∧
      Ready (.sbind gt 31 (.sg 1 2)) (mk (regs [(1, 0x2000000000000020), (2, 64)]) id) ∧
      Ready (.sbind gt 31 (.sg 1 2)) (mk (regs [(1, 0x3000000000000000), (2, 64)]) id)) ∧
    (Ready (.sunbind gt 25) (ringS 1 { kind := 0 }) ∧ (ringS 1 { kind := 0 }).th.bind 25 = some { kind := 0 } ∧
      Ready (.sunbind gt 24) (ringS 1 { kind := 0 }) ∧ (ringS 1 { kind := 0 }).th.bind 24 = none) ∧
    (Ready (.vclear gt) memS ∧ memS.th.ldq.all (fun o => o.ldVec.isNone) = true) ∧
    (let o : Op := { ldOp with instr := .vlda gt 2 7 1 0 }
     Ready (.vclear gt) (ldqS o) ∧ (ldqS o).th.ldq.any (fun o => o.ldVec.isSome) = true) :=
  ⟨⟨ready_of (by decide +kernel), by decide +kernel, by decide +kernel⟩, ⟨ready_of (by decide +kernel), by decide +kernel⟩,
    ⟨ready_of (by decide +kernel), by decide +kernel⟩, ⟨ready_of (by decide +kernel), by decide +kernel⟩,
    ⟨ready_of (by decide +kernel), by decide +kernel⟩,
    ⟨ready_of (by decide +kernel), ready_of (by decide +kernel), ready_of (by decide +kernel), ready_of (by decide +kernel)⟩,
    ⟨ready_of (by decide +kernel), by decide +kernel, ready_of (by decide +kernel), by decide +kernel⟩,
    ⟨ready_of (by decide +kernel), by decide +kernel⟩, ready_of (by decide +kernel), by decide +kernel⟩

/-! ## Vector memory -/

/-- g1 addresses the last 64 bytes of the SRAM, g2 is misaligned for 32-bit lanes, g3 a page of a block format. -/
def vmS : State :=
  let s := mk (fun t => vecs [(2, 4 + 2 ^ 32 * 0)] (regs [(1, sram 0x7FC0), (2, sram 2), (3, 0x10000)] t)) fun c => { c with fmt := 12 }
  let s := s.modClusterAt 0 fun c => { c with tlb := [⟨0x10001, 0x5400000000020007, 0x30000⟩] }
  { s with mem := memWrites [] (sramKey 0 0x7FC0) [1, 2, 3, 4, 5, 6, 7, 8] }

/-- VectorMemory: an access of every lane and one that is misaligned. -/
theorem test_vmem_hyps :
    (Ready (.vld gt 4 1 0 false) vmS ∧ vmS.th.bind 4 = none ∧ vmS.sramErr = [] ∧
      (offsetAddr (vmS.g 1) 0).toNat = 2 ^ 60 + 0x7FC0 ∧ 0x7FC0 + 64 ≤ 2 ^ 15 ∧
      ∃ x s1, loadLanes vmS.lsu .fp32 (vmS.mask (.vld gt 4 1 0 false)) (sram 0x7FC0) 0 vmS = .ok x s1) ∧
    (Ready (.vld gt 4 2 0 false) vmS ∧ (sram 2).toNat % 4 ≠ 0) ∧ Ready (.vst gt 4 1 0 false) vmS ∧ Ready (.vst gt 4 2 0 false) vmS :=
  ⟨⟨ready_of (by decide +kernel), by decide +kernel, by decide, by decide +kernel, by decide, ok_ex (by decide +kernel)⟩,
    ⟨ready_of (by decide +kernel), by decide⟩, ready_of (by decide +kernel), ready_of (by decide +kernel)⟩

/-- Lanes come from ascending addresses, least significant byte first (spec/08 R136). -/
theorem test_vld : laneAfter .fp32 (.vld gt 4 1 0 false) vmS 4 1 = some 0x08070605 := by decide +kernel

/-- A load of E2M3 codes clears bits 7:6 of each (spec/07 R106). -/
theorem test_vld_six : laneAfter .int8 (.vld gt 4 1 0 false)
    { vmS.modCore (fun c => { c with fmt := 7 }) with mem := memWrites [] (sramKey 0 0x7FC0) [0xFF, 0x85] } 4 0 = some 0x3F := by
  decide +kernel

/-- A split load, a gather and a scatter. -/
theorem test_split_hyps :
    (Ready (.vldMx gt 4 7 7 3 0 false) vmS ∧
      (match Sys2Proof.Machine.translate vmS.lsu vmS.lsu.pkg 0x10000 .load 0x10000 0 false true vmS with
       | .ok (key, e) s1 => decide (e.geo = 1) && decide (0x10000 % mxBytes e = 0) &&
          (match cellRead vmS.lsu key (mxBytes e) s1 with
           | .ok _ s2 =>
             (match ((e.blocks vmS.lsu.pkg 0 (mxHeld e)).mapM fun (b : Nat × Option Nat × Nat) => scaleLoad vmS.lsu b.2.1) s2 with
              | .ok _ s3 => decide (s3.th = vmS.th)
              | .error _ _ => false)
           | .error _ _ => false)
       | .error _ _ => false) = true) ∧
    (Ready (.vldg gt none 4 1 2 false) vmS ∧ vmS.unbound [4, 2] ∧ Ready (.vsts gt none 4 1 2 false) vmS ∧
      (let ok (i : Instr) (x : Bool) (acc : Acc) : Bool := match laneAddrs .fp32 (vmS.mask i) (vmS.g 1) (vmS.th.vr 2).data x vmS with
          | .ok l s1 => decide (s1 = vmS) && (match resolveAll vmS.lsu acc 4 (l.map Prod.snd) vmS with
            | .ok ps s1 => if acc = .load then ends ((ps.mapM fun p => placeRead vmS.lsu p 4) s1) else
                ends (placesWrite vmS.lsu ((List.zip (l.map Prod.fst) ps).map fun (e : Nat × Place) =>
                  (e.2, unitBytes 4 (vmS.th.vr 4).data e.1)) s1)
            | .error _ _ => false)
          | .error _ _ => false
       ok (.vldg gt none 4 1 2 false) false .load = true ∧ ok (.vsts gt none 4 1 2 false) false .store = true)) ∧
    (15 < Fmt.fp32.lanes ∧ laneBit .fp32 (BitVec.allOnes 64) 15 = true ∧ ∀ j : Nat, j < Fmt.fp32.lanes →
      (addrAdd (vmS.g 1) (sval 32 (lane .fp32 (vmS.th.vr 2).data j) * (if true then (32 / 8 : Nat) else 1))).toNat % 4 = 0) :=
  ⟨⟨ready_of (by decide +kernel), by decide +kernel⟩,
    ⟨ready_of (by decide +kernel), by unfold State.unbound; decide +kernel, ready_of (by decide +kernel), by decide +kernel⟩,
    by decide, by decide, by decide +kernel⟩

/-- A gathered lane at index 4 (spec/08 R139). -/
theorem test_vldg : laneAfter .fp32 (.vldg gt none 4 1 2 false) vmS 4 0 = some 0x08070605 ∧
    laneAfter .fp32 (.vldg gt none 4 1 2 false) vmS 4 1 = some 0x04030201 := by decide +kernel

/-! ## Scales -/

/-- Scale registers with bytes from entry 0 up; g1 addresses the SRAM's last 32 bytes; g2 is misaligned. -/
def kS (l : List (KIdx × List Nat)) : State :=
  mk (regs [(1, sram 0x7FE0), (2, sram 8)]) fun c => l.foldl (fun c (x : KIdx × List Nat) =>
    c.setK x.1 (BitVec.ofNat 256 (x.2.foldr (fun b a => b + 256 * a) 0))) c

/-- The first entries of a scale register and its generation after an instruction. -/
def kAfter (i : Instr) (s : State) (k : KIdx) (n : Nat) : Option (List Nat × BitVec 4) :=
  after (exec i s) fun s => ((List.range n).map (s.core.kEntry k), s.core.kg k.toNat)

/-- ScaleArithmetic: the arithmetic forms, normalisation of finite scales and of none, the memory forms. -/
theorem test_scale_hyps :
    Ready (.kadd gt 3 1 (.k 2) false) (kS []) ∧ Ready (.kmov gt 3 (.g 1) true) (kS []) ∧
    (Ready (.knorm gt 3 1 5 false) (kS [(1, [0xFE])]) ∧ (kS [(1, [0xFE])]).core.kEntry 1 0 = 254 ∧
      ∀ j : Nat, j < 32 → (kS [(1, [0xFE])]).core.kEntry 1 j = 255 ∨ (kS [(1, [0xFE])]).core.kEntry 1 j ≤ 254) ∧
    (∀ j : Nat, j < 32 → (kS [(1, List.replicate 32 255)]).core.kEntry 1 j = 255) ∧
    (Ready (.kld gt 3 1 0 false false) (kS []) ∧ Reaches (kS []).lsu .load false (sram 0x7FE0) 32 (kS []) (.cell (sramKey 0 0x7FE0)) (kS []) ∧
      Clean (kS []) ∧ (kS []).answers (kS []).lsu (sramKey 0 0x7FE0)) ∧ Ready (.kld gt 3 2 0 false false) (kS []) ∧
    (Ready (.kst gt 3 1 0 false) (kS []) ∧ Reaches (kS []).lsu .store false (sram 0x7FE0) 32 (kS []) (.cell (sramKey 0 0x7FE0)) (kS [])) ∧
    Ready (.kst gt 3 2 0 false) (kS []) :=
  ⟨ready_of (by decide +kernel), ready_of (by decide +kernel), ⟨ready_of (by decide +kernel), by decide +kernel, by decide +kernel⟩,
    by decide +kernel, ⟨ready_of (by decide +kernel), ok_of (by decide +kernel), ⟨by decide, by decide, by decide⟩,
      fun h => absurd h (by decide +kernel), .inl (by decide +kernel)⟩, ready_of (by decide +kernel), ⟨ready_of (by decide +kernel), ok_of (by decide +kernel)⟩,
    ready_of (by decide +kernel)⟩

/-- The examples of spec/18 R292: 4 times 2 is 8, a product below the range is the smallest scale, NaN spreads. -/
theorem test_kadd : kAfter (.kadd gt 3 1 (.k 2) false) (kS [(1, [0x81, 0x02, 0xFF]), (2, [0x80, 0x03, 0x80])]) 3 3 =
    some ([0x82, 0x00, 0xFF], 1) := by decide +kernel

/-- The example of spec/18 R292 for knorm. -/
theorem test_knorm :
    let s := kS [(1, [0x78, 0x7A, 0x81, 0xFF])]
    kAfter (.knorm gt 3 1 5 true) s 3 4 = some ([0x76, 0x78, 0x7F, 0xFF], 0) ∧
    after (exec (.knorm gt 3 1 5 true) s) (·.g 5) = some 2 := by decide +kernel

/-- A thread whose v5 has the tag of generation 3 of k9, entries 8 up, with k9 at generation 3 and at 4. -/
def tagS (g : BitVec 4) : State :=
  mk (fun t => (regs [(1, sram 0x4000), (2, sram 8)] t).setV 5 { data := 0, tag := some ⟨9, 3, 2⟩ }) fun c => { c with kgen := [(9, g)] }

/-- ScaleBindings: tags of a register, of a ring's slots; stale and absent tags; save and restore of both parts. -/
theorem test_tag_hyps :
    (Ready (.kbind gt 5 9 7 false) (tagS 3) ∧ (tagS 3).th.bind 5 = none) ∧
    (Ready (.kbind gt 25 9 7 false) (ringS 1 { kind := 0 }) ∧ (ringS 1 { kind := 0 }).th.bind 25 ≠ none) ∧
    (Ready (.kbindQ gt 0 0 9 1 false) (ringS 1 { kind := 0 }) ∧ Ready (.kbindQ gt 1 0 9 1 false) (ringS 1 { kind := 0 })) ∧
    Ready (.kbindQ gt 0 1 9 1 false) ((ringS 1 { kind := 0 }).modTh (regs [(1, 2)])) ∧
    Ready (.kgen gt 5 63) (tagS 3) ∧ Ready (.kgenBump gt 63) (tagS 3) ∧
    (Ready (.vdeq gt (some .fp32) (some .e4m3) 6 5 1 .rne false) (tagS 4) ∧ (tagS 4).unbound [5] ∧ (3 : BitVec 4) ≠ (tagS 4).core.kg 9) ∧
    ((tagS 4).th.vr 4).tag = none ∧ Ready (.vsave gt 2 0 3) (tagS 3) ∧ Ready (.vrest gt 2 0 3) (tagS 3) ∧
    (Ready (.vsave gt 1 0 3) (tagS 3) ∧
      (match pairStart .store 1 0 3 (tagS 3) with
       | .ok ea s1 => ends (writeUnits s1.lsu ea 0 ((List.range pairWords).map fun n => pairWord s1.th s1.core true true (8 * n)) 192 s1)
       | .error _ _ => false) = true) ∧
    (Ready (.vrest gt 1 0 3) (tagS 3) ∧
      (match pairStart .load 1 0 3 (tagS 3) with
       | .ok ea s1 =>
         (match loadWord s1.lsu (addrAdd ea 0x9E0) s1 with
          | .ok pres _ => !pres.getLsbD 1
          | .error _ _ => false)
       | .error _ _ => false) = true) :=
  ⟨⟨ready_of (by decide +kernel), by decide +kernel⟩, ⟨ready_of (by decide +kernel), by decide +kernel⟩,
    ⟨ready_of (by decide +kernel), ready_of (by decide +kernel)⟩, ready_of (by decide +kernel), ready_of (by decide +kernel),
    ready_of (by decide +kernel), ⟨ready_of (by decide +kernel), by unfold State.unbound; decide +kernel, by decide +kernel⟩,
    by decide +kernel, ready_of (by decide +kernel), ready_of (by decide +kernel), ⟨ready_of (by decide +kernel), by decide +kernel⟩,
    ready_of (by decide +kernel), by decide +kernel⟩

/-- An image in the SRAM whose two parts are present and hold zeros. -/
def restS : State := { tagS 3 with mem := memWrites [] (sramKey 0 0x49E0) [3] }

/-- The restore's hypotheses. -/
theorem test_rest_hyps :
    Ready (.vrest gt 1 0 3) restS ∧
    (match pairStart .load 1 0 3 restS with
     | .ok ea s1 =>
       (match loadWord s1.lsu (addrAdd ea 0x9E0) s1 with
        | .ok pres s2 => pres.getLsbD 1 && pres.getLsbD 0 &&
          (match readUnits s1.lsu ea 0 192 s2 with
           | .ok ws s3 => decide (imageBinds ws = []) &&
             ((List.range 8).find? fun q => ((loadEnginePart ws s3.core).ring q).bad).isNone
           | .error _ _ => false)
        | .error _ _ => false)
     | .error _ _ => false) = true := ⟨ready_of (by decide +kernel), by decide +kernel⟩

/-- ScaleBindings: a dequantisation of no stream register; a save to the SRAM's end with nothing that it waits for. -/
theorem test_save_hyps :
    (match streamCheck [5] (if 32 ≤ Fmt.fp32.lanes then [6] else [6, 7]) (tagS 4) with
      | .ok _ s => decide (s = tagS 4) | .error _ _ => false) = true ∧
    (let s := (tagS 3).modTh (regs [(1, sram 0x5000)])
     readyB (.vsave gt 1 0 3) s = true ∧ (offsetAddr (s.g 1) 0).toNat = 2 ^ 60 + 0x5000 ∧ 0x5000 % 64 = 0 ∧
       0x5000 + 12288 = 2 ^ 15 ∧ s.sramErr = [] ∧ (match pairWait 3 s with | .ok _ t => decide (t = s) | .error _ _ => false) = true) := by
  decide +kernel

/-- A stale tag's value names the register, its generation, the entries and the present generation (spec/18 R288). -/
theorem test_stale : after (exec (.vdeq gt (some .fp32) (some .e4m3) 6 5 1 .rne false) ((tagS 4).modTh fun t => { t with tvec := 4 }))
    (fun s => (s.th.tcause, s.th.tval)) = some (11, 9 * 128 + 3 * 8 + 2 + 0x40000) := by decide +kernel

/-! ## Pair words -/

/-- Predicate 1 is false in bit 0 and true in bit 1: the scalar half is skipped, the vector half acts. -/
def pairS : State := vecS.modTh fun t => t.setP 1 2

/-- PairWords: both halves, either alone, a misaligned scalar load, a vector half without the engine and one of a
format of none. -/
theorem test_pair_hyps :
    let g1 : Guard := ⟨1, false⟩
    let v : Instr := .vadd gt (some .fp32) 4 1 2 .rne false
    let a : Instr := .add gt 3 1 2 false
    (Instr.wf (.pair gt a v) = true ∧ Ready (.pair gt a v) vecS ∧ halfLive vecS gt a = true ∧ halfLive vecS gt v = true ∧
      (intResult vecS a).isSome = true ∧ (vecResult vecS v).isSome = true ∧ vecS.unbound [1, 2, 4] ∧ vecS.core.owner = some vecS.ct) ∧
    (Ready (.pair g1 a v) pairS ∧ halfLive pairS g1 a = false ∧ halfLive pairS g1 v = true) ∧
    (let p := vecS.modTh fun t => t.setP 1 1
     let w : Instr := .vext gt (some .fp32) 9 1 15
     let c : Instr := .cmp gt .lt 3 4 1 2
     Ready (.pair g1 c w) p ∧ halfLive p g1 c = true ∧ (predResult p c).isSome = true) ∧
    (let l : Instr := .ld gt .h 7 3 0 false
     Instr.wf (.pair gt l v) = true ∧ Ready (.pair gt l v) memS ∧ halfLive memS gt l = true ∧ (loadForm memS l) = some (2, true, 7, sram 1)) ∧
    (let s := vecS.modCore fun c => { c with owner := none }
     let w : Instr := .vquant gt (some .e4m3) (some .fp32) 4 2 5 7 1 .rne
     (Instr.wf (.pair gt a w) = true ∧ Instr.needsOwner w = true) ∧ Ready (.pair gt a w) s ∧ halfLive s gt w = true ∧ s.fmtBad w = false ∧
       s.core.owner ≠ some s.ct) ∧
    (let s := vecS.modCore fun c => { c with fmt := 13 }
     let w : Instr := .vadd gt none 4 1 2 .rne false
     Instr.wf (.pair gt a w) = true ∧ Ready (.pair gt a w) s ∧ halfLive s gt a = true ∧ s.fmtBad w = true ∧ vecS.fmtBad v = false) := by
  refine ⟨⟨by decide, ready_of (by decide +kernel), by decide +kernel, by decide +kernel, by decide +kernel, by decide +kernel,
    by unfold State.unbound; decide +kernel, by decide⟩, ⟨ready_of (by decide +kernel), by decide +kernel, by decide +kernel⟩,
    ⟨ready_of (by decide +kernel), by decide +kernel, by decide +kernel⟩,
    ⟨by decide, ready_of (by decide +kernel), by decide +kernel, by decide +kernel⟩,
    ⟨by decide, ready_of (by decide +kernel), by decide +kernel, by decide +kernel, by decide +kernel⟩,
    by decide, ready_of (by decide +kernel), by decide +kernel, by decide +kernel, by decide +kernel⟩

/-- PairWords: a half whose ring is empty waits; the halves of the other clauses do not. -/
theorem test_pair_wait_hyps :
    let v : Instr := .vadd gt (some .fp32) 4 1 2 .rne false
    let w : Instr := .vadd gt (some .fp32) 4 25 2 .rne false
    let a : Instr := .add gt 3 1 2 false
    let q : Instr := .vquant gt (some .e4m3) (some .fp32) 4 2 5 7 1 .rne
    let e := ringS 0 { kind := 0 }
    (Instr.wf (.pair gt a w) = true ∧ readyB (.pair gt a w) e = true ∧ e.fmtBad w = false ∧ halfWaits e gt w = true) ∧
    (memS.fmtBad v = false ∧ halfWaits memS gt v = false) ∧
    (let s := vecS.modCore fun c => { c with owner := none }
     s.fmtBad q = false ∧ halfWaits s gt q = false) := by decide +kernel

/-- While the vector half's ring is empty, nothing of the pair word happens (spec/02 R25, spec/03 R33). -/
theorem test_pair_wait :
    (match exec (.pair gt (.ld gt .h 7 0 1 false) (.vadd gt (some .fp32) 4 25 2 .rne false)) (ringS 0 { kind := 0 }) with
      | .next s => decide (s.th = (ringS 0 { kind := 0 }).th) | _ => false) = true := by decide +kernel

/-! ## Copies -/

/-- A copy's first four bytes lie at the SRAM's offset 0x100; g1 and g2 address source and destination at its end,
g3 is 32, g4 a length above 32 bits, g5 a path of none, g6 the mask of cores 0 and 63, g7 a byte on path 0x2. -/
def cpR : Thread → Thread :=
  regs [(1, sram 0x7F80), (2, sram 0x7FE0), (3, 32), (4, 2 ^ 32), (5, 0xA000000000000000), (6, 0x8000000000000001),
    (7, 0x2000000000000100), (9, 0x10000)]

/-- A core whose copy queue holds an operation of thread 0; ring 1 has one slot of 64 bytes, with a fill count. -/
def coS (fc : Nat) (l : List Op) : State := mapped (mk cpR fun c => ringC fc { c with ce := l })

/-- A copy of thread 0. -/
def coOp (i : Instr) (args : List Word) (started : Bool) : Op :=
  { num := 1, eng := .ce, th := 0, instr := i, fd := 2, pc := 0, args := args, started := started }

def cp1 : Instr := .cp gt 2 2 1 3 .none .d1 none
def cpm1 : Instr := .cpm gt 2 7 1 3 6 .none .d1 none false
def cpsig1 : Instr := .cpsig gt 2 2 1 3 9 .d1

/-- CopyIssue: checks that pass with room and without, a multicast to no core, a length, a path, cancelling. -/
theorem test_copy_hyps :
    (Ready cp1 (coS 0 []) ∧ isOk (copyChecks cp1 (coS 0 [])) ([sram 0x7FE0, sram 0x7F80, 0, 0, 0, 32], false, false) (coS 0 []) = true ∧
      (coS 0 []).core.ce.length < 2 ∧ cp1.timeline = some (.ce, 2) ∧
      2 ≤ (coS 0 [coOp cp1 [] true, { coOp cp1 [] false with num := 2 }]).core.ce.length) ∧
    (Ready (.cpm gt 2 7 1 3 0 .none .d1 none false) (coS 0 []) ∧
      ends (copyChecks (.cpm gt 2 7 1 3 0 .none .d1 none false) (coS 0 [])) = true ∧ (coS 0 []).g 0 = 0) ∧
    Ready (.cp gt 2 2 1 4 .none .d1 none) (coS 0 []) ∧ Ready (.cp gt 2 2 5 3 .none .d1 none) (coS 0 []) ∧
    (Ready (.cp gt 2 2 9 3 .none .d1 none) (coS 0 []) ∧ ((coS 0 []).g 9).toNat < 2 ^ 57 ∧
      ((coS 0 []).g 2).toNat % 2 ^ 60 + 32 ≤ 2 ^ 15) ∧ Ready (.cpcan gt 4 0) (coS 0 [coOp cp1 [] false]) :=
  ⟨⟨ready_of (by decide +kernel), by decide +kernel, by decide, by decide, by decide⟩,
    ⟨ready_of (by decide +kernel), by decide +kernel, by decide +kernel⟩, ready_of (by decide +kernel), ready_of (by decide +kernel),
    ⟨ready_of (by decide +kernel), by decide +kernel, by decide +kernel⟩, ready_of (by decide +kernel)⟩

/-- A copy's number, its future and its place in the queue (spec/11 R167, R169). -/
theorem test_cp_issue : after (exec cp1 (coS 0 [])) (fun s => ((s.th.tl .ce).last, (s.th.fr 2).st, (s.th.fr 2).n, s.core.ce.length)) =
    some (1, .pending, 1, 1) := by decide +kernel

/-- cpcan counts what it cancels (spec/11 R185). -/
theorem test_cpcan : after (exec (.cpcan gt 4 0) (coS 0 [coOp cp1 [] false, { coOp cp1 [] true with num := 2 }]))
    (fun s => (s.g 4, s.core.ce.length)) = some (1, 1) := by decide +kernel

/-- A plan, its landing and the barrier update, in turn. -/
def plansEnd (p : Act Plan) (o : Op) (bar : Word) (s : State) : Bool :=
  match p s with
  | .ok p s1 => p.halt.isNone && decide (p.scales.length ≤ 32) &&
    (match p.land (s.opAgent o) o s1 with
     | .ok _ s2 => ends (barrierEnd o (s.opAgent o) bar p.payload s2)
     | .error _ _ => false)
  | .error _ _ => false

/-- A sequence of 32 tokens of 64 bytes, its table at 0x10000, its array at 0x11000, the block table at 0x12000. -/
def seqS (l : List Op) : State :=
  let s := coS 0 l
  let s := s.modPkgAt 0 fun p => { p with kvb2 := 0x12000, kvn2 := 1 }
  let w (n : Nat) : List Byte := leBytes 8 n
  { s with mem := memWrites (memWrites (memWrites [] 0x20000 (w (2 ^ 32 * 32) ++ w (2 ^ 32 * 64) ++ w 0x11000))
      0x21000 (w (2 ^ 63) ++ w 32)) 0x22000 (w (2 ^ 63 + 0x13000)) }
def cpg1 : Instr := .cpg gt 2 2 9 0 1 1 .none false
def cpgOp (started : Bool) : Op := coOp cpg1 [sram 0x7FC0, 0x10000, 0, 1, 64, 31] started
def cprOp (started : Bool) : Op := coOp (.cpr gt 2 1 1 3 .none none false) [0, sram 0x7F80, 0, 0, 0, 1] started
def cpsOp (started : Bool) : Op := coOp (.cps gt 2 2 1 3 .none none) [sram 0x7F80, 0, 0, 0, 0, 1] started
def cpmOp (served : Nat) : Op :=
  { coOp cpm1 [0x2000000000000100, sram 0x7F80, 0, 0x8000000000000001, 0, 32] true with served := served }

/-- CopyEvents: a plain copy, a gather, ring copies and a multicast begin and end. -/
theorem test_copy_event_hyps :
    (let s := coS 0 [coOp cp1 [sram 0x7FE0, sram 0x7F80, 0, 0, 0, 32] false]
     let o := coOp cp1 [sram 0x7FE0, sram 0x7F80, 0, 0, 0, 32] false
     s.opAt 0 .ce 1 = some o ∧ o.wait = none ∧ ringWaits (s.coreAt 0) o = false ∧ o.empty = false ∧ o.leavesCluster s = false ∧ ends (copyPlace (s.opAgent o) o true .load (sram 0x7F80) s) = true ∧
       plansEnd (planPattern (s.opAgent o) { o with started := true } true (sram 0x7FE0) none) o 0 s = true) ∧
    (let s := seqS [cpgOp false]
     s.opAt 0 .ce 1 = some (cpgOp false) ∧
       (match gatherBegin (s.opAgent (cpgOp false)) (cpgOp false) s with
        | .ok pin _ =>
          let o := { cpgOp true with seq := some pin }
          let s := seqS [o]
          plansEnd (planGather (s.opAgent o) o true) o 0 s
        | .error _ _ => false) = true) ∧
    (let s := coS 0 [cprOp true]
     ringWaits (s.coreAt 0) (cprOp false) = false ∧ ((s.coreAt 0).ring 1).fc < ((s.coreAt 0).ring 1).ns ∧
       ends (copyPlace (s.opAgent (cprOp false)) (cprOp false) true .load (sram 0x7F80) s) = true ∧ (s.coreAt 0).errs = [] ∧
       plansEnd (planSlot (s.opAgent (cprOp true)) (cprOp true) true ((s.coreAt 0).ring 1)) (cprOp true) 0 s = true ∧
       (match planSlot (s.opAgent (cprOp true)) (cprOp true) true ((s.coreAt 0).ring 1) s with
        | .ok p s1 => (match p.land (s.opAgent (cprOp true)) (cprOp true) s1 with
          | .ok _ s3 => (match (p.reads.forM fun k => grant (s.opAgent (cprOp true)) k 1) s3 with
            | .ok _ s4 => ends (fillScan 0 0 1 p.scales.length s4)
            | .error _ _ => false)
          | .error _ _ => false)
        | .error _ _ => false) = true) ∧
    (let s := coS 1 [cpsOp true]
     ringWaits (s.coreAt 0) (cpsOp false) = false ∧ 0 < ((s.coreAt 0).ring 1).fc ∧
       plansEnd (planSlot (s.opAgent (cpsOp true)) (cpsOp true) true ((s.coreAt 0).ring 1)) (cpsOp true) 0 s = true) ∧
    (let s := coS 0 [cpmOp 1]
     (0x8000000000000001 : Word).getLsbD 63 = true ∧ Nat.testBit 1 63 = false ∧
       plansEnd (planDest (s.opAgent (cpmOp 1)) (cpmOp 1) true 63) (cpmOp 1) 0 s = true ∧
       (cpmOp 0x8000000000000001).served = 0x8000000000000001) := by decide +kernel

/-- CopyEvents: a copy from memory whose cluster has no bytes left, one of no byte, the starts of a multicast and of a
cpsig, the end of a cpsig within the package, a ring copy whose slots are spent. -/
theorem test_copy_start_hyps :
    (let o := coOp cp1 [sram 0x7FE0, 0x10000, 0, 0, 0, 32] false
     let s := (coS 0 [o]).modClusterAt 0 fun c => { c with budget := 5 }
     ringWaits (s.coreAt 0) o = false ∧ o.empty = false ∧ (s.clusterAt (clusterOf 0)).budget ≠ 0 ∧
       (s.clusterAt (clusterOf 0)).balance ≤ 0 ∧ o.leavesCluster s = true) ∧
    (coOp cp1 [sram 0x7FE0, sram 0x7F80, 0, 0, 0, 0] false).empty = true ∧
    (let o := { cpmOp 0 with started := false }
     let s := coS 0 [o]
     o.empty = false ∧ o.leavesCluster s = false ∧ ends (copyPlace (s.opAgent o) o true .load (o.args.getD 1 0) s) = true) ∧
    (let o (b : Bool) := coOp cpsig1 [sram 0x7FE0, sram 0x7F80, 0x10000, 0, 0, 32] b
     let s := coS 0 [o true]
     (o false).empty = false ∧ ends (copyPlace (s.opAgent (o false)) (o false) true .load (sram 0x7F80) s) = true ∧
       remotePkg s 0 (sram 0x7FE0) = none ∧
       (match planPattern (s.opAgent (o true)) (o true) true (sram 0x7FE0) none s with
        | .ok p s1 => p.halt.isNone && (match copyPlace (s.opAgent (o true)) (o true) true .atomic 0x10000 s1 with
          | .ok _ s2 => (match p.land (s.opAgent (o true)) (o true) s2 with
            | .ok _ s3 => ends (addSignal (s.opAgent (o true)) (o true) true 0x10000 s3)
            | .error _ _ => false)
          | .error _ _ => false)
        | .error _ _ => false) = true) ∧
    (let o := coOp (.cps gt 2 2 1 3 .none none) [sram 0x7F80, 0, 0, 0, 0, 0] true
     ends (barrierEnd o ((coS 0 [o]).opAgent o) 0 o.mask.toNat (coS 0 [o])) = true) := by decide +kernel

/-- Packages 0 and 1 know each other; package 0 has signal 3 of its copy to package 1 on the way. -/
def sigOp : Op := { coOp cpsig1 [0x8000400000010040, sram 0x7F80, 0x8000400000010000, 0, 0, 32] true with served := 5 }
def sigS (seen : Window) (o : Op := sigOp) : State :=
  let s := coS 0 [o]
  let s := s.modPkgAt 0 fun p => { p with npkgm1 := 1, ports := [(0, { state := 2 })], sigUnacked := [(1, [(3, 0, 0x8000400000010000)])] }
  let s := s.modPkgAt 1 fun p => { p with pkgId := 1, ports := [(0, { state := 2 })], sigSeen := [(0, seen)] }
  s.modClusterAt (1 * Config.clusters) fun c => { c with tlb := [page] }

/-- CopyEvents: the signal of a cpsig, before it is applied, after, and its acknowledgement. -/
theorem test_signal_hyps :
    ((tgetD ((sigS {}).pkgAt 0).sigUnacked 1 []).any fun x => x.1 == 3) = true ∧
    (tgetD ((sigS {}).pkgAt 1).sigSeen 0 {}).applied 256 3 = false ∧ (sigS {}).signalOp 0 1 3 = some sigOp ∧
    ends (addSignal ((sigS {}).opAgent sigOp) sigOp true 0x8000400000010000 (sigS {})) = true ∧
    (tgetD ((sigS { top := 3, seen := [3] }).pkgAt 1).sigSeen 0 {}).applied 256 3 = true := by decide +kernel

/-- CopyEvents: a cpsig to another package lands its payload and sends its signal, sends it later, or finds no route. -/
theorem test_remote_hyps :
    (let o := { sigOp with served := 0 }
     let s := sigS {} o
     remotePkg s 0 (o.args.getD 0 0) = some 1 ∧ s.noRoute 0 1 = false ∧
       (match planPattern (s.opAgent o) o true (o.args.getD 0 0) none s with
        | .ok p s1 => p.halt.isNone && (match p.land (s.opAgent o) o s1 with
          | .ok _ s2 =>
            let sent := s2.modOp o fun x => { x with served := 1 }
            decide ((sent.opAt o.th o.eng o.num).map (·.served) = some 1) && ends (sendSignal o 0 1 (o.args.getD 2 0) sent)
          | .error _ _ => false)
        | .error _ _ => false) = true) ∧
    (let o := { sigOp with served := 1 }
     ends (sendSignal o 0 1 (o.args.getD 2 0) (sigS {} o)) = true) ∧
    ((sigS {}).modPkgAt 0 fun p => { p with ports := [] }).noRoute 0 1 = true := by decide +kernel

/-- CopyMovesBytes: a run to the SRAM's end, of which one byte has been read and another has landed. -/
theorem test_moves_hyps :
    let o : Op := { coOp cp1 [BitVec.ofNat 64 (2 ^ 60 + 0x7FE0), BitVec.ofNat 64 (2 ^ 60 + 0x7F80), 0, 0, 0, BitVec.ofNat 64 32] true with
      got := [(30, sramKey 0 (0x7FE0 + 30), 7)], landed := [sramKey 0 (0x7FE0 + 31)] }
    (coS 0 [o]).opAt (4 * 0 + 0) .ce 1 = some o ∧ (coS 0 [o]).sramErr = [] ∧ 0x7F80 + 32 ≤ 2 ^ 15 ∧ 0x7FE0 + 32 ≤ 2 ^ 15 ∧
      0x7F80 + 32 ≤ 0x7FE0 ∧ ((coS 0 [o]).pkgAt (pkgOf 0)).gated = false ∧ o.served = 0 ∧ o.wait = none ∧ o.started = true := by
  decide +kernel

/-- The end of such a copy: the byte that was read lands as it was read, the one that has landed is not written again
(spec/11 R179). -/
theorem test_moves :
    let o : Op := { coOp cp1 [sram 0x7FE0, sram 0x7F80, 0, 0, 0, 32] true with
      got := [(30, sramKey 0 (0x7FE0 + 30), 7)], landed := [sramKey 0 (0x7FE0 + 31)] }
    let s := { coS 0 [o] with mem := memWrites (memWrites [] (sramKey 0 0x7F9D) [4, 5, 6]) (sramKey 0 0x7FFF) [8] }
    after (exec (.copyComplete 0 0 1) s) (fun s => memReads s.mem (sramKey 0 0x7FFD) 3) = some [4, 7, 8] := by decide +kernel

/-! ## Rings, barriers, futures -/

/-- Rings: declared over the end of the SRAM, outside it, misaligned; the commands with counts at their bounds. -/
theorem test_ring_hyps :
    let r (w : Word) : State := mk (regs [(1, w), (2, 2), (3, 1)]) fun c => c.setRing 0 { base := 0x7F00, sb := 2, ns := 2, fc := 1 }
    (Ready (.ring gt 5 1 1 1 false 0) (r (sram 0x7FC0)) ∧ (sram 0x7FC0).toNat % 2 ^ 60 + 1 * (64 * 1) ≤ 2 ^ 15 ∧
      (r (sram 0x7FC0)).th.ringBound 5 = false ∧ (r (sram 0x7FC0)).core.ringBusy 5 = false) ∧
    Ready (.ring gt 5 1 1 1 false 0) (r (sram 0x8000)) ∧ Ready (.ring gt 5 1 1 1 false 0) (r (sram 32)) ∧
    (Ready (.rpub gt 0 3) (r 0) ∧ Ready (.rpub gt 0 2) (r 0) ∧ Ready (.rpub gt 1 0) (r 0) ∧ Ready (.radv gt 0 3) (r 0) ∧
      Ready (.radv gt 0 2) (r 0) ∧ Ready (.rwait gt 0 3) (r 0) ∧ Ready (.rwait gt 0 2) (r 0) ∧ Ready (.rfree gt 0 3) (r 0) ∧
      Ready (.rfree gt 0 2) (r 0) ∧ Ready (.rstat gt 5 0 0) (r 0)) ∧ ((r 0).core.ring 0).pp < 2 ∧ ((r 0).core.ring 0).fc = 1 :=
  ⟨⟨ready_of (by decide +kernel), by decide +kernel, by decide +kernel, by decide +kernel⟩, ready_of (by decide +kernel),
    ready_of (by decide +kernel), ⟨ready_of (by decide +kernel), ready_of (by decide +kernel), ready_of (by decide +kernel),
    ready_of (by decide +kernel), ready_of (by decide +kernel), ready_of (by decide +kernel), ready_of (by decide +kernel),
    ready_of (by decide +kernel), ready_of (by decide +kernel), ready_of (by decide +kernel)⟩, by decide +kernel, by decide +kernel⟩

/-- A barrier word in the SRAM's last eight bytes; g1 addresses it and g2 has a value. -/
def barS (w : Nat) (b : Word) : State :=
  { mk (regs [(1, sram 0x7FF8), (2, b)]) id with mem := memWrites [] (sramKey 0 0x7FF8) (leBytes 8 w) }
/-- The word after an instruction, and g3. -/
def barAfter (i : Instr) (s : State) : Option (Nat × Word) :=
  after (exec i s) fun s => (leVal (memReads s.mem (sramKey 0 0x7FF8) 8), s.g 3)

/-- Barriers: counts at their bounds, byte counts at theirs, both parities, an arrival too many. -/
theorem test_barrier_hyps :
    (barS 1 1).sramErr = [] ∧ ((barS 1 1).g 1).toNat = 2 ^ 60 + 0x7FF8 ∧
    (Ready (.binit gt 1 2) (barS 1 0xFFFFF) ∧ Ready (.binit gt 1 2) (barS 1 0x100000) ∧ Ready (.binit gt 1 2) (barS 1 0)) ∧
    (Ready (.arrive gt 3 1) (barS 1 0) ∧ barrierStep 1 1 0 = some 0x8000000000000001 ∧ barrierStep 0x100001 1 0 = none) ∧
    (Ready (.arrivetx gt 3 1 2) (barS 1 0xFFFFF) ∧ Ready (.arrivetx gt 3 1 2) (barS 1 (BitVec.ofInt 64 (-(2 ^ 20)))) ∧
      (barrierStep 1 1 0xFFFFF).isSome = true ∧ (barrierStep 1 1 (-(2 ^ 20))).isSome = true ∧ Ready (.arrivetx gt 3 1 2) (barS 1 0x100000)) ∧
    (Ready (.bwait gt 1 2) (barS 1 1) ∧ (1 : Word).getLsbD 63 ≠ (1 : Word).getLsbD 0 ∧ Ready (.bwait gt 1 2) (barS 1 0) ∧
      Ready (.btest gt 1 2 1 2) (barS 1 0)) :=
  ⟨by decide, by decide +kernel, ⟨ready_of (by decide +kernel), ready_of (by decide +kernel), ready_of (by decide +kernel)⟩,
    ⟨ready_of (by decide +kernel), by decide +kernel, by decide +kernel⟩,
    ⟨ready_of (by decide +kernel), ready_of (by decide +kernel), by decide +kernel, by decide +kernel, ready_of (by decide +kernel)⟩,
    ready_of (by decide +kernel), by decide, ready_of (by decide +kernel), ready_of (by decide +kernel)⟩

/-- The steps of the example of spec/11 R192: a copy of 256 bytes, an arrival with 384, a copy of 128. -/
theorem test_barrier : barAfter (.binit gt 1 2) (barS 0xFFFF 1) = some (1, 0) ∧ barrierStep 1 0 (-256) = some 0x1FFF000000000001 ∧
    barAfter (.arrivetx gt 3 1 2) (barS 0x1FFF000000000001 384) = some (0x0000800000100001, 0) ∧
    barrierStep 0x0000800000100001 0 (-128) = some 0x8000000000000001 := by decide +kernel

/-- Futures: cleared, done, pending, faulted; a command that has begun and one that has not; the timeline. -/
def futS (st : OpEnd) (fa : Word) (started : Bool) : State :=
  let s := (coS 0 [{ coOp cp1 [] started with num := 3 }]).modTh fun t =>
    (t.setTl .ce { last := 3, cur := 2 }).setF 2 { v := true, st := st, eng := .ce, n := 3, faddr := fa }
  s.modTh (regs [(1, 3), (2, 4), (3, 2)])
theorem test_future_hyps :
    (Ready (.fwait gt 2) (futS .pending 0 false) ∧ Ready (.fwait gt 3) (futS .pending 0 false) ∧ ((futS .pending 0 false).th.fr 3).v = false ∧
      Ready (.fwait gt 2) (futS .faulted 0xC000000000000000 false) ∧ (0xC000000000000000 : Word).toNat / 2 ^ 60 < 13) ∧
    Ready (.ftst gt 1 2 2) (futS .done 0 false) ∧
    (Ready (.fcan gt 2) (futS .pending 0 false) ∧ ((futS .pending 0 false).opsOf 0 .ce).find? (fun o => o.num == 3) =
      some { coOp cp1 [] false with num := 3 }) ∧ Ready (.fmov gt 1 2) (futS .done 0 false) ∧ Ready (.fmovClr gt 1) (futS .done 0 false) ∧
    (Ready (.tlwait gt .ce 1) (futS .pending 0 false) ∧ Ready (.tlwait gt .ce 2) (futS .pending 0 false) ∧
      Ready (.tlwait gt .ce 3) (futS .pending 0 false) ∧ Ready (.tlrd gt .ce 5 true) (futS .pending 0 false)) :=
  ⟨⟨ready_of (by decide +kernel), ready_of (by decide +kernel), by decide +kernel, ready_of (by decide +kernel), by decide⟩,
    ready_of (by decide +kernel), ⟨ready_of (by decide +kernel), by decide +kernel⟩, ready_of (by decide +kernel), ready_of (by decide +kernel),
    ready_of (by decide +kernel), ready_of (by decide +kernel), ready_of (by decide +kernel), ready_of (by decide +kernel)⟩

/-- Futures: a fault of each kind of address, the top of the last; a future that was cancelled, in a thread that can be
suspended. Barriers: the ends of the ranges. -/
theorem test_future_kind_hyps :
    ([0xCFFFFFFFFFFFFFFF, 0xD000000000000000, 0xE000000000000001, 0xFFFFFFFFFFFFFFFF] : List Word).all (fun fa =>
      readyB (.fwait gt 2) (futS .faulted fa false) && ((futS .faulted fa false).th.fr 2).v) = true ∧
    (let s := (futS .done 0 false).modTh fun t => t.setF 2 { t.fr 2 with c := true }
     readyB (.fwait gt 2) s = true ∧ (s.th.fr 2).st = .done ∧ (s.th.fr 2).c = true ∧
       ends (suspendThread s.tk .yield (s.setTh (advanceThread (.fwait gt 2) s.th s.th none)).th.pc true
         (s.setTh (advanceThread (.fwait gt 2) s.th s.th none))) = true) ∧
    (barrierStep (mkBarrier true (2 ^ 20 - 1) 0 (2 ^ 20 - 1)) (2 ^ 20 - 1) 1 = none ∧
      barrierStep (mkBarrier true (2 ^ 20 - 1) 0 (2 ^ 20 - 1)) (2 ^ 20 - 1) (-(2 ^ 20 - 1)) = some (mkBarrier false 0 0 (2 ^ 20 - 1))) := by
  decide +kernel

/-- A faulted future of a stale binding is the stale-binding trap, with the low 60 bits of its address (spec/11 R173). -/
theorem test_fwait_stale : after (exec (.fwait gt 2) ((futS .faulted 0xF000000000000123 false).modTh fun t => { t with tvec := 4 }))
    (fun s => (s.th.tcause, s.th.tval)) = some (75, 0x123) := by decide +kernel

/-- A cancelled operation's future is done and cancelled (spec/11 R174). -/
theorem test_fcan : after (exec (.fcan gt 2) (futS .pending 0 false)) (fun s => ((s.th.fr 2).st, (s.th.fr 2).c, s.core.ce.length)) =
    some (.done, true, 0) := by decide +kernel

/-! ## The frame store, slices -/

/-- A domain of the thread, its heap at 0x18000. -/
def dom0 : Domain := { level := 1, spn := 0, memb := 4, heapBase := 0x18000, heapBytes := 0x4000, ctxBase := 0x14000, ctxn := 1 }
def heapS (f : Thread → Thread) : State := (mapped (frS f)).setDomAt (domKey 0 0) dom0

/-- Frames: a mark with room, without, and with a misaligned address; locals; windows to and from the store. -/
theorem test_frame_hyps :
    (Ready (.mark gt 1 0x100) (frS id) ∧ legalStart ((frS id).th.pc + 4 * (0x100 : BitVec 32).signExtend 48) = true ∧
      (frS id).th.fsp + 14 ≤ (frS id).th.frameCap ∧
      ends (frameWrites (frS id).tk (frS id).th.fsp none (({ at_ := 41, kind := .mark, tag := 1, size := 14 } : Frame).header
        (linkTo 41 (frS id).th.frames) :: 0x10400 :: (frS id).th.loopWords) (frS id)) = true) ∧
    (Ready (.mark gt 1 0x100) (frS fun t => { t with fsp := 2035 }) ∧ (frS fun t => { t with fsp := 2035 }).th.frameCap < 2035 + 14) ∧
    Ready (.mark gt 1 1) (frS fun t => { t with pc := 0x1001C }) ∧
    (Ready (.frl gt 5 1) (frS (regs [(1, 4096)])) ∧ Ready (.frl gt 5 0) (frS id) ∧
      Ready (.frl gt 5 0) (frS fun t => { t with frames := markFrame :: t.frames }) ∧
      (let s := frS (regs [(1, 1966)])
       Ready (.frl gt 5 1) s ∧ (s.th.frames.head?.map Frame.kind) = some .window ∧ 0 + 41 + 1966 ≤ s.th.frameCap ∧
         s.frameOps s.tk = false ∧ ends (frameWrite s.tk 0 0 0 s) = true)) ∧
    (Ready (.spillw gt) (frS id) ∧ (frS id).th.res ≤ 1 ∧ Ready (.spillw gt) callS ∧ 1 < callS.th.res ∧ callS.frameOps callS.tk = false ∧
      callS.th.regPending ((List.range 40).map (callS.th.winPhys (callS.th.res - 1) ·)) = false ∧
      ends (putWindow callS.tk (callS.th.res - 1) (some 0) callS) = true ∧
      (let s := callS.modTh fun t => { t with ldq := [{ ldOp with args := [sram 0x7FF8, BitVec.ofNat 64 (callS.th.winPhys 1 3)] }] }
       Ready (.spillw gt) s ∧ s.frameOps s.tk = false ∧ s.th.regPending ((List.range 40).map (s.th.winPhys (s.th.res - 1) ·)) = true) ∧
      (let s := callS.modCore fun c => { c with ce := [{ coOp cp1 [] true with frame := true }] }
       Ready (.spillw gt) s ∧ s.frameOps s.tk = true)) ∧
    (Ready (.fillw gt) (frS id) ∧ (frS id).th.depth = 0 ∧
      (let s := callS.modTh fun t => { t with res := 1, depth := 1 }
       Ready (.fillw gt) s ∧ s.frameOps s.tk = false ∧ (s.th.winFrames[1]?.map Frame.at_) = some 0 ∧
         s.th.regPending ((List.range 40).map (s.th.winPhys s.th.res ·)) = false ∧ ends (frameReads s.tk 1 (some 0) 40 s) = true) ∧
      (let s := callS.modTh fun t =>
        { t with res := 1, depth := 1, ldq := [{ ldOp with args := [sram 0x7FF8, BitVec.ofNat 64 (t.winPhys 1 39)] }] }
       Ready (.fillw gt) s ∧ s.frameOps s.tk = false ∧ s.th.regPending ((List.range 40).map (s.th.winPhys s.th.res ·)) = true)) :=
  ⟨⟨ready_of (by decide +kernel), by decide +kernel, by decide +kernel, by decide +kernel⟩, ⟨ready_of (by decide +kernel), by decide +kernel⟩,
    ready_of (by decide +kernel), ⟨ready_of (by decide +kernel), ready_of (by decide +kernel), ready_of (by decide +kernel),
      ready_of (by decide +kernel), by decide +kernel, by decide +kernel, by decide +kernel, by decide +kernel⟩,
    ⟨ready_of (by decide +kernel), by decide +kernel, ready_of (by decide +kernel), by decide +kernel, by decide +kernel, by decide +kernel,
      by decide +kernel, ⟨ready_of (by decide +kernel), by decide +kernel, by decide +kernel⟩, ready_of (by decide +kernel), by decide +kernel⟩,
    ready_of (by decide +kernel), by decide +kernel,
    ⟨ready_of (by decide +kernel), by decide +kernel, by decide +kernel, by decide +kernel, by decide +kernel⟩,
    ready_of (by decide +kernel), by decide +kernel, by decide +kernel⟩

/-- A mark takes 14 words (spec/14 R226); the locals begin after the 41 words of a window frame (R227). -/
theorem test_mark : after (exec (.mark gt 1 0x100) (frS id)) (fun s => (s.th.fsp, s.th.pc)) = some (55, 0x1000C) ∧
    after (exec (.frl gt 5 0) (frS id)) (·.g 5) = some 0x5000000000000148 := by decide +kernel

/-- A thread one call above a mark with tag 1, which names 0x9000. -/
def cutS : State := marked (heapS fun t =>
  { t with res := 2, fsp := 96, frames := { at_ := 55, kind := .window, size := 41 } :: markFrame :: t.frames })
/-- Where cut finds a delimiter of a tag. -/
def found (tag : BitVec 16) (s : State) : Option (Option Nat) :=
  match findMark s.tk tag 0 s.th.frames s with
  | .ok i _ => some i
  | .error _ _ => none

/-- Slices: a cut, its traps, and the object that it leaves, which is grafted and dropped. -/
theorem test_cut_hyps :
    (Ready (.cut gt 1 5) cutS ∧ found 1 cutS = some (some 1) ∧
      ((cutS.th.frames.take 1).filter fun f => f.kind == .window).length < cutS.th.res ∧
      cutS.frameOps cutS.tk = false ∧ cutS.th.regPending ((List.range 168).map (64 + ·)) = false ∧
      (match liftWords cutS.tk 55 (cutS.th.frames.take 1) cutS with
       | .ok image s1 =>
         (match frameReads cutS.tk 42 none 13 s1 with
          | .ok body s2 => decide (body.getD 0 0 = 0x9000) &&
            (match buildSlice cutS.tk 1 55 (successor cutS.th.pc 8) 1 5 cutS.th.loopWords image s2 with
             | .ok (some _) _ => true
             | _ => false)
          | .error _ _ => false)
       | .error _ _ => false) = true) ∧
    (Ready (.cut gt 2 5) cutS ∧ found 2 cutS = some none) ∧
    (let s := cutS.modTh fun t => { t with res := 1, fsp := 55, frames := t.frames.drop 1 }
     Ready (.cut gt 1 5) s ∧ found 1 s = some (some 0)) ∧
    Ready (.graft gt 0) cutS ∧ (Ready (.sdrop gt 0) cutS ∧ cutS.th.sdropped = none) :=
  ⟨⟨ready_of (by decide +kernel), by decide +kernel, by decide +kernel, by decide +kernel, by decide +kernel, by decide +kernel⟩,
    ⟨ready_of (by decide +kernel), by decide +kernel⟩, ⟨ready_of (by decide +kernel), by decide +kernel⟩, ready_of (by decide +kernel),
    ready_of (by decide +kernel), by decide +kernel⟩

/-- A cut goes on at the delimiter's resume address and leaves the frames below it (spec/14 R232). -/
theorem test_cut : after (exec (.cut gt 1 5) cutS) (fun s => (s.th.pc, s.th.fsp, s.th.frames.length, (s.g 5).toNat / 64 * 64, s.th.res)) =
    some (0x9000, 41, 1, 0x18000, 1) := by decide +kernel

theorem test_slice_hyps :
    (match exec (.cut gt 1 5) cutS with
     | .next s =>
       readyB (.graft gt 5) s && readyB (.sdrop gt 5) s && s.th.sdropped.isNone && s.g 5 != 0 &&
       (match sliceOf s.tk (s.g 5) s with
        | .ok (addr, w0) s1 =>
          (match objReads s.tk addr 0 20 s1, objReads s.tk addr 20 (w0.toNat / 2 ^ 32) s1 with
           | .ok hd _, .ok raw s3 => decide (raw.length = 41) && !s3.frameOps s.tk && decide (s.th.fsp + 2 + 41 ≤ s.th.frameCap) &&
             decide ((hd.getD 4 0).toNat / 2 ^ 32 = 1) && decide (s.th.res ≠ 4) && !s.th.destPending (hd.getD 5 0) &&
             !(s3.threadAt s.tk).regPending ((List.range 168).map (64 + ·)) &&
             (match frameWrites s.tk s.th.fsp none [0, 0] s3 with
              | .ok _ s4 => ends (frameWrites s.tk (s.th.fsp + 2) none raw s4)
              | .error _ _ => false)
           | _, _ => false) &&
          (match objRead s.tk addr 2 s1 with
           | .ok w2 s2 => decide (w2.toNat % 2 ^ 32 = s.th.dom) &&
             (match heapStore (s.heapAgent s.tk addr) (BitVec.ofNat 64 addr) (w0 &&& ~~~(0x40 : Word)) s2 with
              | .ok _ s3 =>
                let s4 := s3.modTh fun t => { t with sdropped := some (BitVec.ofNat 64 addr) }
                (match objRead s.tk addr 4 s4 with
                 | .ok w4 s5 => decide (w4.toNat % 2 ^ 32 = 0) && ends (freeSlice s.tk addr s5)
                 | .error _ _ => false)
              | .error _ _ => false)
           | .error _ _ => false)
        | .error _ _ => false)
     | _ => false) = true := by decide +kernel

/-- A graft goes on after the cut, two words and 41 above (spec/14 R234); a dropped handle names nothing (R235). -/
theorem test_graft :
    (match exec (.cut gt 1 5) cutS with
     | .next s => decide (after (exec (.graft gt 5) s) (fun s => (s.th.pc, s.th.fsp)) = some (0x10008, 84)) &&
       (match exec (.sdrop gt 5) s with
        | .next s => decide (after (exec (.graft gt 5) (s.modTh fun t => { t with tvec := 4 })) (fun s => (s.th.tcause, s.th.tval)) =
            some (10, 4))
        | _ => false)
     | _ => false) = true := by decide +kernel

/-! ## Continuations, supersteps, gangs -/

/-- A domain whose context area lies in the core's SRAM, with a record of the thread at 0x4000. -/
def domS (d : Domain → Domain) (f : Thread → Thread) : State :=
  let s := (mapped (frS fun t => regs [(1, 0x10000), (2, 77), (3, 1)] (f { t with rec_ := 0x4000, spn := 1 }))).setDomAt (domKey 0 0) (d dom0)
  let s := s.modDomAt (domKey 0 0) fun x => { x with spn := 1, ctxBase := sram 0x1000 }
  let s := s.modClusterAt 0 fun c => { c with tlb := [⟨0x10011, 0x20007, 0⟩, ⟨0x11, 0x40007, 0⟩] }
  s.setRec (recKey 0 1 0x4000) { pkg := 0, spn := 1, addr := 0x4000, status := 2, dom := 0, slot := some 0 }

def tok1 : Token := { tok := 9, bounce := false, src := 0x4000 }

/-- Whether a record is named, and what spawn answers for it. -/
def spawnOf (s : State) : Option (Nat × Bool) :=
  match namedRecord (s.g 1) s with
  | .ok r s1 => some (if s1.recLive (r.key s1) then 1 else spawnCode s1 r.pkg r.w0 r.w2 r.w3 s1.mayStart, s1.armed s1.tk)
  | .error _ _ => none

/-- Continuations: a record that may start, in an armed domain and not, and one of no domain; a token to a thread, to a
full drawer, put off. -/
theorem test_spawn_hyps :
    (Ready (.spawn gt 5 1) (domS id id) ∧ spawnOf (domS id id) = some (0, false) ∧
      Ready (.spawn gt 5 1) (domS (fun d => { d with arm := true }) id) ∧ spawnOf (domS (fun d => { d with arm := true }) id) = some (0, true) ∧
      Ready (.spawn gt 5 1) (domS (fun d => { d with st := .draining }) id) ∧ spawnOf (domS (fun d => { d with st := .draining }) id) = some (3, false)) ∧
    (Ready (.send gt 5 1 2) (domS id id) ∧ (placeToken (recKey 0 1 0x10000) 0 0 0 tok1 (domS id id)).isSome = true ∧
      (placeToken (recKey 0 1 0x10000) 0 0 0 tok1
        ((domS id id).modClusterAt 0 fun c => { c with drawer := List.replicate 4096 ⟨1, tok1, 0, 0, 0⟩ })).isSome = false) ∧
    (((domS id id).recAt (recKey 0 1 0x4000)).bind RecInfo.slot = some 0 ∧
      (domS id fun t => { t with rq := List.replicate 15 tok1 }).th.rq.length < 16) :=
  ⟨⟨ready_of (by decide +kernel), by decide +kernel, ready_of (by decide +kernel), by decide +kernel, ready_of (by decide +kernel), by decide +kernel⟩,
    ⟨ready_of (by decide +kernel), by decide +kernel, by decide +kernel⟩, by decide +kernel, by decide +kernel⟩

/-- A token is parked for the thread's record in a drawer of another cluster. -/
def parkS : State := (domS id id).modClusterAt 9 fun c => { c with drawer := [⟨recKey 0 1 0x4000, tok1, 0, 0, 0⟩] }
theorem test_recv_hyps :
    (let s := domS id fun t => { t with rq := [tok1] }
     Ready (.recv gt 5 6) s ∧ Ready (.recvTry gt 5 6) s ∧ (refillHere s).th.rq = [tok1]) ∧
    (Ready (.recvTry gt 5 6) (domS id id) ∧ (refillHere (domS id id)).th.rq = [] ∧ Ready (.recv gt 5 6) (domS id id) ∧
      (refillHere (domS id id)).th.rec_ ≠ 0 ∧ (let r := refillHere (domS id id)
        ends (suspendThread r.tk .recv r.th.pc false r) = true)) ∧
    (parkS.th.rq = [] ∧ (refillHere parkS).th.rq = [tok1] ∧
      (domS id id).parkedFor (pkgOf ((domS id id).tk / 4)) (((domS id id).keyOf (domS id id).tk).getD 0) = []) ∧
    (Ready (.recv gt 5 6) intS ∧ intS.th.rec_ = 0 ∧ intS.th.rq = [] ∧ Ready (.yield gt) intS) ∧
    (Ready (.yield gt) (domS id id) ∧
      (let s0 := (domS id id).setTh (advanceThread (.yield gt) (domS id id).th (domS id id).th none)
       ends (suspendThread s0.tk .yield s0.th.pc true s0) = true)) :=
  ⟨⟨ready_of (by decide +kernel), ready_of (by decide +kernel), by decide +kernel⟩,
    ⟨ready_of (by decide +kernel), by decide +kernel, ready_of (by decide +kernel), by decide +kernel, by decide +kernel⟩, by decide +kernel,
    ⟨ready_of (by decide +kernel), by decide +kernel, by decide +kernel, ready_of (by decide +kernel)⟩, ready_of (by decide +kernel), by decide +kernel⟩

/-- A received token and its status; a thread that waits for one leaves its slot, its record waiting (spec/14 R245). -/
theorem test_recv : after (exec (.recv gt 5 6) (domS id fun t => { t with rq := [{ tok1 with bounce := true }] })) (fun s => (s.g 5, s.g 6)) =
    some (9, 0x4001) ∧
    after (exec (.recv gt 5 6) (domS id id)) (fun s => (s.th.bound, (s.recAt (recKey 0 1 0x4000)).map RecInfo.status)) =
    some (false, some 3) := by decide +kernel

/-- The thread's domain on level 4 and level 6, with members. -/
def syncS (level memb : Nat) (d : Domain → Domain) (f : Thread → Thread) : State :=
  (mapped (mk (fun t => regs [(1, 1)] (f { t with dom := 5, level := level })) id)).setDomAt (domKey 0 5)
    (d { dom0 with level := level, memb := memb })

/-- Supersteps: each outcome of dsync; levels without a domain; the domain registers. -/
theorem test_dsync_hyps :
    (Ready (.dsync gt 5 4) (syncS 4 1 id fun t => { t with dsyncRes := some 2 })) ∧
    (Ready (.dsync gt 5 3) (syncS 4 1 id id) ∧ (syncS 4 1 id id).nearest ((syncS 4 1 id id).chainOf 0) 3 = none) ∧
    (Ready (.dsync gt 5 4) (syncS 4 1 id id) ∧ (syncS 4 1 id id).nearest ((syncS 4 1 id id).chainOf 0) 4 = some (domKey 0 5) ∧
      (syncS 4 1 id id).th.waiting ≠ some .dsync ∧ (syncS 4 1 id id).allOps 0 = [] ∧ (syncS 4 1 id id).th.follows 0 = false ∧
      ((syncS 4 1 id id).domAt (domKey 0 5)).map (fun x => (decide (x.countedAll 0 < x.memb), x.arm, x.armReq, decide (x.level ≠ 6))) =
        some (true, false, none, true)) ∧
    ((syncS 4 1 (fun d => { d with ended := 1 }) id).domAt (domKey 0 5)).map (fun x => decide (x.memb ≤ x.countedAll 0)) = some true ∧
    (Ready (.dsync gt 5 0) (syncS 0 1 id id) ∧ (syncS 0 1 id id).nearest ((syncS 0 1 id id).chainOf 0) 0 = some (domKey 0 5)) ∧
    (Ready (.dmem gt 5 6) (syncS 4 1 id id) ∧ ((syncS 4 1 id id).domOfThread 0).isSome = true ∧ Ready (.snaparm gt 5 1) (syncS 4 1 id id)) :=
  ⟨ready_of (by decide +kernel), ⟨ready_of (by decide +kernel), by decide +kernel⟩,
    ⟨ready_of (by decide +kernel), by decide +kernel, by decide, by decide, by decide, by decide +kernel⟩, by decide +kernel,
    ⟨ready_of (by decide +kernel), by decide +kernel⟩, ready_of (by decide +kernel), by decide +kernel, ready_of (by decide +kernel)⟩

/-- The last of one member: result 0 (spec/15 R258); the domain's numbers (R247). -/
theorem test_dsync : after (exec (.dsync gt 5 4) (syncS 4 1 id (regs [(5, 9)]))) (fun s => (s.g 5, s.th.pc)) = some (0, 0x10008) ∧
    after (exec (.dmem gt 5 6) (syncS 4 3 id id)) (fun s => (s.g 5, s.g 6)) = some (0x400000005, 3) := by decide +kernel

/-- Supersteps: counts below and at MEMB, a completion on its way, a rollback that ends. -/
theorem test_level6_hyps :
    let s : State := (syncS 6 3 (fun d => { d with arrived := [1, 2] }) id)
    (s.sixPkgs 5).min? = some 0 ∧ (s.sixPkgs 5).contains 0 = true ∧ (s.domAt (domKey 0 5)).map (fun d => d.arrived.length + d.ended) = some 2 ∧
    ((syncS 6 2 (fun d => { d with counts := [(completionMark, 1)] }) id).domAt (domKey 0 5)).map
      (fun d => (tget d.counts completionMark).isSome) = some true ∧
    ((syncS 6 2 (fun d => { d with st := .rollingBack }) id).domAt (domKey 0 5)).map Domain.st = some .rollingBack := by decide +kernel

/-- Supersteps: snaparm below level 6 and at it, in a domain of two packages. -/
theorem test_snaparm_hyps :
    readyB (.snaparm gt 5 1) (syncS 4 1 id id) = true ∧
    ((syncS 4 1 id id).domOfThread 0).map (fun x => decide (x.2.level ≠ 6)) = some true ∧
    (let s := syncS 6 3 id id
     readyB (.snaparm gt 5 1) s = true ∧ (s.domOfThread s.tk).map (fun x => x.2.level) = some 6) ∧
    ((syncS 6 2 (fun d => { d with counts := [(completionMark, 2)] }) id).domAt (domKey 0 5)).map
      (fun d => tget d.counts completionMark) = some (some 2) := by decide +kernel

/-- A leader with one follower in the next core, and the follower's state. -/
def ganged (g : GangRole) : State := frS fun t => { t with gang := some g }

/-- Gangs: a free slot, a count that leaves the row, a busy slot; leaders and followers. -/
theorem test_gang_hyps :
    (Ready (.gang gt 5 9) (frS id) ∧ 8 < coreIn (frS id).cc % 64 % 8 + (9 : BitVec 20).toNat) ∧
    (Ready (.gang gt 5 8) (frS id) ∧ coreIn (frS id).cc % 64 % 8 + (8 : BitVec 20).toNat ≤ 8 ∧ (frS id).th.gang = none ∧
      ((List.range 7).map fun m => 4 * ((frS id).cc + m + 1) + (frS id).ct).all (copySlotFree (frS id) (frS id).th) = true ∧
      (match saveScan (frS id).tk (frS id) with
       | .ok _ s0 => ends (frameReads (frS id).tk 0 none s0.th.fsp s0)
       | .error _ _ => false) = true) ∧
    (let s := (frS id).modThreadAt 4 fun t => { t with bound := true }
     Ready (.gang gt 5 2) s ∧ [4].all (copySlotFree s s.th) = false) ∧
    (Ready (.detach gt) (frS id) ∧ Ready (.rejoin gt 7) (frS id)) ∧
    (Ready (.detach gt) (ganged { leader := 9, n := 2, attached := true }) ∧ Ready (.rejoin gt 7) (ganged { leader := 9, n := 2, attached := true }) ∧
      Ready (.detach gt) (ganged { leader := 0, n := 2, attached := true })) ∧
    (let s := (ganged { leader := 0, n := 2, attached := true }).modThreadAt 4 fun t =>
      { t with bound := true, gang := some { leader := 0, n := 2, attached := false, token := some 7 } }
     Ready (.rejoin gt 7) s ∧ s.detached s.tk = [4] ∧
       (s.detached s.tk).all (fun f => (((s.threadAt f).gang).bind (·.token)) == some 7) = true) :=
  ⟨⟨ready_of (by decide +kernel), by decide +kernel⟩,
    ⟨ready_of (by decide +kernel), by decide +kernel, by decide +kernel, by decide +kernel, by decide +kernel⟩,
    ⟨ready_of (by decide +kernel), by decide +kernel⟩, ⟨ready_of (by decide +kernel), ready_of (by decide +kernel)⟩,
    ⟨ready_of (by decide +kernel), ready_of (by decide +kernel), ready_of (by decide +kernel)⟩, ready_of (by decide +kernel),
    by decide +kernel, by decide +kernel⟩

/-- The leader and its copy hold the count and go on together (spec/15 R261). -/
theorem test_gang : after (exec (.gang gt 5 2) (frS id)) (fun s => (s.g 5, (s.threadAt 4).g 5, (s.threadAt 4).bound, (s.threadAt 4).pc)) =
    some (2, 2, true, 0x10008) := by decide +kernel

/-! ## The matrix engine -/

/-- Rings 2 and 3 hold one slot of 512 bytes; row 0 and column 0 of each hold 1.0 and 2.0 in FP32 lane 0. -/
def meS (l : List Op) : State :=
  let s := mk (regs [(1, 32), (2, 0x100), (3, 0x100000000), (4, sram 0x7F00), (6, sram 16)]) fun c =>
    { (c.setRing 2 { base := 0, sb := 16, ns := 1, fc := 1 }).setRing 3 { base := 0x400, sb := 16, ns := 1, fc := 1 } with me := l }
  { s with mem := memWrites (memWrites [] (sramKey 0 0) [0x40]) (sramKey 0 0x400) [0x48] }
/-- E4M3 by E4M3, one K-step, into accumulator 15. -/
def mma1 : Instr := .mma gt 2 15 2 3 0 0 (some .e4m3) (some .e4m3) 0 1 false false
def meOp (i : Instr) (started : Bool) : Op := { num := 1, eng := .me, th := 0, instr := i, fd := 2, pc := 0, started := started }
/-- A scaled operand whose slot has no tag and whose binding names another generation. -/
def staleOp : Op := { meOp (.mma gt 2 15 2 3 0 0 (some .e4m3) (some .e4m3) 0 1 true false) false with bindA := [some ⟨0, 5, 0⟩] }
def attnVc : Instr := .attnV gt 2 (.plain 4) (some .e4m3) 0 3 0 0 false
def attnFc : Instr := .attnF gt 2 14 0 none 2

/-- MatrixCommands: checks that pass and that do not; begins and ends. -/
theorem test_matrix_hyps :
    (Ready mma1 (meS []) ∧ isOk (matrixChecks mma1 (meS [])) () (meS []) = true ∧ mma1.timeline = some (.me, 2) ∧
      (meS []).core.mePending < 2 ∧ 2 ≤ (meS [meOp mma1 false, { meOp mma1 false with num := 2 }]).core.mePending) ∧
    (configBad (.lxcfg gt 2 2) ((meS []).g 2) = true ∧ Ready (.lxcfg gt 2 2) (meS []) ∧ configBad (.lxcfg gt 2 1) ((meS []).g 1) = false ∧
      configBad (.smxcfg gt 2 3) ((meS []).g 3) = false) ∧
    (let i : Instr := .mma gt 2 15 7 3 0 0 (some .e4m3) (some .e4m3) 0 1 false false
     Ready i (meS []) ∧ ((meS []).core.ring 7).ns = 0) ∧
    ((meS [meOp mma1 false]).coreAt 0).meNext = some (meOp mma1 false) ∧ ((meS [meOp mma1 false]).coreAt 0).lacks mma1 = false ∧
    (let c := (meS [staleOp]).coreAt 0
     c.meNext = some staleOp ∧
       (match bindOperand c true staleOp.bindA (c.resolveSlots (meS [staleOp]) 0 (Op.slotNeeds staleOp.instr c.stage.lxc).1) with
        | .error _ => true
        | .ok _ => false) = true) :=
  ⟨⟨ready_of (by decide +kernel), by decide +kernel, by decide, by decide, by decide⟩,
    ⟨by decide +kernel, ready_of (by decide +kernel), by decide +kernel, by decide +kernel⟩, ⟨ready_of (by decide +kernel), by decide +kernel⟩,
    by decide +kernel, by decide +kernel, by decide +kernel⟩

/-- The last accumulator of a range, no K-step of another, each command's last clause (tokens, a group of the denominators). -/
theorem test_matrix_run_hyps :
    attnVc = .attnV gt 2 (.plain 4) (some .e4m3) 0 3 0 0 false ∧ (meS []).core.accAt 0 0 0 = 0 ∧
    Instr.wf (.mmz gt 2 15 0) = true ∧ Instr.wf attnVc = true ∧ Instr.wf attnFc = true ∧ Instr.wf mma1 = true := by decide +kernel

/-- 2.0 times 4.0, one of 32 products, is 8.0 at the accumulator's first place (spec/19 R307). -/
theorem test_mma :
    (match exec (.matrixCmdBegin 0) (meS [meOp mma1 false]) with
     | .next s => decide (after (exec (.matrixCmdEnd 0 1) s) (fun s => (s.core.accAt 15 0 0, s.core.accAt 15 0 1, s.core.me.length)) =
        some (0x41000000, 0, 0))
     | _ => false) = true := by decide +kernel

/-- Accumulator 1 has two values that its sums do not know, and accumulator 2 none. -/
def drainS : State := (meS []).modCore fun c => { c with acc := [(64, 0x3F800000), (73, 0x3F800000)] }

/-- Accumulators: reads with nothing outstanding, with a command that writes the accumulator, with a sum that is off. -/
theorem test_acc_hyps :
    (Ready (.mova gt (some .fp32) 4 0 .rne false) (meS []) ∧ Instr.wf (.mova gt (some .fp32) 4 0 .rne false) = true ∧
      (∀ r : Nat, r < 64 / Fmt.fp32.lanes → (meS []).th.bind (4 + BitVec.ofNat 5 r) = none) ∧
      (meS []).core.accBusy 0 = false ∧ (drainAcc 0 0 0 (meS [])).2 = none) ∧
    (let s := meS [meOp (.mmz gt 2 0 0) false]
     Ready (.msta gt 0 4 0 false) s ∧ s.core.accBusy 0 = true) ∧
    (Ready (.msta gt 1 4 0 false) drainS ∧ ((drainAcc 0 0 1 (drainS.modPkgAt 0 fun p => { p with sev := [(5, 0x11111111)] })).2.map
      (·.1)) = some 0x30301) ∧
    (Ready (.msta gt 0 4 0 false) (meS []) ∧ (offsetAddr ((meS []).g 4) 0).toNat = 2 ^ 60 + 0x7F00 ∧ 0x7F00 % 32 = 0 ∧ 0x7F00 + 256 ≤ 2 ^ 15 ∧
      drainTile (meS []).core.stage.ctol (tgetD (meS []).core.shadow 0 {}) ((meS []).core.accAt 0) = .ok) ∧ Ready (.msta gt 0 6 0 false) (meS []) ∧
    (Ready (.mchk gt 5 (some 1) true) (meS []) ∧ finite32 (((meS []).g 1).setWidth 32) = true ∧ ((meS []).g 1).getLsbD 31 = false ∧
      Ready (.mchk gt 5 none false) (meS [])) :=
  ⟨⟨ready_of (by decide +kernel), by decide, by decide +kernel, by decide +kernel, by decide +kernel⟩, ⟨ready_of (by decide +kernel), by decide +kernel⟩,
    ⟨ready_of (by decide +kernel), by decide +kernel⟩, ⟨ready_of (by decide +kernel), by decide +kernel, by decide, by decide, by decide +kernel⟩,
    ready_of (by decide +kernel), ready_of (by decide +kernel), by decide +kernel, by decide +kernel, ready_of (by decide +kernel)⟩

/-- The example of spec/19 R310: an element that should be 4.0 reads 6.0, and the drain puts 4.0 back. -/
theorem test_drain :
    let all (v : BitVec 32) : Tbl (BitVec 32) := (List.range 8).map fun k => (k, v)
    drainTile 0x37800000 { rs := all 0x42000000, cs := all 0x42000000, mr := all 0x42000000, mc := all 0x42000000, xf := false }
      (fun i j => if i = 2 ∧ j = 5 then 0x40C00000 else 0x40800000) = .fixed 2 5 0x40800000 := by decide +kernel

/-! ## Services, idling, time -/

/-- A cluster whose threads may run service operations; an entry of the fault buffer that thread 0 waits on. -/
def svS (f : Cluster → Cluster) : State :=
  ((mapped (mk (regs [(1, 0x10001), (2, 0x20007), (3, 2 ^ 57), (4, 0), (5, 2), (6, 3), (7, 2 ^ 40 + 7)]) id)).modPkgAt 0 fun p => { p with stage := 5 }).modClusterAt 0 fun c =>
    f { c with svcctl := true }
def fbEnt : FaultEnt := ⟨mkMessage 0x50000 0x10000 0 0 0 0 1 0 0, [.sync 0 (2 ^ 90)]⟩
def fbS : State := (svS fun c => { c with fb := [(0, fbEnt)] }).modThreadAt 0 fun t => { t with blocked := some ⟨0, 0, 0, 0, false, false⟩ }

/-- Services: barred; each answer of tlbw, tlbi and frep. -/
theorem test_service_hyps :
    (Ready (.tlbw gt 8 1 2 4) intS ∧ (intS.clusterAt (clusterOf intS.cc)).svcctl = false) ∧
    (Ready (.tlbw gt 8 1 2 4) (svS id) ∧ ((svS id).clusterAt 0).svcctl = true ∧ (⟨0x10001, 0x20007, 0⟩ : TlbEnt).ok = true ∧
      (⟨0x10001, 0x20007, 0⟩ : TlbEnt).hole ((svS id).pkgAt 0) = none ∧ (⟨2 ^ 57, 0x20007, 0⟩ : TlbEnt).ok = false ∧
      (⟨0x10001, BitVec.ofNat 64 (2 ^ 45 + 7), 0⟩ : TlbEnt).ok = true ∧ (⟨0x10001, BitVec.ofNat 64 (2 ^ 45 + 7), 0⟩ : TlbEnt).hole ((svS id).pkgAt 0) ≠ none) ∧
    (Ready (.tlbi gt 8 1 4 0 false false) (svS id) ∧ (svS id).th.tlbiWait = none) ∧
    (let s := (svS id).modCore fun c => { c with ce := [{ coOp cp1 [] true with held := [⟨0, page⟩] }] }
     Ready (.tlbi gt 8 1 4 3 false true) s ∧ s.pinHolders 0 false (inScope (s.pkgAt 0) 3 (s.g 1) (s.g 4)) = [(0, 1)]) ∧
    (let s := (svS id).modTh fun t => { t with tlbiWait := some ([(0, 1)], 1) }
     Ready (.tlbi gt 8 1 4 3 false true) s ∧ s.copiesLeft [(0, 1)] = false ∧ (s.threadAt (4 * 0 + 0)).tlbiWait = some ([(0, 1)], 1) ∧
       (s.modCore fun c => { c with ce := [coOp cp1 [] true] }).copiesLeft [(0, 1)] = true) ∧
    (Ready (.frep gt 8 4 5) (svS id) ∧ tget ((svS id).clusterAt 0).fb 0 = none) ∧
    (let s := svS fun c => { c with fb := [(0, fbEnt)] }
     Ready (.frep gt 8 4 4) s ∧ tget (s.clusterAt 0).fb 0 = some fbEnt ∧ msgGen fbEnt.msg = 0 ∧ 2 < (s.g 6).toNat) ∧
    (tget (fbS.clusterAt 0).fb 0 = some fbEnt ∧ (fbS.clusterAt 0).late = [] ∧ (fbS.threadAt 0).bound = true ∧
      fbS.memberKey 0 = 2 ^ 90 ∧ fbS.svcRunning 0 = false ∧ (fbS.pkgAt 0).serves = true ∧ (fbS.clusterAt 0).errs = [] ∧ (intS.pkgAt 0).serves = false) ∧
    ((svS fun c => { c with fb := [(3, { fbEnt with waiters := [] })] }).clusterAt 0).late = [] ∧
    ((svS fun c => { c with svcBusy := [(0, 1)] }).modCore fun c =>
      { c with ce := [{ coOp cp1 [] true with held := [⟨0, page⟩] }] }).svcRunning 0 = true :=
  ⟨⟨ready_of (by decide +kernel), by decide +kernel⟩, ⟨ready_of (by decide +kernel), by decide +kernel, by decide +kernel, by decide +kernel,
      by decide +kernel, by decide +kernel, by decide +kernel⟩, ⟨ready_of (by decide +kernel), by decide⟩,
    ⟨ready_of (by decide +kernel), by decide +kernel⟩, ⟨ready_of (by decide +kernel), by decide +kernel, by decide +kernel, by decide +kernel⟩,
    ⟨ready_of (by decide +kernel), by decide +kernel⟩, ⟨ready_of (by decide +kernel), by decide +kernel, by decide +kernel, by decide +kernel⟩,
    by decide +kernel, by decide +kernel, by decide +kernel⟩

/-- A reply of 1 delivers the fault at the message's address (spec/10 R158). -/
theorem test_frep : after (exec (.frep gt 8 4 7) (fbS.modThreadAt 0 fun t => { t with blocked := none })) (·.g 8) = some 2 ∧
    (((faultReply 0 0 1 fbS).threadAt 0).delivered.map Delivered.addr) = some 0x50000 := by decide +kernel

/-- IdleEventsTime: a fetch of no translation, both event flags, slots of this package and of none, the time. -/
theorem test_idle_hyps :
    ((mk id id).threadAt (4 * 0 + 0)).bound = true ∧ ((mk id id).threadAt 0).dying = false ∧ ((mk id id).threadAt 0).blocked = none ∧
    (match fetchBytes { mk id id with cc := 0, ct := 0 } with | .error .wait _ => true | _ => false) = true ∧
    (Ready (.idle gt) intS ∧ Ready (.idle gt) (intS.modTh fun t => { t with evf := true })) ∧
    (Ready (.sevw gt 1) (mk (regs [(1, 0x8000000000000000)]) id) ∧ Ready (.sevw gt 1) (mk (regs [(1, 4 * 100352)]) id) ∧
      ¬ (4 * 100352 / 2 ^ 2 % 2 ^ 17 < 100352) ∧ ((mk id id).pkgAt 0).pkgId = 0) ∧ Ready (.rdtime gt 5) intS :=
  ⟨by decide +kernel, by decide +kernel, by decide +kernel, by decide +kernel, ⟨ready_of (by decide +kernel), ready_of (by decide +kernel)⟩,
    ⟨ready_of (by decide +kernel), ready_of (by decide +kernel), by decide, by decide⟩, ready_of (by decide +kernel)⟩

/-! ## Launch, dispatch, migration -/

/-- A ready package whose device table maps 0x10000. -/
def rdyS (f : Pkg → Pkg) : State := (mapped (mk id id)).modPkgAt 0 fun p => f { p with ready := true, stage := 6 }
/-- A domain of a bound thread in a state, with its number 5. -/
def dcS (st : DomState) : State :=
  (syncS 4 2 (fun d => { d with st := st }) id).modPkgAt 0 fun p => { p with ready := true, stage := 6 }

/-- DomainCommands: writes of LNCH that are ignored and that are not; domains in each state; a drain that has run out. -/
theorem test_domain_hyps :
    ((intS.pkgAt 0).ready = false ∧ 2 ^ 57 ≤ (0x200000000000000 : Word).toNat ∧ (0x10020 : Word).toNat % 64 ≠ 0) ∧
    (((rdyS id).pkgAt 0).ready = true ∧ ((rdyS id).pkgAt 0).lBusy = false ∧ (0x10000 : Word).toNat % 64 = 0 ∧
      (match readWords (deviceAgent (0 * 1568) 0 (.launch 0)) 0x10000 0 16 (rdyS fun p => { p with lBusy := true, lDesc := 0x10000 }) with
        | .ok ws _ => descBad ws
        | .error _ _ => false) = true ∧
      ends (launchBody 0 (rdyS fun p => { p with lBusy := true, lDesc := 0x10000 })) = true) ∧
    (((dcS .running).domAt (domKey 0 5)).map (fun d => (d.st, d.members, d.drain)) = some (.running, [], 200000) ∧
      (dcS .running).domThreads (domKey 0 5) = [0]) ∧
    ((dcS .saved).domAt (domKey 0 5)).map (fun d => (d.st, d.members)) = some (.saved, []) ∧
    ((dcS .killed).domAt (domKey 0 5)).map (fun d => d.st.live) = some false ∧
    (((dcS .draining).domAt (domKey 0 5)).map (fun d => (d.st, d.drainLeft)) = some (.draining, 0) ∧
      ((dcS .draining).threadAt 0).saving = none ∧ ((dcS .draining).threadAt 0).dying = false) ∧
    ((dcS .running).pkgAt 0).serves = true ∧ (intS.pkgAt 0).serves = false := by decide +kernel

/-- The same with members: one suspended by force, one in `dsync`, one that thread 0 runs; both latter have arrived. -/
def dmS (st : DomState) : State :=
  let r (a : Word) : RecInfo := { pkg := 0, spn := 0, addr := a, status := 3, dom := 5, why := .forced }
  let k (a : Word) : Nat := recKey 0 0 a.toNat
  let s := (dcS st).modDomAt (domKey 0 5) fun d => { d with
    members := [k 0x10040, k 0x10080, k 0x100C0], arrived := [k 0x10080, k 0x100C0], forced := 1 }
  let s := (s.setRec (k 0x10040) (r 0x10040)).setRec (k 0x10080) { r 0x10080 with why := .dsync, lastSlot := 0, waited := 10000000 }
  (s.setRec (k 0x100C0) { r 0x100C0 with status := 2, slot := some 0 }).modTh fun t => { t with rec_ := 0x100C0, waiting := some .dsync, waited := 10000000 }

/-- DomainCommands: a resume and a kill of a domain with members, the end of a thread that is to be killed. -/
theorem test_member_hyps :
    let ks := [recKey 0 0 0x10040, recKey 0 0 0x10080, recKey 0 0 0x100C0]
    (((dmS .saved).pkgAt 0).serves = true ∧ ((dmS .saved).domAt (domKey 0 5)).map (fun d => (d.st, d.members)) = some (.saved, ks) ∧
      ks.map (fun k => ((dmS .saved).recAt k).map fun r => (r.status, decide (r.why = .forced))) =
        [some (3, true), some (3, false), some (2, true)]) ∧
    (((dmS .running).domAt (domKey 0 5)).map (fun d => d.st.live) = some true ∧
      ks.all (fun k => (((dmS .running).recAt k).map fun r => domKey r.pkg r.dom) == some (domKey 0 5)) = true ∧
      (dmS .running).domThreads (domKey 0 5) = [0] ∧
      ((dmS .running).chain (domKey 0 5)).all (fun x => ((dmS .running).domAt x).all fun y => y.deferred.isEmpty) = true) ∧
    (((dmS .running).threadAt 0).bound = true ∧ (dmS .running).keyOf 0 = some (recKey 0 0 0x100C0) ∧
      ((dmS .running).threadAt 0).dbl = none ∧ ((dmS .running).threadAt 0).gang = none ∧ (dmS .running).allOps 0 = []) ∧
    (((dmS .draining).domThreads (domKey 0 5)).filter (fun th =>
      ((dmS .draining).threadAt th).saving.isNone && !((dmS .draining).threadAt th).dying)) = [0] := by decide +kernel

/-- A resume queues the member that was suspended by force, and no other (spec/15 R263, R264); a kill gives the members that
no thread runs STATUS 5 (R264). -/
theorem test_resume_kill :
    after (exec (.dcmdResume 0 5) (dmS .saved)) (fun s => [0x10040, 0x10080, 0x100C0].map fun a =>
      (s.recAt (recKey 0 0 a)).map RecInfo.status) = some [some 1, some 3, some 2] ∧
    after (exec (.dcmdKill 0 5) (dmS .running)) (fun s => ([0x10040, 0x10080].map fun a => (s.recAt (recKey 0 0 a)).map RecInfo.status,
      (s.threadAt 0).dying)) = some ([some 5, some 5], true) := by decide +kernel

/-- DomainCommands: the watchdog at its limit at a `dsync`, for a thread and for a suspended record. -/
theorem test_watchdog_dsync_hyps :
    let s := dmS .running
    s.wdogOfThread (pkgOf 0) (s.threadAt (4 * 0 + 0)) = some 10000000 ∧ (s.threadAt 0).waiting = some .dsync ∧
    (s.dsyncDomain (s.memberKey (4 * 0 + 0))).map (·.1) = some (domKey 0 5) ∧
    (let s := s.modTh fun t => { t with waiting := none }
     (s.threadAt (4 * 0 + 0)).waiting = none ∧
       (s.recs.find? fun y => y.2.pkg == pkgOf 0 && y.2.status == 3 && y.2.why == .dsync && y.2.lastSlot == 4 * 0 + 0 &&
         ((s.wdogOf (pkgOf 0) y.2.dom).map fun n => decide (n ≤ y.2.waited)).getD false).map (·.1) = some (recKey 0 0 0x10080) ∧
       (s.dsyncDomain (recKey 0 0 0x10080)).map (·.1) = some (domKey 0 5)) ∧
    (s.domAt (domKey 0 5)).map (fun x => decide (x.level ≠ 6)) = some true := by decide +kernel

/-- The thread that waits takes the trap when it next runs, with no member missing of two (spec/15 R262). -/
theorem test_watchdog_dsync : after (exec (.watchdogExpiry 0 0) (dmS .running)) (fun s => ((s.threadAt 0).wdTrap,
    (s.recAt (recKey 0 0 0x10080)).map fun r => (r.status, r.wdTrap))) = some (some 0, some (1, some 0)) := by decide +kernel

/-- DomainCommands: the watchdog at its limit, in a wait for a barrier and at a rejoin. -/
theorem test_watchdog_hyps :
    let w (x : WaitKind) : State := syncS 4 2 id fun t => { t with waiting := some x, waited := 10000000 }
    (w (.bwait 8)).wdogOfThread (pkgOf 0) ((w (.bwait 8)).threadAt (4 * 0 + 0)) = some 10000000 ∧
    10000000 ≤ ((w (.bwait 8)).threadAt 0).waited ∧ ((w (.bwait 8)).threadAt 0).dying = false ∧
    ((w (.bwait 8)).threadAt 0).blocked = none ∧ ((w (.rejoin 7)).threadAt 0).waiting = some (.rejoin 7) := by decide +kernel

/-- A queued record at 0x10040 of a domain on level 4, the cluster in a mode. -/
def qS (mode : Nat) (f : Cluster → Cluster) : State :=
  let s := syncS 4 2 (fun d => { d with members := [recKey 0 0 0x10040] }) id
  let s := s.setRec (recKey 0 0 0x10040) { pkg := 0, spn := 0, addr := 0x10040, status := 1, dom := 5 }
  ((s.modPkgAt 0 fun p => { p with stage := 6, ready := true }).modClusterAt 0 fun c => f { c with mode := mode, queue := [⟨recKey 0 0 0x10040, 0, 0, 0⟩] })

/-- SlotsAndQueues: a record that can be bound, none, in and out of hardware mode. -/
theorem test_queue_hyps :
    (((qS 0 id).clusterAt 0).queue.map QEnt.err = [0] ∧ ((qS 0 id).pkgAt (pkgOfCluster 0)).serves = true) ∧
    (pendingEntry (qS 0 id) 0 = none ∧ ((qS 0 id).clusterAt 0).mode = 0 ∧ pickRecord (qS 0 id) 0 = some (recKey 0 0 0x10040, 4) ∧
      ends (bindOrKill (recKey 0 0 0x10040) 4 (qS 0 id)) = true) ∧
    (pickRecord intS 0 = none ∧ (intS.clusterAt 0).mode = 0 ∧ pendingEntry intS 0 = none) ∧
    (((qS 0 id).recAt (recKey 0 0 0x10040)).map (fun r => (r.pinned, r.status)) = some (none, 1) ∧
      (qS 0 id).recordAt 0 0x10040 = some (recKey 0 0 0x10040) ∧ (qS 0 id).recordAt 0 0x10080 = none) := by decide +kernel

/-- A dispatched record's thread (spec/14 R239): bound, with one window, its record running. -/
theorem test_dispatch : after (exec (.dispatch 0) (qS 0 id)) (fun s =>
    ((s.threadAt 4).bound, (s.threadAt 4).res, (s.threadAt 4).fsp, (s.recAt (recKey 0 0 0x10040)).map RecInfo.status)) =
    some (true, 1, 41, some 2) := by decide +kernel

/-- SlotsAndQueues: entries of the slot table, at its ends. -/
theorem test_slot_hyps :
    (let w : Word := BitVec.ofNat 64 (2 ^ 62 + 2 ^ 8 + 1)
     let s := qS 1 fun c => { c with slot0 := [(4, 0x10040)], slot1 := [(4, w)] }
     let posted := s.modClusterAt 0 fun c => c.putSlot1 4 (slotDone w 1 0)
     w.toNat / 2 ^ 62 = 1 ∧ w.toNat % 64 = 4 / 4 ∧ w.toNat / 64 % 4 = 4 % 4 ∧ w.toNat / 2 ^ 8 % 8 = 1 ∧
       posted.recordAt 0 (tgetD (posted.clusterAt 0).slot0 4 0) = some (recKey 0 0 0x10040) ∧
       bindRefusal posted (recKey 0 0 0x10040) (4 * coreOfCluster 0 (4 / 4) + 4 % 4) = none ∧
       (match bindOrKill (recKey 0 0 0x10040) 4 posted with
        | .ok _ s1 => (s1.threadAt 4).bound
        | .error _ _ => false) = true ∧
       bindRefusal posted (recKey 0 0 0x10040) 0 = some 1 ∧ (s.pkgAt (pkgOfCluster 0)).serves = true ∧ (s.clusterAt 0).errs = []) ∧
    (let w : Word := BitVec.ofNat 64 (2 ^ 62 + 2 ^ 8 + 2 ^ 6 * 3 + 63)
     w.toNat / 2 ^ 62 = 1 ∧ w.toNat % 64 = 255 / 4 ∧ w.toNat / 64 % 4 = 255 % 4 ∧ ¬ (w.toNat % 64 = 0 / 4)) ∧
    (let w : Word := BitVec.ofNat 64 (2 ^ 62 + 2 * 2 ^ 8)
     w.toNat / 2 ^ 62 = 1 ∧ w.toNat % 64 = 0 / 4 ∧ w.toNat / 2 ^ 8 % 8 = 2 ∧ (intS.threadAt 0).bound = true ∧
       (intS.threadAt 1).bound = false) := by decide +kernel

/-- A core that has read 4 for 16 samples, its thread 0 fit to move; the domain has a context image free or not. -/
def mvS (l : Tbl Nat) : State :=
  let s := domS (fun d => { d with images := l, level := 4 }) fun t => { t with flagM := true, frames := [{ at_ := 0, kind := .window, size := 41 }], fsp := 41 }
  let s := s.modTrack 0 5 fun x => { x with claim := .none }
  let s := s.modCore fun c => { c with owner := none }
  (s.modTh fun t => { t with ftrk := none, flagT := false }).modClusterAt 0 fun c =>
    { c with migen := true, cloadRun := [(0, 16)], cload := (List.range 64).map fun k => (k, if k = 63 then 2 else 3) }

/-- SlotsAndQueues: a thread that moves to the last core of the cluster, with an image and without, and its arrival. -/
theorem test_migration_hyps :
    migrationTarget (mvS []) 0 = some 63 ∧ tgetD ((mvS []).clusterAt 0).cload 63 0 ≤ 2 ∧ slotFree (mvS []) (4 * 63 + 0) = true ∧
    ((mvS []).threadAt (4 * 0 + 0)).errs = [] ∧ 16 ≤ tgetD ((mvS []).clusterAt 0).cloadRun (coreIn 0 % 64) 0 ∧
    migratable (mvS []) 0 63 = true ∧ (∀ k : Nat, k < 4 → k ≠ 0 → migratable (mvS []) (4 * 0 + k) 63 = false) ∧
    (mvS []).keyOf 0 = some (recKey 0 1 0x4000) ∧ ((mvS []).domAt (domKey 0 0)).map freeImage = some (some 0) ∧
    ends (storeWords 0 (sram 0x1000) 0 (List.replicate 8 1) (mvS [])) = true ∧
    ((mvS [(0, 7)]).domAt (domKey 0 0)).map freeImage = some none ∧
    (let a : Arrival := { key := 1, slot := 252, thread := { ftrk := some 5, dom := 9 }, image := 0 }
     ((intS.modClusterAt 0 fun c => { c with arriving := [a] }).clusterAt 0).arriving = [a] ∧ a.thread.ftrk ≠ none ∧
       (intS.domAt (domKey 0 9)) = none ∧ (intS.modClusterAt 0 fun c => { c with arriving := [a] }).parkedFor (pkgOf (a.slot / 4)) a.key = []) := by
  decide +kernel

/-! ## Reliability, bring-up -/

/-- Reliability: words of the last place of an SRAM, clean, with one bit and with two off; lines; the limits of CLKCTL. -/
theorem test_rel_hyps :
    (let wn := sramKey 0 32760 / 8
     32760 % 8 = 0 ∧ tget intS.sramErr wn = none ∧ eccRead 1 = .correct 0 ∧ eccRead 3 = .uncorrectable ∧
       tget ({ intS with sramErr := [(wn, 3)] } : State).sramErr wn = some 3) ∧
    (64 * 0 + 64 ≤ (intS.pkgAt 0).hbm ∧ tget ({ intS with hbmErr := [(0, [5, 7])] } : State).hbmErr (0 * 2 ^ 42 + 0) = some [5, 7]) ∧
    ((intS.dieAt (0 * 18 + 17)).restoring = false ∧ (intS.clusterAt 0).cur ≠ 120 ∧ (intS.pkgAt 0).tbase / 100 = (intS.clusterAt 0).ival ∧
      ((intS.modPkgAt 0 fun p => { p with tbase := 250 }).pkgAt 0).tbase / 100 ≠ (intS.clusterAt 0).ival ∧
      ((rdyS id).pkgAt (pkgOfCluster 0)).serves = true) ∧
    ((intS.pkgAt 0).gated = false ∧ (intS.pkgAt 0).trip ≤ 255 ∧ 94 ≤ (intS.pkgAt 0).resume) := by decide +kernel

/-- Reliability: two packages with a port up, the one behind, ahead of and level with the other. -/
def tbS (a b : Nat) : State :=
  let up (t : Nat) (p : Pkg) : Pkg := { p with ready := true, npkgm1 := 1, ports := [(17, { state := 2 })], tbGap := 1024, tbase := t }
  (intS.modPkgAt 0 (up a)).modPkgAt 1 fun p => { up b p with pkgId := 1 }
theorem test_tbase_hyps :
    [(5, 7), (7, 5), (5, 5)].all (fun (x : Nat × Nat) => decide (((tbS x.1 x.2).pkgAt 0).upPorts ≠ []) &&
      decide (((tbS x.1 x.2).pkgAt 1).upPorts ≠ []) && decide (1024 ≤ ((tbS x.1 x.2).pkgAt 0).tbGap) &&
      ((tbS x.1 x.2).pkgAt 0).ready && ((tbS x.1 x.2).pkgAt 1).ready &&
      decide (((tbS x.1 x.2).pkgAt 1).pkgId ≤ ((tbS x.1 x.2).pkgAt 0).npkgm1) && ((tbS x.1 x.2).pkgAt 0).tbase == x.1 && ((tbS x.1 x.2).pkgAt 1).tbase == x.2) = true ∧ (intS.pkgAt 0).upPorts = [] := by
  decide +kernel

/-- A package that is behind gains a tick (spec/21 R347). -/
theorem test_tbase : after (exec (.tbaseDiscipline 0 1) (tbS 5 7)) (fun s => (s.pkgAt 0).tbase) = some 6 := by decide +kernel

/-- A package in recovery. -/
def recS : State := intS.modPkgAt 0 fun p => { p with err := 3 }
/-- A package whose stage 5 is open. -/
def cfgS : State := intS.modPkgAt 0 fun p => { p with stage := 5 }

/-- BringUp: stages that fail; an empty flash, whatever the keys are; an open stage 5; recovery; a register and none. -/
theorem test_boot_hyps :
    ({ flashA := some [], flashB := some [] } : Pkg).bootImage 0 = none ∧
    ((cfgS.pkgAt 0).configuring = true ∧ (1 : Word) &&& ~~~(siliconBits 0) = 0#64 ∧ (clearPackage 0 cfgS).aligned 0 5 = true) ∧
    ((BitVec.allOnes 64 : Word) &&& ~~~(siliconBits 0) ≠ 0#64) ∧
    ((9215 * 2 ^ 16 + 9215 : Word).toNat % 2 ^ 14 ≤ (9215 * 2 ^ 16 + 9215 : Word).toNat / 2 ^ 16 % 2 ^ 14) ∧
    ((recS.pkgAt 0).err ≠ 0 ∧ (intS.pkgAt 0).err = 0 ∧ (intS.pkgAt 0).configuring = false ∧ ((rdyS id).pkgAt 0).ready = true) ∧
    (regOccupied 0 0 intS = true ∧ ends (regWrite 0 0 5 intS) = true ∧ regOccupied 0 0xFFFFFFF8 intS = false) := by
  refine ⟨by decide +kernel, ⟨by decide +kernel, by rw [siliconBits, BitVec.not_or, BitVec.and_comm, BitVec.and_assoc]; simp, by decide +kernel⟩,
    ?_, by decide, by decide +kernel, by decide +kernel⟩
  intro h
  have := congrArg (fun (x : Word) => x.getLsbD 63) h
  simp [siliconBits] at this

/-! ## The host, compaction, the fabric -/

/-- A job at 0x10000 whose header, at 0x10100, lists no token. -/
def jobS (f : Compactor → Compactor) : State :=
  let s := rdyS fun p => p.setCmp 1 (f { busy := true, job := 0x10000 })
  { s with mem := memWrites [] 0x20000 (leBytes 8 0x10100) }

/-- HostAndCompaction: accesses at the end of the memory; a device; jobs that start, are checked, rewrite and release. -/
theorem test_host_hyps :
    (((rdyS id).pkgAt 0).ready = true ∧ (rdyS id).hbmErr = [] ∧ ((rdyS id).pkgAt 0).hbm - 64 + 64 ≤ ((rdyS id).pkgAt 0).hbm ∧
      64 ≤ ((rdyS id).pkgAt 0).hbm ∧ ((rdyS id).pkgAt 0).hbm ≤ 2 ^ 44) ∧
    (let p := (rdyS fun p => { p with cxlPorts := 4, cxl := 2 ^ 40 }).pkgAt 0
     3 < p.cxlPorts ∧ 3 ∉ p.cxlLost) ∧
    (((jobS id).pkgAt 0).cmp 1).busy = true ∧ ((rdyS id).pkgAt 0).serves = true ∧ (((rdyS id).pkgAt 0).cmp 1).busy = false ∧
    (match (jobTable 0 1).run (jobS id) with
     | .ok (.ok j) s1 => decide (((s1.pkgAt 0).cmp 1).table = some j) && decide (s1.pinHeld j.hdrKey ((j.sgen + 2 ^ 16 - 1) % 2 ^ 16) = false) &&
        (match (jobRewrite 0 1 j).run s1 with | .ok (.ok _) _ => true | _ => false)
     | _ => false) = true ∧
    (match (jobTable 0 1).run { jobS id with mem := memWrites [] 0x20000 (leBytes 8 0x10120) } with
     | .ok (.error 1) _ => true | _ => false) = true ∧
    (((jobS fun c => { c with wait := some (0, 0, 0) }).pkgAt 0).cmp 1).wait ≠ none ∧
    (let s := jobS fun c => { c with
      switched := true, hdr := 1, oldGen := 2, release := [5], removed := 32, relAt := [(0x20040, 4)], doneAt := 0x20020 }
     s.pinHeld 1 2 = false ∧ s.sramErr = [] ∧ s.hbmErr = [] ∧ s.cxlPoison = [] ∧ (s.pkgAt 0).cxlGone 0x20040 = false ∧ 0x20020 + 8 ≤ 0x20040 ∧
       after (exec (.compactRelease 0 1) s) (fun e => (memReads e.mem 0x20040 4, leVal (memReads e.mem 0x20020 8), ((e.pkgAt 0).cmp 1).busy)) =
         some ([5, 0, 0, 0], 32 + 2 ^ 32, false) ∧
       (s.modCore fun c => { c with ce := [{ cpgOp true with seq := some ⟨1, 2, 0, 0, 0⟩ }] }).pinHeld 1 2 = true) := by decide +kernel

/-- Package 1 has a request of package 0, a read of eight bytes. -/
def reqS (seen : Window) : State :=
  let s := intS.modPkgAt 0 fun p => { p with npkgm1 := 1, reqUnacked := [(1, [⟨3, 0, 0, 0x10000, .read 8⟩])] }
  let s := s.modPkgAt 1 fun p => { p with pkgId := 1, ports := [(0, { state := 2 })], reqSeen := [(0, seen)] }
  s.modClusterAt (1 * Config.clusters) fun c => { c with tlb := [page] }
/-- Port 17 of package 0 is in a state, with a flit of a number on the way. -/
def portS (f : Port → Port) : State := intS.modPkgAt 0 fun p => { p with ports := [(17, f { state := 2, unacked := [(9, [])] })] }

/-- Fabric: a request that is new and one that is not; its response; ports in each state; lanes with and without a spare. -/
theorem test_fabric_hyps :
    ((reqS {}).requestAt 0 1 3 = some ⟨3, 0, 0, 0x10000, .read 8⟩ ∧ ((reqS {}).pkgAt 1).gated = false ∧
      (tgetD ((reqS {}).pkgAt 1).reqSeen 0 {}).applied 4096 3 = false ∧
      ends (applyRequest ⟨1, none, 0, 1 * 1568 + 0, 0, 4, 0, 0, .sync 0 0⟩ 1 ⟨3, 0, 0, 0x10000, .read 8⟩ (reqS {})) = true) ∧
    (let s := reqS { top := 3, seen := [3] }
     (tgetD (s.pkgAt 1).reqSeen 0 {}).applied 4096 3 = true ∧ ((s.pkgAt 1).plane (s.pkgAt 0).pkgId 0).isSome = true) ∧
    (({ top := 5000 } : Window).applied 4096 905 = false ∧ (5000 + 2 ^ 32 - 904) % 2 ^ 32 = 4096 ∧
      ({ top := 5000 } : Window).applied 4096 904 = true ∧ ({ top := 5000, gaps := [904] } : Window).applied 4096 904 = false) ∧
    (((portS id).portAt 0 17).state = 2 ∧ (((portS id).portAt 0 17).unacked.any fun x => x.1 == 9) = true ∧
      ((portS fun p => { p with asked := some 9 }).portAt 0 17).asked = some 9 ∧ ((portS id).portAt 0 17).asked = none ∧
      ((portS id).portAt 0 16).unacked = [] ∧ ((portS fun p => { p with unacked := [] }).portAt 0 17).unacked = []) ∧
    (let p := (portS fun p => { p with winj := [(8, BitVec.ofNat 64 (2 ^ 63 + 2))], carried := [(8, 1)], spused := true }).portAt 0 17
     let q := (portS fun p => { p with spused := true, state := 1 }).portAt 0 17
     p.carries 8 = true ∧ (tgetD p.winj 8 0).getLsbD 63 = true ∧ tgetD p.carried 8 0 + 1 = max 1 ((tgetD p.winj 8 0).toNat % 2 ^ 32) ∧
       p.state = 2 ∧ q.carries 8 = true ∧ q.state = 1 ∧ q.spused = true ∧
       (tgetD p.winj 0 0).getLsbD 63 = false) ∧
    (((portS id).portAt 0 17).carries 0 = true ∧ ((portS id).portAt 0 17).spused = false ∧
      ((portS fun p => { p with state := 1 }).portAt 0 17).state = 1) := by decide +kernel

/-- Fabric: a whole flit, whatever the parameters of its check are, with the next number and with another. -/
theorem test_flit_hyps :
    flitGood (mkFlit 0 1 0 (List.replicate 120 0)) = true ∧ flitSeq (mkFlit 0 1 0 (List.replicate 120 0)) = 0 ∧
    flitType (mkFlit 0 1 0 (List.replicate 120 0)) = 1 ∧ (((portS id).portAt 0 17).rxSeq + 1) % 4096 = 0 ∧ flitGood [] = false := by
  refine ⟨?_, by decide +kernel, by decide +kernel, by decide +kernel, by decide +kernel⟩
  simp only [flitGood, mkFlit, Bool.and_eq_true, beq_iff_eq]
  generalize hb : leBytes 2 (0 % 2 ^ 12 + 2 ^ 12 * 1) ++ leBytes 2 (0 % 2 ^ 12) ++ List.replicate 120 (0 : Byte) = bs
  have hl : bs.length = 124 := by rw [← hb]; decide +kernel
  refine ⟨by rw [List.length_append, hl]; rfl, ?_⟩
  rw [List.drop_left' hl, List.take_left' hl, leVal_leBytes]
  exact Nat.mod_eq_of_lt (Nat.lt_of_lt_of_eq (flitCrc bs).isLt (by decide))

end Sys2Proof.Tests
end

section
/-! The values of the integer instructions: the model's functions of spec/03 R46-R52 and the tables' values agree. -/

namespace Sys2Proof.Machine

/-! ## Sums (R46, R48) -/

/-- An exact result whose wrapped word is known: clamped with `.sat`, that word without. -/
theorem narrow_eq {x : Int} {w : Word} (sat : Bool) (h : BitVec.ofInt 64 x = w) :
    narrow x sat = if sat then clamp64 x else w := by
  cases sat with
  | false => exact h
  | true =>
    have hc : max (-(2 ^ 63)) (min x (2 ^ 63 - 1)) = min (max x (-(2 ^ 63))) (2 ^ 63 - 1) := by omega
    exact congrArg (BitVec.ofInt 64) hc

theorem ofInt_toInt_add (x y : Word) : BitVec.ofInt 64 (x.toInt + y.toInt) = x + y := by
  rw [BitVec.ofInt_add, BitVec.ofInt_toInt, BitVec.ofInt_toInt]

theorem ofInt_toInt_sub (x y : Word) : BitVec.ofInt 64 (x.toInt - y.toInt) = x - y := by
  rw [Int.sub_eq_add_neg, BitVec.ofInt_add, BitVec.ofInt_neg, BitVec.ofInt_toInt, BitVec.ofInt_toInt, BitVec.sub_eq_add_neg]

/-- A sum with an immediate wraps as the sum with its extension does. -/
theorem ofInt_toInt_add_imm (x : Word) (imm : BitVec 20) :
    BitVec.ofInt 64 (x.toInt + imm.toInt) = x + imm.signExtend 64 := by
  rw [← ofInt_toInt_add, BitVec.toInt_signExtend_of_le (by decide)]

/-! ## Division (R47) -/

theorem divVal_eq (a b : Word) : divVal a b = if b = 0 then BitVec.allOnes 64 else a.sdiv b := by
  have h : BitVec.ofInt 64 (a.toInt.tdiv b.toInt) = a.sdiv b :=
    BitVec.eq_of_toInt_eq (by rw [BitVec.toInt_ofInt, BitVec.toInt_sdiv])
  rw [divVal, h]

theorem remVal_eq (a b : Word) : remVal a b = if b = 0 then a else a.srem b := by
  have h : BitVec.ofInt 64 (a.toInt.tmod b.toInt) = a.srem b := by rw [← BitVec.toInt_srem, BitVec.ofInt_toInt]
  rw [remVal, h]

theorem divuVal_eq (a b : Word) : divuVal a b = if b = 0 then BitVec.allOnes 64 else a / b := by
  rw [divuVal, BitVec.udiv_def]

theorem remuVal_eq (a b : Word) : remuVal a b = if b = 0 then a else a % b := by
  rw [remuVal, BitVec.umod_def]

/-! The corner values of R47, and the numbers that the pseudocode uses outside them. -/

theorem divVal_zero (a : Word) : divVal a 0 = 0xFFFFFFFFFFFFFFFF := rfl
theorem remVal_zero (a : Word) : remVal a 0 = a := rfl
theorem divuVal_zero (a : Word) : divuVal a 0 = 0xFFFFFFFFFFFFFFFF := rfl
theorem remuVal_zero (a : Word) : remuVal a 0 = a := rfl

theorem divVal_min_neg_one : divVal 0x8000000000000000 0xFFFFFFFFFFFFFFFF = 0x8000000000000000 := by decide
theorem remVal_min_neg_one : remVal 0x8000000000000000 0xFFFFFFFFFFFFFFFF = 0 := by decide

theorem toInt_divVal {a b : Word} (hb : b ≠ 0) (h : ¬(a = 0x8000000000000000 ∧ b = 0xFFFFFFFFFFFFFFFF)) :
    (divVal a b).toInt = a.toInt.tdiv b.toInt := by
  rw [divVal_eq, if_neg hb]
  exact BitVec.toInt_sdiv_of_ne_or_ne a b (not_and_or.mp h)

theorem toInt_remVal {a b : Word} (hb : b ≠ 0) :
    (remVal a b).toInt = a.toInt - a.toInt.tdiv b.toInt * b.toInt := by
  rw [remVal_eq, if_neg hb, BitVec.toInt_srem, Int.tmod_def, mul_comm]

theorem toNat_divuVal {a b : Word} (hb : b ≠ 0) : (divuVal a b).toNat = a.toNat / b.toNat := by
  rw [divuVal_eq, if_neg hb, BitVec.toNat_udiv]

theorem toNat_remuVal {a b : Word} (hb : b ≠ 0) :
    (remuVal a b).toNat = a.toNat - a.toNat / b.toNat * b.toNat := by
  rw [remuVal_eq, if_neg hb, BitVec.toNat_umod, Nat.mod_eq_sub_div_mul]

/-! ## Minimum and maximum (R46) -/

theorem ite_toInt_le (x y u v : Word) : (if x.toInt ≤ y.toInt then u else v) = if x.sle y then u else v := by
  simp only [BitVec.sle_iff_toInt_le]

theorem ite_toNat_le (x y u v : Word) : (if x.toNat ≤ y.toNat then u else v) = if x.ule y then u else v := by
  simp only [BitVec.ule_iff_toNat_le]

/-! ## Counts of bits (R46) -/

@[simp] theorem runLength_zero (p : Nat → Bool) : runLength p 0 = 0 := rfl

/-- A run is empty where its first number is refused, else one longer than the run after that number. -/
theorem runLength_succ (p : Nat → Bool) (n : Nat) :
    runLength p (n + 1) = if p 0 then 1 + runLength (fun k => p (k + 1)) n else 0 := by
  unfold runLength
  rw [List.range_succ_eq_map, List.takeWhile_cons]
  split
  · rw [List.length_cons, List.takeWhile_map, List.length_map, Nat.add_comm]; rfl
  · rfl

theorem clzCount_eq (a : Word) (n : Nat) : clzCount a n = runLength (fun k => !a.getLsbD (n - 1 - k)) n := by
  induction n with
  | zero => rfl
  | succ n ih =>
    have hs : (fun k => !a.getLsbD (n + 1 - 1 - (k + 1))) = fun k => !a.getLsbD (n - 1 - k) := by
      funext k; rw [show n + 1 - 1 - (k + 1) = n - 1 - k by omega]
    rw [clzCount, runLength_succ, hs, ih]
    cases h : a.getLsbD n <;> simp [h]

theorem ctzCount_eq (a : Word) {n : Nat} (hn : n ≤ 64) :
    ctzCount a n = runLength (fun k => !a.getLsbD (64 - n + k)) n := by
  induction n with
  | zero => rfl
  | succ n ih =>
    have hs : (fun k => !a.getLsbD (64 - (n + 1) + (k + 1))) = fun k => !a.getLsbD (64 - n + k) := by
      funext k; rw [show 64 - (n + 1) + (k + 1) = 64 - n + k by omega]
    rw [ctzCount, runLength_succ, hs, ih (by omega), show 64 - (n + 1) + 0 = 63 - n by omega]
    cases h : a.getLsbD (63 - n) <;> simp

theorem popCount_eq (a : Word) (n : Nat) : popCount a n = (List.range n).countP a.getLsbD := by
  induction n with
  | zero => rfl
  | succ n ih =>
    rw [popCount, List.range_succ, List.countP_append, ih, Nat.add_comm]
    cases h : a.getLsbD n <;> simp [h]

/-! ## Extensions, addresses and fields (R46, R51, R52) -/

theorem sextN_eq (a : Word) (n : Nat) : sextN a n = (a.setWidth n).signExtend 64 := rfl

theorem zextN_eq (a : Word) (n : Nat) : zextN a n = (a.setWidth n).setWidth 64 := by
  rw [zextN, ← BitVec.toNat_setWidth, BitVec.ofNat_toNat]

theorem bfxVal_eq (a : Word) (pos len : Nat) (sg : Bool) : bfxVal a pos len sg = extractField a pos len sg := by
  rw [bfxVal, extractField, sextN_eq, zextN_eq]

/-- The mask and the operand of `bfi` bit by bit. -/
theorem bfiVal_eq (d a : Word) (pos len : Nat) : bfiVal d a pos len = insertField d a pos len := by
  apply BitVec.eq_of_getLsbD_eq
  intro i hi
  rw [bfiVal, insertField, BitVec.getLsbD_ofFnLE, dif_pos hi]
  simp only [BitVec.getLsbD_or, BitVec.getLsbD_and, BitVec.getLsbD_not, BitVec.getLsbD_ofNat, Nat.testBit_mul_two_pow,
    Nat.testBit_two_pow_sub_one, Nat.testBit_mod_two_pow, BitVec.testBit_toNat, hi, decide_true, Bool.true_and]
  by_cases hp : pos ≤ i
  · by_cases hl : i - pos < len
    · simp [hp, hl, show i < pos + len by omega]
    · simp [hp, hl, show ¬ i < pos + len by omega]
  · simp [hp]

/-- An address with an offset: the selector's four bits above, the sum within 60 bits below. -/
theorem addrAdd_eq (a : Word) (x : Int) : addrAdd a x = offsetAddr a (BitVec.ofInt 60 x) := by
  apply BitVec.eq_of_toNat_eq
  have hlow : (a.setWidth 60 + BitVec.ofInt 60 x).toNat = (((low60 a : Int) + x) % 2 ^ 60).toNat := by
    rw [BitVec.toNat_add, BitVec.toNat_setWidth, BitVec.toNat_ofInt, low60]
    omega
  have hlt := (a.setWidth 60 + BitVec.ofInt 60 x).isLt
  have ha := a.isLt
  have hsel : (a.extractLsb' 60 4).toNat = selector a := by
    rw [BitVec.extractLsb'_toNat, Nat.shiftRight_eq_div_pow, selector]
    omega
  rw [addrAdd, offsetAddr, BitVec.toNat_append, ← Nat.shiftLeft_add_eq_or_of_lt hlt, hlow, hsel, Nat.shiftLeft_eq,
    BitVec.toNat_ofNat, Nat.mod_eq_of_lt]
  rw [hlow] at hlt
  rw [selector]
  omega

end Sys2Proof.Machine
end

section
/-! The integer instructions complete with the values of the tables of spec/03 (R46-R52, R55). -/

namespace Sys2Proof.Machine

variable {i : Instr} {s : State} {d : GReg} {v : Word}

/-- A ready instruction whose half computes G(D) from the state it reads completes with that value. -/
theorem completes_gHalf {f : State → Word} (hr : Ready i s) (he : exec i s = issue i (alone (gHalf d f)) s)
    (hv : f s = v) : exec i s = .next (complete i .fall s (s.setG d v)) :=
  he.trans (issue_ok hr (hv ▸ alone_pureHalf _ s))

/-- The same of a body that computes G(D) from the thread alone. -/
theorem completes_onThread {f : Thread → Word} (hr : Ready i s)
    (he : exec i s = issue i (onThread fun t => t.setG d (f t)) s) (hv : f s.th = v) :
    exec i s = .next (complete i .fall s (s.setG d v)) :=
  he.trans (issue_ok hr (hv ▸ onThread_ok _ s))

/-- Every instruction that only computes a general register, by its row of the tables. -/
theorem completes_intResult (h : intResult s i = some (d, v)) (hr : Ready i s) :
    exec i s = .next (complete i .fall s (s.setG d v)) := by
  cases i with
  | add _ _ _ _ sat => cases h; exact completes_gHalf hr rfl (narrow_eq sat (ofInt_toInt_add _ _))
  | sub _ _ _ _ sat => cases h; exact completes_gHalf hr rfl (narrow_eq sat (ofInt_toInt_sub _ _))
  | and | or | xor | sll | srl | sra | mul | mulh | mulhu | mov => cases h; exact completes_gHalf hr rfl rfl
  | div => cases h; exact completes_gHalf hr rfl (divVal_eq _ _)
  | divu => cases h; exact completes_gHalf hr rfl (divuVal_eq _ _)
  | rem => cases h; exact completes_gHalf hr rfl (remVal_eq _ _)
  | remu => cases h; exact completes_gHalf hr rfl (remuVal_eq _ _)
  | min | max => cases h; exact completes_gHalf hr rfl (ite_toInt_le _ _ _ _)
  | minu | maxu => cases h; exact completes_gHalf hr rfl (ite_toNat_le _ _ _ _)
  | clz => cases h; exact completes_gHalf hr rfl (congrArg _ (clzCount_eq _ 64))
  | ctz => cases h; exact completes_gHalf hr rfl (congrArg _ ((ctzCount_eq _ le_rfl).trans (by simp)))
  | popc => cases h; exact completes_gHalf hr rfl (congrArg _ (popCount_eq _ 64))
  | sext => cases h; exact completes_gHalf hr rfl (sextN_eq _ _)
  | zext => cases h; exact completes_gHalf hr rfl (zextN_eq _ _)
  | addi _ _ _ _ sat => cases h; exact completes_gHalf hr rfl (narrow_eq sat (ofInt_toInt_add_imm _ _))
  | andi | ori | xori | slli | srli | srai | li | leaPc | sel => cases h; exact completes_gHalf hr rfl rfl
  | liI32 | liI64 | leaPcI32 => cases h; exact completes_onThread hr rfl rfl
  | lea => cases h; exact completes_gHalf hr rfl (addrAdd_eq _ _)
  | leaI32 => cases h; exact completes_onThread hr rfl (addrAdd_eq _ _)
  | bfx => cases h; exact completes_gHalf hr rfl (bfxVal_eq _ _ _ _)
  | bfi => cases h; exact completes_gHalf hr rfl (bfiVal_eq _ _ _ _)
  | _ => cases h

/-- Settles O15: every row of the tables by `completes_intResult`; the quotients and remainders in numbers by the
lemmas about the values that division writes. -/
theorem integerResults : Obligations.IntegerResults := by
  unfold Obligations.IntegerResults
  refine ⟨fun i s d v h _ hr => completes_intResult h hr, fun gd d a b s =>
    ⟨fun hr => ?_, fun hr => ?_, fun hr => ?_, fun hr => ?_⟩⟩
  · exact ⟨divVal (s.g a) (s.g b), completes_gHalf hr rfl rfl, fun hb => by rw [hb, divVal_zero],
      fun ha hb => by rw [ha, hb, divVal_min_neg_one], toInt_divVal⟩
  · exact ⟨remVal (s.g a) (s.g b), completes_gHalf hr rfl rfl, fun hb => by rw [hb, remVal_zero],
      fun ha hb => by rw [ha, hb, remVal_min_neg_one], toInt_remVal⟩
  · exact ⟨divuVal (s.g a) (s.g b), completes_gHalf hr rfl rfl, fun hb => by rw [hb, divuVal_zero], toNat_divuVal⟩
  · exact ⟨remuVal (s.g a) (s.g b), completes_gHalf hr rfl rfl, fun hb => by rw [hb, remuVal_zero], toNat_remuVal⟩

end Sys2Proof.Machine
end

section
/-! The software trap and the return from a trap (spec/04 R73, R74). -/

namespace Sys2Proof.Machine

variable {gd : Guard} {s : State}

/-! ## The software trap (R73) -/

/-- The software trap completes as an instruction without an effect does, and traps in the state so reached. -/
theorem complete_soft (i : Instr) (v : Word) (s0 s : State) :
    complete i (.soft v) s0 s = takeTrap { code := 16, tval := v } (complete i .fall s0 s) := rfl

/-- Settles O13: `trap` ends well without a write, so it completes before its trap is taken. -/
theorem softwareTrap : Obligations.SoftwareTrap := by
  unfold Obligations.SoftwareTrap
  intro gd n s hr
  calc exec (.trap gd n) s = issue (.trap gd n) (pure (.soft (n.setWidth 64))) s := rfl
    _ = .next (complete (.trap gd n) (.soft (n.setWidth 64)) s s) := issue_ok hr (act_pure _)
    _ = _ := by rw [complete_soft]

/-! ## The return from a trap (R74) -/

/-- The saved fields of `cls` in the place of the current ones: the second byte, by number and by bits. -/
theorem ofNat_savedClause (c : Word) : BitVec.ofNat 64 (c.toNat / 2 ^ 8 % 2 ^ 8) = (c >>> 8) &&& 0xFF := by
  apply BitVec.eq_of_toNat_eq
  have hm : c.toNat / 2 ^ 8 % 2 ^ 8 < 2 ^ 64 := by omega
  rw [BitVec.toNat_ofNat, Nat.mod_eq_of_lt hm, BitVec.toNat_and, BitVec.toNat_ushiftRight,
    Nat.shiftRight_eq_div_pow]
  exact (Nat.and_two_pow_sub_one_eq_mod _ 8).symm

theorem returnFromTrap_eq (s : State) : returnFromTrap s = s.modTh fun t => { t with
    cls := (t.cls >>> 8) &&& 0xFF, inTrap := false, pc := t.tpc.setWidth 48 } := by
  rw [returnFromTrap, ofNat_savedClause]; rfl

/-- What `tret` does when its guard holds: two checks, the return, a transfer to tpc. -/
def tretAct (gd : Guard) : Act Next := do
  let t := (← get).th
  trapIf (!t.inTrap) (trIllegal (Instr.low (.tret gd)))
  checkStart (t.tpc.setWidth 48)
  modify returnFromTrap
  pure (.jump (t.tpc.setWidth 48))

theorem exec_tret : exec (.tret gd) s = issue (.tret gd) (tretAct gd) s := rfl

theorem tretAct_outside (hw : s.th.inTrap = false) :
    tretAct gd s = .error (.trap (trIllegal (Instr.low (.tret gd)))) s := by
  simp [tretAct, hw]

theorem tretAct_misaligned (hw : s.th.inTrap = true) (hl : legalStart (s.th.tpc.setWidth 48) = false) :
    tretAct gd s = .error (.trap (trMisaligned ((s.th.tpc.setWidth 48).setWidth 64))) s := by
  simp [tretAct, checkStart, hw, hl]

theorem tretAct_ok (hw : s.th.inTrap = true) (hl : legalStart (s.th.tpc.setWidth 48) = true) :
    tretAct gd s = .ok (.jump (s.th.tpc.setWidth 48)) (returnFromTrap s) := by
  simp [tretAct, checkStart, hw, hl]

/-- Settles O12: the three ends of `tretAct`. -/
theorem trapReturn : Obligations.TrapReturn := by
  unfold Obligations.TrapReturn
  intro gd s hr
  refine ⟨fun hw hl => ?legal, fun hw hl => ?misaligned, fun hw => ?outside⟩
  case legal => rw [exec_tret, issue_ok hr (tretAct_ok hw hl), returnFromTrap_eq]
  case misaligned => exact exec_tret.trans (issue_error hr (tretAct_misaligned hw hl))
  case outside => exact exec_tret.trans (issue_error hr (tretAct_outside hw))

end Sys2Proof.Machine
end

section
/-! The scale registers (spec/18 R284-R286): the entries of a register, and what a write of one leaves. -/

namespace Sys2Proof.Machine

/-! ## Bytes of little-endian numbers -/

/-- A byte is the digit of its place in base 256. -/
theorem leVal_digit (bs : List Byte) {j : Nat} (h : j < bs.length) :
    leVal bs / 2 ^ (8 * j) % 256 = (bs[j]).toNat := by
  induction bs generalizing j with
  | nil => exact absurd h (Nat.not_lt_zero j)
  | cons b bs ih =>
    have hb : b.toNat < 256 := b.isLt
    cases j with
    | zero => simp only [leVal, List.getElem_cons_zero]; omega
    | succ j =>
      have hj : j < bs.length := by simpa using h
      have hdiv : (b.toNat + 256 * leVal bs) / 256 = leVal bs := by omega
      rw [leVal, List.getElem_cons_succ, Nat.mul_succ, Nat.add_comm (8 * j), Nat.pow_add,
        ← Nat.div_div_eq_div_mul, hdiv, ih hj]

theorem leVal_lt (bs : List Byte) : leVal bs < 2 ^ (8 * bs.length) := by
  induction bs with
  | nil => exact Nat.one_pos
  | cons b bs ih =>
    have hb : b.toNat < 256 := b.isLt
    rw [leVal, List.length_cons, Nat.mul_succ, Nat.pow_add]
    omega

theorem getElem_leBytes (n w : Nat) {j : Nat} (h : j < (leBytes n w).length) :
    ((leBytes n w)[j]).toNat = w / 2 ^ (8 * j) % 256 := by
  induction n generalizing w j with
  | zero => exact absurd h (Nat.not_lt_zero j)
  | succ n ih =>
    cases j with
    | zero => simp [leBytes]
    | succ j =>
      have hj : j < (leBytes n (w / 256)).length := by simpa [leBytes] using h
      simp only [leBytes, List.getElem_cons_succ]
      rw [ih _ hj, Nat.div_div_eq_div_mul, Nat.mul_succ, Nat.add_comm (8 * j), Nat.pow_add]

@[simp] theorem memReads_length (m : List Host.Cell) (a n : Nat) : (memReads m a n).length = n := by
  induction n generalizing a with
  | zero => rfl
  | succ n ih => simp [memReads, ih]

theorem getElem_memReads (m : List Host.Cell) (a n : Nat) {j : Nat} (h : j < (memReads m a n).length) :
    (memReads m a n)[j] = memRead m (a + j) := by
  induction n generalizing a j with
  | zero => exact absurd h (Nat.not_lt_zero j)
  | succ n ih =>
    cases j with
    | zero => rfl
    | succ j =>
      have hj : j < (memReads m (a + 1) n).length := by simpa [memReads] using h
      simp only [memReads, List.getElem_cons_succ]
      rw [ih _ hj, Nat.add_assoc, Nat.add_comm 1]

/-! ## A register after a write (R285) -/

theorem kEntry_lt (c : Core) (k : KIdx) (j : Nat) : c.kEntry k j < 256 := Nat.mod_lt _ (by decide)

@[simp] theorem writeK_k (c : Core) (d : KIdx) (v : BitVec 256) (keep : Bool) :
    (c.writeK d v keep).k d.toNat = v := by
  cases keep <;> exact tgetD_tput_same _ _ _ _

theorem writeK_k_other (c : Core) {d k : KIdx} (v : BitVec 256) (keep : Bool) (h : k ≠ d) :
    (c.writeK d v keep).k k.toNat = c.k k.toNat := by
  cases keep <;> exact tgetD_tput_other _ _ _ (mt BitVec.eq_of_toNat_eq h.symm)

theorem writeK_kg (c : Core) (d : KIdx) (v : BitVec 256) (keep : Bool) :
    (c.writeK d v keep).kg d.toNat = if keep then c.kg d.toNat else c.kg d.toNat + 1 := by
  cases keep
  · exact tgetD_tput_same _ _ _ _
  · rfl

theorem writeK_kg_other (c : Core) {d k : KIdx} (v : BitVec 256) (keep : Bool) (h : k ≠ d) :
    (c.writeK d v keep).kg k.toNat = c.kg k.toNat := by
  cases keep
  · exact tgetD_tput_other _ _ _ (mt BitVec.eq_of_toNat_eq h.symm)
  · rfl

/-- The entries of a register that was written from 32 bytes are those bytes. -/
theorem kEntry_writeK (c : Core) (d : KIdx) {bs : List Byte} (keep : Bool) (hl : bs.length = 32) {j : Nat}
    (hj : j < 32) : (c.writeK d (BitVec.ofNat 256 (leVal bs)) keep).kEntry d j = (bs[j]).toNat := by
  have hlt : leVal bs < 2 ^ 256 := by simpa [hl] using leVal_lt bs
  rw [Core.kEntry, writeK_k, BitVec.toNat_ofNat, Nat.mod_eq_of_lt hlt, leVal_digit bs (hl ▸ hj)]

/-- The entries of a register that was written from 32 numbers. -/
theorem kEntry_writeK_map (c : Core) (d : KIdx) (r : Nat → Nat) (keep : Bool) {j : Nat} (hj : j < 32)
    (hr : r j < 256) : (c.writeK d (ofEntries ((List.range 32).map r)) keep).kEntry d j = r j := by
  rw [ofEntries, kEntry_writeK c d keep (by simp) hj]
  simpa using hr

/-- One scale register was written, its generation advanced unless the form keeps it; every other scale register,
the thread and memory are as they were. -/
structure WroteScale (d : KIdx) (keep : Bool) (s e : State) : Prop where
  gen : e.core.kg d.toNat = if keep then s.core.kg d.toNat else s.core.kg d.toNat + 1
  others : ∀ k : KIdx, k ≠ d → e.core.k k.toNat = s.core.k k.toNat ∧ e.core.kg k.toNat = s.core.kg k.toNat
  thread : e.th = s.th
  memory : e.mem = s.mem

theorem wroteScale_writeK (s : State) (d : KIdx) (v : BitVec 256) (keep : Bool) :
    WroteScale d keep s (s.modCore fun c => c.writeK d v keep) where
  gen := by rw [core_modCore, writeK_kg]
  others k hk := by rw [core_modCore, writeK_k_other _ _ _ hk, writeK_kg_other _ _ _ hk]; exact ⟨rfl, rfl⟩
  thread := rfl
  memory := rfl

end Sys2Proof.Machine
end

section
/-! Scale arithmetic (spec/18 R292): all 32 results from the sources as they stood before, then the write. -/

namespace Sys2Proof.Machine

variable {i : Instr} {s : State} {gd : Guard} {d a : KIdx} {src : KSrc} {keep : Bool}

/-! ## The sources -/

theorem entriesOf_k (c : Core) (k : KIdx) : entriesOf (c.k k.toNat) = (List.range 32).map (c.kEntry k) := rfl

theorem entries_eq (src : KSrc) (s : State) : KSrc.entries src s = (List.range 32).map (scaleSource s src) := by
  cases src with
  | k r => rfl
  | g r => exact (List.map_const (l := List.range 32) (b := (s.g r).toNat % 256)).symm

theorem scaleSource_lt (s : State) (src : KSrc) (j : Nat) : scaleSource s src j < 256 := by
  cases src with
  | k r => exact kEntry_lt ..
  | g r => exact Nat.mod_lt _ (by decide)

/-! ## The pairwise forms -/

/-- A model's function on two finite scales gives the number of the rule, itself a scale. -/
def ScaleFunction (g : Nat → Nat → Nat) (f : Int → Int → Int) : Prop :=
  ∀ x y : Nat, x < 255 → y < 255 → g x y = (f x y).toNat ∧ g x y < 256

theorem scaleFunction_mul : ScaleFunction scaleMul fun x y => max 0 (min (x + y - 127) 254) :=
  fun x y _ _ => ⟨rfl, by unfold scaleMul clampScale; omega⟩

theorem scaleFunction_div : ScaleFunction scaleDiv fun x y => max 0 (min (x - y + 127) 254) :=
  fun x y _ _ => ⟨rfl, by unfold scaleDiv clampScale; omega⟩

theorem scaleFunction_max : ScaleFunction max fun x y => max x y :=
  fun x y hx hy => ⟨by show max x y = (max (x : Int) y).toNat; omega, by omega⟩

theorem scaleFunction_min : ScaleFunction min fun x y => min x y :=
  fun x y hx hy => ⟨by show min x y = (min (x : Int) y).toNat; omega, by omega⟩

theorem scaleOp_eq {g : Nat → Nat → Nat} {f : Int → Int → Int} (h : ScaleFunction g f) {x y : Nat}
    (hx : x < 256) (hy : y < 256) : scaleOp g x y = scalePair f x y ∧ scaleOp g x y < 256 := by
  unfold scaleOp scalePair
  split
  · exact ⟨rfl, by decide⟩
  · exact h x y (by omega) (by omega)

/-- The state that a pairwise form leaves before it completes. -/
theorem scaleArith_writes {g : Nat → Nat → Nat} {f : Int → Int → Int} (h : ScaleFunction g f)
    (he : exec i s = issue i (scaleArith d a src keep g) s) (hr : Ready i s) :
    ∃ e, Completes i s e ∧ WroteScale d keep s e ∧
      ∀ j : Nat, j < 32 → e.core.kEntry d j = scalePair f (s.core.kEntry a j) (scaleSource s src j) := by
  refine ⟨_, he.trans (issue_ok hr (onState_ok _ s)), wroteScale_writeK s d _ keep, fun j hj => ?_⟩
  have hop := scaleOp_eq h (kEntry_lt s.core a j) (scaleSource_lt s src j)
  rw [core_modCore, entriesOf_k, entries_eq, List.zipWith_map, List.zipWith_self, kEntry_writeK_map _ _ _ _ hj hop.2]
  exact hop.1

/-- A form of two sources, and what it computes of two finite entries. -/
def PairForm (d a : KIdx) (src : KSrc) (keep : Bool) (i : Instr) (f : Int → Int → Int) : Prop :=
  (∃ gd, i = .kadd gd d a src keep ∧ f = fun x y => max 0 (min (x + y - 127) 254)) ∨
  (∃ gd, i = .ksub gd d a src keep ∧ f = fun x y => max 0 (min (x - y + 127) 254)) ∨
  (∃ gd, i = .kmax gd d a src keep ∧ f = fun x y => max x y) ∨
  (∃ gd, i = .kmin gd d a src keep ∧ f = fun x y => min x y)

/-- Each form of two sources writes its result in every entry, NaN where a source is NaN. -/
theorem pairForm_writes {f : Int → Int → Int} (h : PairForm d a src keep i f) (hr : Ready i s) :
    ∃ e, Completes i s e ∧ WroteScale d keep s e ∧
      ∀ j : Nat, j < 32 → e.core.kEntry d j = scalePair f (s.core.kEntry a j) (scaleSource s src j) := by
  rcases h with ⟨gd, rfl, rfl⟩ | ⟨gd, rfl, rfl⟩ | ⟨gd, rfl, rfl⟩ | ⟨gd, rfl, rfl⟩
  · exact scaleArith_writes scaleFunction_mul rfl hr
  · exact scaleArith_writes scaleFunction_div rfl hr
  · exact scaleArith_writes scaleFunction_max rfl hr
  · exact scaleArith_writes scaleFunction_min rfl hr

theorem kmov_writes (hr : Ready (.kmov gd d src keep) s) :
    ∃ e, Completes (.kmov gd d src keep) s e ∧ WroteScale d keep s e ∧
      ∀ j : Nat, j < 32 → e.core.kEntry d j = scaleSource s src j := by
  refine ⟨_, issue_ok hr (onState_ok _ s), wroteScale_writeK s d _ keep, fun j hj => ?_⟩
  rw [core_modCore, entries_eq, kEntry_writeK_map _ _ _ _ hj (scaleSource_lt s src j)]

/-! ## Normalisation -/

theorem largestScale_eq_max? (l : List Nat) : largestScale l = (l.filter (· != 255)).max?.getD 127 := by
  unfold largestScale
  split
  case h_1 h => rw [h]; rfl
  case h_2 h => rw [h]; rfl

theorem largestScale_nan {l : List Nat} (h : ∀ x ∈ l, x = 255) : largestScale l = 127 := by
  have hf : l.filter (· != 255) = [] := by simpa using h
  rw [largestScale_eq_max?, hf]; rfl

theorem largestScale_finite {l : List Nat} {m : Nat} (hm : m ∈ l) (hf : m ≠ 255)
    (h : ∀ x ∈ l, x = 255 ∨ x ≤ m) : largestScale l = m := by
  have hmax : (l.filter (· != 255)).max? = some m := by
    rw [List.max?_eq_some_iff]
    refine ⟨by simp [hm, hf], fun x hx => ?_⟩
    obtain ⟨hx, hne⟩ := List.mem_filter.mp hx
    exact (h x hx).resolve_left (by simpa using hne)
  rw [largestScale_eq_max?, hmax]; rfl

/-- The scale that `knorm` takes to 1: the largest finite entry of a register, 127 where there is none. -/
def LargestEntry (c : Core) (a : KIdx) (m : Nat) : Prop :=
  (∀ j : Nat, j < 32 → c.kEntry a j = 255) ∧ m = 127 ∨
    (∃ j : Nat, j < 32 ∧ c.kEntry a j = m) ∧ m ≠ 255 ∧
      ∀ j : Nat, j < 32 → c.kEntry a j = 255 ∨ c.kEntry a j ≤ m

theorem largestScale_entries {c : Core} {m : Nat} (h : LargestEntry c a m) :
    largestScale ((List.range 32).map (c.kEntry a)) = m := by
  rcases h with ⟨hnan, rfl⟩ | ⟨⟨j, hj, rfl⟩, hf, hle⟩
  · exact largestScale_nan (by simpa using hnan)
  · exact largestScale_finite (List.mem_map_of_mem (List.mem_range.mpr hj)) hf (by simpa using hle)

theorem normScale_eq {m x : Nat} (h : x = 255 ∨ x ≤ m) :
    normScale m x = (if x = 255 then 255 else x + 127 - m) ∧ normScale m x < 256 := by
  unfold normScale
  split <;> omega

theorem knorm_writes {c : GReg} {m : Nat} (hr : Ready (.knorm gd d a c keep) s) (hm : LargestEntry s.core a m) :
    ∃ e, Completes (.knorm gd d a c keep) s (e.setG c (BitVec.ofInt 64 ((m : Int) - 127))) ∧
      WroteScale d keep s e ∧ ∀ j : Nat, j < 32 → e.core.kEntry d j =
        if s.core.kEntry a j = 255 then 255 else s.core.kEntry a j + 127 - m := by
  have hl := largestScale_entries hm
  let v := ofEntries ((List.range 32).map fun j => normScale m (s.core.kEntry a j))
  refine ⟨s.modCore fun k => k.writeK d v keep, ?completes, wroteScale_writeK s d v keep, fun j hj => ?entry⟩
  case completes =>
    refine issue_ok hr ((onState_ok _ s).trans ?_)
    simp only [entriesOf_k, hl, List.map_map]
    rfl
  case entry =>
    have hle : s.core.kEntry a j = 255 ∨ s.core.kEntry a j ≤ m :=
      hm.elim (fun h => .inl (h.1 j hj)) fun h => h.2.2 j hj
    have hn := normScale_eq hle
    rw [core_modCore, kEntry_writeK_map _ _ _ _ hj hn.2]
    exact hn.1

end Sys2Proof.Machine
end

section
/-! Bytes of memory for an agent: what the lookup of an address leaves alone (spec/10 R155), and the read and the
write of a location that the memory serves (spec/21 R337, spec/22 R350, R358). -/

namespace Sys2Proof.Machine

/-! ## What a lookup changes -/

/-- The same threads, and the same one current: what the identity of a load-store unit rests on. -/
structure SameThreads (s t : State) : Prop where
  threads : t.threads = s.threads
  cc : t.cc = s.cc
  ct : t.ct = s.ct

theorem SameThreads.trans {s t u : State} (h : SameThreads s t) (h' : SameThreads t u) : SameThreads s u :=
  ⟨h'.threads.trans h.threads, h'.cc.trans h.cc, h'.ct.trans h.ct⟩

theorem SameThreads.lsu {s t : State} (h : SameThreads s t) : t.lsu = s.lsu := by
  obtain ⟨ht, hc, hn⟩ := h
  unfold State.lsu State.agentOf State.memberKey State.keyOf State.tk State.threadAt
  rw [ht, hc, hn]

/-- A lookup moves entries in the micro-TLB of a core and in the TLB of a cluster: both where an answer's frames lie in
a tier and where they lie in a hole. -/
theorem lookup_sameThreads {s t : State} {core : Option Nat} {cl spn va : Nat} {acc : Acc} {r : Except Nat TlbEnt}
    (h : lookup s core cl spn va acc = (t, r)) : SameThreads s t := by
  unfold lookup at h
  dsimp only at h
  split at h
  case h_1 answered =>
    split at h
    all_goals
      cases h
      repeat' split at answered
    all_goals
      obtain ⟨rfl, -⟩ := Prod.mk.inj answered
      exact ⟨rfl, rfl, rfl⟩
  case h_2 =>
    repeat' split at h
    all_goals
      cases h
      exact ⟨rfl, rfl, rfl⟩

/-- A computation that, where it ends well, has changed no thread and not which one is current. -/
def KeepsThreads {α : Type} (x : Act α) : Prop := ∀ s a t, x s = .ok a t → SameThreads s t

namespace KeepsThreads

variable {α β : Type} {ag : Agent} {pkg va n moved : Nat} {acc : Acc} {addr ea : Word} {dev vh ask : Bool}

theorem pure {a : α} : KeepsThreads (Pure.pure a : Act α) := fun _ _ _ h => by cases h; exact ⟨rfl, rfl, rfl⟩
theorem get : KeepsThreads (MonadState.get : Act State) := fun _ _ _ h => by cases h; exact ⟨rfl, rfl, rfl⟩
theorem stopTrap {t : Trap} : KeepsThreads (Sys2Proof.Machine.stopTrap t : Act α) := fun _ _ _ h => by cases h

theorem trapIf {b : Bool} {t : Trap} : KeepsThreads (Sys2Proof.Machine.trapIf b t) := fun _ _ _ h => by
  cases b <;> cases h
  exact ⟨rfl, rfl, rfl⟩

theorem bind {x : Act α} {f : α → Act β} (hx : KeepsThreads x) (hf : ∀ a, KeepsThreads (f a)) :
    KeepsThreads (x >>= f) := fun s b t h => by
  obtain ⟨a, s1, h1, h2⟩ := act_bind_ok_iff.mp h
  exact (hx s a s1 h1).trans (hf a s1 b t h2)

theorem translate : KeepsThreads (Sys2Proof.Machine.translate ag pkg va acc addr moved vh ask) := by
  intro s r t h
  unfold Sys2Proof.Machine.translate at h
  simp only [act_bind, act_get, andthen_ok, act_ite] at h
  split at h
  case isTrue => cases h
  case isFalse =>
    generalize hl : lookup s _ _ _ _ _ = found at h
    obtain ⟨s1, answer⟩ := found
    have hs := lookup_sameThreads hl
    cases answer with
    | ok e =>
      simp only [act_bind, act_set, andthen_ok, act_pure] at h
      cases h
      exact hs.trans (by split <;> exact ⟨rfl, rfl, rfl⟩)
    | error cause =>
      dsimp only at h
      generalize postFault s1 _ _ _ _ _ _ _ _ _ _ = posted at h
      obtain ⟨s2, _ | ⟨i, gen⟩⟩ := posted <;> cases h

/-- The checks of a path change nothing; the paths that are translated are `translate`. The last is path 0x5, by where
the word lies: on the frame track, or in the frame area. -/
theorem resolve : KeepsThreads (Sys2Proof.Machine.resolve ag acc dev ea n moved vh) := by
  refine bind get fun s => ?_
  split
  · exact stopTrap
  · exact pure
  · exact pure
  · exact bind translate fun _ => pure
  · refine bind trapIf fun _ => ?_
    split
    · split
      · split
        · exact stopTrap
        · exact pure
      · exact bind translate fun _ => pure
    · exact bind translate fun _ => pure

end KeepsThreads

/-! ## The bookkeeping of a request -/

variable {s : State} {ag : Agent} {key n : Nat} {bs : List Byte} {write : Bool}

/-- Only the counts that grant a request differ. -/
def Charged (s t : State) : Prop := ∃ cl gr, t = { s with clusters := cl, granted := gr }

/-- Only those counts and what requests to other packages leave differ. -/
def Booked (s t : State) : Prop :=
  ∃ cl pk gr ak, t = { s with clusters := cl, pkgs := pk, granted := gr, asking := ak }

theorem Charged.booked {s t u : State} (h : Charged s t) (h' : Booked t u) : Booked s u := by
  obtain ⟨_, _, rfl⟩ := h
  obtain ⟨_, _, _, _, rfl⟩ := h'
  exact ⟨_, _, _, _, rfl⟩

theorem Charged.clean {s t : State} (h : Charged s t) (hc : Clean s) : Clean t := by
  obtain ⟨_, _, rfl⟩ := h
  exact ⟨hc.sram, hc.hbm, hc.cxl⟩

theorem Charged.cxlBad {s t : State} (h : Charged s t) (key n : Nat) (write : Bool) :
    t.cxlBad key n write = s.cxlBad key n write := by
  obtain ⟨_, _, rfl⟩ := h
  rfl

theorem Charged.mem {s t : State} (h : Charged s t) : t.mem = s.mem := by
  obtain ⟨_, _, rfl⟩ := h
  rfl

theorem Booked.trans {s t u : State} (h : Booked s t) (h' : Booked t u) : Booked s u := by
  obtain ⟨_, _, _, _, rfl⟩ := h
  obtain ⟨_, _, _, _, rfl⟩ := h'
  exact ⟨_, _, _, _, rfl⟩

theorem Booked.sameUnits {s t : State} (h : Booked s t) : SameUnits s t := by
  obtain ⟨_, _, _, _, rfl⟩ := h
  exact ⟨rfl, rfl, rfl, rfl, rfl⟩

theorem SameUnits.wrote {s t : State} (h : SameUnits s t) (keys : List Nat) (m : List Host.Cell) :
    SameUnits s (t.wrote keys m) := ⟨h.threads, h.cores, h.dies, h.recs, h.doms⟩

theorem charged_charge (s : State) (cl key n : Nat) : Charged s (s.charge cl key n) := by
  unfold State.charge
  split <;> exact ⟨_, _, rfl⟩

theorem charged_passed {s t : State} (h : Charged s t) (w : Waiter) : Charged s (t.passed w) := by
  obtain ⟨_, _, rfl⟩ := h
  exact ⟨_, _, rfl⟩

theorem booked_sendFlit (s : State) (pkg dst type num addr : Nat) (data : List Byte) :
    Booked s (s.sendFlit pkg dst type num addr data) := by
  unfold State.sendFlit
  dsimp only
  split <;> exact ⟨_, _, _, _, rfl⟩

theorem booked_request (s : State) (ag : Agent) (dst va : Nat) (body : RemoteBody) (reply : List Byte) :
    Booked s (s.request ag dst va body reply) :=
  (booked_sendFlit s ag.pkg dst 1 _ va (bodyData body)).trans ⟨_, _, _, _, rfl⟩

theorem booked_carried (s : State) (ag : Agent) (key : Nat) (body : RemoteBody) (reply : List Byte) :
    Booked s (s.carried ag key body reply) := by
  have asked (x : Nat × Nat × RemoteReq) : Booked s { s with asking := s.asking.erase x } := ⟨_, _, _, _, rfl⟩
  unfold State.carried
  dsimp only
  split
  · exact ⟨_, _, _, _, rfl⟩
  · split
    · exact (asked _).trans (booked_request ..)
    · exact ⟨_, _, _, _, rfl⟩

/-- A location that answers is granted (R358). -/
theorem grant_ok (h : s.answers ag key) : ∃ t, grant ag key n s = .ok () t ∧ Charged s t := by
  simp only [grant, act_bind, act_get, andthen_ok, act_ite, act_set]
  split
  case isTrue => exact ⟨_, rfl, charged_charge ..⟩
  case isFalse unmetered =>
    split
    case isTrue => exact ⟨_, rfl, charged_passed ⟨_, _, rfl⟩ _⟩
    case isFalse unpaid =>
      have left : 0 < (s.clusterAt ag.cluster).balance := by
        rcases h.budget with h | h | h | h
        · exact absurd (.inl h) unmetered
        · exact absurd (.inr h) unmetered
        · exact absurd h unpaid
        · exact h
      rw [if_neg (Int.not_le.mpr left)]
      exact ⟨_, rfl, charged_passed (charged_charge ..) _⟩

/-! ## Code words and devices -/

/-- A line lies in one granule of CXL memory. -/
theorem cxlGone_line (p : Pkg) (key : Nat) : p.cxlGone (64 * (key / 64) % 2 ^ 48) = p.cxlGone (key % 2 ^ 48) := by
  have low : 2 ^ 44 ≤ 64 * (key / 64) % 2 ^ 48 ↔ 2 ^ 44 ≤ key % 2 ^ 48 := by omega
  have high : 64 * (key / 64) % 2 ^ 48 < 2 ^ 45 ↔ key % 2 ^ 48 < 2 ^ 45 := by omega
  have granule : (64 * (key / 64) % 2 ^ 48 - 2 ^ 44) / 4096 = (key % 2 ^ 48 - 2 ^ 44) / 4096 := by omega
  unfold Pkg.cxlGone
  rw [decide_eq_decide.mpr low, decide_eq_decide.mpr high, granule]

/-- The device of a location serves the 32 bytes there, which lie in one line where the location is 32-aligned. -/
theorem cxlBad_aligned (hc : Clean s) (hk : key % 32 = 0)
    (h : (s.pkgAt (key / 2 ^ 48)).cxlGone (key % 2 ^ 48) = false) : s.cxlBad key 32 write = [] := by
  have one : (key + 32 - 1) / 64 + 1 - key / 64 = 1 := by omega
  have line := (cxlGone_line (s.pkgAt (key / 2 ^ 48)) key).trans h
  rw [State.cxlBad, one]
  simpa [hc.cxl] using line

/-- Code words in order are read, and written, without a mark. -/
theorem eccScan_clean (hc : Clean s) (h : isSram key = false → s.cxlBad key n write = []) :
    eccScan ag key n write s = .ok () s := by
  unfold eccScan
  simp only [act_bind, act_get, andthen_ok, act_ite, act_pure]
  split
  case isTrue => rfl
  case isFalse =>
    cases hs : isSram key with
    | true => simp [hc.sram]
    | false => cases write <;> simp [h hs, hc.hbm, hc.cxl, throwErrs, errsOf, State.unpoison]

/-! ## Reads and writes -/

theorem cellRead_ok (hc : Clean s) (ha : s.answers ag key) (hx : isSram key = false → s.cxlBad key n false = []) :
    ∃ t, cellRead ag key n s = .ok (memReads s.mem key n) t ∧ Booked s t := by
  obtain ⟨s1, hg, hb⟩ := grant_ok (n := n) ha
  have hscan : eccScan ag key n false s1 = .ok () s1 :=
    eccScan_clean (hb.clean hc) fun h => (hb.cxlBad ..).trans (hx h)
  have hcar := booked_carried s1 ag key (.read n) (memReads s1.mem key n)
  refine ⟨_, ?_, hb.booked hcar⟩
  simp only [cellRead, cellGet, act_bind, hg, andthen_ok, hscan, act_get, act_modify, act_pure, hb.mem]

theorem cellWrite_ok (hc : Clean s) (ha : s.answers ag key)
    (hx : isSram key = false → s.cxlBad key bs.length true = []) :
    ∃ t, cellWrite ag key bs s = .ok () t ∧ SameUnits s t ∧ t.mem = memWrites s.mem key bs := by
  obtain ⟨s1, hg, hb⟩ := grant_ok (n := bs.length) ha
  have hscan : eccScan ag key bs.length true s1 = .ok () s1 :=
    eccScan_clean (hb.clean hc) fun h => (hb.cxlBad ..).trans (hx h)
  have hcar := booked_carried s1 ag key (.write bs) []
  refine ⟨_, ?run, (hb.booked hcar).sameUnits.wrote ((List.range bs.length).map (key + ·)) (memWrites s1.mem key bs),
    ?mem⟩
  case run => simp only [cellWrite, cellPut, cellStore, act_bind, hg, andthen_ok, hscan, act_modify]
  case mem => rw [← hb.mem]; rfl

end Sys2Proof.Machine
end

section
/-! `kld` and `kst` (spec/18 R291) where the 32 bytes lie in one line, and the place where the statement of scale
arithmetic fails: a frame area (spec/14 R223, R228) that is not aligned. -/

namespace Sys2Proof.Machine

variable {s s1 : State} {gd : Guard} {d k : KIdx} {a : GReg} {off : BitVec 20} {keep acq rel : Bool} {acc : Acc}
  {p : Nat}

/-! ## The bodies -/

/-- What `kld` does when its guard holds. -/
def kldAct (k : KIdx) (a : GReg) (off : BitVec 20) (keep : Bool) : Act Next := do
  let p ← scalePlace .load a off.toInt
  let bs ← placeRead (← get).lsu p 32
  onCore fun c => c.writeK k (BitVec.ofNat 256 (leVal bs)) keep

/-- What `kst` does when its guard holds. -/
def kstAct (k : KIdx) (a : GReg) (off : BitVec 20) : Act Next := do
  let p ← scalePlace .store a off.toInt
  let s ← get
  placeWrite s.lsu p (leBytes 32 (s.core.k k.toNat).toNat)
  pure .fall

theorem exec_kld : exec (.kld gd k a off keep acq) s = issue (.kld gd k a off keep acq) (kldAct k a off keep) s := rfl
theorem exec_kst : exec (.kst gd k a off rel) s = issue (.kst gd k a off rel) (kstAct k a off) s := rfl

/-- The effective address of both. -/
abbrev scaleAddr (s : State) (a : GReg) (off : BitVec 20) : Word := offsetAddr (s.g a) (off.signExtend 60)

theorem ea_eq_scaleAddr : s.ea a off.toInt = scaleAddr s a off := addrAdd_eq ..

theorem scalePlace_misaligned (h : (scaleAddr s a off).toNat % 32 ≠ 0) :
    scalePlace acc a off.toInt s = .error (.trap (trMisaligned (scaleAddr s a off))) s := by
  simp [scalePlace, ea_eq_scaleAddr, h]

theorem scalePlace_cell (h : (scaleAddr s a off).toNat % 32 = 0)
    (hp : Reaches s.lsu acc false (scaleAddr s a off) 32 s (.cell p) s1) :
    scalePlace acc a off.toInt s = .ok (.cell p) s1 := by
  have hp : resolve s.lsu acc false (scaleAddr s a off) 32 0 false s = .ok (.cell p) s1 := hp
  simp [scalePlace, ea_eq_scaleAddr, h, hp, touch]

theorem kldAct_cell (h : (scaleAddr s a off).toNat % 32 = 0)
    (hp : Reaches s.lsu .load false (scaleAddr s a off) 32 s (.cell p) s1) :
    kldAct k a off keep s = Andthen (cellRead s.lsu p 32 s1) fun bs =>
      onCore fun c => c.writeK k (BitVec.ofNat 256 (leVal bs)) keep := by
  have hu : s1.lsu = s.lsu := (KeepsThreads.resolve _ _ _ hp).lsu
  simp only [kldAct, act_bind, scalePlace_cell h hp, andthen_ok, act_get, hu, placeRead]

theorem kstAct_cell (h : (scaleAddr s a off).toNat % 32 = 0)
    (hp : Reaches s.lsu .store false (scaleAddr s a off) 32 s (.cell p) s1) :
    kstAct k a off s = Andthen (cellWrite s.lsu p (leBytes 32 (s1.core.k k.toNat).toNat) s1) fun _ => pure .fall := by
  have hu : s1.lsu = s.lsu := (KeepsThreads.resolve _ _ _ hp).lsu
  simp only [kstAct, act_bind, scalePlace_cell h hp, andthen_ok, act_get, hu, placeWrite]

/-! ## Where they go well -/

theorem kld_misaligned (hr : Ready (.kld gd d a off keep acq) s) (h : (scaleAddr s a off).toNat % 32 ≠ 0) :
    Traps (.kld gd d a off keep acq) s 2 (scaleAddr s a off) := by
  refine exec_kld.trans (issue_error hr (s' := s) (st := .trap (trMisaligned (scaleAddr s a off))) ?_)
  simp only [kldAct, act_bind, scalePlace_misaligned h, andthen_error]

theorem kst_misaligned (hr : Ready (.kst gd k a off rel) s) (h : (scaleAddr s a off).toNat % 32 ≠ 0) :
    Traps (.kst gd k a off rel) s 2 (scaleAddr s a off) := by
  refine exec_kst.trans (issue_error hr (s' := s) (st := .trap (trMisaligned (scaleAddr s a off))) ?_)
  simp only [kstAct, act_bind, scalePlace_misaligned h, andthen_error]

/-- `kld` writes the 32 entries from the 32 bytes of an aligned location. -/
theorem kld_writes (hr : Ready (.kld gd d a off keep acq) s) (h : (scaleAddr s a off).toNat % 32 = 0)
    (hp : Reaches s.lsu .load false (scaleAddr s a off) 32 s (.cell p) s1) (hc : Clean s1) (ha : s1.answers s.lsu p)
    (aligned : p % 32 = 0) :
    ∃ e, Completes (.kld gd d a off keep acq) s e ∧ WroteScale d keep s1 e ∧
      ∀ j : Nat, j < 32 → e.core.kEntry d j = (memRead s1.mem (p + j)).toNat := by
  obtain ⟨s2, hread, _, _, _, _, rfl⟩ :=
    cellRead_ok (n := 32) hc ha fun hs => cxlBad_aligned hc aligned (ha.device hs)
  have hbody := kldAct_cell (k := d) (keep := keep) h hp
  rw [hread, andthen_ok] at hbody
  refine ⟨_, exec_kld.trans (issue_ok hr hbody), ?wrote, fun j hj => ?entry⟩
  case wrote =>
    obtain ⟨hgen, hothers, hth, hmem⟩ :=
      wroteScale_writeK s1 d (BitVec.ofNat 256 (leVal (memReads s1.mem p 32))) keep
    exact ⟨hgen, hothers, hth, hmem⟩
  case entry => rw [core_modCore, kEntry_writeK _ _ _ (memReads_length ..) hj, getElem_memReads]

/-- `kst` writes the 32 entries to the 32 bytes of an aligned location, and nothing else. -/
theorem kst_writes (hr : Ready (.kst gd k a off rel) s) (h : (scaleAddr s a off).toNat % 32 = 0)
    (hp : Reaches s.lsu .store false (scaleAddr s a off) 32 s (.cell p) s1) (hc : Clean s1) (ha : s1.answers s.lsu p)
    (aligned : p % 32 = 0) :
    ∃ e, Completes (.kst gd k a off rel) s e ∧ SameUnits s1 e ∧
      (∀ j : Nat, j < 32 → (memRead e.mem (p + j)).toNat = s1.core.kEntry k j) ∧
      ∀ x, x < p ∨ p + 32 ≤ x → memRead e.mem x = memRead s1.mem x := by
  have hlen : (leBytes 32 (s1.core.k k.toNat).toNat).length = 32 := leBytes_length ..
  obtain ⟨s2, hwrite, hunits, hmem⟩ := cellWrite_ok (bs := leBytes 32 (s1.core.k k.toNat).toNat) hc ha
    fun hs => by rw [hlen]; exact cxlBad_aligned hc aligned (ha.device hs)
  have hbody := kstAct_cell (k := k) h hp
  rw [hwrite, andthen_ok] at hbody
  refine ⟨s2, exec_kst.trans (issue_ok hr hbody), hunits, fun j hj => ?inside, fun x hx => ?outside⟩
  case inside => rw [hmem, memRead_memWrites_inside _ _ _ _ (hlen ▸ hj), getElem_leBytes]; rfl
  case outside => rw [hmem, memRead_memWrites_outside _ _ _ _ (by omega)]

/-! ## Where `kld` fails -/

/-- A page of 64 KB from 0x10000 in the first 64 KB of CXL memory, which loads may read. -/
def cxlPage : TlbEnt := ⟨0x10001, 0x100000000007, 0⟩

/-- A thread above a mark, whose frame area begins at 0x10E90 on that page, 16 bytes off a 32-byte boundary. R223 asks
for a 64-aligned base, but the bind takes what the frame-area table holds (`frameArea`), and no hypothesis of the
statement speaks of it. Two CXL ports take the granules of 4 KB in turn, and the device of the second is out of reach.
g1 holds the path 0x5 address of word 44 of the frame store. -/
def offsetFrames : State where
  threads := [(0, { Thread.setG {} 1 0x5000000000000160 with
    bound := true, pc := 0x10000, ab := 0x10E90, al := 0x4000, fsp := 55,
    frames := [{ at_ := 41, kind := .mark, size := 14 }, { at_ := 0, kind := .window, size := 41 }] })]
  cores := [(0, { owner := some 0, utlb := [cxlPage] })]
  pkgs := [(0, { cxl := 0x10000, cxlPorts := 2, cxlLost := [1] })]

/-- `kld k3, [g1+0]`. -/
def offsetLoad : Instr := .kld ⟨7, false⟩ 3 1 0 false false

/-- The 32 bytes of the load begin 16 bytes before the second granule: the first is served, the last is not. -/
def offsetKey : Nat := 0x100000000FF0

/-- What the read of the second granule's line finds. -/
def granuleLost : ErrRep := { cls := 1, src := 4, addr := 0x100000001000 }

theorem offsetLoad_ready : Ready offsetLoad offsetFrames :=
  ⟨by decide, by decide +kernel, by decide +kernel, by decide +kernel, by decide +kernel, by decide +kernel,
    by decide +kernel⟩

theorem offsetLoad_aligned : (scaleAddr offsetFrames 1 0).toNat % 32 = 0 := by decide +kernel

theorem offsetLoad_reaches :
    Reaches offsetFrames.lsu .load false (scaleAddr offsetFrames 1 0) 32 offsetFrames (.cell offsetKey)
      offsetFrames := rfl

theorem offsetKey_answers : offsetFrames.answers offsetFrames.lsu offsetKey :=
  ⟨fun _ => by decide +kernel, .inl (by decide +kernel)⟩

theorem offsetKey_read : cellRead offsetFrames.lsu offsetKey 32 offsetFrames =
    .error (.err granuleLost) (offsetFrames.charge 0 offsetKey 32) := rfl

/-- The error is reported, and its context ends killed (spec/21 R337, spec/22 R353). -/
theorem offsetLoad_reports :
    exec offsetLoad offsetFrames = .next ((offsetFrames.charge 0 offsetKey 32).reportHere granuleLost).1 := by
  have hbody := kldAct_cell (k := 3) (keep := false) offsetLoad_aligned offsetLoad_reaches
  rw [offsetKey_read] at hbody
  exact exec_kld.trans (issue_error offsetLoad_ready hbody)

theorem granuleLost_kills : ((offsetFrames.charge 0 offsetKey 32).reportHere granuleLost).1.th.dying = true := by
  decide +kernel

/-- A completed instruction that left the thread as it was leaves it alive. -/
theorem offsetLoad_completed_lives {e : State} (h : e.th = offsetFrames.th) :
    (complete offsetLoad .fall offsetFrames e).th.dying = false := by
  rw [complete, th_setTh, h]
  decide +kernel

/-- Refutes O37, by its clause of `kld`: the location that answers is the first byte's, and an aligned path 0x5 address
whose place is not aligned can have its last bytes in a granule of CXL memory that does not answer. The rest of the
statement holds: the arithmetic is `pairForm_writes`, `kmov_writes` and `knorm_writes`, the traps `kld_misaligned` and
`kst_misaligned`, and `kld_writes` and `kst_writes` are the two clauses at a 32-aligned location. -/
theorem not_scaleArithmetic : ¬ Obligations.ScaleArithmetic := by
  unfold Obligations.ScaleArithmetic
  intro ⟨_, _, _, hkld, _⟩
  obtain ⟨_, hload⟩ := hkld _ 3 1 0 false false offsetFrames offsetFrames offsetKey offsetLoad_ready
  obtain ⟨e, hdone, ⟨_, _, hth, _⟩, _⟩ :=
    hload offsetLoad_aligned offsetLoad_reaches ⟨rfl, rfl, rfl⟩ offsetKey_answers
  have hend : complete offsetLoad .fall offsetFrames e =
      ((offsetFrames.charge 0 offsetKey 32).reportHere granuleLost).1 :=
    Host.Outcome.next.inj (hdone.symm.trans offsetLoad_reports)
  have hlives := offsetLoad_completed_lives hth
  rw [hend, granuleLost_kills] at hlives
  cases hlives

end Sys2Proof.Machine
end
